-- ==== Sys2Proof/Word.lean ====
section
/-! DEFINITION. The words of the model: the bit vectors the manual treats as numbers of a fixed width,
the fixed sets of names it uses, and containers with one place per lane, head, port or channel.
Each `all` list is in the order in which the manual first lists the values, which is the order R190
codes them in. -/

namespace Sys2Proof

abbrev Byte := BitVec 8
/-- A belt position: 24 bits, sums and differences modulo 2^24 (R25, R26). -/
abbrev Pos := BitVec 24
/-- A tag: 8 bits, counting up from 255 to 0 (R5). -/
abbrev Tag := BitVec 8
abbrev JointId := BitVec 12
abbrev Serial := BitVec 48
abbrev Value := BitVec 16
/-- A free-running ring index over 0 to 131,071 (R152). -/
abbrev RingIndex := BitVec 17
abbrev SeqNo := BitVec 16
abbrev Slot := Fin 24
abbrev RecipeId := Fin 16
abbrev RegionId := Fin 16
abbrev LineId := Fin 128

/-! ### Lanes, heads, ports, channels, watches -/

inductive Lane where
  | A | B
  deriving DecidableEq, Repr

structure PerLane (α : Type) where
  a : α
  b : α
  deriving DecidableEq, Repr

inductive HeadId where
  | h0 | h1 | h2 | h3
  deriving DecidableEq, Repr

structure PerHead (α : Type) where
  v0 : α
  v1 : α
  v2 : α
  v3 : α
  deriving DecidableEq, Repr

/-- The seven ports (00_scope.md, The masters and the outside). -/
inductive Port where
  | sta | lnc | gtc | hl (n : HeadId)
  deriving DecidableEq, Repr

structure PerPort (α : Type) where
  sta : α
  lnc : α
  gtc : α
  hl  : PerHead α
  deriving DecidableEq, Repr

/-- The six non-station ports, each with a mailbox pair (R191). -/
inductive Outer where
  | lnc | gtc | hl (n : HeadId)
  deriving DecidableEq, Repr

structure PerOuter (α : Type) where
  lnc : α
  gtc : α
  hl  : PerHead α
  deriving DecidableEq, Repr

/-- The five ports that issue memory requests (R146, R147). -/
inductive MemPort where
  | sta | hl (n : HeadId)
  deriving DecidableEq, Repr

/-- The two move channels (R152). -/
inductive Channel where
  | defect | summary
  deriving DecidableEq, Repr

structure PerChannel (α : Type) where
  defect  : α
  summary : α
  deriving DecidableEq, Repr

/-- The two watches (R163). -/
inductive WatchId where
  | w0 | w1
  deriving DecidableEq, Repr

structure PerWatch (α : Type) where
  w0 : α
  w1 : α
  deriving DecidableEq, Repr

def Lane.all : List Lane := [.A, .B]
def HeadId.all : List HeadId := [.h0, .h1, .h2, .h3]
def Port.all : List Port := [.sta, .lnc, .gtc, .hl .h0, .hl .h1, .hl .h2, .hl .h3]
def Outer.all : List Outer := [.lnc, .gtc, .hl .h0, .hl .h1, .hl .h2, .hl .h3]
def MemPort.all : List MemPort := [.sta, .hl .h0, .hl .h1, .hl .h2, .hl .h3]
def Channel.all : List Channel := [.defect, .summary]
def WatchId.all : List WatchId := [.w0, .w1]
def Slot.all : List Slot := List.finRange 24
def RecipeId.all : List RecipeId := List.finRange 16
def RegionId.all : List RegionId := List.finRange 16

def PerLane.get {α : Type} (x : PerLane α) : Lane → α
  | .A => x.a
  | .B => x.b

def PerLane.set {α : Type} (x : PerLane α) : Lane → α → PerLane α
  | .A, v => { x with a := v }
  | .B, v => { x with b := v }

def PerHead.get {α : Type} (x : PerHead α) : HeadId → α
  | .h0 => x.v0
  | .h1 => x.v1
  | .h2 => x.v2
  | .h3 => x.v3

def PerHead.set {α : Type} (x : PerHead α) : HeadId → α → PerHead α
  | .h0, v => { x with v0 := v }
  | .h1, v => { x with v1 := v }
  | .h2, v => { x with v2 := v }
  | .h3, v => { x with v3 := v }

def PerHead.const {α : Type} (v : α) : PerHead α := ⟨v, v, v, v⟩

def PerPort.get {α : Type} (x : PerPort α) : Port → α
  | .sta => x.sta
  | .lnc => x.lnc
  | .gtc => x.gtc
  | .hl n => x.hl.get n

def PerPort.set {α : Type} (x : PerPort α) : Port → α → PerPort α
  | .sta, v => { x with sta := v }
  | .lnc, v => { x with lnc := v }
  | .gtc, v => { x with gtc := v }
  | .hl n, v => { x with hl := x.hl.set n v }

def PerPort.const {α : Type} (v : α) : PerPort α := ⟨v, v, v, PerHead.const v⟩

def PerOuter.get {α : Type} (x : PerOuter α) : Outer → α
  | .lnc => x.lnc
  | .gtc => x.gtc
  | .hl n => x.hl.get n

def PerOuter.set {α : Type} (x : PerOuter α) : Outer → α → PerOuter α
  | .lnc, v => { x with lnc := v }
  | .gtc, v => { x with gtc := v }
  | .hl n, v => { x with hl := x.hl.set n v }

def PerOuter.const {α : Type} (v : α) : PerOuter α := ⟨v, v, PerHead.const v⟩

def PerChannel.get {α : Type} (x : PerChannel α) : Channel → α
  | .defect => x.defect
  | .summary => x.summary

def PerChannel.set {α : Type} (x : PerChannel α) : Channel → α → PerChannel α
  | .defect, v => { x with defect := v }
  | .summary, v => { x with summary := v }

def PerWatch.get {α : Type} (x : PerWatch α) : WatchId → α
  | .w0 => x.w0
  | .w1 => x.w1

def PerWatch.set {α : Type} (x : PerWatch α) : WatchId → α → PerWatch α
  | .w0, v => { x with w0 := v }
  | .w1, v => { x with w1 := v }

def MemPort.port : MemPort → Port
  | .sta => .sta
  | .hl n => .hl n

def Outer.port : Outer → Port
  | .lnc => .lnc
  | .gtc => .gtc
  | .hl n => .hl n

/-- The mailbox pair of a port; the station has none of its own (R191). -/
def Port.outer? : Port → Option Outer
  | .sta => none
  | .lnc => some .lnc
  | .gtc => some .gtc
  | .hl n => some (.hl n)

def Channel.other : Channel → Channel
  | .defect => .summary
  | .summary => .defect

/-- The head after `n` in the cyclic order 0, 1, 2, 3 (R96). -/
def HeadId.next : HeadId → HeadId
  | .h0 => .h1
  | .h1 => .h2
  | .h2 => .h3
  | .h3 => .h0

/-- The port after `p` in the cyclic order STA, HL0, HL1, HL2, HL3 (R149). -/
def MemPort.next : MemPort → MemPort
  | .sta => .hl .h0
  | .hl .h0 => .hl .h1
  | .hl .h1 => .hl .h2
  | .hl .h2 => .hl .h3
  | .hl .h3 => .sta

/-! ### Named values -/

/-- The states of a live record; a FREE slot holds no record (R1, R2). -/
inductive RecState where
  | entering | inspecting | decided | leaving
  deriving DecidableEq, Repr

inductive EntryState where
  | ready | covered | untracked
  deriving DecidableEq, Repr

inductive ExitState where
  | ready | occupied
  deriving DecidableEq, Repr

inductive HeadStatus where
  | notRequired | absent | waiting | triggered | taken | reporting | complete | late | faulted
  deriving DecidableEq, Repr

/-- The five kinds of armed event, with the head of HEAD_OPEN and HEAD_LIMIT (R35). -/
inductive EventKind where
  | lengthLimit
  | headOpen (n : HeadId)
  | headLimit (n : HeadId)
  | deadline
  | exitDue
  deriving DecidableEq, Repr

inductive BoardFlag where
  | unannounced | noRecipe | overlength | suspectOverflow | defectRecordsDropped | headLate
  | headFaulted | headAbsent | purged | missingAtExit | earlyExit
  deriving DecidableEq, Repr

inductive Verdict where
  | pass | rework | unverified | scrap
  deriving DecidableEq, Repr

inductive ExitFate where
  | matched | missing | purged
  deriving DecidableEq, Repr

inductive Grade where
  | good | marginal | defect | notMeasured
  deriving DecidableEq, Repr

inductive DefectClass where
  | bridge | insufficient | excess | void | lifted | misaligned | cold | missingPart | other
  deriving DecidableEq, Repr

inductive Criticality where
  | minor | major | critical
  deriving DecidableEq, Repr

inductive MergeRule where
  | any | confirm | advisory
  deriving DecidableEq, Repr

inductive Isolation where
  | normal | isolating | isolated
  deriving DecidableEq, Repr

inductive ChannelState where
  | disabled | running | full | faulted
  deriving DecidableEq, Repr

inductive Priority where
  | high | low
  deriving DecidableEq, Repr

inductive Cause where
  | sensorGlitch | entryOverrun | overlength | unexpectedAtExit | missingAtExit | triggerOverrun
  | earlyResult | strayResult | sequenceError | notInProgram | programCheck | programOrder
  | headAborted | suspectPoolFull | defectPoolFull | accessViolation
  deriving DecidableEq, Repr

inductive Source where
  | boardTable | verdictUnit | headLink | mergeEngine | moveEngine
  deriving DecidableEq, Repr

/-- Every alert flag of R177, latched and level. -/
inductive AlertFlag where
  | faultOverflow | logBlockD | logBlockS | logFullD | logFullS | watchHit | channelFault
  | heldApplied | soft | faultPending | mailUp | announceLowA | announceLowB | dispReadyA
  | dispReadyB | mailDown | queueReleased | triggerPending
  deriving DecidableEq, Repr

/-- The status codes of R188, in the code order of R194. -/
inductive Status where
  | done | pending | held | full | empty | inUse | notPermitted | badFrame | badObject | badValue
  | badState
  deriving DecidableEq, Repr

/-- The 42 requests of R189, in the order of their codes. -/
inductive Request where
  | nop | boardRead | faultRead | alertRead | alertClear | alertMaskSet | softAlert | mailPut
  | mailTake | announce | lanePurge | counterRead | dispRead | progRead | triggerTake | resultPut
  | trackReset | announceThresholdSet | counterSet | tunnelSet | tunnelRead | directorySet
  | directoryRead | regionSet | regionRead | progWrite | cacheIsolate | cacheTagRead
  | cacheInvalidate | cacheRelease | resultHoldSet | headFlush | headLinkRead | mergeStatusRead
  | ringSet | logConsumed | logBlockSet | channelRead | watchSet | watchRead | watchClear | faultPop
  deriving DecidableEq, Repr

def BoardFlag.all : List BoardFlag :=
  [.unannounced, .noRecipe, .overlength, .suspectOverflow, .defectRecordsDropped, .headLate,
   .headFaulted, .headAbsent, .purged, .missingAtExit, .earlyExit]
def Cause.all : List Cause :=
  [.sensorGlitch, .entryOverrun, .overlength, .unexpectedAtExit, .missingAtExit, .triggerOverrun,
   .earlyResult, .strayResult, .sequenceError, .notInProgram, .programCheck, .programOrder,
   .headAborted, .suspectPoolFull, .defectPoolFull, .accessViolation]
def AlertFlag.all : List AlertFlag :=
  [.faultOverflow, .logBlockD, .logBlockS, .logFullD, .logFullS, .watchHit, .channelFault,
   .heldApplied, .queueReleased, .soft, .faultPending, .mailUp, .announceLowA, .announceLowB,
   .dispReadyA, .dispReadyB, .triggerPending, .mailDown]
def DefectClass.all : List DefectClass :=
  [.bridge, .insufficient, .excess, .void, .lifted, .misaligned, .cold, .missingPart, .other]
def Criticality.all : List Criticality := [.minor, .major, .critical]
def Grade.all : List Grade := [.good, .marginal, .defect, .notMeasured]
def Request.all : List Request :=
  [.nop, .boardRead, .faultRead, .alertRead, .alertClear, .alertMaskSet, .softAlert, .mailPut,
   .mailTake, .announce, .lanePurge, .counterRead, .dispRead, .progRead, .triggerTake, .resultPut,
   .trackReset, .announceThresholdSet, .counterSet, .tunnelSet, .tunnelRead, .directorySet,
   .directoryRead, .regionSet, .regionRead, .progWrite, .cacheIsolate, .cacheTagRead,
   .cacheInvalidate, .cacheRelease, .resultHoldSet, .headFlush, .headLinkRead, .mergeStatusRead,
   .ringSet, .logConsumed, .logBlockSet, .channelRead, .watchSet, .watchRead, .watchClear,
   .faultPop]

/-! ### Operands that are records -/

/-- An announcement: a recipe and an optional serial (R7). -/
structure Announcement where
  recipe : RecipeId
  serial : Option Serial
  deriving DecidableEq, Repr

/-- A tunnel map (R30). `defaultRecipe = none` is NONE. -/
structure TunnelMap where
  enable         : Bool
  headServes     : List HeadId
  headOpenOffset : PerHead Nat
  headSpan       : PerHead Nat
  gateOffset     : Nat
  decisionMargin : Nat
  exitTolerance  : Nat
  minLength      : Nat
  maxLength      : Nat
  defaultRecipe  : Option RecipeId
  deriving DecidableEq, Repr

/-- The fields valid to marginal_limit of a directory entry (R44). -/
structure DirEntry where
  valid         : Bool
  listBase      : PerHead Nat
  listLength    : PerHead Nat
  reworkLimit   : Nat
  marginalLimit : Nat
  deriving DecidableEq, Repr

/-- An item of a result queue (R85). -/
inductive Item where
  | result (tag : Tag) (joint : JointId) (grade : Grade) (cls : Option DefectClass) (value : Value)
  | done (tag : Tag)
  | abort (tag : Tag) (reason : Byte)
  deriving DecidableEq, Repr

/-- A log ring (R158). -/
structure Ring where
  base     : Nat
  size     : Nat
  priority : Priority
  deriving DecidableEq, Repr

/-- What ANNOUNCE carries beside its lane (R7). -/
structure AnnounceArgs where
  recipe : Nat
  serial : Option Serial
  deriving DecidableEq, Repr

/-- What TUNNEL_SET carries beside its lane: the map, its default_recipe as a number with NONE 16 (R31, R190). -/
structure TunnelArgs where
  map           : TunnelMap
  defaultRecipe : Nat
  deriving DecidableEq, Repr

/-- What REGION_SET carries beside its region (R53). -/
structure RegionArgs where
  stationWrite : Bool
  headRead     : Bool
  moveWrite    : Bool
  deriving DecidableEq, Repr

/-- What PROG_READ carries (R56). -/
structure ReadArgs where
  address : Nat
  count   : Nat
  deriving DecidableEq, Repr

/-- What PROG_WRITE carries (R54). -/
structure WriteArgs where
  address : Nat
  bytes   : List Byte
  deriving DecidableEq, Repr

/-- One item of a RESULT_PUT before its checks (R86). -/
inductive RawItem where
  | result (tag : Tag) (joint grade : Nat) (cls : Option Nat) (value : Value)
  | done (tag : Tag)
  | abort (tag : Tag) (reason : Byte)
  deriving DecidableEq, Repr

/-- What RING_SET carries beside its channel; `none` is a priority code that names nothing (R158). -/
structure RingArgs where
  base     : Nat
  size     : Nat
  priority : Option Priority
  deriving DecidableEq, Repr

/-- What WATCH_SET carries beside its watch, as codes; `none` is any (R163, R190). -/
structure WatchArgs where
  enable      : Bool
  recipe      : Option Nat
  joint       : Option Nat
  cls         : Option Nat
  criticality : Option Nat
  deriving DecidableEq, Repr

/-- What ALERT_MASK_SET carries (R180). -/
structure MaskArgs where
  flags  : List AlertFlag
  enable : Bool
  deriving DecidableEq, Repr

end Sys2Proof
end

