-- ==== Sys2Proof/Config.lean ====
section
/-! DEFINITION. What is fixed for the part: its capacities (00_scope.md, Numbers at a glance), what
program memory reads as where nothing has been written, and the free values. A free value has no
body: nothing in Lean can evaluate it, and a claim about it holds whatever it is. -/

namespace Sys2Proof.Config

def announceCapacity : Nat := 4
def triggerCapacity : Nat := 8
def resultCapacity : Nat := 64
def itemsPerPut : Nat := 8
def suspectCapacity : Nat := 192
def defectCapacity : Nat := 384
def faultCapacity : Nat := 8
/-- Program memory as the part addresses it (R51). -/
def memoryBytes : Nat := 16777216
def regionBytes : Nat := 1048576
/-- The largest count field of a tunnel map (R30). -/
def maxCount : Nat := 4194303
def maxPayload : Nat := 240

/-- What a byte of program memory that nothing has written reads as. DESIGN CHOICE (log entry 1):
the spec says only that the contents are external to the part; unsafe. -/
def unwrittenByte : Byte := 0

/-- The rank, in the `draw`-th choice of an order, of an event of a schedule (R36, R38: of events
that fall due together either may be taken first). Free value (log entry 3). -/
opaque eventRank : (draw event : Nat) → Nat

/-- The rank of a slot among the records one HEAD_FLUSH makes FAULTED (R92 gives no order). Free value (log entry 4). -/
opaque flushRank : (draw slot : Nat) → Nat

/-- Whether a byte of a write that power-on reset abandons holds its new value (R51: each byte "holds
its old or its new value, as the device left it"). Free value (log entry 5). -/
opaque abandonedByteNew : (draw address : Nat) → Bool

end Sys2Proof.Config
end

