-- ==== Sys2Proof/Syntax.lean ====
section
/-! DEFINITION. The commands: one constructor per row of spec/opcode_table.json, in its order. The first
groups are the events of the part (pins, armed events falling due, the engines' own steps), the rest
are transactions and requests on the seven ports. A request carries the port it came by, the object
byte where the request names an object (R190), and its payload read by its fields: `none` where the
payload is longer or shorter than the fields require or holds a code that names nothing. -/

namespace Sys2Proof

inductive Instr where
  -- resets and pins
  | powerOnReset
  | beltStep (l : Lane)
  | entryLeadingEdge (l : Lane)
  | entryTrailingEdge (l : Lane)
  | exitLeadingEdge (l : Lane)
  | exitTrailingEdge (l : Lane)
  -- armed events of the record in a slot, taken by their owners
  | lengthLimit (slot : Slot)
  | headOpen (slot : Slot) (n : HeadId)
  | headLimit (slot : Slot) (n : HeadId)
  | deadline (slot : Slot)
  | exitDue (slot : Slot)
  -- the engines
  | mergeTakeItem
  | memoryGrant
  | cacheFillEnd
  | progReadEnd
  | progWriteEnd
  | moveWriteEnd
  -- transactions that take no request
  | frameRejected (p : Port) (bytes : List Byte)
  | pendingTransaction (p : Port)
  | nop (p : Port)
  -- requests of every port
  | boardRead (p : Port) (obj : Byte) (args : Option Unit)
  | faultRead (p : Port) (args : Option Unit)
  | alertRead (p : Port) (args : Option Unit)
  | alertClear (p : Port) (args : Option (List AlertFlag))
  | alertMaskSet (p : Port) (args : Option MaskArgs)
  | softAlert (p : Port) (obj : Byte) (args : Option Unit)
  | mailPut (p : Port) (obj : Byte) (args : Option (List Byte))
  | mailTake (p : Port) (obj : Byte) (args : Option Unit)
  -- requests of some ports
  | announce (p : Port) (obj : Byte) (args : Option AnnounceArgs)
  | lanePurge (p : Port) (obj : Byte) (args : Option Unit)
  | counterRead (p : Port) (obj : Byte) (args : Option Unit)
  | dispRead (p : Port) (obj : Byte) (args : Option Unit)
  | progRead (p : Port) (args : Option ReadArgs)
  | triggerTake (p : Port) (args : Option Unit)
  | resultPut (p : Port) (args : Option (List RawItem))
  -- requests of the station
  | trackReset (p : Port) (args : Option Unit)
  | announceThresholdSet (p : Port) (obj : Byte) (args : Option Nat)
  | counterSet (p : Port) (obj : Byte) (args : Option Nat)
  | tunnelSet (p : Port) (obj : Byte) (args : Option TunnelArgs)
  | tunnelRead (p : Port) (obj : Byte) (args : Option Unit)
  | directorySet (p : Port) (obj : Byte) (args : Option DirEntry)
  | directoryRead (p : Port) (obj : Byte) (args : Option Unit)
  | regionSet (p : Port) (obj : Byte) (args : Option RegionArgs)
  | regionRead (p : Port) (args : Option Unit)
  | progWrite (p : Port) (args : Option WriteArgs)
  | cacheIsolate (p : Port) (args : Option Unit)
  | cacheTagRead (p : Port) (obj : Byte) (args : Option Unit)
  | cacheInvalidate (p : Port) (obj : Byte) (args : Option Unit)
  | cacheRelease (p : Port) (args : Option Unit)
  | resultHoldSet (p : Port) (obj : Byte) (args : Option Nat)
  | headFlush (p : Port) (obj : Byte) (args : Option Unit)
  | headLinkRead (p : Port) (obj : Byte) (args : Option Unit)
  | mergeStatusRead (p : Port) (args : Option Unit)
  | ringSet (p : Port) (obj : Byte) (args : Option RingArgs)
  | logConsumed (p : Port) (obj : Byte) (args : Option Nat)
  | logBlockSet (p : Port) (obj : Byte) (args : Option Nat)
  | channelRead (p : Port) (obj : Byte) (args : Option Unit)
  | watchSet (p : Port) (obj : Byte) (args : Option WatchArgs)
  | watchRead (p : Port) (obj : Byte) (args : Option Unit)
  | watchClear (p : Port) (obj : Byte) (args : Option Unit)
  | faultPop (p : Port) (args : Option Unit)
  deriving DecidableEq, Repr

end Sys2Proof
end

