-- ==== Sys2Proof/Decode.lean ====
section
/-! DEFINITION. From bytes to commands: CRC-8 (R193), the checks of a request frame (R186, R194), the
fields of each payload (R189, R190), and the command one transaction is. spec/opcode_table.json gives
bits to no row, so `decodeTableWord` spells none. -/

namespace Sys2Proof

namespace Decode

/-! ### CRC-8 (R193): polynomial x^8 + x^4 + x^3 + x^2 + 1, start 255, most significant bit first -/

def crcBit (r : Byte) (b : Bool) : Byte :=
  if r.msb != b then (r <<< 1) ^^^ 0x1D#8 else r <<< 1

def crcByte (r b : Byte) : Byte :=
  [7, 6, 5, 4, 3, 2, 1, 0].foldl (fun acc i => crcBit acc (b.getLsbD i)) r

def crc8 (bs : List Byte) : Byte := bs.foldl crcByte 255#8

/-! ### Frames -/

/-- The request of a code byte: codes 1 to 42 in the order of R189. -/
def requestOf (code : Byte) : Option Request :=
  if code.toNat = 0 then none else Request.all[code.toNat - 1]?

/-- The checks of R186 on the bytes clocked in one transaction. Bytes after the CRC byte are ignored (R184). -/
def frameOk (bs : List Byte) : Bool :=
  match bs with
  | code :: obj :: len :: rest =>
    decide (len.toNat ≤ Config.maxPayload) && decide (len.toNat < rest.length) &&
      rest[len.toNat]? == some (crc8 (code :: obj :: len :: rest.take len.toNat)) &&
      (requestOf code).isSome
  | _ => false

/-! ### Fields (R190). A reader takes its field from the front of the bytes and gives the rest. -/

/-- A number of `k` bytes, least significant byte first. -/
def num : Nat → List Byte → Option (Nat × List Byte)
  | 0, bs => some (0, bs)
  | _ + 1, [] => none
  | k + 1, b :: bs =>
    match num k bs with
    | some (n, rest) => some (b.toNat + 256 * n, rest)
    | none => none

/-- A value given as on or off: coded by its place in "on, off" (R30, R190; log 14). -/
def onOff (bs : List Byte) : Option (Bool × List Byte) := do
  let (n, bs) ← num 1 bs
  if n = 0 then some (true, bs) else if n = 1 then some (false, bs) else none

/-- An optional field: a presence byte 0 or 1, then the field where it is present. -/
def optional {α : Type} (field : List Byte → Option (α × List Byte)) (bs : List Byte) :
    Option (Option α × List Byte) := do
  let (n, bs) ← num 1 bs
  if n = 0 then some (none, bs)
  else if n = 1 then
    let (x, bs) ← field bs
    some (some x, bs)
  else none

def serial (bs : List Byte) : Option (Serial × List Byte) := do
  let (n, bs) ← num 6 bs
  some (BitVec.ofNat 48 n, bs)

/-- The members of a set from its bit field; `none` where a bit stands for no member. -/
def members {α : Type} (all : List α) (bits : Nat) : Option (List α) :=
  if bits < 2 ^ all.length then
    some ((all.zipIdx.filter fun x => bits.testBit x.2).map (·.1))
  else none

/-- A set over `all`, in the fewest whole bytes. -/
def setOf {α : Type} (all : List α) (bs : List Byte) : Option (List α × List Byte) := do
  let (n, bs) ← num ((all.length + 7) / 8) bs
  let xs ← members all n
  some (xs, bs)

/-- `k` fields in a row. -/
def fields {α : Type} (field : List Byte → Option (α × List Byte)) :
    Nat → List Byte → Option (List α × List Byte)
  | 0, bs => some ([], bs)
  | k + 1, bs => do
    let (x, bs) ← field bs
    let (xs, bs) ← fields field k bs
    some (x :: xs, bs)

/-- A list: a count byte, then its members. -/
def listOf {α : Type} (field : List Byte → Option (α × List Byte)) (bs : List Byte) :
    Option (List α × List Byte) := do
  let (k, bs) ← num 1 bs
  fields field k bs

def byte (bs : List Byte) : Option (Byte × List Byte) :=
  match bs with
  | [] => none
  | b :: rest => some (b, rest)

/-- The four values of a field given for each head, head 0 first. -/
def perHead {α : Type} (field : List Byte → Option (α × List Byte)) (bs : List Byte) :
    Option (PerHead α × List Byte) := do
  let (a, bs) ← field bs
  let (b, bs) ← field bs
  let (c, bs) ← field bs
  let (d, bs) ← field bs
  some (⟨a, b, c, d⟩, bs)

/-- A whole payload: its fields and nothing after them (R190: shorter or longer is BAD_VALUE). -/
def whole {α : Type} (field : List Byte → Option (α × List Byte)) (bs : List Byte) : Option α :=
  match field bs with
  | some (x, []) => some x
  | _ => none

def nothing (bs : List Byte) : Option (Unit × List Byte) := some ((), bs)

/-- The flags of each port, in the bit order of R190. -/
def flagsOf : Port → List AlertFlag
  | .sta => [.faultOverflow, .logBlockD, .logBlockS, .logFullD, .logFullS, .watchHit,
             .channelFault, .heldApplied, .soft, .faultPending, .mailUp]
  | .lnc => [.soft, .announceLowA, .announceLowB, .mailDown]
  | .gtc => [.soft, .dispReadyA, .dispReadyB, .mailDown]
  | .hl _ => [.queueReleased, .soft, .triggerPending, .mailDown]

def maskArgs (p : Port) (bs : List Byte) : Option (MaskArgs × List Byte) := do
  let (fs, bs) ← setOf (flagsOf p) bs
  let (e, bs) ← onOff bs
  some (⟨fs, e⟩, bs)

def announceArgs (bs : List Byte) : Option (AnnounceArgs × List Byte) := do
  let (r, bs) ← num 1 bs
  let (sn, bs) ← optional serial bs
  some (⟨r, sn⟩, bs)

def tunnelArgs (bs : List Byte) : Option (TunnelArgs × List Byte) := do
  let (enable, bs) ← onOff bs
  let (serves, bs) ← setOf HeadId.all bs
  let (offs, bs) ← perHead (num 3) bs
  let (spans, bs) ← perHead (num 3) bs
  let (gate, bs) ← num 3 bs
  let (margin, bs) ← num 3 bs
  let (tol, bs) ← num 3 bs
  let (minL, bs) ← num 3 bs
  let (maxL, bs) ← num 3 bs
  let (dflt, bs) ← num 1 bs
  some (⟨⟨enable, serves, offs, spans, gate, margin, tol, minL, maxL, none⟩, dflt⟩, bs)

def dirEntry (bs : List Byte) : Option (DirEntry × List Byte) := do
  let (valid, bs) ← onOff bs
  let (bases, bs) ← perHead (num 3) bs
  let (lens, bs) ← perHead (num 2) bs
  let (rework, bs) ← num 1 bs
  let (marginal, bs) ← num 1 bs
  some (⟨valid, bases, lens, rework, marginal⟩, bs)

def regionArgs (bs : List Byte) : Option (RegionArgs × List Byte) := do
  let (sw, bs) ← onOff bs
  let (hr, bs) ← onOff bs
  let (mw, bs) ← onOff bs
  some (⟨sw, hr, mw⟩, bs)

def readArgs (bs : List Byte) : Option (ReadArgs × List Byte) := do
  let (a, bs) ← num 3 bs
  let (c, bs) ← num 1 bs
  some (⟨a, c⟩, bs)

def writeArgs (bs : List Byte) : Option (WriteArgs × List Byte) := do
  let (a, bs) ← num 3 bs
  let (data, bs) ← listOf byte bs
  some (⟨a, data⟩, bs)

/-- One item of a RESULT_PUT: its kind RESULT 0, DONE 1, ABORT 2, then the fields of R85. -/
def rawItem (bs : List Byte) : Option (RawItem × List Byte) := do
  let (kind, bs) ← num 1 bs
  let (tag, bs) ← byte bs
  if kind = 0 then
    let (joint, bs) ← num 2 bs
    let (grade, bs) ← num 1 bs
    let (cls, bs) ← optional (num 1) bs
    let (value, bs) ← num 2 bs
    some (.result tag joint grade cls (BitVec.ofNat 16 value), bs)
  else if kind = 1 then some (.done tag, bs)
  else if kind = 2 then
    let (reason, bs) ← byte bs
    some (.abort tag reason, bs)
  else none

/-- Priority HIGH 0, LOW 1; any other code names none. -/
def ringArgs (bs : List Byte) : Option (RingArgs × List Byte) := do
  let (base, bs) ← num 3 bs
  let (size, bs) ← num 3 bs
  let (pr, bs) ← num 1 bs
  some (⟨base, size, if pr = 0 then some .high else if pr = 1 then some .low else none⟩, bs)

def watchArgs (bs : List Byte) : Option (WatchArgs × List Byte) := do
  let (enable, bs) ← onOff bs
  let (recipe, bs) ← optional (num 1) bs
  let (joint, bs) ← optional (num 2) bs
  let (cls, bs) ← optional (num 1) bs
  let (crit, bs) ← optional (num 1) bs
  some (⟨enable, recipe, joint, cls, crit⟩, bs)

/-! ### The command of a frame and of a transaction -/

/-- The command of a request on port `p` with its object byte and payload. -/
def command (p : Port) (obj : Byte) (pl : List Byte) : Request → Instr
  | .nop => .nop p
  | .boardRead => .boardRead p obj (whole nothing pl)
  | .faultRead => .faultRead p (whole nothing pl)
  | .alertRead => .alertRead p (whole nothing pl)
  | .alertClear => .alertClear p (whole (setOf (flagsOf p)) pl)
  | .alertMaskSet => .alertMaskSet p (whole (maskArgs p) pl)
  | .softAlert => .softAlert p obj (whole nothing pl)
  | .mailPut => .mailPut p obj (whole (listOf byte) pl)
  | .mailTake => .mailTake p obj (whole nothing pl)
  | .announce => .announce p obj (whole announceArgs pl)
  | .lanePurge => .lanePurge p obj (whole nothing pl)
  | .counterRead => .counterRead p obj (whole nothing pl)
  | .dispRead => .dispRead p obj (whole nothing pl)
  | .progRead => .progRead p (whole readArgs pl)
  | .triggerTake => .triggerTake p (whole nothing pl)
  | .resultPut => .resultPut p (whole (listOf rawItem) pl)
  | .trackReset => .trackReset p (whole nothing pl)
  | .announceThresholdSet => .announceThresholdSet p obj (whole (num 1) pl)
  | .counterSet => .counterSet p obj (whole (num 3) pl)
  | .tunnelSet => .tunnelSet p obj (whole tunnelArgs pl)
  | .tunnelRead => .tunnelRead p obj (whole nothing pl)
  | .directorySet => .directorySet p obj (whole dirEntry pl)
  | .directoryRead => .directoryRead p obj (whole nothing pl)
  | .regionSet => .regionSet p obj (whole regionArgs pl)
  | .regionRead => .regionRead p (whole nothing pl)
  | .progWrite => .progWrite p (whole writeArgs pl)
  | .cacheIsolate => .cacheIsolate p (whole nothing pl)
  | .cacheTagRead => .cacheTagRead p obj (whole nothing pl)
  | .cacheInvalidate => .cacheInvalidate p obj (whole nothing pl)
  | .cacheRelease => .cacheRelease p (whole nothing pl)
  | .resultHoldSet => .resultHoldSet p obj (whole (num 1) pl)
  | .headFlush => .headFlush p obj (whole nothing pl)
  | .headLinkRead => .headLinkRead p obj (whole nothing pl)
  | .mergeStatusRead => .mergeStatusRead p (whole nothing pl)
  | .ringSet => .ringSet p obj (whole ringArgs pl)
  | .logConsumed => .logConsumed p obj (whole (num 3) pl)
  | .logBlockSet => .logBlockSet p obj (whole (num 1) pl)
  | .channelRead => .channelRead p obj (whole nothing pl)
  | .watchSet => .watchSet p obj (whole watchArgs pl)
  | .watchRead => .watchRead p obj (whole nothing pl)
  | .watchClear => .watchClear p obj (whole nothing pl)
  | .faultPop => .faultPop p (whole nothing pl)

/-- The command of a request frame that passes the checks of R186. -/
def frame (p : Port) (bs : List Byte) : Option Instr :=
  match bs with
  | code :: obj :: len :: rest =>
    (requestOf code).map fun q => command p obj (rest.take len.toNat) q
  | _ => none

/-- The command that the whole bytes clocked in one transaction on `p` make; `pending` is the port's
mark when CS fell (R187). A transaction of no whole byte has no effect on the port (R184). -/
def transaction (pending : Bool) (p : Port) (bs : List Byte) : Option Instr :=
  if bs = [] then none
  else if pending then some (.pendingTransaction p)
  else if frameOk bs then frame p bs
  else some (.frameRejected p bs)

end Decode

/-- spec/opcode_table.json gives bits to no row, so no word spells a command. -/
def decodeTableWord (_nbits _w : Nat) : Option Instr := none

end Sys2Proof
end

