-- ==== Sys2Proof/Machine/State.lean ====
section
/-! DEFINITION. The state of the part as plain data, the reasons a step could stop, and the state right
after power-on reset. Each field's docstring names the rule of spec/ that gives it. -/

namespace Sys2Proof.Machine

open Sys2Proof

/-! ### Board records (chapter 1) -/

/-- An armed event of a record (R35). -/
structure Armed where
  kind   : EventKind
  target : Pos
  deriving DecidableEq, Repr

/-- What a record holds for one head (R1). -/
structure HeadRec where
  status     : HeadStatus
  cursor     : Nat
  lastPassed : Option JointId
  discarded  : Nat
  deriving DecidableEq, Repr

/-- The six counts (R1, R121). -/
structure Counts where
  defects   : Nat
  critical  : Nat
  advisory  : Nat
  marginals : Nat
  unseen    : Nat
  cleared   : Nat
  deriving DecidableEq, Repr

/-- A live board record (R1). The slot is its place in `State.slots`; its suspects are those of the
Suspect Pool with that slot. `recipe = none` is NONE, `verdict = none` is NONE. -/
structure Record where
  state       : RecState
  tag         : Tag
  lane        : Lane
  recipe      : Option RecipeId
  serial      : Option Serial
  flags       : List BoardFlag
  entryPos    : Pos
  length      : Option Nat
  heads       : PerHead HeadRec
  counts      : Counts
  outstanding : Nat
  verdict     : Option Verdict
  exitFate    : Option ExitFate
  exitPos     : Option Pos
  armed       : List Armed
  deriving DecidableEq, Repr

/-! ### Lanes (chapters 1, 2, 7) -/

/-- What each lane holds: its Lane Tracker's counter, entry state and maps (R25, R9, R30, R32), its
lane order and announce queue with threshold (R6, R7, R8), and its exit state (R123). -/
structure LaneState where
  counter           : Pos
  entry             : EntryState
  exit              : ExitState
  map               : TunnelMap
  heldMap           : Option TunnelMap
  order             : List Slot
  announces         : List Announcement
  announceThreshold : Nat
  deriving DecidableEq, Repr

/-! ### Recipe Directory and regions (chapter 3) -/

structure DirState where
  entry    : DirEntry
  useCount : Nat
  held     : Option DirEntry
  deriving DecidableEq, Repr

structure Region where
  stationWrite : Bool
  headRead     : Bool
  moveWrite    : Bool
  deriving DecidableEq, Repr

/-! ### Program Cache (chapter 4) -/

/-- A cache line: the tag, the valid mark, and the 8 entries as their 64 bytes (R60). -/
structure CacheLine where
  tag   : Nat
  valid : Bool
  bytes : List Byte
  deriving DecidableEq, Repr

structure Fill where
  index   : LineId
  tag     : Nat
  spoiled : Bool
  deriving DecidableEq, Repr

structure Cache where
  lines     : Vector CacheLine 128
  isolation : Isolation
  fill      : Option Fill
  waiting   : Option Nat
  deriving DecidableEq, Repr

/-! ### Head Links (chapter 5) -/

structure Trigger where
  tag        : Tag
  lane       : Lane
  recipe     : RecipeId
  serial     : Option Serial
  entryPos   : Pos
  listBase   : Nat
  listLength : Nat
  deriving DecidableEq, Repr

structure Link where
  triggers  : List Trigger
  results   : List Item
  threshold : Nat
  deriving DecidableEq, Repr

/-! ### Merge Engine and pools (chapter 6) -/

/-- A head entry that passes its check (R50). -/
structure HeadEntry where
  joint       : JointId
  rule        : MergeRule
  partner     : HeadId
  criticality : Criticality
  deriving DecidableEq, Repr

/-- An entry supplied to a walk, with its index in the list (R98). -/
structure WalkEntry where
  index : Nat
  entry : HeadEntry
  deriving DecidableEq, Repr

/-- The RESULT item in flight (R95, R98); a DONE or ABORT finishes as it is taken. -/
structure InFlight where
  head  : HeadId
  slot  : Slot
  tag   : Tag
  joint : JointId
  grade : Grade
  cls   : Option DefectClass
  value : Value
  walk  : List WalkEntry
  deriving DecidableEq, Repr

structure Merge where
  item       : Option InFlight
  lastServed : HeadId
  deriving DecidableEq, Repr

/-- A suspect (R115). -/
structure Suspect where
  slot        : Slot
  joint       : JointId
  head        : HeadId
  grade       : Grade
  cls         : Option DefectClass
  value       : Option Value
  criticality : Criticality
  deriving DecidableEq, Repr

/-- A defect record (R118), without the log sequence number it takes when it is written. -/
structure DefectRec where
  tag         : Tag
  lane        : Lane
  recipe      : Option RecipeId
  serial      : Option Serial
  entryPos    : Pos
  joint       : JointId
  cls         : DefectClass
  criticality : Criticality
  advisory    : Bool
  firstHead   : HeadId
  firstGrade  : Grade
  second      : Option (HeadId × Grade)
  value       : Value
  secondValue : Option Value
  deriving DecidableEq, Repr

/-- A record of the Defect Pool with the slot of its board, which is the pool's own (R118). -/
structure PooledDefect where
  slot   : Slot
  record : DefectRec
  deriving DecidableEq, Repr

/-! ### Memory Arbiter and Move Engine (chapter 8) -/

inductive Requester where
  | cache
  | port (p : MemPort)
  | channel (c : Channel)
  deriving DecidableEq, Repr

inductive OpKind where
  | fill | progRead | progWrite | moveWrite
  deriving DecidableEq, Repr

/-- The memory operation in flight (R146). -/
structure MemOp where
  requester : Requester
  kind      : OpKind
  address   : Nat
  count     : Nat
  deriving DecidableEq, Repr

structure Arbiter where
  op          : Option MemOp
  lastPort    : MemPort
  lastChannel : Channel
  deriving DecidableEq, Repr

/-- A summary record (R167), without its log sequence number. -/
structure SummaryRec where
  tag      : Tag
  lane     : Lane
  recipe   : Option RecipeId
  serial   : Option Serial
  entryPos : Pos
  length   : Option Nat
  exitPos  : Option Pos
  verdict  : Option Verdict
  exitFate : Option ExitFate
  flags    : List BoardFlag
  counts   : Counts
  heads    : PerHead (HeadStatus × Nat)
  deriving DecidableEq, Repr

inductive LogRecord where
  | defect (d : DefectRec)
  | summary (r : SummaryRec)
  deriving DecidableEq, Repr

/-- A channel's write (R152, R154): waiting at a ring index, or in flight with its sequence number, the
copy of its record and the slot of its board, absent once TRACK_RESET has detached it (R161). -/
inductive ChannelWrite where
  | waiting (index : RingIndex)
  | inFlight (index : RingIndex) (seq : SeqNo) (record : LogRecord) (board : Option Slot)
  deriving DecidableEq, Repr

/-- A move channel (R152). -/
structure ChannelReg where
  state        : ChannelState
  ring         : Ring
  producer     : RingIndex
  consumer     : RingIndex
  blockSetting : Nat
  blockInUse   : Nat
  blockCount   : Nat
  seq          : SeqNo
  held         : Option Ring
  write        : Option ChannelWrite
  deriving DecidableEq, Repr

structure WatchHit where
  seq   : SeqNo
  tag   : Tag
  joint : JointId
  deriving DecidableEq, Repr

/-- A watch (R163); a field `none` is any, status `none` is empty. -/
structure Watch where
  enable      : Bool
  recipe      : Option RecipeId
  joint       : Option JointId
  cls         : Option DefectClass
  criticality : Option Criticality
  status      : Option WatchHit
  again       : Bool
  seen        : Bool
  deriving DecidableEq, Repr

/-! ### Fault Unit and Alert Unit (chapter 9) -/

/-- A fault record (R171). -/
structure FaultRec where
  cause    : Cause
  source   : Source
  lane     : Option Lane := none
  tag      : Option Tag := none
  slot     : Option Slot := none
  head     : Option HeadId := none
  joint    : Option JointId := none
  position : Option Pos := none
  detail   : Nat
  deriving DecidableEq, Repr

structure QueuedFault where
  fault   : FaultRec
  readers : List Port
  deriving DecidableEq, Repr

structure FaultUnit where
  queue    : List QueuedFault
  overflow : List Cause
  reported : List Cause
  deriving DecidableEq, Repr

/-- What the Alert Unit holds for a port (R177): the latched flags that are set, those of them with the
seen mark on, the mask, the global enable and the soft-source set. -/
structure AlertState where
  latched     : List AlertFlag
  seen        : List AlertFlag
  mask        : List AlertFlag
  enable      : Bool
  softSources : List Port
  deriving DecidableEq, Repr

/-! ### Ports and mailboxes (chapter 10) -/

/-- The response frame of a port's response slot (R185, R194); its length and CRC follow from it. -/
structure Response where
  status  : Status
  code    : Byte
  payload : List Byte
  deriving DecidableEq, Repr

/-- The pending request of a port (R187). -/
inductive PendingReq where
  | progRead (address count : Nat)
  | progWrite (address : Nat) (bytes : List Byte)
  | cacheIsolate
  deriving DecidableEq, Repr

structure PortState where
  slot    : Response
  pending : Option PendingReq
  deriving DecidableEq, Repr

/-- A mailbox pair; `none` is empty (R191). -/
structure MailPair where
  down : Option (List Byte)
  up   : Option (List Byte)
  deriving DecidableEq, Repr

/-! ### The state -/

structure State where
  /-- The 24 slots; `none` is FREE (R1, R4). -/
  slots        : Vector (Option Record) 24
  /-- The last tag issued (R5). -/
  tagCounter   : Tag
  lanes        : PerLane LaneState
  /-- The Recipe Directory (R44). -/
  directory    : Vector DirState 16
  /-- Program memory (R51): bytes that differ from `Config.unwrittenByte`, addresses rising. -/
  mem          : List Host.Cell
  /-- Region permissions (R52). -/
  regions      : Vector Region 16
  cache        : Cache
  links        : PerHead Link
  merge        : Merge
  /-- The Suspect Pool (R115), kept in the order of slot and joint id. -/
  suspects     : List Suspect
  /-- The Defect Pool (R118), oldest first. -/
  defects      : List PooledDefect
  arbiter      : Arbiter
  channels     : PerChannel ChannelReg
  watches      : PerWatch Watch
  /-- The summary-ready list (R144, R166), oldest first. -/
  summaryReady : List Slot
  faults       : FaultUnit
  alerts       : PerPort AlertState
  ports        : PerPort PortState
  mail         : PerOuter MailPair
  /-- The model's own: how many free values have been drawn (log entry 6). -/
  draws        : Nat
  /-- The commands that wait, first in, first out. -/
  pending      : List Instr
  deriving DecidableEq, Repr

/-- Machine faults: none. The part stops for no fault (chapter 9: "The part does not stop for any of
them"); its fault records are `FaultRec`, kept in `State.faults`. Safe: no step ends in a fault. -/
inductive Fault where
  deriving DecidableEq, Repr

/-- Machine refusals. -/
inductive Refusal where
  /-- Raised by an arm of `exec` for a command that has no meaning yet; safe, the run stops there. No arm raises it now. -/
  | notModelled (mnemonic : String)
  deriving DecidableEq, Repr

/-! ### Power-on reset -/

/-- The reset map (R30). -/
def TunnelMap.reset : TunnelMap where
  enable := false
  headServes := []
  headOpenOffset := PerHead.const 0
  headSpan := PerHead.const 0
  gateOffset := 0
  decisionMargin := 0
  exitTolerance := 0
  minLength := 0
  maxLength := 0
  defaultRecipe := none

/-- R23, R25, R30, R123. -/
def LaneState.reset : LaneState where
  counter := 0#24
  entry := .ready
  exit := .ready
  map := TunnelMap.reset
  heldMap := none
  order := []
  announces := []
  announceThreshold := 1

/-- R44. -/
def DirState.reset : DirState where
  entry := ⟨false, PerHead.const 0, PerHead.const 0, 0, 0⟩
  useCount := 0
  held := none

/-- R52: station write on, head read off, move write off. -/
def Region.reset : Region := ⟨true, false, false⟩

/-- R60; tag and bytes DESIGN CHOICE (log entry 24). -/
def CacheLine.reset : CacheLine := ⟨0, false, List.replicate 64 0#8⟩

def Cache.reset : Cache where
  lines := Vector.replicate 128 CacheLine.reset
  isolation := .normal
  fill := none
  waiting := none

/-- R75. -/
def Link.reset : Link := ⟨[], [], 8⟩

/-- R152. -/
def ChannelReg.reset : ChannelReg where
  state := .disabled
  ring := ⟨0, 0, .low⟩
  producer := 0#17
  consumer := 0#17
  blockSetting := 16
  blockInUse := 16
  blockCount := 0
  seq := 0#16
  held := none
  write := none

/-- R163. -/
def Watch.reset : Watch where
  enable := false
  recipe := none
  joint := none
  cls := none
  criticality := none
  status := none
  again := false
  seen := false

/-- R177. -/
def AlertState.reset : AlertState := ⟨[], [], [], false, []⟩

/-- R185: status EMPTY, code 0, length 0, not pending. -/
def PortState.reset : PortState := ⟨⟨.empty, 0#8, []⟩, none⟩

/-- The machine right after power-on reset, with nothing written in program memory and no command waiting. -/
def State.reset : State where
  slots := Vector.replicate 24 none
  tagCounter := 0#8
  lanes := ⟨LaneState.reset, LaneState.reset⟩
  directory := Vector.replicate 16 DirState.reset
  mem := []
  regions := Vector.replicate 16 Region.reset
  cache := Cache.reset
  links := PerHead.const Link.reset
  merge := ⟨none, .h3⟩
  suspects := []
  defects := []
  arbiter := ⟨none, .hl .h3, .summary⟩
  channels := ⟨ChannelReg.reset, ChannelReg.reset⟩
  watches := ⟨Watch.reset, Watch.reset⟩
  summaryReady := []
  faults := ⟨[], [], []⟩
  alerts := PerPort.const AlertState.reset
  ports := PerPort.const PortState.reset
  mail := PerOuter.const ⟨none, none⟩
  draws := 0
  pending := []

end Sys2Proof.Machine
end

