-- ==== Sys2Proof/Machine/Flags.lean ====
section
/-! DEFINITION. What is computed from the state and not stored: belt arithmetic, head finality, hold state,
hold-back, the presentation and the disposition lines, the level flags and the alert lines, the
verdict, the in-use test, ring occupancy, cache index and tag, and the lane schedule. -/

namespace Sys2Proof

/-! ### Named values: finality, latched flags, listing order -/

/-- The final statuses (R82). -/
def HeadStatus.isFinal : HeadStatus → Bool
  | .complete | .late | .faulted | .absent | .notRequired => true
  | .waiting | .triggered | .taken | .reporting => false

/-- The latched flags of R177; the others are level flags. -/
def AlertFlag.isLatched : AlertFlag → Bool
  | .faultOverflow | .logBlockD | .logBlockS | .logFullD | .logFullS | .watchHit | .channelFault
  | .heldApplied | .soft | .queueReleased => true
  | .faultPending | .mailUp | .announceLowA | .announceLowB | .dispReadyA | .dispReadyB | .mailDown
  | .triggerPending => false

/-- The order of the R35 table, HEAD_OPEN and HEAD_LIMIT by ascending head (R37). -/
def EventKind.rank : EventKind → Nat
  | .lengthLimit => 0
  | .headOpen n => 1 + HeadId.all.idxOf n
  | .headLimit n => 5 + HeadId.all.idxOf n
  | .deadline => 9
  | .exitDue => 10

end Sys2Proof

namespace Sys2Proof.Machine

open Sys2Proof

/-! ### Sets in list order -/

/-- `xs` with `x`, in the order of `all`. -/
def setInsert {α : Type} [DecidableEq α] (all : List α) (x : α) (xs : List α) : List α :=
  all.filter fun y => decide (y = x) || xs.contains y

def setErase {α : Type} [DecidableEq α] (x : α) (xs : List α) : List α :=
  xs.filter fun y => decide (y ≠ x)

/-- Insertion of `x` before the first element of a higher rank or of the same. -/
def insertBy {α : Type} (rank : α → Nat) (x : α) : List α → List α
  | [] => [x]
  | y :: ys => if rank x ≤ rank y then x :: y :: ys else y :: insertBy rank x ys

/-- `xs` in rising rank; equal ranks keep their order. -/
def orderBy {α : Type} (rank : α → Nat) : List α → List α
  | [] => []
  | x :: xs => insertBy rank x (orderBy rank xs)

/-! ### Belt positions (R26) -/

/-- The event at target `t` is due at counter `c`: (c - t) mod 2^24 < 2^23. -/
def due (c t : Pos) : Bool := decide ((c - t).toNat < 2 ^ 23)

/-- The steps still needed from `c` to `t`. -/
def distance (c t : Pos) : Nat := (t - c).toNat

/-- `x` is earlier than `y`: (y - x) mod 2^24 lies between 1 and 2^23 - 1. -/
def earlier (x y : Pos) : Bool :=
  decide (1 ≤ (y - x).toNat) && decide ((y - x).toNat ≤ 2 ^ 23 - 1)

/-- A count as a belt distance. -/
def pos (n : Nat) : Pos := BitVec.ofNat 24 n

/-- A number that holds at 65535 (R16, R139, R88). -/
def holdAt16 (n : Nat) : Nat := min n 65535

/-! ### Reading the state -/

def State.board (s : State) (i : Slot) : Option Record := s.slots[i]
def State.lane (s : State) (l : Lane) : LaneState := s.lanes.get l
def State.dir (s : State) (r : RecipeId) : DirState := s.directory[r]
def State.link (s : State) (n : HeadId) : Link := s.links.get n
def State.channel (s : State) (c : Channel) : ChannelReg := s.channels.get c
def State.watch (s : State) (w : WatchId) : Watch := s.watches.get w
def State.alert (s : State) (p : Port) : AlertState := s.alerts.get p
def State.port (s : State) (p : Port) : PortState := s.ports.get p
def State.mailPair (s : State) (o : Outer) : MailPair := s.mail.get o
def State.line (s : State) (i : LineId) : CacheLine := s.cache.lines[i]

/-- The live record that carries `t`; there is at most one (R4). -/
def State.slotOfTag (s : State) (t : Tag) : Option Slot :=
  Slot.all.find? fun i => (s.board i).any fun r => decide (r.tag = t)

def State.freeSlot (s : State) : Option Slot := Slot.all.find? fun i => (s.board i).isNone

def State.leavingCount (s : State) : Nat :=
  Slot.all.countP fun i => (s.board i).any fun r => decide (r.state = .leaving)

def Record.has (r : Record) (f : BoardFlag) : Bool := r.flags.contains f

def Record.targetOf (r : Record) (k : EventKind) : Option Pos :=
  (r.armed.find? fun e => decide (e.kind = k)).map (·.target)

/-- The directory entry in force for a record: none for a record with NO_RECIPE (R11, R126). -/
def State.entryOf (s : State) (r : Record) : Option DirEntry :=
  if r.has .noRecipe then none else r.recipe.map fun n => (s.dir n).entry

/-! ### Head status (R82) -/

def Record.headStatus (r : Record) (n : HeadId) : HeadStatus := (r.heads.get n).status

def Record.allFinal (r : Record) : Bool := HeadId.all.all fun n => (r.headStatus n).isFinal

/-! ### Head Links (R87, R97) -/

def Link.freeSlots (k : Link) : Nat := Config.resultCapacity - k.results.length

/-- The hold state: ON while the free slots are at or below the threshold (R87). -/
def Link.holdOn (k : Link) : Bool := decide (k.freeSlots ≤ k.threshold)

/-- A result queue is held back while its oldest item is a RESULT of a live record in ENTERING (R97). -/
def State.heldBack (s : State) (n : HeadId) : Bool :=
  match (s.link n).results with
  | .result tag _ _ _ _ :: _ =>
    (s.slotOfTag tag).any fun i => (s.board i).any fun r => decide (r.state = .entering)
  | _ => false

/-- Eligible: not empty and not held back (R96). -/
def State.eligible (s : State) (n : HeadId) : Bool :=
  !(s.link n).results.isEmpty && !s.heldBack n

/-! ### Presentation and disposition lines (R133, R134) -/

/-- The front record of the lane order when it is DECIDED, as tag and verdict (R134). -/
def State.presentation (s : State) (l : Lane) : Option (Tag × Verdict) :=
  match (s.lane l).order with
  | [] => none
  | i :: _ =>
    match s.board i with
    | some r => if r.state = .decided then r.verdict.map fun v => (r.tag, v) else none
    | none => none

/-- The seven disposition lines of a lane. -/
structure Disposition where
  dv  : Bool
  dr1 : Bool
  dr0 : Bool
  dt  : BitVec 4
  deriving DecidableEq, Repr

/-- R133: PASS 00, REWORK 01, UNVERIFIED 10, SCRAP 11, and tag mod 16. -/
def State.disposition (s : State) (l : Lane) : Disposition :=
  match s.presentation l with
  | none => ⟨false, false, false, 0#4⟩
  | some (t, v) =>
    ⟨true, decide (v = .unverified ∨ v = .scrap), decide (v = .rework ∨ v = .scrap),
      t.setWidth 4⟩

/-! ### Alert flags (R177 to R180) -/

/-- ANNOUNCE_LOW of a lane: its announce queue is at or below its threshold (R8). -/
def State.announceLow (s : State) (l : Lane) : Bool :=
  decide ((s.lane l).announces.length ≤ (s.lane l).announceThreshold)

/-- The condition of a level flag on port `p` (R177); a latched flag has none. -/
def State.levelFlag (s : State) (p : Port) : AlertFlag → Bool
  | .faultPending => !s.faults.queue.isEmpty
  | .mailUp => Outer.all.any fun o => (s.mailPair o).up.isSome
  | .announceLowA => s.announceLow .A
  | .announceLowB => s.announceLow .B
  | .dispReadyA => (s.presentation .A).isSome
  | .dispReadyB => (s.presentation .B).isSome
  | .mailDown => p.outer?.any fun o => (s.mailPair o).down.isSome
  | .triggerPending =>
    match p with
    | .hl n => !(s.link n).triggers.isEmpty
    | _ => false
  | _ => false

/-- A flag of port `p` is active: a latched flag set, or a level flag whose condition holds. -/
def State.flagActive (s : State) (p : Port) (f : AlertFlag) : Bool :=
  (s.alert p).latched.contains f || s.levelFlag p f

/-- The alert line of a port is asserted (R180). -/
def State.alertLine (s : State) (p : Port) : Bool :=
  (s.alert p).enable && (s.alert p).mask.any (s.flagActive p)

/-! ### The verdict (R128) -/

/-- The first row of R128 that holds; `e` is the entry in force, none for a record with NO_RECIPE. -/
def verdictOf (e : Option DirEntry) (r : Record) : Verdict :=
  if 1 ≤ r.counts.critical ∨ (e.any fun d => decide (d.reworkLimit < r.counts.defects)) then .scrap
  else if 0 < r.counts.unseen ∨ r.has .noRecipe ∨ r.has .overlength then .unverified
  else if 1 ≤ r.counts.defects ∨
      (e.any fun d => decide (0 < d.marginalLimit ∧ d.marginalLimit ≤ r.counts.marginals)) then
    .rework
  else .pass

/-! ### Program memory and cache addresses (R52, R54, R61) -/

def regionOf (address : Nat) : RegionId := Fin.ofNat 16 (address / Config.regionBytes)

def State.regionAt (s : State) (address : Nat) : Region := s.regions[regionOf address]

def cacheIndex (address : Nat) : LineId := Fin.ofNat 128 (address / 64)

def cacheTag (address : Nat) : Nat := address / 8192

/-- The list `base`, `len` of a head has one of the `n` bytes from `a`. -/
def listCovers (a n base len : Nat) : Bool :=
  decide (0 < len) && decide (max a base < min (a + n) (base + 8 * len))

/-- One of the `n` bytes from `a` lies inside a head list in use (R54). -/
def State.inUse (s : State) (a n : Nat) : Bool :=
  RecipeId.all.any fun r =>
    (s.dir r).entry.valid && decide (0 < (s.dir r).useCount) &&
      HeadId.all.any fun h =>
        listCovers a n ((s.dir r).entry.listBase.get h) ((s.dir r).entry.listLength.get h)

/-! ### Move channels (R152) -/

def ChannelReg.occupancy (c : ChannelReg) : Nat := (c.producer - c.consumer).toNat

/-- The ring place of an index: index mod ring size (R152). -/
def ChannelReg.place (c : ChannelReg) (i : RingIndex) : Nat := i.toNat % c.ring.size

/-- The byte address of an index's ring place (R152). -/
def ChannelReg.placeAddress (c : ChannelReg) (i : RingIndex) : Nat :=
  c.ring.base + 32 * c.place i

def ChannelReg.inFlight (c : ChannelReg) : Bool :=
  match c.write with
  | some (.inFlight _ _ _ _) => true
  | _ => false

def State.sourceLength (s : State) : Channel → Nat
  | .defect => s.defects.length
  | .summary => s.summaryReady.length

/-! ### The lane schedule (R35, R37) -/

/-- A record's armed events, nearest first, equal targets in the order of the R35 table (R24, R37). -/
def Record.armedByDistance (c : Pos) (r : Record) : List Armed :=
  orderBy (fun e => distance c e.target * 16 + e.kind.rank) r.armed

/-- An event of a lane's schedule: the slot of its record and its kind. -/
structure ScheduledEvent where
  slot : Slot
  kind : EventKind
  deriving DecidableEq, Repr

/-- The armed events of a lane's records that are due at its counter. -/
def State.dueEvents (s : State) (l : Lane) : List ScheduledEvent :=
  (s.lane l).order.flatMap fun i =>
    match s.board i with
    | some r => (r.armed.filter fun e => due (s.lane l).counter e.target).map fun e => ⟨i, e.kind⟩
    | none => []

end Sys2Proof.Machine
end

