-- ==== Sys2Proof/Machine/Operands.lean ====
section
/-! DEFINITION. Operand forms: objects of requests (R190), the checks of maps, entries, rings, items and
watches (R31, R45, R158, R86, R163), head entries (R195), the payload of every response (R190), the
response frame (R194) and the two log records (R196, R197). -/

namespace Sys2Proof

open Machine

/-! ### Objects (R190) -/

def finOf (n : Nat) (x : Nat) : Option (Fin n) := if h : x < n then some ⟨x, h⟩ else none

def Lane.ofObject (b : Byte) : Option Lane := Lane.all[b.toNat]?
def Head.ofObject (b : Byte) : Option HeadId := HeadId.all[b.toNat]?
def Channel.ofObject (b : Byte) : Option Channel := Channel.all[b.toNat]?
def WatchId.ofObject (b : Byte) : Option WatchId := WatchId.all[b.toNat]?
def Port.ofObject (b : Byte) : Option Port := Port.all[b.toNat]?
/-- A non-station port, LNC to HL3, by its port number 1 to 6 (R191). -/
def Outer.ofObject (b : Byte) : Option Outer := (Port.ofObject b).bind Port.outer?
def Slot.ofObject (b : Byte) : Option Slot := finOf 24 b.toNat
def Recipe.ofObject (b : Byte) : Option RecipeId := finOf 16 b.toNat
def Region.ofObject (b : Byte) : Option RegionId := finOf 16 b.toNat
def Line.ofObject (b : Byte) : Option LineId := finOf 128 b.toNat

/-! ### Codes of named values (R190, R194) -/

def Lane.code : Lane → Nat
  | .A => 0
  | .B => 1

def HeadId.code : HeadId → Nat
  | .h0 => 0
  | .h1 => 1
  | .h2 => 2
  | .h3 => 3

def onOffCode (b : Bool) : Nat := if b then 0 else 1

/-- FREE is 0 (R190); a live record has one of the others. -/
def RecState.code : RecState → Nat
  | .entering => 1
  | .inspecting => 2
  | .decided => 3
  | .leaving => 4

def EntryState.code : EntryState → Nat
  | .ready => 0
  | .covered => 1
  | .untracked => 2

def HeadStatus.code : HeadStatus → Nat
  | .notRequired => 0
  | .absent => 1
  | .waiting => 2
  | .triggered => 3
  | .taken => 4
  | .reporting => 5
  | .complete => 6
  | .late => 7
  | .faulted => 8

def EventKind.code : EventKind → Nat
  | .lengthLimit => 0
  | .headOpen _ => 1
  | .headLimit _ => 2
  | .deadline => 3
  | .exitDue => 4

def EventKind.head : EventKind → Option HeadId
  | .headOpen n | .headLimit n => some n
  | .lengthLimit | .deadline | .exitDue => none

def Verdict.code : Verdict → Nat
  | .pass => 0
  | .rework => 1
  | .unverified => 2
  | .scrap => 3

/-- NONE is 4 (R190). -/
def verdictCode : Option Verdict → Nat
  | none => 4
  | some v => v.code

def ExitFate.code : ExitFate → Nat
  | .matched => 0
  | .missing => 1
  | .purged => 2

/-- Recipe NONE is 16 (R190). -/
def recipeCode : Option RecipeId → Nat
  | none => 16
  | some r => r.val

def Isolation.code : Isolation → Nat
  | .normal => 0
  | .isolating => 1
  | .isolated => 2

def ChannelState.code : ChannelState → Nat
  | .disabled => 0
  | .running => 1
  | .full => 2
  | .faulted => 3

def Priority.code : Priority → Nat
  | .high => 0
  | .low => 1

def DefectClass.code (c : DefectClass) : Nat := DefectClass.all.idxOf c
def Criticality.code (c : Criticality) : Nat := Criticality.all.idxOf c
def Cause.code (c : Cause) : Nat := Cause.all.idxOf c

def Source.code : Source → Nat
  | .boardTable => 0
  | .verdictUnit => 1
  | .headLink => 2
  | .mergeEngine => 3
  | .moveEngine => 4

def Status.code : Status → Nat
  | .done => 0
  | .pending => 1
  | .held => 2
  | .full => 3
  | .empty => 4
  | .inUse => 5
  | .notPermitted => 6
  | .badFrame => 7
  | .badObject => 8
  | .badValue => 9
  | .badState => 10

/-- Request codes 1 to 42 (R189). -/
def Request.code (q : Request) : Byte := BitVec.ofNat 8 (Request.all.idxOf q + 1)

/-! ### Permissions (R189) -/

/-- The request is permitted on the port. -/
def permitted (p : Port) : Request → Bool
  | .nop | .boardRead | .faultRead | .alertRead | .alertClear | .alertMaskSet | .softAlert
  | .mailPut | .mailTake => true
  | .announce | .lanePurge | .counterRead => decide (p = .sta ∨ p = .lnc)
  | .dispRead => decide (p = .sta ∨ p = .gtc)
  | .progRead =>
    match p with
    | .sta | .hl _ => true
    | .lnc | .gtc => false
  | .triggerTake | .resultPut =>
    match p with
    | .hl _ => true
    | .sta | .lnc | .gtc => false
  | .trackReset | .announceThresholdSet | .counterSet | .tunnelSet | .tunnelRead | .directorySet
  | .directoryRead | .regionSet | .regionRead | .progWrite | .cacheIsolate | .cacheTagRead
  | .cacheInvalidate | .cacheRelease | .resultHoldSet | .headFlush | .headLinkRead
  | .mergeStatusRead | .ringSet | .logConsumed | .logBlockSet | .channelRead | .watchSet
  | .watchRead | .watchClear | .faultPop => decide (p = .sta)

/-! ### Checks of what a request carries -/

/-- The range checks and, with enable on, the checks of R31; the map as it is kept where they pass. -/
def TunnelArgs.check (a : TunnelArgs) : Option TunnelMap :=
  let m := a.map
  let inRange (n : Nat) : Bool := decide (n ≤ Config.maxCount)
  let dflt : Option (Option RecipeId) :=
    if a.defaultRecipe = 16 then some none else (finOf 16 a.defaultRecipe).map some
  match dflt with
  | none => none
  | some d =>
    if (HeadId.all.all fun n => inRange (m.headOpenOffset.get n) && inRange (m.headSpan.get n)) &&
        inRange m.gateOffset && inRange m.decisionMargin && inRange m.exitTolerance &&
        inRange m.minLength && inRange m.maxLength &&
        (!m.enable ||
          decide (1 ≤ m.minLength) && decide (m.minLength ≤ m.maxLength) &&
          decide (m.decisionMargin ≤ m.gateOffset) &&
          (m.headServes.all fun n =>
            decide (m.headOpenOffset.get n < m.gateOffset - m.decisionMargin)) &&
          decide (m.gateOffset + m.exitTolerance ≤ Config.maxCount) &&
          (m.headServes.all fun n =>
            decide (m.headOpenOffset.get n + m.maxLength + m.headSpan.get n ≤ Config.maxCount)))
    then some { m with defaultRecipe := d }
    else none

/-- The checks of R45. -/
def DirEntry.check (e : DirEntry) : Bool :=
  (HeadId.all.all fun n =>
    decide (e.listBase.get n % 8 = 0) && decide (e.listBase.get n ≤ 16777215) &&
      decide (e.listLength.get n ≤ 4095) &&
      decide (e.listBase.get n + 8 * e.listLength.get n ≤ Config.memoryBytes)) &&
  decide (e.reworkLimit ≤ 255) && decide (e.marginalLimit ≤ 255)

/-- The item checks of R86: grade, class and joint id inside the values of R85, and a class present for
every grade except GOOD and absent for GOOD. -/
def RawItem.check : RawItem → Option Item
  | .done tag => some (.done tag)
  | .abort tag reason => some (.abort tag reason)
  | .result tag joint grade cls value =>
    if 4095 < joint then none
    else
      match Grade.all[grade]?, cls with
      | some .good, none => some (.result tag (BitVec.ofNat 12 joint) .good none value)
      | some .good, some _ => none
      | some g, some c =>
        (DefectClass.all[c]?).map fun k => .result tag (BitVec.ofNat 12 joint) g (some k) value
      | _, _ => none

/-- Every item, or none where one fails. -/
def checkItems : List RawItem → Option (List Item)
  | [] => some []
  | x :: xs =>
    match x.check, checkItems xs with
    | some y, some ys => some (y :: ys)
    | _, _ => none

/-- `none` for any, and the value a code names; fails where the code names none. -/
def optionalCode {α : Type} (read : Nat → Option α) : Option Nat → Option (Option α)
  | none => some none
  | some n => (read n).map some

/-- The field ranges of WATCH_SET (R163). -/
def WatchArgs.check (a : WatchArgs) : Option Watch :=
  match optionalCode (finOf 16) a.recipe,
      optionalCode (fun n => if n ≤ 4095 then some (BitVec.ofNat 12 n) else none) a.joint,
      optionalCode (fun n => DefectClass.all[n]?) a.cls,
      optionalCode (fun n => Criticality.all[n]?) a.criticality with
  | some r, some j, some c, some k => some ⟨a.enable, r, j, c, k, none, false, false⟩
  | _, _, _, _ => none

/-- The address checks of R54 and R56: in range, 1 to 64 bytes, all in one line. -/
def burstOk (address count : Nat) : Bool :=
  decide (address ≤ 16777215) && decide (1 ≤ count) && decide (count ≤ 64) &&
    decide (address % 64 + count ≤ 64)

/-- Size 0, or a power of 2 from 16 to 65,536 (R158). -/
def ringSizeOk (n : Nat) : Bool :=
  decide (n = 0) || (List.range 13).any fun k => decide (n = 2 ^ (k + 4))

/-! ### Head entries (R50, R195) -/

/-- The entry of 8 raw bytes where it passes its check: check byte right, rule and criticality defined. -/
def Machine.HeadEntry.ofBytes (raw : List Byte) : Option HeadEntry :=
  match raw with
  | [b0, b1, b2, b3, b4, b5, b6, check] =>
    if Decode.crc8 [b0, b1, b2, b3, b4, b5, b6] = check then
      match ([MergeRule.any, .confirm, .advisory])[b2.toNat % 4]?,
          HeadId.all[b2.toNat / 4 % 4]?, Criticality.all[b2.toNat / 16 % 4]? with
      | some rule, some partner, some crit =>
        some ⟨BitVec.ofNat 12 (b0.toNat + 256 * (b1.toNat % 16)), rule, partner, crit⟩
      | _, _, _ => none
    else none
  | _ => none

/-! ### Response payloads (R190) -/

/-- A number in `k` bytes, least significant first. -/
def le : Nat → Nat → List Byte
  | 0, _ => []
  | k + 1, n => BitVec.ofNat 8 n :: le k (n / 256)

def encOpt {α : Type} (field : α → List Byte) : Option α → List Byte
  | none => [0#8]
  | some x => 1#8 :: field x

/-- A set over `all` as a bit field in the fewest whole bytes. -/
def encSet {α : Type} [BEq α] (all xs : List α) : List Byte :=
  le ((all.length + 7) / 8)
    ((all.zipIdx.map fun x => if xs.contains x.1 then 2 ^ x.2 else 0).sum)

def encList {α : Type} (field : α → List Byte) (xs : List α) : List Byte :=
  le 1 xs.length ++ xs.flatMap field

def encHeads {α : Type} (field : α → List Byte) (x : PerHead α) : List Byte :=
  HeadId.all.flatMap fun n => field (x.get n)

def encPos (p : Pos) : List Byte := le 3 p.toNat
def encSerial (x : Serial) : List Byte := le 6 x.toNat
def encBool (b : Bool) : List Byte := le 1 (onOffCode b)

def encCounts (c : Counts) : List Byte :=
  le 2 c.defects ++ le 2 c.critical ++ le 2 c.advisory ++ le 2 c.marginals ++ le 2 c.unseen ++
    le 2 c.cleared

def encArmed (e : Armed) : List Byte :=
  le 1 e.kind.code ++ encOpt (fun n => le 1 (HeadId.code n)) e.kind.head ++ encPos e.target

/-- BOARD_READ of a live record (R1, R24), its suspect count `k` and its lane's counter `c` given. -/
def encRecord (i : Slot) (k : Nat) (c : Pos) (r : Record) : List Byte :=
  le 1 i.val ++ le 1 r.state.code ++ le 1 r.tag.toNat ++ le 1 (Lane.code r.lane) ++
  le 1 (recipeCode r.recipe) ++ encOpt encSerial r.serial ++ encSet BoardFlag.all r.flags ++
  encPos r.entryPos ++ encOpt (le 3) r.length ++
  encHeads (fun h => le 1 h.status.code) r.heads ++ encHeads (fun h => le 2 h.cursor) r.heads ++
  encHeads (fun h => encOpt (fun j => le 2 j.toNat) h.lastPassed) r.heads ++
  encHeads (fun h => le 2 h.discarded) r.heads ++ encCounts r.counts ++ le 1 k ++
  le 2 r.outstanding ++ le 1 (verdictCode r.verdict) ++ encOpt (fun f => le 1 f.code) r.exitFate ++
  encOpt encPos r.exitPos ++ encList encArmed (r.armedByDistance c)

/-- BOARD_READ of a FREE slot: the slot and state FREE (R24). -/
def encFree (i : Slot) : List Byte := le 1 i.val ++ le 1 0

/-- A tunnel map, its fields in the order of R30. -/
def encMap (m : TunnelMap) : List Byte :=
  encBool m.enable ++ encSet HeadId.all m.headServes ++ encHeads (le 3) m.headOpenOffset ++
  encHeads (le 3) m.headSpan ++ le 3 m.gateOffset ++ le 3 m.decisionMargin ++
  le 3 m.exitTolerance ++ le 3 m.minLength ++ le 3 m.maxLength ++ le 1 (recipeCode m.defaultRecipe)

/-- A directory entry, its fields in the order of R44. -/
def encEntry (e : DirEntry) : List Byte :=
  encBool e.valid ++ encHeads (le 3) e.listBase ++ encHeads (le 2) e.listLength ++
    le 1 e.reworkLimit ++ le 1 e.marginalLimit

def encRegion (r : Region) : List Byte :=
  encBool r.stationWrite ++ encBool r.headRead ++ encBool r.moveWrite

/-- A trigger, its fields in the order of R76. -/
def encTrigger (t : Trigger) : List Byte :=
  le 1 t.tag.toNat ++ le 1 (Lane.code t.lane) ++ le 1 t.recipe.val ++ encOpt encSerial t.serial ++
    encPos t.entryPos ++ le 3 t.listBase ++ le 2 t.listLength

/-- A fault record, its fields in the order of R171. -/
def encFault (f : FaultRec) : List Byte :=
  le 1 f.cause.code ++ le 1 f.source.code ++ encOpt (fun l => le 1 (Lane.code l)) f.lane ++
  encOpt (fun t => le 1 t.toNat) f.tag ++ encOpt (fun i => le 1 i.val) f.slot ++
  encOpt (fun n => le 1 (HeadId.code n)) f.head ++ encOpt (fun j => le 2 j.toNat) f.joint ++
  encOpt encPos f.position ++ le 2 f.detail

def encRing (r : Ring) : List Byte := le 3 r.base ++ le 3 r.size ++ le 1 (Priority.code r.priority)

/-- The write of CHANNEL_READ, an optional field (R152): waiting 0, in flight 1 with its ring index, which a
waiting write does not send (R160; log entry 16). -/
def encWrite : Option ChannelWrite → List Byte :=
  encOpt fun w =>
    match w with
    | .waiting _ => le 1 0
    | .inFlight i _ _ _ => le 1 1 ++ le 3 i.toNat

/-- The fewest bytes that hold a channel's source length: 0 to 384 for DEFECT, 0 to 24 for SUMMARY (R160). -/
def sourceBytes : Channel → Nat
  | .defect => 2
  | .summary => 1

/-- CHANNEL_READ of the channel `k` (R160). -/
def encChannel (k : Channel) (c : ChannelReg) (source : Nat) : List Byte :=
  le 1 c.state.code ++ encRing c.ring ++ le 3 c.producer.toNat ++ le 3 c.consumer.toNat ++
  le 3 c.occupancy ++ le 1 c.blockSetting ++ le 1 c.blockInUse ++ le 1 c.blockCount ++
  le 2 c.seq.toNat ++ encOpt encRing c.held ++ encWrite c.write ++
  le (sourceBytes k) source

/-- The fields, status and AGAIN of a watch (R165). -/
def encWatch (w : Watch) : List Byte :=
  encBool w.enable ++ encOpt (fun r => le 1 r.val) w.recipe ++
  encOpt (fun j => le 2 j.toNat) w.joint ++ encOpt (fun c => le 1 c.code) w.cls ++
  encOpt (fun c => le 1 c.code) w.criticality ++
  encOpt (fun h => le 2 h.seq.toNat ++ le 1 h.tag.toNat ++ le 2 h.joint.toNat) w.status ++
  encBool w.again

/-- The item in flight in MERGE_STATUS_READ (R108): its kind is RESULT, 0. The presence byte before the joint
id is the model's reading of "joint id for a RESULT" as an optional field (log entry 15). -/
def encInFlight (waiting : Bool) (x : InFlight) : List Byte :=
  le 1 (HeadId.code x.head) ++ le 1 0 ++ le 1 x.tag.toNat ++ le 1 x.slot.val ++
    encOpt (fun j => le 2 j.toNat) (some x.joint) ++ le 2 x.walk.length ++ encBool waiting

/-! ### The response frame (R194) -/

/-- The bytes shifted out for a response: status, code, length, payload and CRC-8. -/
def Machine.Response.frame (r : Response) : List Byte :=
  let body := [BitVec.ofNat 8 r.status.code, r.code, BitVec.ofNat 8 r.payload.length] ++ r.payload
  body ++ [Decode.crc8 body]

/-- What a transaction of `n` whole bytes shifts out on MISO: the slot's frame as it stood when CS fell,
then zero bytes (R184). -/
def Machine.State.shiftedOut (s : State) (p : Port) (n : Nat) : List Byte :=
  ((s.port p).slot.frame ++ List.replicate n 0#8).take n

/-! ### Log records (R196, R197) -/

/-- `n` in a field of `w` bits at bit `at`. -/
def bits (w at_ n : Nat) : Nat := n % 2 ^ w * 2 ^ at_

def bit (at_ : Nat) (b : Bool) : Nat := if b then 2 ^ at_ else 0

/-- MARGINAL 0, DEFECT 1 (R196). -/
def logGrade (g : Grade) : Nat := if g = .defect then 1 else 0

/-- The 32 bytes of a defect log record (R196). -/
def Machine.DefectRec.logBytes (seq : SeqNo) (d : DefectRec) : List Byte :=
  le 2 seq.toNat ++ le 1 d.tag.toNat ++
  le 1 (Lane.code d.lane + bits 4 1 (recipeCode d.recipe) + bit 5 d.serial.isSome +
    bit 6 d.advisory + bit 7 d.second.isSome) ++
  le 6 (d.serial.getD 0#48).toNat ++ le 3 d.entryPos.toNat ++
  le 2 (d.joint.toNat + bits 4 12 d.cls.code) ++
  le 1 (d.criticality.code + bits 2 2 (HeadId.code d.firstHead) + bits 1 4 (logGrade d.firstGrade) +
    bits 2 5 ((d.second.map fun x => HeadId.code x.1).getD 0) +
    bits 1 7 ((d.second.map fun x => logGrade x.2).getD 0)) ++
  le 2 d.value.toNat ++ le 2 (d.secondValue.getD 0#16).toNat ++ List.replicate 12 0#8

/-- Final statuses in the head-status number: COMPLETE 0, LATE 1, FAULTED 2, ABSENT 3, NOT_REQUIRED 4 (R197); a
status that is not final, which no summary has, is 0 (log entry 26). -/
def HeadStatus.summaryCode : HeadStatus → Nat
  | .complete => 0
  | .late => 1
  | .faulted => 2
  | .absent => 3
  | .notRequired => 4
  | .waiting | .triggered | .taken | .reporting => 0

/-- s0 + 5 s1 + 25 s2 + 125 s3 (R197). -/
def headStatusNumber (h : PerHead (HeadStatus × Nat)) : Nat :=
  h.v0.1.summaryCode + 5 * h.v1.1.summaryCode + 25 * h.v2.1.summaryCode + 125 * h.v3.1.summaryCode

/-- exit_pos - entry_pos mod 2^24 for MATCHED, else 0 (R197). -/
def Machine.SummaryRec.exitOffset (r : SummaryRec) : Nat :=
  match r.exitFate, r.exitPos with
  | some .matched, some x => (x - r.entryPos).toNat
  | _, _ => 0

/-- The 32 bytes of a summary log record (R197). -/
def Machine.SummaryRec.logBytes (seq : SeqNo) (r : SummaryRec) : List Byte :=
  le 2 seq.toNat ++ le 1 r.tag.toNat ++
  le 1 (Lane.code r.lane + bits 5 1 (recipeCode r.recipe) + bit 6 r.serial.isSome +
    bit 7 (r.flags.contains .unannounced)) ++
  le 1 (bits 2 0 (verdictCode r.verdict) + bits 2 2 ((r.exitFate.map ExitFate.code).getD 0) +
    bit 4 (decide (0 < r.heads.v0.2)) + bit 5 (decide (0 < r.heads.v1.2)) +
    bit 6 (decide (0 < r.heads.v2.2)) + bit 7 (decide (0 < r.heads.v3.2))) ++
  le 6 (r.serial.getD 0#48).toNat ++ le 3 r.entryPos.toNat ++
  le 3 (bits 22 0 (r.length.getD 0) + bit 22 (r.flags.contains .noRecipe) +
    bit 23 (r.flags.contains .overlength)) ++
  le 3 (bits 22 0 r.exitOffset + bit 22 (r.flags.contains .suspectOverflow) +
    bit 23 (r.flags.contains .defectRecordsDropped)) ++
  le 12 (bits 14 0 r.counts.defects + bits 14 14 r.counts.critical + bits 14 28 r.counts.advisory +
    bits 14 42 r.counts.marginals + bits 14 56 r.counts.unseen + bits 14 70 r.counts.cleared +
    bits 10 84 (headStatusNumber r.heads) + bit 94 (r.flags.contains .earlyExit))

def Machine.LogRecord.logBytes (seq : SeqNo) : LogRecord → List Byte
  | .defect d => d.logBytes seq
  | .summary r => r.logBytes seq

end Sys2Proof
end

