-- ==== Sys2Proof/Machine/Ops.lean ====
section
/-! DEFINITION. The shared operations: program memory, the one way to write each part of the state, fault
records (R173), alert flags (R178), the answer of a request (R185 to R188), Head Link queues (R80, R87),
held updates (R32, R46), and the Move Engine's sources (R144, R154, R157). -/

namespace Sys2Proof

/-! ### Program memory: a sorted list of bytes that differ from the unwritten byte -/

namespace Memory

def read : List Host.Cell → Nat → Byte
  | [], _ => Config.unwrittenByte
  | (b, v) :: m, a => if a = b then v else read m a

def write : List Host.Cell → Nat → Byte → List Host.Cell
  | [], a, v => if v = Config.unwrittenByte then [] else [(a, v)]
  | (b, w) :: m, a, v =>
    if a < b then (if v = Config.unwrittenByte then (b, w) :: m else (a, v) :: (b, w) :: m)
    else if a = b then (if v = Config.unwrittenByte then m else (a, v) :: m)
    else (b, w) :: write m a v

/-- `n` bytes from `a` upward. -/
def readBytes (m : List Host.Cell) : (a n : Nat) → List Byte
  | _, 0 => []
  | a, n + 1 => read m a :: readBytes m (a + 1) n

/-- The bytes written from `a` upward. -/
def writeBytes (m : List Host.Cell) : Nat → List Byte → List Host.Cell
  | _, [] => m
  | a, v :: vs => writeBytes (write m a v) (a + 1) vs

/-- Every listed address lies above `a`, addresses rise, and no byte equals the unwritten one. -/
def wfAbove : Nat → List Host.Cell → Bool
  | _, [] => true
  | a, (b, v) :: m => decide (a ≤ b) && decide (v ≠ Config.unwrittenByte) && wfAbove (b + 1) m

/-- The canonical form: addresses strictly rising, no entry equal to the unwritten byte. -/
def wf (m : List Host.Cell) : Bool := wfAbove 0 m

end Memory

namespace Machine

/-! ### Writing one part of the state -/

def State.setBoard (s : State) (i : Slot) (r : Option Record) : State :=
  { s with slots := s.slots.set i r }

def State.modBoard (s : State) (i : Slot) (f : Record → Record) : State :=
  match s.board i with
  | some r => s.setBoard i (some (f r))
  | none => s

def State.setLane (s : State) (l : Lane) (x : LaneState) : State :=
  { s with lanes := s.lanes.set l x }

def State.setDir (s : State) (r : RecipeId) (x : DirState) : State :=
  { s with directory := s.directory.set r x }

def State.setRegion (s : State) (k : RegionId) (x : Region) : State :=
  { s with regions := s.regions.set k x }

def State.setLine (s : State) (i : LineId) (x : CacheLine) : State :=
  { s with cache := { s.cache with lines := s.cache.lines.set i x } }

def State.setRawLink (s : State) (n : HeadId) (x : Link) : State :=
  { s with links := s.links.set n x }

def State.setChannel (s : State) (c : Channel) (x : ChannelReg) : State :=
  { s with channels := s.channels.set c x }

def State.setWatch (s : State) (w : WatchId) (x : Watch) : State :=
  { s with watches := s.watches.set w x }

def State.setAlert (s : State) (p : Port) (x : AlertState) : State :=
  { s with alerts := s.alerts.set p x }

def State.setPort (s : State) (p : Port) (x : PortState) : State :=
  { s with ports := s.ports.set p x }

def State.setMail (s : State) (o : Outer) (x : MailPair) : State :=
  { s with mail := s.mail.set o x }

/-- One more free value has been drawn. -/
def State.drawn (s : State) : State := { s with draws := s.draws + 1 }

/-! ### Records -/

def Record.addFlag (r : Record) (f : BoardFlag) : Record :=
  { r with flags := setInsert BoardFlag.all f r.flags }

def Record.modHead (r : Record) (n : HeadId) (f : HeadRec → HeadRec) : Record :=
  { r with heads := r.heads.set n (f (r.heads.get n)) }

def Record.setStatus (r : Record) (n : HeadId) (x : HeadStatus) : Record :=
  r.modHead n fun h => { h with status := x }

def Record.arm (r : Record) (k : EventKind) (t : Pos) : Record :=
  { r with armed := r.armed ++ [⟨k, t⟩] }

/-- R40: the event leaves the schedule at once. -/
def Record.disarm (r : Record) (k : EventKind) : Record :=
  { r with armed := r.armed.filter fun e => decide (e.kind ≠ k) }

/-! ### Alert flags and fault records -/

/-- R178: raising a latched flag sets it and turns its seen mark off. -/
def State.raise (s : State) (p : Port) (f : AlertFlag) : State :=
  s.setAlert p { s.alert p with
    latched := setInsert AlertFlag.all f (s.alert p).latched
    seen := setErase f (s.alert p).seen }

/-- R173: a fault joins the tail, or with 8 records its cause joins the overflow set and FAULT_OVERFLOW is raised. -/
def State.recordFault (s : State) (f : FaultRec) : State :=
  if s.faults.queue.length < Config.faultCapacity then
    { s with faults := { s.faults with queue := s.faults.queue ++ [⟨f, []⟩] } }
  else
    State.raise { s with faults :=
      { s.faults with overflow := setInsert Cause.all f.cause s.faults.overflow } } .sta .faultOverflow

def State.recordFaults (s : State) (fs : List FaultRec) : State := fs.foldl State.recordFault s

/-! ### Answering a request -/

/-- The status and payload of a response. -/
structure Reply where
  status  : Status
  payload : List Byte := []
  deriving DecidableEq, Repr

def State.respond (s : State) (p : Port) (q : Request) (r : Reply) : State :=
  s.setPort p { s.port p with slot := ⟨r.status, q.code, r.payload⟩ }

/-- A request that takes time: the port is pending (R187). -/
def State.setPending (s : State) (p : Port) (x : Option PendingReq) : State :=
  s.setPort p { s.port p with pending := x }

/-- The end of a pending request: the port is not pending and the slot takes the final response (R187). -/
def State.endPending (s : State) (p : Port) (q : Request) (r : Reply) : State :=
  (s.setPending p none).respond p q r

/-- A request taken on a port (R185 to R187): not taken while the port is pending; NOT_PERMITTED where
R189 does not permit it; else `act` gives its effect and its reply, and the slot takes the response. -/
def State.serve (s : State) (p : Port) (q : Request) (act : State → State × Reply) : State :=
  if (s.port p).pending.isSome then s
  else if permitted p q then (act s).1.respond p q (act s).2
  else s.respond p q ⟨.notPermitted, []⟩

/-- A refusal: no effect beside the response (R186). -/
def refuse (st : Status) (s : State) : State × Reply := (s, ⟨st, []⟩)

/-- A request that reads its object first and its payload next (R186, order 2 and 3). -/
def onObject {α β : Type} (obj : Option α) (args : Option β) (act : α → β → State → State × Reply)
    (s : State) : State × Reply :=
  match obj, args with
  | none, _ => refuse .badObject s
  | some _, none => refuse .badValue s
  | some x, some a => act x a s

/-- A request that names no object. -/
def onArgs {β : Type} (args : Option β) (act : β → State → State × Reply) (s : State) :
    State × Reply :=
  match args with
  | none => refuse .badValue s
  | some a => act a s

/-! ### Head Links -/

/-- Head Link `n` takes the value `x`; a change of its hold state from ON to OFF raises QUEUE_RELEASED (R87). -/
def State.setLink (s : State) (n : HeadId) (x : Link) : State :=
  if (s.link n).holdOn && !x.holdOn then (s.setRawLink n x).raise (.hl n) .queueReleased
  else s.setRawLink n x

/-- The trigger of tag `t` leaves head `n`'s trigger queue; the others keep their order (R80). -/
def State.dropTrigger (s : State) (n : HeadId) (t : Tag) : State :=
  s.setRawLink n { s.link n with
    triggers := (s.link n).triggers.filter fun x => decide (x.tag ≠ t) }

def State.dropTriggers (s : State) (t : Tag) : State :=
  HeadId.all.foldl (fun u n => u.dropTrigger n t) s

/-! ### Recipes (R46, R47) -/

/-- An entry is applied: it is in force and no update is held (R46). -/
def DirState.applied (d : DirState) (e : DirEntry) : DirState := { d with entry := e, held := none }

/-- use_count falls by 1; a fall to 0 applies a held update and raises HELD_APPLIED (R47). -/
def State.dropUse (s : State) (r : RecipeId) : State :=
  let d := s.dir r
  let d' := { d with useCount := d.useCount - 1 }
  match d.held with
  | some e =>
    if d.useCount = 1 then (s.setDir r (d'.applied e)).raise .sta .heldApplied else s.setDir r d'
  | none => s.setDir r d'

/-- A counted record stops counting under its recipe; one with NO_RECIPE never counted (R12). -/
def State.release (s : State) (r : Record) : State :=
  if r.has .noRecipe then s
  else
    match r.recipe with
    | some k => s.dropUse k
    | none => s

/-! ### Tunnel maps (R32, R33) -/

/-- A map is applied: in force, none held, entry and exit states READY (R32). -/
def LaneState.applied (x : LaneState) (m : TunnelMap) : LaneState :=
  { x with map := m, heldMap := none, entry := .ready, exit := .ready }

/-- A held map is applied when the lane order is empty, and HELD_APPLIED is raised (R33). -/
def State.applyHeldMap (s : State) (l : Lane) : State :=
  match (s.lane l).heldMap with
  | some m =>
    if (s.lane l).order.isEmpty then
      (s.setLane l ((s.lane l).applied m)).raise .sta .heldApplied
    else s
  | none => s

/-! ### The Move Engine's sources (R144, R154, R157) -/

/-- The conditions of R154 for a channel to request a write. -/
def State.wantsWrite (s : State) (c : Channel) : Bool :=
  let x := s.channel c
  decide (x.state = .running) && x.write.isNone && x.held.isNone &&
    decide (x.occupancy < x.ring.size) && decide (0 < s.sourceLength c)

/-- A channel whose conditions hold requests a write at ring index producer (R154). -/
def State.requestWrite (s : State) (c : Channel) : State :=
  if s.wantsWrite c then
    s.setChannel c { s.channel c with write := some (.waiting (s.channel c).producer) }
  else s

/-- A LEAVING slot joins the summary-ready list; a DISABLED SUMMARY channel drops it, and the slot is FREE (R144, R157). -/
def State.joinSummary (s : State) (i : Slot) : State :=
  if (s.channel .summary).state = .disabled then s.setBoard i none
  else State.requestWrite { s with summaryReady := s.summaryReady ++ [i] } .summary

/-- outstanding_defects of a board falls by 1; a LEAVING board left with none joins the summary-ready list (R155, R144). -/
def State.dropOutstanding (s : State) (i : Slot) : State :=
  match s.board i with
  | some r =>
    let s1 := s.setBoard i (some { r with outstanding := r.outstanding - 1 })
    if r.state = .leaving ∧ r.outstanding = 1 then s1.joinSummary i else s1
  | none => s

/-- A defect record of the board in slot `i` joins the Defect Pool (R119); a DISABLED DEFECT channel drops
it at once (R157); a full pool does not keep it, sets DEFECT_RECORDS_DROPPED, and gives the fault
DEFECT_POOL_FULL where the flag was clear. The fault is returned, for its recorder to record. -/
def State.addDefect (s : State) (src : Source) (i : Slot) (d : DefectRec) : State × List FaultRec :=
  if (s.channel .defect).state = .disabled then (s, [])
  else if s.defects.length < Config.defectCapacity then
    (State.requestWrite
      { s.modBoard i fun r => { r with outstanding := r.outstanding + 1 } with
        defects := s.defects ++ [⟨i, d⟩] } .defect, [])
  else
    match s.board i with
    | some r =>
      (s.setBoard i (some (r.addFlag .defectRecordsDropped)),
        if r.has .defectRecordsDropped then []
        else [{ cause := .defectPoolFull, source := src, lane := some r.lane, tag := some r.tag,
                slot := some i, head := some d.firstHead, joint := some d.joint,
                detail := Config.defectCapacity }])
    | none => (s, [])

end Machine

end Sys2Proof
end

