-- ==== Sys2Proof/Machine/Cache.lean ====
section
/-! DEFINITION. The Program Cache: lookups and misses (R62, R63), write-through (R66 to R68), and isolation
taking effect (R70). -/

namespace Sys2Proof.Machine

open Sys2Proof

/-- The 8 bytes of the entry at address `a` in its line (R61). -/
def CacheLine.entryAt (x : CacheLine) (a : Nat) : List Byte := (x.bytes.drop (a % 64)).take 8

/-- The line is valid and holds the memory line of `a`. -/
def State.cached (s : State) (a : Nat) : Bool :=
  (s.line (cacheIndex a)).valid && decide ((s.line (cacheIndex a)).tag = cacheTag a)

/-- A line's valid mark turned off; tag and entries stay. -/
def State.invalidate (s : State) (i : LineId) : State :=
  s.setLine i { s.line i with valid := false }

/-- An entry request of the Merge Engine: supplied on a hit; kept waiting while a fill is in flight; a miss
turns the line off, requests a fill and keeps the request waiting (R62, R63). -/
def State.cacheRequest (s : State) (a : Nat) : State × Option (List Byte) :=
  match s.cache.fill with
  | some _ => ({ s with cache := { s.cache with waiting := some a } }, none)
  | none =>
    if s.cached a then (s, some ((s.line (cacheIndex a)).entryAt a))
    else
      let s1 := s.invalidate (cacheIndex a)
      ({ s1 with cache := { s1.cache with
          fill := some ⟨cacheIndex a, cacheTag a, false⟩, waiting := some a } }, none)

/-- The line's entries with `bytes` put at offset `at_` (R66). -/
def CacheLine.patch (x : CacheLine) (at_ : Nat) (bytes : List Byte) : CacheLine :=
  { x with bytes := x.bytes.take at_ ++ bytes ++ x.bytes.drop (at_ + bytes.length) }

/-- The cached copy at the end of a write of `n` bytes from `a`: updated where the write covers whole aligned
entries, else dropped (R66, R67). -/
def State.updateLine (s : State) (a : Nat) (bytes : List Byte) : State :=
  if s.cached a then
    if a % 8 = 0 ∧ bytes.length % 8 = 0 then
      s.setLine (cacheIndex a) ((s.line (cacheIndex a)).patch (a % 64) bytes)
    else s.invalidate (cacheIndex a)
  else s

/-- A write that ends on the memory line of the fill in flight spoils the fill (R68). -/
def State.spoil (s : State) (a : Nat) : State :=
  match s.cache.fill with
  | some f =>
    if f.index = cacheIndex a ∧ f.tag = cacheTag a then
      { s with cache := { s.cache with fill := some { f with spoiled := true } } }
    else s
  | none => s

/-- A write to program memory ends: the bytes are in memory, and write-through is applied (R51, R66 to R68). -/
def State.writeEnds (s : State) (a : Nat) (bytes : List Byte) : State :=
  (State.updateLine { s with mem := Memory.writeBytes s.mem a bytes } a bytes).spoil a

/-- The first address of the memory line of a fill (R61). -/
def Fill.address (f : Fill) : Nat := f.tag * 8192 + f.index.val * 64

/-- The line a fill ends with (R64). -/
def State.fillLine (s : State) (f : Fill) : State :=
  if f.spoiled then s
  else s.setLine f.index ⟨f.tag, true, Memory.readBytes s.mem f.address 64⟩

/-- Isolation takes effect at the first moment with no item and no fill in flight (R70). -/
def State.isolationEffect (s : State) : State :=
  if s.cache.isolation = .isolating ∧ s.merge.item = none ∧ s.cache.fill = none then
    State.endPending { s with cache := { s.cache with isolation := .isolated } } .sta .cacheIsolate
      ⟨.done, []⟩
  else s

end Sys2Proof.Machine
end

