-- ==== Sys2Proof/Machine/Close.lean ====
section
/-! DEFINITION. Closing a board and ending its tracking: a report resolved alone (R112), the close
procedure (R126 to R129), the close check (R125), a head that becomes final (R83), LEAVING (R144), and
one record gone missing at the exit (R142). -/

namespace Sys2Proof.Machine

open Sys2Proof

/-! ### Reports -/

/-- A report that goes through a rule (6.3): `cls` and `value` are absent for a skip. -/
structure Report where
  head        : HeadId
  grade       : Grade
  cls         : Option DefectClass
  value       : Option Value
  criticality : Criticality
  deriving DecidableEq, Repr

def State.modCounts (s : State) (i : Slot) (f : Counts → Counts) : State :=
  s.modBoard i fun r => { r with counts := f r.counts }

/-- One more counted defect; a CRITICAL one also adds to critical_defects (R112, R114). -/
def Counts.addDefect (c : Criticality) (x : Counts) : Counts :=
  { x with defects := x.defects + 1, critical := x.critical + if c = .critical then 1 else 0 }

/-- The defect record of one report on a joint (R110, R112). A DEFECT report has a class and a value (R86). -/
def Record.defectOf (r : Record) (joint : JointId) (advisory : Bool) (p : Report) : DefectRec where
  tag := r.tag
  lane := r.lane
  recipe := r.recipe
  serial := r.serial
  entryPos := r.entryPos
  joint := joint
  cls := p.cls.getD .other
  criticality := p.criticality
  advisory := advisory
  firstHead := p.head
  firstGrade := .defect
  second := none
  value := p.value.getD 0#16
  secondValue := none

/-- A report resolved alone (R112). The faults a full Defect Pool gives are returned. -/
def State.resolveAlone (s : State) (src : Source) (i : Slot) (joint : JointId) (p : Report) :
    State × List FaultRec :=
  match p.grade with
  | .good => (s, [])
  | .marginal => (s.modCounts i fun c => { c with marginals := c.marginals + 1 }, [])
  | .notMeasured => (s.modCounts i fun c => { c with unseen := c.unseen + 1 }, [])
  | .defect =>
    match s.board i with
    | some r =>
      (s.modCounts i (Counts.addDefect p.criticality)).addDefect src i (r.defectOf joint false p)
    | none => (s, [])

def Suspect.report (x : Suspect) : Report := ⟨x.head, x.grade, x.cls, x.value, x.criticality⟩

/-! ### The close procedure -/

/-- A head at the close (R126): one not final becomes LATE, its untaken trigger removed; an ABSENT head of a
board whose recipe is in force sets HEAD_ABSENT. -/
def State.endHead (s : State) (i : Slot) (n : HeadId) : State :=
  match s.board i with
  | none => s
  | some r =>
    match r.headStatus n with
    | .waiting | .taken | .reporting => s.setBoard i (some ((r.setStatus n .late).addFlag .headLate))
    | .triggered =>
      (s.dropTrigger n r.tag).setBoard i (some ((r.setStatus n .late).addFlag .headLate))
    | .absent => if r.has .noRecipe then s else s.setBoard i (some (r.addFlag .headAbsent))
    | .complete | .late | .faulted | .notRequired => s

def State.endHeads (s : State) (i : Slot) : State :=
  HeadId.all.foldl (fun u n => u.endHead i n) s

/-- The entries no head passed: list_length - cursor summed over the heads; none with NO_RECIPE (R126). -/
def unwalked (e : Option DirEntry) (r : Record) : Nat :=
  match e with
  | none => 0
  | some d => (HeadId.all.map fun n => d.listLength.get n - (r.heads.get n).cursor).sum

def State.countUnwalked (s : State) (i : Slot) : State :=
  match s.board i with
  | none => s
  | some r => s.modCounts i fun c => { c with unseen := c.unseen + unwalked (s.entryOf r) r }

/-- One suspect leaves the pool and is resolved alone (R127). -/
def State.resolveSuspect (s : State) (i : Slot) (x : Suspect) : State :=
  let r := State.resolveAlone { s with suspects := setErase x s.suspects } .verdictUnit i x.joint
    x.report
  r.1.recordFaults r.2

/-- The record's suspects, in ascending joint id (R127). -/
def State.suspectsOf (s : State) (i : Slot) : List Suspect :=
  orderBy (fun x => x.joint.toNat) (s.suspects.filter fun x => decide (x.slot = i))

def State.resolveSuspects (s : State) (i : Slot) : State :=
  (s.suspectsOf i).foldl (fun u x => u.resolveSuspect i x) s

/-- The verdict set, the recipe let go, every event but EXIT_DUE disarmed, the record DECIDED, and the
entry state UNTRACKED where the record was ENTERING under a COVERED sensor (R128, R129). -/
def State.fixVerdict (s : State) (i : Slot) (was : RecState) : State :=
  match s.board i with
  | none => s
  | some r =>
    let v := verdictOf (s.entryOf r) r
    let s1 := (s.setBoard i (some { r with verdict := some v })).release r
    let s2 := s1.modBoard i fun x =>
      { x with armed := x.armed.filter fun e => decide (e.kind = .exitDue), state := .decided }
    if was = .entering ∧ (s2.lane r.lane).entry = .covered then
      s2.setLane r.lane { s2.lane r.lane with entry := .untracked }
    else s2

/-- The close procedure (R126 to R129), on a record in ENTERING or INSPECTING (R124). -/
def State.close (s : State) (i : Slot) : State :=
  match s.board i with
  | none => s
  | some r => (((s.endHeads i).countUnwalked i).resolveSuspects i).fixVerdict i r.state

/-- A record not yet closed is closed; a DECIDED one keeps its verdict. -/
def State.closeIfOpen (s : State) (i : Slot) : State :=
  match s.board i with
  | some r => if r.state = .entering ∨ r.state = .inspecting then s.close i else s
  | none => s

/-- The close check: an INSPECTING record with every head final is closed (R125). -/
def State.closeCheck (s : State) (i : Slot) : State :=
  match s.board i with
  | some r => if r.state = .inspecting ∧ r.allFinal then s.close i else s
  | none => s

/-! ### A head becomes final other than by close (R83) -/

def HeadStatus.flag : HeadStatus → Option BoardFlag
  | .late => some .headLate
  | .faulted => some .headFaulted
  | _ => none

/-- Head n takes a final status: HEAD_LIMIT(n) disarmed, HEAD_LATE or HEAD_FAULTED set (R83). The close
check is made after it. -/
def State.markFinal (s : State) (i : Slot) (n : HeadId) (x : HeadStatus) : State :=
  s.modBoard i fun r =>
    let r' := (r.setStatus n x).disarm (.headLimit n)
    match HeadStatus.flag x with
    | some f => r'.addFlag f
    | none => r'

/-- results_discarded of head n increases, holding at 65535 (R88). -/
def State.discard (s : State) (i : Slot) (n : HeadId) : State :=
  s.modBoard i fun r => r.modHead n fun h => { h with discarded := holdAt16 (h.discarded + 1) }

/-! ### LEAVING -/

/-- The record leaves its lane order and becomes LEAVING with no armed event; with no outstanding defects
it joins the summary-ready list (R140, R142, R144). -/
def State.makeLeaving (s : State) (i : Slot) (fate : ExitFate) : State :=
  match s.board i with
  | none => s
  | some r =>
    let s1 := s.setBoard i (some { r with exitFate := some fate, armed := [], state := .leaving })
    let s2 := s1.setLane r.lane
      { s1.lane r.lane with order := setErase i (s1.lane r.lane).order }
    if r.outstanding = 0 then s2.joinSummary i else s2

/-- The target of a record's EXIT_DUE (R35). -/
def State.exitDueTarget (s : State) (r : Record) : Pos :=
  let m := (s.lane r.lane).map
  (r.targetOf .exitDue).getD (r.entryPos + pos (m.gateOffset + m.exitTolerance))

/-- Steps 1 to 5 of R142 for one record, with its fault MISSING_AT_EXIT. -/
def State.miss (s : State) (i : Slot) (target : Pos) : State :=
  match s.board i with
  | none => s
  | some r =>
    let s1 := (s.closeIfOpen i).modBoard i fun x => x.addFlag .missingAtExit
    let s2 := (s1.makeLeaving i .missing).recordFault
      { cause := .missingAtExit, source := .verdictUnit, lane := some r.lane, tag := some r.tag,
        slot := some i, position := some target, detail := if r.state = .decided then 0 else 1 }
    s2.applyHeldMap r.lane

end Sys2Proof.Machine
end

