-- ==== Sys2Proof/Machine/Move.lean ====
section
/-! DEFINITION. The Move Engine: a ring applied or held (R158), the drops of a channel that becomes DISABLED
(R157), the records a write fixes (R154, R167), the watches (R164) and a write's completion (R155). -/

namespace Sys2Proof.Machine

open Sys2Proof

/-! ### Rings -/

/-- The records waiting in a channel's source are dropped, oldest first (R157). -/
def State.dropSource (s : State) : Channel → State
  | .defect => s.defects.foldl (fun u d => u.dropOutstanding d.slot) { s with defects := [] }
  | .summary =>
    s.summaryReady.foldl (fun u i => u.setBoard i none) { s with summaryReady := [] }

/-- A channel's fields after a ring is applied (R158); for size 0 base and priority are not used and stay
(log entry 33). -/
def ChannelReg.applied (x : ChannelReg) (r : Ring) : ChannelReg :=
  { x with
    state := if r.size = 0 then .disabled else .running
    ring := if r.size = 0 then { x.ring with size := 0 } else r
    producer := 0#17
    consumer := 0#17
    blockInUse := x.blockSetting
    blockCount := 0
    held := none
    write := none }

def State.applyRing (s : State) (c : Channel) (r : Ring) : State :=
  let s1 := s.setChannel c ((s.channel c).applied r)
  if r.size = 0 then s1.dropSource c else s1.requestWrite c

/-- A RING_SET is applied at once in these cases (R158). -/
def ChannelReg.takesRing (x : ChannelReg) : Bool :=
  decide (x.state = .disabled) || decide (x.state = .faulted) ||
    (decide (x.occupancy = 0) && !x.inFlight)

/-- The ring is kept as held; a waiting write is withdrawn (R158). -/
def ChannelReg.hold (x : ChannelReg) (r : Ring) : ChannelReg :=
  { x with held := some r, write := if x.inFlight then x.write else none }

/-! ### What a write fixes at its grant -/

/-- The summary record of a board (R167). -/
def Record.summary (r : Record) : SummaryRec where
  tag := r.tag
  lane := r.lane
  recipe := r.recipe
  serial := r.serial
  entryPos := r.entryPos
  length := r.length
  exitPos := r.exitPos
  verdict := r.verdict
  exitFate := r.exitFate
  flags := r.flags
  counts := r.counts
  heads :=
    ⟨(r.heads.v0.status, r.heads.v0.discarded), (r.heads.v1.status, r.heads.v1.discarded),
      (r.heads.v2.status, r.heads.v2.discarded), (r.heads.v3.status, r.heads.v3.discarded)⟩

/-- The source record of a channel, with its board's slot (R153, R154). -/
def State.sourceRecord (s : State) : Channel → Option (LogRecord × Slot)
  | .defect => s.defects.head?.map fun d => (.defect d.record, d.slot)
  | .summary => s.summaryReady.head?.bind fun i => (s.board i).map fun r => (.summary r.summary, i)

def LogRecord.lane : LogRecord → Lane
  | .defect d => d.lane
  | .summary r => r.lane

def LogRecord.tag : LogRecord → Tag
  | .defect d => d.tag
  | .summary r => r.tag

/-! ### A write's completion (R155) -/

/-- Step 1: the record leaves its source; a detached record has no board (R161). -/
def State.leaveSource (s : State) (c : Channel) (board : Option Slot) : State :=
  match board with
  | none => s
  | some i =>
    match c with
    | .defect => State.dropOutstanding { s with defects := s.defects.tail } i
    | .summary => State.setBoard { s with summaryReady := s.summaryReady.tail } i none

/-- Steps 2 and 3: the indexes and the block count (R155, R162). -/
def ChannelReg.advance (x : ChannelReg) : ChannelReg :=
  let y := { x with producer := x.producer + 1#17, seq := x.seq + 1#16 }
  if x.blockCount + 1 = x.blockInUse then
    { y with blockCount := 0, blockInUse := x.blockSetting }
  else { y with blockCount := x.blockCount + 1 }

def Channel.blockFlag : Channel → AlertFlag
  | .defect => .logBlockD
  | .summary => .logBlockS

def Channel.fullFlag : Channel → AlertFlag
  | .defect => .logFullD
  | .summary => .logFullS

def State.advance (s : State) (c : Channel) : State :=
  let s1 := s.setChannel c (s.channel c).advance
  if (s.channel c).blockCount + 1 = (s.channel c).blockInUse then s1.raise .sta (Channel.blockFlag c) else s1

/-- All four fields match the record's; a field that is any matches every value (R164). -/
def Watch.fits (w : Watch) (d : DefectRec) : Bool :=
  w.enable && (w.recipe.all fun r => decide (d.recipe = some r)) &&
    (w.joint.all fun j => decide (d.joint = j)) && (w.cls.all fun c => decide (d.cls = c)) &&
    (w.criticality.all fun c => decide (d.criticality = c))

/-- The watch after it matches (R164). -/
def Watch.matched (w : Watch) (seq : SeqNo) (d : DefectRec) : Watch :=
  match w.status with
  | none => { w with status := some ⟨seq, d.tag, d.joint⟩ }
  | some _ => { w with again := true, seen := false }

def State.matchWatch (s : State) (seq : SeqNo) (d : DefectRec) (w : WatchId) : State :=
  if (s.watch w).fits d then (s.setWatch w ((s.watch w).matched seq d)).raise .sta .watchHit else s

/-- Step 4: a DEFECT record is matched against the watches. -/
def State.matchWatches (s : State) (seq : SeqNo) : LogRecord → State
  | .defect d => WatchId.all.foldl (fun u w => u.matchWatch seq d w) s
  | .summary _ => s

/-- Step 5: FULL at the ring size. -/
def State.fullCheck (s : State) (c : Channel) : State :=
  if (s.channel c).occupancy = (s.channel c).ring.size then
    (s.setChannel c { s.channel c with state := .full }).raise .sta (Channel.fullFlag c)
  else s

/-- Step 6: no write, and the next is requested where R154 allows. -/
def State.nextWrite (s : State) (c : Channel) : State :=
  (s.setChannel c { s.channel c with write := none }).requestWrite c

def State.completeWrite (s : State) (c : Channel) (seq : SeqNo) (r : LogRecord)
    (board : Option Slot) : State :=
  (((((s.leaveSource c board).advance c).matchWatches seq r).fullCheck c).nextWrite c)

end Sys2Proof.Machine
end

