-- ==== Sys2Proof/Machine/Grant.lean ====
section
/-! DEFINITION. The Memory Arbiter's grants (R148 to R151, R154, R159), and the grant that follows the event
that made a request wait on an idle arbiter (R148). -/

namespace Sys2Proof.Machine

open Sys2Proof

/-! ### Requests that wait -/

def State.startOp (s : State) (o : MemOp) : State :=
  { s with arbiter := { s.arbiter with op := some o } }

/-- The operation a port's pending request asks for (R147); with none in flight, it waits. -/
def State.portOp (s : State) (p : MemPort) : Option MemOp :=
  match (s.port p.port).pending with
  | some (.progRead a n) => some ⟨.port p, .progRead, a, n⟩
  | some (.progWrite a bytes) => some ⟨.port p, .progWrite, a, bytes.length⟩
  | some .cacheIsolate => none
  | none => none

/-- The ports in the order they are examined (R149). -/
def portOrder (p : MemPort) : List MemPort :=
  [p.next, p.next.next, p.next.next.next, p.next.next.next.next, p]

/-- The first port in the round robin with a request (R149). -/
def State.waitingPort (s : State) : Option (MemPort × MemOp) :=
  (portOrder s.arbiter.lastPort).findSome? fun p => (s.portOp p).map fun o => (p, o)

def State.waits (s : State) (c : Channel) : Bool :=
  match (s.channel c).write with
  | some (.waiting _) => true
  | some (.inFlight _ _ _ _) => false
  | none => false

/-- The channel whose write is granted (R150). -/
def State.waitingChannel (s : State) : Option Channel :=
  match s.waits .defect, s.waits .summary with
  | false, false => none
  | true, false => some .defect
  | false, true => some .summary
  | true, true =>
    match (s.channel .defect).ring.priority, (s.channel .summary).ring.priority with
    | .high, .low => some .defect
    | .low, .high => some .summary
    | .high, .high => some s.arbiter.lastChannel.other
    | .low, .low => some s.arbiter.lastChannel.other

/-! ### Grants -/

/-- The fill's operation: one whole line (R63). -/
def Fill.op (f : Fill) : MemOp := ⟨.cache, .fill, f.address, 64⟩

/-- A move write whose region allows it: the channel fixes record and sequence number (R154). -/
def State.startMove (s : State) (c : Channel) (r : LogRecord) (i : Slot) : State :=
  let x := s.channel c
  (s.setChannel c { x with write := some (.inFlight x.producer x.seq r (some i)) }).startOp
    ⟨.channel c, .moveWrite, x.placeAddress x.producer, 32⟩

/-- The fault of a move write refused at its re-check (R159). -/
def State.violation (s : State) (c : Channel) (r : LogRecord) (i : Slot) : FaultRec :=
  { cause := .accessViolation, source := .moveEngine, lane := some r.lane, tag := some r.tag,
    slot := if c = .summary then some i else none,
    detail := (s.channel c).place (s.channel c).producer }

/-- The grant is given up: the channel is FAULTED and holds no write (R159). -/
def State.refuseMove (s : State) (c : Channel) (r : LogRecord) (i : Slot) : State :=
  ((s.setChannel c { s.channel c with state := .faulted, write := none }).recordFault
    (s.violation c r i)).raise .sta .channelFault

/-- The grant of channel `c`'s write: made, or given up (R154, R159). The mark says given up. -/
def State.grantChannel (s : State) (c : Channel) : State × Bool :=
  let s1 := { s with arbiter := { s.arbiter with lastChannel := c } }
  match s1.sourceRecord c with
  | none => (s1.setChannel c { s1.channel c with write := none }, true)
  | some (r, i) =>
    if (s1.regionAt ((s1.channel c).placeAddress (s1.channel c).producer)).moveWrite then
      (s1.startMove c r i, false)
    else (s1.refuseMove c r i, true)

/-- The grant of a port's request: made, or given up at the IN_USE re-check of a write (R55). -/
def State.grantPort (s : State) (p : MemPort) (o : MemOp) : State × Bool :=
  let s1 := { s with arbiter := { s.arbiter with lastPort := p } }
  if o.kind = .progWrite ∧ s1.inUse o.address o.count then
    (s1.endPending p.port .progWrite ⟨.inUse, []⟩, true)
  else (s1.startOp o, false)

/-- One grant, where a request waits; the mark says it was given up (R148, R151). -/
def State.grantOnce (s : State) : State × Bool :=
  if s.arbiter.op.isSome then (s, false)
  else
    match s.cache.fill with
    | some f => (s.startOp f.op, false)
    | none =>
      match s.waitingPort with
      | some (p, o) => s.grantPort p o
      | none =>
        match s.waitingChannel with
        | some c => s.grantChannel c
        | none => (s, false)

/-- Grants within one event, at most so many: one given up is followed by another (R151). -/
def State.grantUpTo : Nat → State → State
  | 0, s => s
  | k + 1, s =>
    match s.grantOnce with
    | (s1, true) => State.grantUpTo k s1
    | (s1, false) => s1

/-- The grant of an event. Each grant given up leaves one fewer of the five ports and two channels waiting, so
eight are enough in every state (Laws/Grant.lean, grant_of_givenUp). -/
def State.grant (s : State) : State := State.grantUpTo 8 s

/-- A request waits: the fill's, a port's or a channel's (R148). -/
def State.requests (s : State) : Bool :=
  s.cache.fill.isSome || s.waitingPort.isSome || s.waitingChannel.isSome

/-- The arbiter's two conditions hold: no operation is in flight and a request waits (R148). -/
def State.grantDue (s : State) : Bool := s.arbiter.op.isNone && s.requests

/-- The state `t` that an event on `s` leaves, and where that event made both conditions hold, the grant that
follows it at once (R148; log entry 9). -/
def State.thenGrant (s t : State) : State := if t.grantDue && !s.grantDue then t.grant else t

end Sys2Proof.Machine
end

