-- ==== Sys2Proof/Machine/Merge.lean ====
section
/-! DEFINITION. Joint Merge: the merge rules (R109 to R116), the walk of a head list (R98 to R106), the
finish of a RESULT item (R107), and the row MERGE_TAKE_ITEM (R88 to R90, R96). -/

namespace Sys2Proof.Machine

open Sys2Proof

/-! ### Merge rules -/

/-- R110. -/
def State.resolveAdvisory (s : State) (i : Slot) (joint : JointId) (p : Report) :
    State × List FaultRec :=
  match p.grade with
  | .defect =>
    match s.board i with
    | some r =>
      (s.modCounts i fun c => { c with advisory := c.advisory + 1 }).addDefect .mergeEngine i
        (r.defectOf joint true p)
    | none => (s, [])
  | .good | .marginal | .notMeasured => (s, [])

/-- The more severe of two criticalities, MINOR below MAJOR below CRITICAL (R114). -/
def Criticality.worse (a b : Criticality) : Criticality := if a.code < b.code then b else a

/-- The defect record of a pair (R114); both values are present then. -/
def Record.pairOf (r : Record) (joint : JointId) (a b : Report) : DefectRec :=
  let main := if a.grade = .defect then a else b
  let other := if a.grade = .defect then b else a
  { tag := r.tag
    lane := r.lane
    recipe := r.recipe
    serial := r.serial
    entryPos := r.entryPos
    joint := joint
    cls := main.cls.getD .other
    criticality := Criticality.worse a.criticality b.criticality
    advisory := false
    firstHead := a.head
    firstGrade := a.grade
    second := some (b.head, b.grade)
    value := main.value.getD 0#16
    secondValue := some (other.value.getD 0#16) }

/-- A pair that gives a defect (R114). -/
def State.pairDefect (s : State) (i : Slot) (joint : JointId) (a b : Report) :
    State × List FaultRec :=
  match s.board i with
  | some r =>
    (s.modCounts i (Counts.addDefect (Criticality.worse a.criticality b.criticality))).addDefect
      .mergeEngine i (r.pairOf joint a b)
  | none => (s, [])

/-- Two reports resolved as a pair, the first row of R113 that holds. -/
def State.resolvePair (s : State) (i : Slot) (joint : JointId) (a b : Report) :
    State × List FaultRec :=
  match a.grade, b.grade with
  | .good, .good => (s, [])
  | .good, _ => (s.modCounts i fun c => { c with cleared := c.cleared + 1 }, [])
  | _, .good => (s.modCounts i fun c => { c with cleared := c.cleared + 1 }, [])
  | .notMeasured, .notMeasured => (s.modCounts i fun c => { c with unseen := c.unseen + 2 }, [])
  | .notMeasured, _ => s.resolveAlone .mergeEngine i joint b
  | _, .notMeasured => s.resolveAlone .mergeEngine i joint a
  | .defect, _ => s.pairDefect i joint a b
  | _, .defect => s.pairDefect i joint a b
  | .marginal, .marginal => (s.modCounts i fun c => { c with marginals := c.marginals + 1 }, [])

/-- The key of a suspect; the pool is kept in its order. -/
def Suspect.key (x : Suspect) : Nat := x.slot.val * 4096 + x.joint.toNat

/-- A suspect is created, or with a full pool the report is resolved alone and SUSPECT_OVERFLOW set (R116). -/
def State.addSuspect (s : State) (i : Slot) (joint : JointId) (p : Report) :
    State × List FaultRec :=
  if s.suspects.length < Config.suspectCapacity then
    let x : Suspect := ⟨i, joint, p.head, p.grade, p.cls, p.value, p.criticality⟩
    ({ s with suspects := insertBy Suspect.key x s.suspects }, [])
  else
    match s.board i with
    | some r =>
      let a := s.resolveAlone .mergeEngine i joint p
      (a.1.modBoard i fun x => x.addFlag .suspectOverflow,
        a.2 ++ if r.has .suspectOverflow then []
          else [{ cause := .suspectPoolFull, source := .mergeEngine, lane := some r.lane,
                  tag := some r.tag, slot := some i, head := some p.head, joint := some joint,
                  detail := Config.suspectCapacity }])
    | none => (s, [])

/-- The suspect held for a slot and joint. -/
def State.suspectAt (s : State) (i : Slot) (joint : JointId) : Option Suspect :=
  s.suspects.find? fun x => decide (x.slot = i) && decide (x.joint = joint)

/-- Head n has passed joint j: its last_passed is present and at or above j (R111). -/
def HeadRec.hasPassed (h : HeadRec) (joint : JointId) : Bool :=
  h.lastPassed.any fun p => decide (joint ≤ p)

/-- The CONFIRM cases, the first row of R111 that holds. -/
def State.resolveConfirm (s : State) (i : Slot) (e : HeadEntry) (p : Report) :
    State × List FaultRec :=
  match s.suspectAt i e.joint with
  | some x =>
    State.resolvePair { s with suspects := setErase x s.suspects } i e.joint x.report p
  | none =>
    match s.board i with
    | some r =>
      if (r.heads.get e.partner).hasPassed e.joint then
        s.resolvePair i e.joint ⟨e.partner, .good, none, none, p.criticality⟩ p
      else if (r.headStatus e.partner).isFinal then s.resolveAlone .mergeEngine i e.joint p
      else if p.grade = .good then (s, [])
      else s.addSuspect i e.joint p
    | none => (s, [])

/-- The rule of a passed entry (R109). -/
def State.applyRule (s : State) (i : Slot) (e : HeadEntry) (p : Report) : State × List FaultRec :=
  match e.rule with
  | .advisory => s.resolveAdvisory i e.joint p
  | .any => s.resolveAlone .mergeEngine i e.joint p
  | .confirm =>
    if e.partner = p.head then s.resolveAlone .mergeEngine i e.joint p else s.resolveConfirm i e p

/-- The rules of passed entries in walk order; each reads what the ones before it left (R107, step 2). -/
def State.applyRules (s : State) (i : Slot) : List (HeadEntry × Report) → State × List FaultRec
  | [] => (s, [])
  | (e, p) :: rest =>
    let a := s.applyRule i e p
    let b := a.1.applyRules i rest
    (b.1, a.2 ++ b.2)

/-! ### The finish of a RESULT item -/

/-- How a walk ends (R101). -/
inductive WalkEnd where
  | matched | notInProgram | programCheck | programOrder
  deriving DecidableEq, Repr

def WalkEnd.cause : WalkEnd → Option Cause
  | .matched => none
  | .notInProgram => some .notInProgram
  | .programCheck => some .programCheck
  | .programOrder => some .programOrder

/-- A skipped entry's report (R105). -/
def InFlight.skip (x : InFlight) (e : HeadEntry) : Report :=
  ⟨x.head, .notMeasured, none, none, e.criticality⟩

/-- The matched entry's report (R107). -/
def InFlight.hit (x : InFlight) (e : HeadEntry) : Report :=
  ⟨x.head, x.grade, x.cls, some x.value, e.criticality⟩

/-- The passed entries with their reports, in walk order. -/
def InFlight.passed (x : InFlight) (m : Option HeadEntry) : List (HeadEntry × Report) :=
  (x.walk.map fun w => (w.entry, x.skip w.entry)) ++ m.toList.map fun e => (e, x.hit e)

/-- The Merge Engine is idle (R107, R99). -/
def State.idle (s : State) : State := { s with merge := { s.merge with item := none } }

/-- TAKEN becomes REPORTING (R107, step 1). -/
def Record.reporting (r : Record) (n : HeadId) : Record :=
  if r.headStatus n = .taken then r.setStatus n .reporting else r

/-- Cursor and last_passed after the passed entries (R107, step 3). -/
def HeadRec.advance (h : HeadRec) (ps : List (HeadEntry × Report)) : HeadRec :=
  { h with
    cursor := h.cursor + ps.length
    lastPassed := match ps.getLast? with
      | some p => some p.1.joint
      | none => h.lastPassed }

/-- A walk that met a bad entry makes the head FAULTED, and the close check follows (R102, R103, R83). -/
def State.walkFault (s : State) (x : InFlight) : WalkEnd → State
  | .programCheck | .programOrder => (s.markFinal x.slot x.head .faulted).closeCheck x.slot
  | .matched | .notInProgram => s

/-- The fault of a walk's end, at walk cursor `c` (R102 to R104). -/
def WalkEnd.fault (w : WalkEnd) (x : InFlight) (r : Record) (c : Nat) : List FaultRec :=
  w.cause.toList.map fun k =>
    { cause := k, source := .mergeEngine, lane := some r.lane, tag := some r.tag,
      slot := some x.slot, head := some x.head, joint := some x.joint, detail := c }

/-- The finish of a RESULT item, its effects in the order of R107. -/
def State.finish (s : State) (x : InFlight) (m : Option HeadEntry) (w : WalkEnd) : State :=
  match s.board x.slot with
  | none => s.idle
  | some r =>
    let ps := x.passed m
    let a := (s.modBoard x.slot fun y => y.reporting x.head).applyRules x.slot ps
    let s3 := a.1.modBoard x.slot fun y => y.modHead x.head fun h => h.advance ps
    let s4 := s3.walkFault x w
    (s4.recordFaults (w.fault x r ((r.heads.get x.head).cursor + ps.length) ++ a.2)).idle

/-! ### The walk -/

/-- What an entry supplied to a walk leads to (R101). -/
inductive Judged where
  | skipped (e : HeadEntry)
  | matched (e : HeadEntry)
  | stops (w : WalkEnd)
  deriving DecidableEq, Repr

/-- The joint id of the entry passed before (R101, step 2). -/
def InFlight.previous (x : InFlight) (r : Record) : Option JointId :=
  match x.walk.getLast? with
  | some w => some w.entry.joint
  | none => (r.heads.get x.head).lastPassed

/-- The three steps of R101. -/
def InFlight.judge (x : InFlight) (r : Record) (raw : List Byte) : Judged :=
  match HeadEntry.ofBytes raw with
  | none => .stops .programCheck
  | some e =>
    if (x.previous r).any fun p => decide (e.joint ≤ p) then .stops .programOrder
    else if e.joint < x.joint then .skipped e
    else if e.joint = x.joint then .matched e
    else .stops .notInProgram

/-- The fault of an item whose tag no live record carries (R88). -/
def strayFault (n : HeadId) (t : Tag) (joint : Option JointId) (kind : Nat) : FaultRec :=
  { cause := .strayResult, source := .headLink, tag := some t, head := some n, joint := joint,
    detail := kind }

/-- The walk's cursor. -/
def InFlight.cursor (x : InFlight) (r : Record) : Nat := (r.heads.get x.head).cursor + x.walk.length

/-- The item with one more entry supplied. -/
def InFlight.extend (x : InFlight) (r : Record) (e : HeadEntry) : InFlight :=
  { x with walk := x.walk ++ [⟨x.cursor r, e⟩] }

/-- An entry is supplied to the walk: the item is examined again (R99) and the entry judged (R101). The item
where the walk goes on, else none. -/
def State.supply (s : State) (x : InFlight) (raw : List Byte) : State × Option InFlight :=
  match s.board x.slot with
  | none => ((s.recordFault (strayFault x.head x.tag (some x.joint) 0)).idle, none)
  | some r =>
    if r.tag ≠ x.tag then ((s.recordFault (strayFault x.head x.tag (some x.joint) 0)).idle, none)
    else if (r.headStatus x.head).isFinal then ((s.discard x.slot x.head).idle, none)
    else
      match x.judge r raw with
      | .skipped e => (s, some (x.extend r e))
      | .matched e => (s.finish x (some e) .matched, none)
      | .stops w => (s.finish x none w, none)

/-- The address of the next entry a walk asks for; none where its cursor is at the list's end (R101). -/
def State.nextEntry (s : State) (x : InFlight) : Option Nat :=
  match s.board x.slot with
  | none => none
  | some r =>
    (s.entryOf r).bind fun d =>
      if x.cursor r < d.listLength.get x.head then
        some (d.listBase.get x.head + 8 * x.cursor r)
      else none

/-- The walk goes on: the next entry is asked for, at most `fuel` of them, until one waits on a fill or the
walk ends (R98, R101). -/
def State.walkOn : Nat → State → InFlight → State
  | 0, s, x => s.finish x none .notInProgram
  | fuel + 1, s, x =>
    match s.nextEntry x with
    | none => s.finish x none .notInProgram
    | some a =>
      match s.cacheRequest a with
      | (s1, none) => { s1 with merge := { s1.merge with item := some x } }
      | (s1, some raw) =>
        match s1.supply x raw with
        | (s2, none) => s2
        | (s2, some y) => State.walkOn fuel s2 y

/-- The entries from the walk's cursor to the list's end. -/
def State.entriesLeft (s : State) (x : InFlight) : Nat :=
  match s.board x.slot with
  | none => 0
  | some r => ((s.entryOf r).map fun d => d.listLength.get x.head - x.cursor r).getD 0

/-- The walk from where it stands. Each entry skipped is one fewer left, so it stops by R101 and never for
want of fuel (Laws/Engines.lean, walk_eq). -/
def State.walk (s : State) (x : InFlight) : State := State.walkOn (s.entriesLeft x + 1) s x

/-! ### Taking an item -/

def Item.tag : Item → Tag
  | .result t _ _ _ _ => t
  | .done t => t
  | .abort t _ => t

/-- RESULT 0, DONE 1, ABORT 2 (R88). -/
def Item.kind : Item → Nat
  | .result _ _ _ _ _ => 0
  | .done _ => 1
  | .abort _ _ => 2

def Item.joint : Item → Option JointId
  | .result _ j _ _ _ => some j
  | .done _ => none
  | .abort _ _ => none

/-- R88: an item for a head that has not taken its trigger. -/
def earlyFault (n : HeadId) (i : Slot) (r : Record) (x : Item) : FaultRec :=
  { cause := .earlyResult, source := .headLink, lane := some r.lane, tag := some r.tag,
    slot := some i, head := some n, joint := Item.joint x, detail := Item.kind x }

/-- R100: a RESULT at or below last_passed. -/
def sequenceFault (n : HeadId) (i : Slot) (r : Record) (joint last : JointId) : FaultRec :=
  { cause := .sequenceError, source := .mergeEngine, lane := some r.lane, tag := some r.tag,
    slot := some i, head := some n, joint := some joint, detail := last.toNat }

/-- R90. -/
def abortFault (n : HeadId) (i : Slot) (r : Record) (reason : Byte) : FaultRec :=
  { cause := .headAborted, source := .headLink, lane := some r.lane, tag := some r.tag,
    slot := some i, head := some n, position := some r.entryPos, detail := reason.toNat }

/-- An item applied to a record whose head is TAKEN or REPORTING (R89, R90, R100, R101). -/
def State.applyItem (s : State) (n : HeadId) (i : Slot) (r : Record) : Item → State
  | .done _ => (s.markFinal i n .complete).closeCheck i
  | .abort _ reason =>
    ((s.markFinal i n .faulted).recordFault (abortFault n i r reason)).closeCheck i
  | .result tag joint grade cls value =>
    match (r.heads.get n).lastPassed with
    | some last =>
      if joint ≤ last then s.recordFault (sequenceFault n i r joint last)
      else s.walk ⟨n, i, tag, joint, grade, cls, value, []⟩
    | none => s.walk ⟨n, i, tag, joint, grade, cls, value, []⟩

/-- An item taken is settled by its head's status on its record (R88). -/
def State.settle (s : State) (n : HeadId) (x : Item) : State :=
  match s.slotOfTag (Item.tag x) with
  | none => s.recordFault (strayFault n (Item.tag x) (Item.joint x) (Item.kind x))
  | some i =>
    match s.board i with
    | none => s.recordFault (strayFault n (Item.tag x) (Item.joint x) (Item.kind x))
    | some r =>
      match r.headStatus n with
      | .waiting | .triggered => s.recordFault (earlyFault n i r x)
      | .taken | .reporting => s.applyItem n i r x
      | .complete | .late | .faulted | .absent | .notRequired => s.discard i n

/-- The heads in the order they are examined (R96). -/
def roundRobin (n : HeadId) : List HeadId :=
  [HeadId.next n, HeadId.next (HeadId.next n), HeadId.next (HeadId.next (HeadId.next n)), n]

/-- The conditions of R96. -/
def State.mayTake (s : State) : Bool :=
  decide (s.merge.item = none) && decide (s.cache.isolation = .normal)

/-- The idle engine takes the oldest item of the next eligible queue (R96). -/
def State.mergeTake (s : State) : State :=
  if s.mayTake then
    match (roundRobin s.merge.lastServed).find? s.eligible with
    | none => s
    | some n =>
      match (s.link n).results with
      | [] => s
      | x :: rest =>
        let s1 := s.setLink n { s.link n with results := rest }
        State.settle { s1 with merge := { s1.merge with lastServed := n } } n x
  else s

def execMergeTakeItem (s : State) : Host.Outcome State Fault Refusal :=
  .next (s.thenGrant s.mergeTake)

end Sys2Proof.Machine
end

