-- ==== Sys2Proof/Machine/Arbiter.lean ====
section
/-! DEFINITION. The Memory Arbiter and the Program Memory Port: the ends of the four kinds of operation (R64,
R56, R55, R155), each followed by the next grant within its event (R151), and the row MEMORY_GRANT. -/

namespace Sys2Proof.Machine

open Sys2Proof

/-! ### Ends -/

def State.endOp (s : State) : State := { s with arbiter := { s.arbiter with op := none } }

/-- The waiting request is looked up again at the fill's end (R64), and the walk goes on where it hits. -/
def State.resume (s : State) : State :=
  match s.cache.waiting with
  | none => s
  | some a =>
    match State.cacheRequest { s with cache := { s.cache with waiting := none } } a with
    | (s1, none) => s1
    | (s1, some raw) =>
      match s1.merge.item with
      | none => s1
      | some x =>
        match s1.supply x raw with
        | (s2, none) => s2
        | (s2, some y) => s2.walk y

/-- The line is written unless spoiled, no fill is in flight, and the waiting request is looked up (R64, R65). -/
def State.fillEnds (s : State) (f : Fill) : State :=
  let s1 := s.fillLine f
  (State.resume { s1 with cache := { s1.cache with fill := none } }).isolationEffect

/-- CACHE_FILL_END. An end that is not that of the operation in flight changes nothing (log entry 7). -/
def State.cacheFillEnd (s : State) : State :=
  match s.arbiter.op, s.cache.fill with
  | some o, some f => if o.kind = .fill then (s.endOp.fillEnds f).grant else s
  | _, _ => s

/-- PROG_READ_END: DONE with the bytes as memory holds them (R56). -/
def State.progReadEnd (s : State) : State :=
  match s.arbiter.op with
  | some ⟨.port p, .progRead, a, n⟩ =>
    (s.endOp.endPending p.port .progRead
      ⟨.done, encList (fun b => [b]) (Memory.readBytes s.mem a n)⟩).grant
  | _ => s

/-- The bytes a port's PROG_WRITE carries. -/
def State.writeBytesOf (s : State) (p : MemPort) : List Byte :=
  match (s.port p.port).pending with
  | some (.progWrite _ bytes) => bytes
  | _ => []

/-- PROG_WRITE_END: the bytes are in memory, write-through, DONE (R55). -/
def State.progWriteEnd (s : State) : State :=
  match s.arbiter.op with
  | some ⟨.port p, .progWrite, a, _⟩ =>
    ((s.endOp.writeEnds a (s.writeBytesOf p)).endPending p.port .progWrite ⟨.done, []⟩).grant
  | _ => s

/-- MOVE_WRITE_END: write-through, then R155. -/
def State.moveWriteEnd (s : State) : State :=
  match s.arbiter.op with
  | some ⟨.channel c, .moveWrite, a, _⟩ =>
    match (s.channel c).write with
    | some (.inFlight _ seq r board) =>
      ((s.endOp.writeEnds a (r.logBytes seq)).completeWrite c seq r board).grant
    | _ => s
  | _ => s

/-! ### The rows -/

/-- MEMORY_GRANT: the arbiter's grant (R148). A request made while no operation is in flight is granted with the
event that made it, so from reset the row finds none that waits (log entry 9). -/
def execMemoryGrant (s : State) : Host.Outcome State Fault Refusal := .next s.grant

def execCacheFillEnd (s : State) : Host.Outcome State Fault Refusal := .next s.cacheFillEnd

def execProgReadEnd (s : State) : Host.Outcome State Fault Refusal := .next s.progReadEnd

def execProgWriteEnd (s : State) : Host.Outcome State Fault Refusal := .next s.progWriteEnd

def execMoveWriteEnd (s : State) : Host.Outcome State Fault Refusal := .next s.moveWriteEnd

end Sys2Proof.Machine
end

