-- ==== Sys2Proof/Machine/Schedule.lean ====
section
/-! DEFINITION. The lane schedule at work: an armed event that is due is taken by its owner (R37, R38),
events due at the moment they are armed (R36), and the rows BELT_STEP, LENGTH_LIMIT, HEAD_OPEN,
HEAD_LIMIT, DEADLINE and EXIT_DUE. -/

namespace Sys2Proof.Machine

open Sys2Proof

/-- An armed event that is due leaves the schedule and its owner acts on it (R37). A command for an event
that is not armed or not due finds no event and changes nothing (log entry 7). -/
def State.takeEvent (s : State) (i : Slot) (k : EventKind)
    (act : Record → Pos → State → State) : State :=
  match s.board i with
  | none => s
  | some r =>
    match r.targetOf k with
    | none => s
    | some t =>
      if due (s.lane r.lane).counter t then
        act (r.disarm k) t (s.setBoard i (some (r.disarm k)))
      else s

/-- The trigger of head n for a record (R76). -/
def Record.triggerOf (r : Record) (n : HeadId) (k : RecipeId) (e : DirEntry) : Trigger :=
  ⟨r.tag, r.lane, k, r.serial, r.entryPos, e.listBase.get n, e.listLength.get n⟩

/-- HEAD_OPEN(n) at Head Link n: a trigger, or a trigger overrun on a full queue (R77, R78). -/
def headOpenAct (i : Slot) (n : HeadId) (r : Record) (t : Pos) (s : State) : State :=
  if r.headStatus n ≠ .waiting then s
  else
    match (s.link n).triggers with
    | oldest :: rest =>
      if (oldest :: rest).length < Config.triggerCapacity then place
      else
        ((s.markFinal i n .faulted).recordFault
          { cause := .triggerOverrun, source := .headLink, lane := some r.lane, tag := some r.tag,
            slot := some i, head := some n, position := some t,
            detail := oldest.tag.toNat }).closeCheck i
    | [] => place
where
  place : State :=
    match r.recipe, s.entryOf r with
    | some k, some e =>
      (s.setRawLink n { s.link n with triggers := (s.link n).triggers ++ [r.triggerOf n k e] }).modBoard
        i fun x => x.setStatus n .triggered
    | _, _ => s

/-- HEAD_LIMIT(n) at Head Link n: an untaken trigger is removed, the head becomes LATE, and the close check
follows (R84, R83). -/
def headLimitAct (i : Slot) (n : HeadId) (r : Record) (_t : Pos) (s : State) : State :=
  match r.headStatus n with
  | .triggered => ((s.dropTrigger n r.tag).markFinal i n .late).closeCheck i
  | .taken | .reporting => (s.markFinal i n .late).closeCheck i
  | .waiting | .complete | .late | .faulted | .absent | .notRequired => s

/-- DEADLINE closes the record and leaves it DECIDED in its lane order (R131). -/
def deadlineAct (i : Slot) (_r : Record) (_t : Pos) (s : State) : State := s.closeIfOpen i

/-- EXIT_DUE (R142): each record ahead goes missing first, front first, then the record itself. -/
def exitDueAct (i : Slot) (r : Record) (t : Pos) (s : State) : State :=
  let order := (s.lane r.lane).order
  if order.contains i then
    let ahead := order.takeWhile fun j => decide (j ≠ i)
    (ahead.foldl (fun u j =>
      match u.board j with
      | some x => u.miss j (u.exitDueTarget x)
      | none => u) s).miss i t
  else s

/-- The events of the record in slot `i` of the kinds `newly` armed that are due now. -/
def State.dueOf (s : State) (i : Slot) (newly : EventKind → Bool) : List ScheduledEvent :=
  match s.board i with
  | some r =>
    (r.armed.filter fun e => newly e.kind && due (s.lane r.lane).counter e.target).map fun e =>
      ⟨i, e.kind⟩
  | none => []

/-- An event other than LENGTH_LIMIT handed to its owner. -/
def State.handOver (s : State) (e : ScheduledEvent) : State :=
  match e.kind with
  | .headOpen n => s.takeEvent e.slot e.kind (headOpenAct e.slot n)
  | .headLimit n => s.takeEvent e.slot e.kind (headLimitAct e.slot n)
  | .deadline => s.takeEvent e.slot e.kind (deadlineAct e.slot)
  | .exitDue => s.takeEvent e.slot e.kind (exitDueAct e.slot)
  | .lengthLimit => s

def ScheduledEvent.key (e : ScheduledEvent) : Nat := e.slot.val * 16 + e.kind.rank

/-- Events that fall due together, handed over one after another in an order the spec leaves open (R38): the
order is a free value (log entry 3). -/
def State.handOverAll (s : State) (one : State → ScheduledEvent → State)
    (es : List ScheduledEvent) : State :=
  match es with
  | [] => s
  | _ => (orderBy (fun e => Config.eventRank s.draws e.key) es).foldl one s.drawn

/-- The newly armed events of the record that are due as they are armed fall due within the arming event (R36). -/
def State.dueAtArming (s : State) (i : Slot) (newly : EventKind → Bool) : State :=
  s.handOverAll State.handOver (s.dueOf i newly)

/-- The events armed once the length is known (R17). -/
def EventKind.isHeadLimit : EventKind → Bool
  | .headLimit _ => true
  | .lengthLimit | .headOpen _ | .deadline | .exitDue => false

/-- HEAD_LIMIT(n) armed for each head not final, at entry_pos + head_open_offset[n] + length + head_span[n] (R17). -/
def Record.armLimits (m : TunnelMap) (length : Nat) (r : Record) : Record :=
  HeadId.all.foldl (fun x n =>
    if (r.headStatus n).isFinal then x
    else x.arm (.headLimit n)
      (r.entryPos + pos (m.headOpenOffset.get n + length + m.headSpan.get n))) r

/-- A record takes its length and becomes INSPECTING, LENGTH_LIMIT disarmed and HEAD_LIMITs armed (R17, R18). -/
def State.acceptLength (s : State) (i : Slot) (length : Nat) : State :=
  s.modBoard i fun r =>
    { (Record.armLimits (s.lane r.lane).map length (r.disarm .lengthLimit)) with
      length := some length, state := .inspecting }

/-- LENGTH_LIMIT (R18): length max_length, OVERLENGTH, the fault, entry state UNTRACKED, then the close check. -/
def lengthLimitAct (i : Slot) (r : Record) (_t : Pos) (s : State) : State :=
  if r.state = .entering then
    let s1 := (s.acceptLength i (s.lane r.lane).map.maxLength).modBoard i fun x =>
      x.addFlag .overlength
    let s2 := s1.setLane r.lane { s1.lane r.lane with entry := .untracked }
    let s3 := s2.recordFault
      { cause := .overlength, source := .boardTable, lane := some r.lane, tag := some r.tag,
        slot := some i, position := some r.entryPos, detail := 0 }
    (s3.closeCheck i).dueAtArming i EventKind.isHeadLimit
  else s

/-- Any event handed to its owner, whose act is an event of its own: the grant of what it requests follows (R148). -/
def State.handOverAny (s : State) (e : ScheduledEvent) : State :=
  s.thenGrant (match e.kind with
    | .lengthLimit => s.takeEvent e.slot e.kind (lengthLimitAct e.slot)
    | .headOpen _ | .headLimit _ | .deadline | .exitDue => s.handOver e)

/-- The events of the lanes `ls` that earlier steps have made due and no command has taken are taken, in an
order the spec leaves open (R38, R41; log entries 3, 8). -/
def State.takeDue (s : State) (ls : List Lane) : State :=
  s.handOverAll State.handOverAny (ls.flatMap s.dueEvents)

/-- BELT_STEP (R25): the counter adds 1, modulo 2^24. An event of the lane that is due and not yet taken is
taken before the counter moves on (R37; log entry 8). -/
def State.beltStep (s : State) (l : Lane) : State :=
  let s1 := s.takeDue [l]
  s1.setLane l { s1.lane l with counter := (s1.lane l).counter + 1#24 }

def execBeltStep (l : Lane) (s : State) : Host.Outcome State Fault Refusal := .next (s.beltStep l)

def execLengthLimit (i : Slot) (s : State) : Host.Outcome State Fault Refusal :=
  .next (s.thenGrant (s.takeEvent i .lengthLimit (lengthLimitAct i)))

def execHeadOpen (i : Slot) (n : HeadId) (s : State) : Host.Outcome State Fault Refusal :=
  .next (s.thenGrant (s.takeEvent i (.headOpen n) (headOpenAct i n)))

def execHeadLimit (i : Slot) (n : HeadId) (s : State) : Host.Outcome State Fault Refusal :=
  .next (s.thenGrant (s.takeEvent i (.headLimit n) (headLimitAct i n)))

def execDeadline (i : Slot) (s : State) : Host.Outcome State Fault Refusal :=
  .next (s.thenGrant (s.takeEvent i .deadline (deadlineAct i)))

def execExitDue (i : Slot) (s : State) : Host.Outcome State Fault Refusal :=
  .next (s.thenGrant (s.takeEvent i .exitDue (exitDueAct i)))

end Sys2Proof.Machine
end

