-- ==== Sys2Proof/Machine/Board.lean ====
section
/-! DEFINITION. The sensor edges: a record created at the entry leading edge (R9 to R14), withdrawn or
accepted at the trailing edge (R15 to R17), and matched or unexpected at the exit (R137 to R141). -/

namespace Sys2Proof.Machine

open Sys2Proof

/-! ### Entry leading edge -/

/-- The first value above the tag counter that no live record carries (R5); at most 23 records are live
then, so one of 24 values is free. -/
def State.nextTag (s : State) : Tag :=
  (((List.range 24).map fun k => s.tagCounter + BitVec.ofNat 8 (k + 1)).find? fun t =>
    (s.slotOfTag t).isNone).getD (s.tagCounter + 1#8)

/-- The entry in force for a recipe at creation; none with NO_RECIPE (R11). -/
def State.resolve (s : State) (recipe : Option RecipeId) : Option DirEntry :=
  recipe.bind fun k => if (s.dir k).entry.valid then some (s.dir k).entry else none

/-- A head's status at creation (R11). -/
def initialStatus (m : TunnelMap) (e : Option DirEntry) (n : HeadId) : HeadStatus :=
  match e with
  | none => .absent
  | some d =>
    if d.listLength.get n = 0 then .notRequired
    else if m.headServes.contains n then .waiting
    else .absent

def initialHead (m : TunnelMap) (e : Option DirEntry) (n : HeadId) : HeadRec :=
  ⟨initialStatus m e n, 0, none, 0⟩

/-- The events armed at creation (R13). -/
def initialArmed (m : TunnelMap) (e : Option DirEntry) (p : Pos) : List Armed :=
  [⟨.lengthLimit, p + pos m.maxLength⟩] ++
  ((HeadId.all.filter fun n => decide (initialStatus m e n = .waiting)).map fun n =>
    ⟨.headOpen n, p + pos (m.headOpenOffset.get n)⟩) ++
  [⟨.deadline, p + pos m.gateOffset - pos m.decisionMargin⟩,
   ⟨.exitDue, p + pos m.gateOffset + pos m.exitTolerance⟩]

/-- The recipe a board entering lane `l` takes (R10). -/
def LaneState.nextRecipe (x : LaneState) : Option RecipeId :=
  match x.announces with
  | a :: _ => some a.recipe
  | [] => x.map.defaultRecipe

/-- The record of a board entering lane `l` (R10, R11, R13). -/
def State.newRecord (s : State) (l : Lane) : Record :=
  let x := s.lane l
  let e := s.resolve x.nextRecipe
  { state := .entering
    tag := s.nextTag
    lane := l
    recipe := x.nextRecipe
    serial := (x.announces.head?).bind (·.serial)
    flags := (if x.announces.isEmpty then [.unannounced] else []) ++
      (if e.isNone then [.noRecipe] else [])
    entryPos := x.counter
    length := none
    heads := ⟨initialHead x.map e .h0, initialHead x.map e .h1, initialHead x.map e .h2,
      initialHead x.map e .h3⟩
    counts := ⟨0, 0, 0, 0, 0, 0⟩
    outstanding := 0
    verdict := none
    exitFate := none
    exitPos := none
    armed := initialArmed x.map e x.counter }

/-- A new record with NO_RECIPE clear is counted under its recipe (R12). -/
def State.countUse (s : State) (r : Record) : State :=
  if r.has .noRecipe then s
  else
    match r.recipe with
    | some k => s.setDir k { s.dir k with useCount := (s.dir k).useCount + 1 }
    | none => s

/-- The lane after a board has entered it into slot `i` (R10). -/
def LaneState.entered (x : LaneState) (i : Slot) : LaneState :=
  { x with order := x.order ++ [i], announces := x.announces.tail, entry := .covered }

/-- The record is created in slot `i` (R10), before events due at once fall due. -/
def State.create (s : State) (l : Lane) (i : Slot) : State :=
  let r := s.newRecord l
  State.countUse { (s.setBoard i (some r)).setLane l ((s.lane l).entered i) with
    tagCounter := r.tag } r

def State.setEntry (s : State) (l : Lane) (e : EntryState) : State :=
  s.setLane l { s.lane l with entry := e }

def State.setExit (s : State) (l : Lane) (e : ExitState) : State :=
  s.setLane l { s.lane l with exit := e }

/-- R14: no FREE slot. -/
def State.entryOverrun (s : State) (l : Lane) : State :=
  (s.setEntry l .untracked).recordFault
    { cause := .entryOverrun, source := .boardTable, lane := some l,
      position := some (s.lane l).counter, detail := s.leavingCount }

def State.entryLeading (s : State) (l : Lane) : State :=
  if (s.lane l).map.enable ∧ (s.lane l).entry = .ready then
    match s.freeSlot with
    | some i => (s.create l i).dueAtArming i fun _ => true
    | none => s.entryOverrun l
  else s

/-! ### Entry trailing edge -/

/-- The announcement a withdrawn record took goes back to the front where there is room (R16). -/
def LaneState.reannounce (x : LaneState) (r : Record) : LaneState :=
  match r.recipe with
  | some k =>
    if r.has .unannounced ∨ Config.announceCapacity ≤ x.announces.length then x
    else { x with announces := ⟨k, r.serial⟩ :: x.announces }
  | none => x

/-- R16: the record is erased as if the board had not entered. -/
def State.withdraw (s : State) (l : Lane) (i : Slot) (r : Record) (length : Nat) : State :=
  let s1 := ((s.dropTriggers r.tag).release r).setBoard i none
  let x := (s1.lane l).reannounce r
  let s2 := s1.setLane l { x with order := setErase i x.order, entry := .ready }
  let s3 := s2.recordFault
    { cause := .sensorGlitch, source := .boardTable, lane := some l, tag := some r.tag,
      slot := some i, position := some (s.lane l).counter, detail := holdAt16 length }
  s3.applyHeldMap l

/-- R17: the record is accepted with its length, and its close check follows. -/
def State.accept (s : State) (l : Lane) (i : Slot) (length : Nat) : State :=
  (((s.acceptLength i length).setEntry l .ready).closeCheck i).dueAtArming i EventKind.isHeadLimit

/-- The record a trailing edge acts on: the tail of the lane order, ENTERING (R9, R15). -/
def State.covering (s : State) (l : Lane) : Option (Slot × Record) :=
  match (s.lane l).order.getLast? with
  | some i =>
    match s.board i with
    | some r => if r.state = .entering then some (i, r) else none
    | none => none
  | none => none

def State.entryTrailing (s : State) (l : Lane) : State :=
  if (s.lane l).map.enable then
    match (s.lane l).entry with
    | .ready => s
    | .untracked => s.setEntry l .ready
    | .covered =>
      match s.covering l with
      | some (i, r) =>
        let length := ((s.lane l).counter - r.entryPos).toNat
        if length < (s.lane l).map.minLength then s.withdraw l i r length
        else s.accept l i length
      | none => s.setEntry l .ready
  else s

/-! ### Exit edges -/

/-- The events EXIT_DUE of the lane that its counter has made due are handed over, front first: an edge
captured at a record's EXIT_DUE target is taken after the step that handed it over (R138; log entry 8). -/
def State.exitDuesFirst (s : State) (l : Lane) : State :=
  (s.lane l).order.foldl (fun u i => u.handOverAny ⟨i, .exitDue⟩) s

/-- R140: the edge at `x` matches the front record. -/
def State.exitMatch (s : State) (l : Lane) (i : Slot) (r : Record) (x : Pos) : State :=
  let s1 := if r.state = .decided then s
    else (s.modBoard i fun y => y.addFlag .earlyExit).closeIfOpen i
  let s2 := (s1.modBoard i fun y => { y with exitPos := some x }).makeLeaving i .matched
  (s2.setExit l .occupied).applyHeldMap l

/-- R139: an unexpected edge changes no record. -/
def State.exitUnexpected (s : State) (l : Lane) (front : Option (Slot × Record)) (detail : Nat) :
    State :=
  (s.setExit l .occupied).recordFault
    { cause := .unexpectedAtExit, source := .verdictUnit, lane := some l,
      tag := front.map fun f => f.2.tag, slot := front.map fun f => f.1,
      position := some (s.lane l).counter, detail := detail }

/-- The front record of a lane. -/
def State.front (s : State) (l : Lane) : Option (Slot × Record) :=
  match (s.lane l).order with
  | i :: _ => (s.board i).map fun r => (i, r)
  | [] => none

/-- The start of the exit window of a record: E - exit_tolerance (R138). -/
def windowStart (m : TunnelMap) (r : Record) : Pos :=
  r.entryPos + pos m.gateOffset - pos m.exitTolerance

/-- The comparison of R138. -/
def State.exitCompare (s : State) (l : Lane) : State :=
  let x := (s.lane l).counter
  match s.front l with
  | none => s.exitUnexpected l none 0
  | some (i, r) =>
    let w := windowStart (s.lane l).map r
    if earlier x w then s.exitUnexpected l (some (i, r)) (holdAt16 (w - x).toNat)
    else s.exitMatch l i r x

/-- The exit sensor's leading edge is acted on (R137). -/
def State.exitActs (s : State) (l : Lane) : Bool :=
  (s.lane l).map.enable && decide ((s.lane l).exit = .ready)

def State.exitLeading (s : State) (l : Lane) : State :=
  if s.exitActs l then
    if (s.exitDuesFirst l).exitActs l then
      (s.exitDuesFirst l).thenGrant ((s.exitDuesFirst l).exitCompare l)
    else s.exitDuesFirst l
  else s

def State.exitTrailing (s : State) (l : Lane) : State :=
  if (s.lane l).map.enable ∧ (s.lane l).exit = .occupied then s.setExit l .ready else s

/-! ### The rows -/

def execEntryLeadingEdge (l : Lane) (s : State) : Host.Outcome State Fault Refusal :=
  .next (s.thenGrant (s.entryLeading l))

def execEntryTrailingEdge (l : Lane) (s : State) : Host.Outcome State Fault Refusal :=
  .next (s.thenGrant (s.entryTrailing l))

def execExitLeadingEdge (l : Lane) (s : State) : Host.Outcome State Fault Refusal :=
  .next (s.exitLeading l)

def execExitTrailingEdge (l : Lane) (s : State) : Host.Outcome State Fault Refusal :=
  .next (s.exitTrailing l)

end Sys2Proof.Machine
end

