-- ==== Sys2Proof/Machine/Heads.lean ====
section
/-! DEFINITION. The requests about a head: TRIGGER_TAKE (R79), RESULT_PUT (R86), RESULT_HOLD_SET (R87),
HEAD_FLUSH (R92), HEAD_LINK_READ (R94) and MERGE_STATUS_READ (R108). -/

namespace Sys2Proof.Machine

open Sys2Proof

/-- The head whose link a head port reaches; the request is refused on the other ports (R189). -/
def Port.head : Port → Option HeadId
  | .hl n => some n
  | .sta => none
  | .lnc => none
  | .gtc => none

/-- A request for the port's own Head Link. -/
def onHead {β : Type} (p : Port) (args : Option β)
    (act : HeadId → β → State → State × Reply) (s : State) : State × Reply :=
  match Port.head p with
  | some n => onArgs args (act n) s
  | none => refuse .notPermitted s

/-- The record of tag `t` has its head n changed from TRIGGERED to TAKEN (R79). -/
def State.markTaken (s : State) (n : HeadId) (t : Tag) : State :=
  match s.slotOfTag t with
  | some i => s.modBoard i fun r => r.setStatus n .taken
  | none => s

/-- TRIGGER_TAKE (R79). -/
def State.triggerTake (s : State) (n : HeadId) : State × Reply :=
  match (s.link n).triggers with
  | [] => refuse .empty s
  | t :: rest =>
    ((s.setRawLink n { s.link n with triggers := rest }).markTaken n t.tag,
      ⟨.done, encTrigger t ++ le 1 rest.length⟩)

def execTriggerTake (p : Port) (args : Option Unit) (s : State) :
    Host.Outcome State Fault Refusal :=
  .next (s.serve p .triggerTake (onHead p args fun n _ u => u.triggerTake n))

/-- The link after the items that have room have joined its result queue (R86). -/
def Link.accept (k : Link) (items : List Item) : Link :=
  { k with results := k.results ++ items.take k.freeSlots }

/-- RESULT_PUT (R86). -/
def State.resultPut (s : State) (n : HeadId) (raw : List RawItem) : State × Reply :=
  if raw.length < 1 ∨ Config.itemsPerPut < raw.length then refuse .badValue s
  else
    match checkItems raw with
    | none => refuse .badValue s
    | some items =>
      let taken := min items.length (s.link n).freeSlots
      let k := (s.link n).accept items
      (s.setLink n k,
        ⟨if taken = items.length then .done else .full,
          le 1 taken ++ le 1 k.freeSlots ++ encBool k.holdOn⟩)

def execResultPut (p : Port) (args : Option (List RawItem)) (s : State) :
    Host.Outcome State Fault Refusal :=
  .next (s.serve p .resultPut (onHead p args fun n xs u => u.resultPut n xs))

/-- RESULT_HOLD_SET (R87). -/
def State.resultHoldSet (s : State) (n : HeadId) (k : Nat) : State × Reply :=
  if 1 ≤ k ∧ k ≤ 63 then (s.setLink n { s.link n with threshold := k }, ⟨.done, []⟩)
  else refuse .badValue s

def execResultHoldSet (p : Port) (obj : Byte) (args : Option Nat) (s : State) :
    Host.Outcome State Fault Refusal :=
  .next (s.serve p .resultHoldSet (onObject (Head.ofObject obj) args fun n k u =>
    u.resultHoldSet n k))

/-- A flush ends head n of a record in TRIGGERED, TAKEN or REPORTING, and the close check follows (R92, R83). -/
def State.flushRecord (n : HeadId) (s : State) (i : Slot) : State :=
  match s.board i with
  | none => s
  | some r =>
    match r.headStatus n with
    | .triggered | .taken | .reporting => (s.markFinal i n .faulted).closeCheck i
    | .waiting | .complete | .late | .faulted | .absent | .notRequired => s

/-- HEAD_FLUSH (R92). The spec gives the records it ends no order: a free value (log entry 4). -/
def State.headFlush (s : State) (n : HeadId) : State :=
  let s1 := s.setLink n { s.link n with triggers := [], results := [] }
  (orderBy (fun i : Slot => Config.flushRank s.draws i.val) Slot.all).foldl (State.flushRecord n)
    s1.drawn

def execHeadFlush (p : Port) (obj : Byte) (args : Option Unit) (s : State) :
    Host.Outcome State Fault Refusal :=
  .next (s.serve p .headFlush (onObject (Head.ofObject obj) args fun n _ u =>
    (u.thenGrant (u.headFlush n), ⟨.done, []⟩)))

/-- HEAD_LINK_READ (R94). -/
def State.linkPayload (s : State) (n : HeadId) : List Byte :=
  let k := s.link n
  encList (fun t => le 1 t.tag.toNat ++ le 1 (Lane.code t.lane)) k.triggers ++
  le 1 k.results.length ++ le 1 k.freeSlots ++ le 1 k.threshold ++ encBool k.holdOn ++
  encBool (s.merge.item.any fun x => decide (x.head = n))

def execHeadLinkRead (p : Port) (obj : Byte) (args : Option Unit) (s : State) :
    Host.Outcome State Fault Refusal :=
  .next (s.serve p .headLinkRead (onObject (Head.ofObject obj) args fun n _ u =>
    (u, ⟨.done, u.linkPayload n⟩)))

/-- MERGE_STATUS_READ (R108). -/
def State.mergePayload (s : State) : List Byte :=
  encOpt (encInFlight s.cache.waiting.isSome) s.merge.item ++ le 1 (HeadId.code s.merge.lastServed) ++
  encSet HeadId.all (HeadId.all.filter s.heldBack) ++ le 1 s.suspects.length ++
  le 2 s.defects.length

def execMergeStatusRead (p : Port) (args : Option Unit) (s : State) :
    Host.Outcome State Fault Refusal :=
  .next (s.serve p .mergeStatusRead (onArgs args fun _ u => (u, ⟨.done, u.mergePayload⟩)))

end Sys2Proof.Machine
end

