-- ==== Sys2Proof/Machine/Lanes.lean ====
section
/-! DEFINITION. The requests about a lane: ANNOUNCE and its threshold (R7, R8), LANE_PURGE (R20, R143), the
belt counter (R28, R29), DISP_READ (R136) and the tunnel map (R31, R32, R34). -/

namespace Sys2Proof.Machine

open Sys2Proof

/-- ANNOUNCE (R7). -/
def State.announce (s : State) (l : Lane) (a : AnnounceArgs) : State × Reply :=
  match finOf 16 a.recipe with
  | none => refuse .badValue s
  | some k =>
    if (s.lane l).announces.length < Config.announceCapacity then
      (s.setLane l { s.lane l with announces := (s.lane l).announces ++ [⟨k, a.serial⟩] },
        ⟨.done, []⟩)
    else refuse .full s

def execAnnounce (p : Port) (obj : Byte) (args : Option AnnounceArgs) (s : State) :
    Host.Outcome State Fault Refusal :=
  .next (s.serve p .announce (onObject (Lane.ofObject obj) args fun l a u => u.announce l a))

/-- ANNOUNCE_THRESHOLD_SET (R8). -/
def State.announceThresholdSet (s : State) (l : Lane) (n : Nat) : State × Reply :=
  if n ≤ 3 then (s.setLane l { s.lane l with announceThreshold := n }, ⟨.done, []⟩)
  else refuse .badValue s

def execAnnounceThresholdSet (p : Port) (obj : Byte) (args : Option Nat) (s : State) :
    Host.Outcome State Fault Refusal :=
  .next (s.serve p .announceThresholdSet (onObject (Lane.ofObject obj) args fun l n u =>
    u.announceThresholdSet l n))

/-- One record of a purge: PURGED set, closed where undecided, LEAVING with exit_fate PURGED (R20, R143). -/
def State.purgeOne (s : State) (i : Slot) : State :=
  ((s.modBoard i fun r => r.addFlag .purged).closeIfOpen i).makeLeaving i .purged

/-- The records of a lane purged, front to tail, and the lane's queues and sensors reset (R20). -/
def State.lanePurge (s : State) (l : Lane) : State :=
  let s1 := (s.lane l).order.foldl State.purgeOne s
  (s1.setLane l { s1.lane l with announces := [], entry := .ready, exit := .ready }).applyHeldMap l

/-- LANE_PURGE on the records as the events that steps have made due leave them (R41; log entry 8). -/
def State.purgeAfterDue (s : State) (l : Lane) : State :=
  (s.takeDue [l]).thenGrant ((s.takeDue [l]).lanePurge l)

/-- LANE_PURGE (R20). -/
def execLanePurge (p : Port) (obj : Byte) (args : Option Unit) (s : State) :
    Host.Outcome State Fault Refusal :=
  .next (s.serve p .lanePurge (onObject (Lane.ofObject obj) args fun l _ u =>
    (u.purgeAfterDue l, ⟨.done, []⟩)))

/-- COUNTER_READ (R28). -/
def State.counterPayload (s : State) (l : Lane) : List Byte :=
  encPos (s.lane l).counter ++ le 1 (s.lane l).entry.code ++ le 1 (s.lane l).order.length

def execCounterRead (p : Port) (obj : Byte) (args : Option Unit) (s : State) :
    Host.Outcome State Fault Refusal :=
  .next (s.serve p .counterRead (onObject (Lane.ofObject obj) args fun l _ u =>
    (u, ⟨.done, u.counterPayload l⟩)))

/-- A record of the lane is in ENTERING (R29). -/
def State.entering (s : State) (l : Lane) : Bool :=
  Slot.all.any fun i => (s.board i).any fun r => decide (r.lane = l ∧ r.state = .entering)

/-- COUNTER_SET (R29). -/
def State.counterSet (s : State) (l : Lane) (n : Nat) : State × Reply :=
  if 16777215 < n then refuse .badValue s
  else if (s.lane l).order ≠ [] ∨ s.entering l then refuse .badState s
  else (s.setLane l { s.lane l with counter := pos n }, ⟨.done, []⟩)

def execCounterSet (p : Port) (obj : Byte) (args : Option Nat) (s : State) :
    Host.Outcome State Fault Refusal :=
  .next (s.serve p .counterSet (onObject (Lane.ofObject obj) args fun l n u => u.counterSet l n))

/-- The fields DISP_READ carries (R136). -/
def dispPayload (r : Record) (v : Verdict) : List Byte :=
  le 1 r.tag.toNat ++ encOpt encSerial r.serial ++ le 1 v.code ++ le 2 r.counts.defects ++
    encSet BoardFlag.all r.flags

/-- The front record of a lane with its verdict, where the lane's presentation is present (R134). -/
def State.shown (s : State) (l : Lane) : Option (Record × Verdict) :=
  match (s.lane l).order with
  | [] => none
  | i :: _ =>
    match s.board i with
    | some r => if r.state = .decided then r.verdict.map fun v => (r, v) else none
    | none => none

/-- DISP_READ (R136). -/
def State.dispRead (s : State) (l : Lane) : State × Reply :=
  match s.shown l with
  | some (r, v) => (s, ⟨.done, dispPayload r v⟩)
  | none => refuse .empty s

def execDispRead (p : Port) (obj : Byte) (args : Option Unit) (s : State) :
    Host.Outcome State Fault Refusal :=
  .next (s.serve p .dispRead (onObject (Lane.ofObject obj) args fun l _ u => u.dispRead l))

/-- TUNNEL_SET: applied at once on an empty lane order, else held (R31, R32). -/
def State.tunnelSet (s : State) (l : Lane) (a : TunnelArgs) : State × Reply :=
  match a.check with
  | none => refuse .badValue s
  | some m =>
    if (s.lane l).order = [] then (s.setLane l ((s.lane l).applied m), ⟨.done, []⟩)
    else (s.setLane l { s.lane l with heldMap := some m }, ⟨.held, []⟩)

def execTunnelSet (p : Port) (obj : Byte) (args : Option TunnelArgs) (s : State) :
    Host.Outcome State Fault Refusal :=
  .next (s.serve p .tunnelSet (onObject (Lane.ofObject obj) args fun l a u => u.tunnelSet l a))

/-- TUNNEL_READ (R34). -/
def State.tunnelPayload (s : State) (l : Lane) : List Byte :=
  encMap (s.lane l).map ++ encOpt encMap (s.lane l).heldMap

def execTunnelRead (p : Port) (obj : Byte) (args : Option Unit) (s : State) :
    Host.Outcome State Fault Refusal :=
  .next (s.serve p .tunnelRead (onObject (Lane.ofObject obj) args fun l _ u =>
    (u, ⟨.done, u.tunnelPayload l⟩)))

end Sys2Proof.Machine
end

