-- ==== Sys2Proof/Machine/Logs.lean ====
section
/-! DEFINITION. The requests about the log channels and watches: RING_SET (R158), LOG_CONSUMED (R156),
LOG_BLOCK_SET (R162), CHANNEL_READ (R160), WATCH_SET (R163), WATCH_READ and WATCH_CLEAR (R165). -/

namespace Sys2Proof.Machine

open Sys2Proof

/-- Every region from that of a ring's base to that of its last byte has move write on (R158). -/
def State.ringAllowed (s : State) (r : Ring) : Bool :=
  RegionId.all.all fun k =>
    (s.regions[k]).moveWrite ||
      !(decide (r.base / Config.regionBytes ≤ k.val) &&
        decide (k.val ≤ (r.base + 32 * r.size - 1) / Config.regionBytes))

/-- The address checks of R158 for a size above 0. -/
def ringFits (base size : Nat) : Bool :=
  decide (base % 64 = 0) && decide (base + 32 * size ≤ Config.memoryBytes)

/-- The checks of R158, in its order: the ring, or the refusal. For size 0 base and priority are not used,
and the channel's own stand in the ring (log entry 33). -/
def State.ringCheck (s : State) (c : Channel) (a : RingArgs) : Except Status Ring :=
  if !ringSizeOk a.size then .error .badValue
  else if a.size = 0 then .ok { (s.channel c).ring with size := 0 }
  else if !ringFits a.base a.size then .error .badValue
  else
    match a.priority with
    | none => .error .badValue
    | some q =>
      if s.ringAllowed ⟨a.base, a.size, q⟩ then .ok ⟨a.base, a.size, q⟩
      else .error .notPermitted

/-- RING_SET (R158). -/
def State.ringSet (s : State) (c : Channel) (a : RingArgs) : State × Reply :=
  match s.ringCheck c a with
  | .error e => refuse e s
  | .ok r =>
    if (s.channel c).takesRing then (s.thenGrant (s.applyRing c r), ⟨.done, []⟩)
    else (s.setChannel c ((s.channel c).hold r), ⟨.held, []⟩)

def execRingSet (p : Port) (obj : Byte) (args : Option RingArgs) (s : State) :
    Host.Outcome State Fault Refusal :=
  .next (s.serve p .ringSet (onObject (Channel.ofObject obj) args fun c a u => u.ringSet c a))

/-- A FULL channel with room becomes RUNNING (R156). -/
def ChannelReg.resume (x : ChannelReg) : ChannelReg :=
  if x.state = .full ∧ x.occupancy < x.ring.size then { x with state := .running } else x

/-- What follows the consumer's new value within LOG_CONSUMED (R156). -/
def State.afterConsumed (s : State) (c : Channel) : State :=
  let s1 := (s.setChannel c (s.channel c).resume)
  match (s1.channel c).held with
  | some r =>
    if (s1.channel c).occupancy = 0 ∧ !(s1.channel c).inFlight then
      (s1.applyRing c r).raise .sta .heldApplied
    else s1
  | none => s1.requestWrite c

/-- LOG_CONSUMED (R156; the order of its refusals, log entry 19). -/
def State.logConsumed (s : State) (c : Channel) (n : Nat) : State × Reply :=
  if 131071 < n then refuse .badValue s
  else if (s.channel c).state = .disabled then refuse .badState s
  else if (s.channel c).occupancy < (BitVec.ofNat 17 n - (s.channel c).consumer).toNat then
    refuse .badValue s
  else
    (s.thenGrant
      (State.afterConsumed (s.setChannel c { s.channel c with consumer := BitVec.ofNat 17 n }) c),
      ⟨.done, []⟩)

def execLogConsumed (p : Port) (obj : Byte) (args : Option Nat) (s : State) :
    Host.Outcome State Fault Refusal :=
  .next (s.serve p .logConsumed (onObject (Channel.ofObject obj) args fun c n u =>
    u.logConsumed c n))

/-- LOG_BLOCK_SET (R162). -/
def State.logBlockSet (s : State) (c : Channel) (n : Nat) : State × Reply :=
  if 1 ≤ n ∧ n ≤ 255 then (s.setChannel c { s.channel c with blockSetting := n }, ⟨.done, []⟩)
  else refuse .badValue s

def execLogBlockSet (p : Port) (obj : Byte) (args : Option Nat) (s : State) :
    Host.Outcome State Fault Refusal :=
  .next (s.serve p .logBlockSet (onObject (Channel.ofObject obj) args fun c n u =>
    u.logBlockSet c n))

/-- CHANNEL_READ (R160). -/
def State.channelPayload (s : State) (c : Channel) : List Byte :=
  encChannel c (s.channel c) (s.sourceLength c)

def execChannelRead (p : Port) (obj : Byte) (args : Option Unit) (s : State) :
    Host.Outcome State Fault Refusal :=
  .next (s.serve p .channelRead (onObject (Channel.ofObject obj) args fun c _ u =>
    (u, ⟨.done, u.channelPayload c⟩)))

/-- WATCH_SET (R163). -/
def State.watchSet (s : State) (w : WatchId) (a : WatchArgs) : State × Reply :=
  match a.check with
  | some x => (s.setWatch w x, ⟨.done, []⟩)
  | none => refuse .badValue s

def execWatchSet (p : Port) (obj : Byte) (args : Option WatchArgs) (s : State) :
    Host.Outcome State Fault Refusal :=
  .next (s.serve p .watchSet (onObject (WatchId.ofObject obj) args fun w a u => u.watchSet w a))

/-- WATCH_READ (R165). -/
def State.watchRead (s : State) (w : WatchId) : State × Reply :=
  (if (s.watch w).status.isSome then s.setWatch w { s.watch w with seen := true } else s,
    ⟨.done, encWatch (s.watch w)⟩)

def execWatchRead (p : Port) (obj : Byte) (args : Option Unit) (s : State) :
    Host.Outcome State Fault Refusal :=
  .next (s.serve p .watchRead (onObject (WatchId.ofObject obj) args fun w _ u => u.watchRead w))

/-- WATCH_CLEAR (R165). -/
def State.watchClear (s : State) (w : WatchId) : State × Reply :=
  if (s.watch w).status.isSome then
    if (s.watch w).seen then
      (s.setWatch w { s.watch w with status := none, again := false, seen := false }, ⟨.done, []⟩)
    else refuse .badState s
  else (s, ⟨.done, []⟩)

def execWatchClear (p : Port) (obj : Byte) (args : Option Unit) (s : State) :
    Host.Outcome State Fault Refusal :=
  .next (s.serve p .watchClear (onObject (WatchId.ofObject obj) args fun w _ u => u.watchClear w))

end Sys2Proof.Machine
end

