-- ==== Sys2Proof/Machine/Ports.lean ====
section
/-! DEFINITION. Transactions that take no request (R185 to R187) and the requests of every port: BOARD_READ
(R24), the fault queue (R174, R175), the alerts (R180 to R183) and the mailboxes (R191, R192). -/

namespace Sys2Proof.Machine

open Sys2Proof

/-! ### Transactions without a request -/

/-- FRAME_REJECTED: on a port that is not pending, a frame that fails its checks gives BAD_FRAME with the
code byte received (R185, R186). A transaction of no whole byte has no effect (R184). -/
def State.frameRejected (s : State) (p : Port) (bytes : List Byte) : State :=
  match bytes with
  | [] => s
  | code :: _ =>
    if (s.port p).pending.isSome ∨ Decode.frameOk bytes then s
    else s.setPort p { s.port p with slot := ⟨.badFrame, code, []⟩ }

def execFrameRejected (p : Port) (bytes : List Byte) (s : State) :
    Host.Outcome State Fault Refusal :=
  .next (s.frameRejected p bytes)

/-- PENDING_TRANSACTION: shifts out PENDING and its request is not taken (R187). -/
def execPendingTransaction (_p : Port) (s : State) : Host.Outcome State Fault Refusal := .next s

/-- NOP leaves the slot unchanged (R185). -/
def execNop (_p : Port) (s : State) : Host.Outcome State Fault Refusal := .next s

/-! ### BOARD_READ -/

def State.suspectCount (s : State) (i : Slot) : Nat :=
  s.suspects.countP fun x => decide (x.slot = i)

/-- The payload of BOARD_READ (R24). -/
def State.boardPayload (s : State) (i : Slot) : List Byte :=
  match s.board i with
  | some r => encRecord i (s.suspectCount i) (s.lane r.lane).counter r
  | none => encFree i

def execBoardRead (p : Port) (obj : Byte) (args : Option Unit) (s : State) :
    Host.Outcome State Fault Refusal :=
  .next (s.serve p .boardRead (onObject (Slot.ofObject obj) args fun i _ u =>
    (u, ⟨.done, u.boardPayload i⟩)))

/-! ### The fault queue -/

/-- What FAULT_READ answers port `p` with a record or an overflow cause to report (R174). -/
def State.faultPayload (s : State) (p : Port) : List Byte :=
  encOpt (fun q => encFault q.fault) s.faults.queue.head? ++
  encBool (s.faults.queue.head?.any fun q => q.readers.contains p) ++
  le 1 s.faults.queue.length ++ encSet Cause.all s.faults.overflow

/-- The reading port joins the oldest record's reader set; a read by STA replaces the reported set (R174). -/
def FaultUnit.readBy (f : FaultUnit) (p : Port) : FaultUnit :=
  { f with
    queue :=
      match f.queue with
      | [] => []
      | q :: qs => { q with readers := setInsert Port.all p q.readers } :: qs
    reported := if p = .sta then f.overflow else f.reported }

def State.faultRead (s : State) (p : Port) : State × Reply :=
  ({ s with faults := s.faults.readBy p },
    if s.faults.queue.isEmpty ∧ s.faults.overflow.isEmpty then ⟨.empty, []⟩
    else ⟨.done, s.faultPayload p⟩)

def execFaultRead (p : Port) (args : Option Unit) (s : State) :
    Host.Outcome State Fault Refusal :=
  .next (s.serve p .faultRead (onArgs args fun _ u => u.faultRead p))

/-- The causes of the reported set leave the overflow cause set, and the reported set is empty (R175). -/
def FaultUnit.popReported (f : FaultUnit) : FaultUnit :=
  { f with overflow := f.overflow.filter fun c => !f.reported.contains c, reported := [] }

def State.faultPop (s : State) : State × Reply :=
  match s.faults.queue with
  | q :: qs =>
    if q.readers.contains .sta then
      ({ s with faults := { s.faults.popReported with queue := qs } }, ⟨.done, []⟩)
    else refuse .badState s
  | [] =>
    if s.faults.reported.isEmpty then refuse .empty s
    else ({ s with faults := s.faults.popReported }, ⟨.done, []⟩)

def execFaultPop (p : Port) (args : Option Unit) (s : State) :
    Host.Outcome State Fault Refusal :=
  .next (s.serve p .faultPop (onArgs args fun _ u => u.faultPop))

/-! ### Alerts -/

/-- The payload of ALERT_READ: flags set or active, soft sources, mask, enable, and the line, asserted 0 and
released 1 (R181; log entry 14). -/
def State.alertPayload (s : State) (p : Port) : List Byte :=
  let x := s.alert p
  encSet (Decode.flagsOf p) ((Decode.flagsOf p).filter (s.flagActive p)) ++
  encSet Port.all x.softSources ++ encSet (Decode.flagsOf p) x.mask ++ encBool x.enable ++
  encBool (s.alertLine p)

/-- ALERT_READ: each latched flag reported set is marked seen (R181). -/
def State.alertRead (s : State) (p : Port) : State × Reply :=
  (s.setAlert p { s.alert p with seen := (s.alert p).latched }, ⟨.done, s.alertPayload p⟩)

def execAlertRead (p : Port) (args : Option Unit) (s : State) :
    Host.Outcome State Fault Refusal :=
  .next (s.serve p .alertRead (onArgs args fun _ u => u.alertRead p))

/-- Every flag named is a flag of the port. -/
def ofPort (p : Port) (fs : List AlertFlag) : Bool := fs.all (Decode.flagsOf p).contains

/-- The named flags a clear clears: set and seen (R182). -/
def AlertState.cleared (x : AlertState) (fs : List AlertFlag) : List AlertFlag :=
  x.latched.filter fun f => fs.contains f && x.seen.contains f

/-- The named latched flags left set (R182). -/
def AlertState.leftSet (x : AlertState) (fs : List AlertFlag) : List AlertFlag :=
  x.latched.filter fun f => fs.contains f && !x.seen.contains f

def AlertState.clear (x : AlertState) (fs : List AlertFlag) : AlertState :=
  { x with
    latched := x.latched.filter fun f => !(x.cleared fs).contains f
    seen := x.seen.filter fun f => !(x.cleared fs).contains f
    softSources := if (x.cleared fs).contains .soft then [] else x.softSources }

/-- ALERT_CLEAR (R182). -/
def State.alertClear (s : State) (p : Port) (fs : List AlertFlag) : State × Reply :=
  if ofPort p fs then
    (s.setAlert p ((s.alert p).clear fs),
      ⟨.done, encSet (Decode.flagsOf p) ((s.alert p).cleared fs) ++
        encSet (Decode.flagsOf p) ((s.alert p).leftSet fs)⟩)
  else refuse .badValue s

def execAlertClear (p : Port) (args : Option (List AlertFlag)) (s : State) :
    Host.Outcome State Fault Refusal :=
  .next (s.serve p .alertClear (onArgs args fun fs u => u.alertClear p fs))

/-- ALERT_MASK_SET (R180); the mask is kept in the order of the port's flags. -/
def State.alertMaskSet (s : State) (p : Port) (a : MaskArgs) : State × Reply :=
  if ofPort p a.flags then
    (s.setAlert p { s.alert p with
        mask := (Decode.flagsOf p).filter a.flags.contains, enable := a.enable }, ⟨.done, []⟩)
  else refuse .badValue s

def execAlertMaskSet (p : Port) (args : Option MaskArgs) (s : State) :
    Host.Outcome State Fault Refusal :=
  .next (s.serve p .alertMaskSet (onArgs args fun a u => u.alertMaskSet p a))

/-- SOFT_ALERT: SOFT is raised on the target and the requesting port joins its soft-source set (R183). -/
def State.softAlert (s : State) (p target : Port) : State × Reply :=
  let s1 := s.raise target .soft
  (s1.setAlert target { s1.alert target with
      softSources := setInsert Port.all p (s1.alert target).softSources }, ⟨.done, []⟩)

def execSoftAlert (p : Port) (obj : Byte) (args : Option Unit) (s : State) :
    Host.Outcome State Fault Refusal :=
  .next (s.serve p .softAlert (onObject (Port.ofObject obj) args fun t _ u => u.softAlert p t))

/-! ### Mailboxes -/

/-- The mailbox pair a request is about: from STA the port the object names, else the port's own (R191). -/
def mailTarget (p : Port) (obj : Byte) : Option Outer :=
  match p with
  | .sta => Outer.ofObject obj
  | .lnc => some .lnc
  | .gtc => some .gtc
  | .hl n => some (.hl n)

/-- The slot a port puts into: down from STA, up from another port (R191). -/
def MailPair.into (m : MailPair) (p : Port) : Option (List Byte) :=
  if p = .sta then m.down else m.up

def MailPair.put (m : MailPair) (p : Port) (x : Option (List Byte)) : MailPair :=
  if p = .sta then { m with down := x } else { m with up := x }

/-- The slot a port takes from: up for STA, down for another port (R192). -/
def MailPair.outOf (m : MailPair) (p : Port) : Option (List Byte) :=
  if p = .sta then m.up else m.down

def MailPair.empty (m : MailPair) (p : Port) : MailPair :=
  if p = .sta then { m with up := none } else { m with down := none }

/-- MAIL_PUT (R191). -/
def State.mailPut (s : State) (p : Port) (o : Outer) (message : List Byte) : State × Reply :=
  if message.length < 1 ∨ 16 < message.length then refuse .badValue s
  else
    match (s.mailPair o).into p with
    | some _ => refuse .full s
    | none => (s.setMail o ((s.mailPair o).put p (some message)), ⟨.done, []⟩)

def execMailPut (p : Port) (obj : Byte) (args : Option (List Byte)) (s : State) :
    Host.Outcome State Fault Refusal :=
  .next (s.serve p .mailPut (onObject (mailTarget p obj) args fun o m u => u.mailPut p o m))

/-- The ports whose up slots are full (R192; over the six ports, log entry 17). -/
def State.upFull (s : State) : List Outer := Outer.all.filter fun o => (s.mailPair o).up.isSome

/-- A response to STA also carries the set of ports whose up slots are full after the take (R192). -/
def State.upSet (s : State) (p : Port) : List Byte :=
  if p = .sta then encSet Outer.all s.upFull else []

/-- MAIL_TAKE (R192). -/
def State.mailTake (s : State) (p : Port) (o : Outer) : State × Reply :=
  match (s.mailPair o).outOf p with
  | some m =>
    let s1 := s.setMail o ((s.mailPair o).empty p)
    (s1, ⟨.done, encList (fun b => [b]) m ++ s1.upSet p⟩)
  | none => (s, ⟨.empty, s.upSet p⟩)

def execMailTake (p : Port) (obj : Byte) (args : Option Unit) (s : State) :
    Host.Outcome State Fault Refusal :=
  .next (s.serve p .mailTake (onObject (mailTarget p obj) args fun o _ u => u.mailTake p o))

end Sys2Proof.Machine
end

