-- ==== Sys2Proof/Machine/Recipes.lean ====
section
/-! DEFINITION. The requests about recipes, program memory and the cache: the directory (R45, R46, R48), the
regions (R53), PROG_READ and PROG_WRITE (R54, R56), and isolation (R70, R72 to R74). -/

namespace Sys2Proof.Machine

open Sys2Proof

/-- DIRECTORY_SET (R45, R46). -/
def State.directorySet (s : State) (k : RecipeId) (e : DirEntry) : State × Reply :=
  if e.check then
    if (s.dir k).useCount = 0 then (s.setDir k ((s.dir k).applied e), ⟨.done, []⟩)
    else (s.setDir k { s.dir k with held := some e }, ⟨.held, []⟩)
  else refuse .badValue s

def execDirectorySet (p : Port) (obj : Byte) (args : Option DirEntry) (s : State) :
    Host.Outcome State Fault Refusal :=
  .next (s.serve p .directorySet (onObject (Recipe.ofObject obj) args fun k e u =>
    u.directorySet k e))

/-- DIRECTORY_READ (R48). -/
def State.directoryPayload (s : State) (k : RecipeId) : List Byte :=
  encEntry (s.dir k).entry ++ le 1 (s.dir k).useCount ++ encOpt encEntry (s.dir k).held

def execDirectoryRead (p : Port) (obj : Byte) (args : Option Unit) (s : State) :
    Host.Outcome State Fault Refusal :=
  .next (s.serve p .directoryRead (onObject (Recipe.ofObject obj) args fun k _ u =>
    (u, ⟨.done, u.directoryPayload k⟩)))

/-- REGION_SET (R53). -/
def State.regionSet (s : State) (k : RegionId) (a : RegionArgs) : State × Reply :=
  (s.setRegion k ⟨a.stationWrite, a.headRead, a.moveWrite⟩, ⟨.done, []⟩)

def execRegionSet (p : Port) (obj : Byte) (args : Option RegionArgs) (s : State) :
    Host.Outcome State Fault Refusal :=
  .next (s.serve p .regionSet (onObject (Region.ofObject obj) args fun k a u => u.regionSet k a))

/-- REGION_READ: the three permissions of each region (R53; log entry 30). -/
def State.regionPayload (s : State) : List Byte :=
  RegionId.all.flatMap fun k => encRegion s.regions[k]

def execRegionRead (p : Port) (args : Option Unit) (s : State) :
    Host.Outcome State Fault Refusal :=
  .next (s.serve p .regionRead (onArgs args fun _ u => (u, ⟨.done, u.regionPayload⟩)))

/-- A request for the arbiter: the port is pending, and where the arbiter is idle the grant follows (R148, R187). -/
def State.askMemory (s : State) (p : Port) (x : PendingReq) : State × Reply :=
  (s.thenGrant (s.setPending p (some x)), ⟨.pending, []⟩)

/-- PROG_READ (R56). -/
def State.progRead (s : State) (p : Port) (a : ReadArgs) : State × Reply :=
  if burstOk a.address a.count then
    if p ≠ .sta ∧ !(s.regionAt a.address).headRead then refuse .notPermitted s
    else s.askMemory p (.progRead a.address a.count)
  else refuse .badValue s

def execProgRead (p : Port) (args : Option ReadArgs) (s : State) :
    Host.Outcome State Fault Refusal :=
  .next (s.serve p .progRead (onArgs args fun a u => u.progRead p a))

/-- PROG_WRITE, its checks in the order of R54. -/
def State.progWrite (s : State) (p : Port) (a : WriteArgs) : State × Reply :=
  if burstOk a.address a.bytes.length then
    if (s.regionAt a.address).stationWrite then
      if s.inUse a.address a.bytes.length then refuse .inUse s
      else s.askMemory p (.progWrite a.address a.bytes)
    else refuse .notPermitted s
  else refuse .badValue s

def execProgWrite (p : Port) (args : Option WriteArgs) (s : State) :
    Host.Outcome State Fault Refusal :=
  .next (s.serve p .progWrite (onArgs args fun a u => u.progWrite p a))

def State.setIsolation (s : State) (x : Isolation) : State :=
  { s with cache := { s.cache with isolation := x } }

/-- CACHE_ISOLATE: taken in NORMAL; it takes effect at once where the engine is idle with no fill in flight,
else the port is pending (R70). -/
def State.cacheIsolate (s : State) (p : Port) : State × Reply :=
  match s.cache.isolation with
  | .isolated => (s, ⟨.done, []⟩)
  | .normal =>
    if s.merge.item = none ∧ s.cache.fill = none then (s.setIsolation .isolated, ⟨.done, []⟩)
    else ((s.setIsolation .isolating).setPending p (some .cacheIsolate), ⟨.pending, []⟩)
  | .isolating => refuse .badState s

def execCacheIsolate (p : Port) (args : Option Unit) (s : State) :
    Host.Outcome State Fault Refusal :=
  .next (s.serve p .cacheIsolate (onArgs args fun _ u => u.cacheIsolate p))

/-- CACHE_TAG_READ (R72). -/
def State.tagPayload (s : State) (i : LineId) : List Byte :=
  le 2 (s.line i).tag ++ encBool (s.line i).valid ++ le 1 s.cache.isolation.code

def execCacheTagRead (p : Port) (obj : Byte) (args : Option Unit) (s : State) :
    Host.Outcome State Fault Refusal :=
  .next (s.serve p .cacheTagRead (onObject (Line.ofObject obj) args fun i _ u =>
    (u, ⟨.done, u.tagPayload i⟩)))

/-- The object of CACHE_INVALIDATE: a line, or ALL, 255, as `none` (R73, R190). -/
def lineOrAll (obj : Byte) : Option (Option LineId) :=
  if obj = 255#8 then some none else (Line.ofObject obj).map some

/-- All 128 valid marks turned off. -/
def State.invalidateAll (s : State) : State :=
  { s with cache := { s.cache with lines := s.cache.lines.map fun x => { x with valid := false } } }

/-- CACHE_INVALIDATE (R73). -/
def State.cacheInvalidate (s : State) (x : Option LineId) : State × Reply :=
  if s.cache.isolation = .isolated then
    match x with
    | some i => (s.invalidate i, ⟨.done, []⟩)
    | none => (s.invalidateAll, ⟨.done, []⟩)
  else refuse .badState s

def execCacheInvalidate (p : Port) (obj : Byte) (args : Option Unit) (s : State) :
    Host.Outcome State Fault Refusal :=
  .next (s.serve p .cacheInvalidate (onObject (lineOrAll obj) args fun x _ u =>
    u.cacheInvalidate x))

/-- CACHE_RELEASE (R74). -/
def State.cacheRelease (s : State) : State × Reply :=
  if s.cache.isolation = .isolated then (s.setIsolation .normal, ⟨.done, []⟩)
  else refuse .badState s

def execCacheRelease (p : Port) (args : Option Unit) (s : State) :
    Host.Outcome State Fault Refusal :=
  .next (s.serve p .cacheRelease (onArgs args fun _ u => u.cacheRelease))

end Sys2Proof.Machine
end

