-- ==== Sys2Proof/Machine/Resets.lean ====
section
/-! DEFINITION. The two resets: POWER_ON_RESET (R23, R51) and TRACK_RESET (R22). -/

namespace Sys2Proof.Machine

open Sys2Proof

/-! ### Power-on reset -/

/-- The bytes of a write in flight, from their first address. -/
def State.writeInFlight (s : State) : Option (Nat × List Byte) :=
  match s.arbiter.op with
  | some ⟨.port p, .progWrite, a, _⟩ =>
    match (s.port p.port).pending with
    | some (.progWrite _ bytes) => some (a, bytes)
    | _ => none
  | some ⟨.channel c, .moveWrite, a, _⟩ =>
    match (s.channel c).write with
    | some (.inFlight _ seq r _) => some (a, r.logBytes seq)
    | _ => none
  | _ => none

/-- Each byte of an abandoned write holds its old or its new value: a free value (R51; log entry 5). -/
def abandonWrite (draw : Nat) (m : List Host.Cell) : Nat → List Byte → List Host.Cell
  | _, [] => m
  | a, v :: vs =>
    abandonWrite draw (if Config.abandonedByteNew draw a then Memory.write m a v else m) (a + 1) vs

/-- Every piece of state takes its reset value; program memory is outside the part (R23, R51). The commands
that wait and the count of free values are the model's own and stay. -/
def State.powerOn (s : State) : State :=
  match s.writeInFlight with
  | some (a, bytes) =>
    { State.reset with
      mem := abandonWrite s.draws s.mem a bytes, draws := s.draws + 1, pending := s.pending }
  | none => { State.reset with mem := s.mem, draws := s.draws, pending := s.pending }

/-- POWER_ON_RESET, one event (log entry 25), after the events that steps have made due (R41; log entry 8): a
write whose grant follows one of those is in flight and is abandoned. -/
def execPowerOnReset (s : State) : Host.Outcome State Fault Refusal :=
  .next (s.takeDue Lane.all).powerOn

/-! ### TRACK_RESET -/

/-- A lane at TRACK_RESET: order and announce queue empty, both sensors READY, a held map applied (R22, R33). -/
def LaneState.trackReset (x : LaneState) : LaneState :=
  let y := { x with order := [], announces := [], entry := .ready, exit := .ready }
  match x.heldMap with
  | some m => y.applied m
  | none => y

/-- A directory entry at TRACK_RESET (R44, R47). -/
def DirState.trackReset (d : DirState) : DirState :=
  let d' := { d with useCount := 0 }
  match d.held with
  | some e => d'.applied e
  | none => d'

/-- A channel at TRACK_RESET: a waiting write withdrawn, one in flight detached (R154, R161). -/
def ChannelReg.trackReset (x : ChannelReg) : ChannelReg :=
  { x with write :=
      match x.write with
      | some (.inFlight i seq r _) => some (.inFlight i seq r none)
      | some (.waiting _) => none
      | none => none }

/-- Some held map or directory update is applied by a TRACK_RESET now. -/
def State.holdsUpdate (s : State) : Bool :=
  (s.lane .A).heldMap.isSome || (s.lane .B).heldMap.isSome ||
    RecipeId.all.any fun r => (s.dir r).held.isSome

def State.emptyLink (s : State) (n : HeadId) : State :=
  s.setLink n { s.link n with triggers := [], results := [] }

/-- The tracking state is emptied (R22, R65, R95, R115, R118, R154). -/
def State.trackEmptied (s : State) : State :=
  { s with
    slots := Vector.replicate 24 none
    lanes := ⟨s.lanes.a.trackReset, s.lanes.b.trackReset⟩
    directory := s.directory.map DirState.trackReset
    cache := { s.cache with waiting := none }
    merge := { s.merge with item := none }
    suspects := []
    defects := []
    channels := ⟨s.channels.defect.trackReset, s.channels.summary.trackReset⟩
    summaryReady := [] }

/-- The state emptied of what it tracks: the links are emptied (R75), and HELD_APPLIED is raised once where an update was applied (R47). -/
def State.trackReset (s : State) : State :=
  let s1 := HeadId.all.foldl State.emptyLink s.trackEmptied
  let s2 := if s.holdsUpdate then s1.raise .sta .heldApplied else s1
  s2.isolationEffect

/-- TRACK_RESET (R22), on the records as the events that steps have made due leave them (R41; log entry 8). -/
def execTrackReset (p : Port) (args : Option Unit) (s : State) : Host.Outcome State Fault Refusal :=
  .next (s.serve p .trackReset (onArgs args fun _ u => ((u.takeDue Lane.all).trackReset, ⟨.done, []⟩)))

end Sys2Proof.Machine
end

