-- ==== Sys2Proof/Machine/Dispatch.lean ====
section
/-! DEFINITION. exec: one arm per command, one direct call of its meaning. -/

namespace Sys2Proof.Machine

def exec (i : Instr) (s : State) : Host.Outcome State Fault Refusal :=
  match i with
  | .powerOnReset => Sys2Proof.Machine.execPowerOnReset s
  | .beltStep l => Sys2Proof.Machine.execBeltStep l s
  | .entryLeadingEdge l => Sys2Proof.Machine.execEntryLeadingEdge l s
  | .entryTrailingEdge l => Sys2Proof.Machine.execEntryTrailingEdge l s
  | .exitLeadingEdge l => Sys2Proof.Machine.execExitLeadingEdge l s
  | .exitTrailingEdge l => Sys2Proof.Machine.execExitTrailingEdge l s
  | .lengthLimit slot => Sys2Proof.Machine.execLengthLimit slot s
  | .headOpen slot n => Sys2Proof.Machine.execHeadOpen slot n s
  | .headLimit slot n => Sys2Proof.Machine.execHeadLimit slot n s
  | .deadline slot => Sys2Proof.Machine.execDeadline slot s
  | .exitDue slot => Sys2Proof.Machine.execExitDue slot s
  | .mergeTakeItem => Sys2Proof.Machine.execMergeTakeItem s
  | .memoryGrant => Sys2Proof.Machine.execMemoryGrant s
  | .cacheFillEnd => Sys2Proof.Machine.execCacheFillEnd s
  | .progReadEnd => Sys2Proof.Machine.execProgReadEnd s
  | .progWriteEnd => Sys2Proof.Machine.execProgWriteEnd s
  | .moveWriteEnd => Sys2Proof.Machine.execMoveWriteEnd s
  | .frameRejected p bytes => Sys2Proof.Machine.execFrameRejected p bytes s
  | .pendingTransaction p => Sys2Proof.Machine.execPendingTransaction p s
  | .nop p => Sys2Proof.Machine.execNop p s
  | .boardRead p obj args => Sys2Proof.Machine.execBoardRead p obj args s
  | .faultRead p args => Sys2Proof.Machine.execFaultRead p args s
  | .alertRead p args => Sys2Proof.Machine.execAlertRead p args s
  | .alertClear p args => Sys2Proof.Machine.execAlertClear p args s
  | .alertMaskSet p args => Sys2Proof.Machine.execAlertMaskSet p args s
  | .softAlert p obj args => Sys2Proof.Machine.execSoftAlert p obj args s
  | .mailPut p obj args => Sys2Proof.Machine.execMailPut p obj args s
  | .mailTake p obj args => Sys2Proof.Machine.execMailTake p obj args s
  | .announce p obj args => Sys2Proof.Machine.execAnnounce p obj args s
  | .lanePurge p obj args => Sys2Proof.Machine.execLanePurge p obj args s
  | .counterRead p obj args => Sys2Proof.Machine.execCounterRead p obj args s
  | .dispRead p obj args => Sys2Proof.Machine.execDispRead p obj args s
  | .progRead p args => Sys2Proof.Machine.execProgRead p args s
  | .triggerTake p args => Sys2Proof.Machine.execTriggerTake p args s
  | .resultPut p args => Sys2Proof.Machine.execResultPut p args s
  | .trackReset p args => Sys2Proof.Machine.execTrackReset p args s
  | .announceThresholdSet p obj args => Sys2Proof.Machine.execAnnounceThresholdSet p obj args s
  | .counterSet p obj args => Sys2Proof.Machine.execCounterSet p obj args s
  | .tunnelSet p obj args => Sys2Proof.Machine.execTunnelSet p obj args s
  | .tunnelRead p obj args => Sys2Proof.Machine.execTunnelRead p obj args s
  | .directorySet p obj args => Sys2Proof.Machine.execDirectorySet p obj args s
  | .directoryRead p obj args => Sys2Proof.Machine.execDirectoryRead p obj args s
  | .regionSet p obj args => Sys2Proof.Machine.execRegionSet p obj args s
  | .regionRead p args => Sys2Proof.Machine.execRegionRead p args s
  | .progWrite p args => Sys2Proof.Machine.execProgWrite p args s
  | .cacheIsolate p args => Sys2Proof.Machine.execCacheIsolate p args s
  | .cacheTagRead p obj args => Sys2Proof.Machine.execCacheTagRead p obj args s
  | .cacheInvalidate p obj args => Sys2Proof.Machine.execCacheInvalidate p obj args s
  | .cacheRelease p args => Sys2Proof.Machine.execCacheRelease p args s
  | .resultHoldSet p obj args => Sys2Proof.Machine.execResultHoldSet p obj args s
  | .headFlush p obj args => Sys2Proof.Machine.execHeadFlush p obj args s
  | .headLinkRead p obj args => Sys2Proof.Machine.execHeadLinkRead p obj args s
  | .mergeStatusRead p args => Sys2Proof.Machine.execMergeStatusRead p args s
  | .ringSet p obj args => Sys2Proof.Machine.execRingSet p obj args s
  | .logConsumed p obj args => Sys2Proof.Machine.execLogConsumed p obj args s
  | .logBlockSet p obj args => Sys2Proof.Machine.execLogBlockSet p obj args s
  | .channelRead p obj args => Sys2Proof.Machine.execChannelRead p obj args s
  | .watchSet p obj args => Sys2Proof.Machine.execWatchSet p obj args s
  | .watchRead p obj args => Sys2Proof.Machine.execWatchRead p obj args s
  | .watchClear p obj args => Sys2Proof.Machine.execWatchClear p obj args s
  | .faultPop p args => Sys2Proof.Machine.execFaultPop p args s

end Sys2Proof.Machine
end

