-- ==== Sys2Proof/Safety.lean ====
section
/-! DEFINITION. What the claims are stated with: the answer a request gets, what a request asks and where it
is permitted, the properties every step keeps, and what an event about some records leaves unchanged. -/

namespace Sys2Proof

/-! ### Requests as the spec lists them (R189, R190) -/

/-- The port and the request code of a command that is a request, NOP left out (R189). -/
def Instr.asks : Instr → Option (Port × Nat)
  | .boardRead p _ _ => some (p, 2)
  | .faultRead p _ => some (p, 3)
  | .alertRead p _ => some (p, 4)
  | .alertClear p _ => some (p, 5)
  | .alertMaskSet p _ => some (p, 6)
  | .softAlert p _ _ => some (p, 7)
  | .mailPut p _ _ => some (p, 8)
  | .mailTake p _ _ => some (p, 9)
  | .announce p _ _ => some (p, 10)
  | .lanePurge p _ _ => some (p, 11)
  | .counterRead p _ _ => some (p, 12)
  | .dispRead p _ _ => some (p, 13)
  | .progRead p _ => some (p, 14)
  | .triggerTake p _ => some (p, 15)
  | .resultPut p _ => some (p, 16)
  | .trackReset p _ => some (p, 17)
  | .announceThresholdSet p _ _ => some (p, 18)
  | .counterSet p _ _ => some (p, 19)
  | .tunnelSet p _ _ => some (p, 20)
  | .tunnelRead p _ _ => some (p, 21)
  | .directorySet p _ _ => some (p, 22)
  | .directoryRead p _ _ => some (p, 23)
  | .regionSet p _ _ => some (p, 24)
  | .regionRead p _ => some (p, 25)
  | .progWrite p _ => some (p, 26)
  | .cacheIsolate p _ => some (p, 27)
  | .cacheTagRead p _ _ => some (p, 28)
  | .cacheInvalidate p _ _ => some (p, 29)
  | .cacheRelease p _ => some (p, 30)
  | .resultHoldSet p _ _ => some (p, 31)
  | .headFlush p _ _ => some (p, 32)
  | .headLinkRead p _ _ => some (p, 33)
  | .mergeStatusRead p _ => some (p, 34)
  | .ringSet p _ _ => some (p, 35)
  | .logConsumed p _ _ => some (p, 36)
  | .logBlockSet p _ _ => some (p, 37)
  | .channelRead p _ _ => some (p, 38)
  | .watchSet p _ _ => some (p, 39)
  | .watchRead p _ _ => some (p, 40)
  | .watchClear p _ _ => some (p, 41)
  | .faultPop p _ => some (p, 42)
  | .powerOnReset | .beltStep _ | .entryLeadingEdge _ | .entryTrailingEdge _
  | .exitLeadingEdge _ | .exitTrailingEdge _ | .lengthLimit _ | .headOpen _ _ | .headLimit _ _
  | .deadline _ | .exitDue _ | .mergeTakeItem | .memoryGrant | .cacheFillEnd | .progReadEnd
  | .progWriteEnd | .moveWriteEnd | .frameRejected _ _ | .pendingTransaction _ | .nop _ => none

def Port.isHead : Port → Bool
  | .hl _ => true
  | .sta | .lnc | .gtc => false

/-- The table of R189, by request code. -/
def mayAsk (p : Port) (code : Nat) : Bool :=
  if code ≤ 9 then true
  else if code ≤ 12 then decide (p = .sta ∨ p = .lnc)
  else if code = 13 then decide (p = .sta ∨ p = .gtc)
  else if code = 14 then decide (p = .sta) || p.isHead
  else if code ≤ 16 then p.isHead
  else decide (p = .sta)

/-- The object byte lies in the request's range, as numbers (R190, R191, R73); true where it names none. -/
def Instr.objectInRange : Instr → Bool
  | .boardRead _ o _ => decide (o.toNat < 24)
  | .softAlert _ o _ => decide (o.toNat < 7)
  | .mailPut p o _ | .mailTake p o _ => decide (p ≠ .sta) || decide (1 ≤ o.toNat ∧ o.toNat < 7)
  | .announce _ o _ | .lanePurge _ o _ | .counterRead _ o _ | .dispRead _ o _
  | .announceThresholdSet _ o _ | .counterSet _ o _ | .tunnelSet _ o _ | .tunnelRead _ o _ =>
    decide (o.toNat < 2)
  | .directorySet _ o _ | .directoryRead _ o _ | .regionSet _ o _ => decide (o.toNat < 16)
  | .cacheTagRead _ o _ => decide (o.toNat < 128)
  | .cacheInvalidate _ o _ => decide (o.toNat < 128 ∨ o.toNat = 255)
  | .resultHoldSet _ o _ | .headFlush _ o _ | .headLinkRead _ o _ => decide (o.toNat < 4)
  | .ringSet _ o _ | .logConsumed _ o _ | .logBlockSet _ o _ | .channelRead _ o _
  | .watchSet _ o _ | .watchRead _ o _ | .watchClear _ o _ => decide (o.toNat < 2)
  | _ => true

/-- The payload suits the request's fields (R190). -/
def Instr.payloadSuits : Instr → Bool
  | .boardRead _ _ a | .softAlert _ _ a | .mailTake _ _ a | .lanePurge _ _ a | .counterRead _ _ a
  | .dispRead _ _ a | .tunnelRead _ _ a | .directoryRead _ _ a | .cacheTagRead _ _ a
  | .cacheInvalidate _ _ a | .headFlush _ _ a | .headLinkRead _ _ a | .channelRead _ _ a
  | .watchRead _ _ a | .watchClear _ _ a | .faultRead _ a | .alertRead _ a | .triggerTake _ a
  | .trackReset _ a | .regionRead _ a | .cacheIsolate _ a | .cacheRelease _ a
  | .mergeStatusRead _ a | .faultPop _ a => a.isSome
  | .alertClear _ a => a.isSome
  | .alertMaskSet _ a => a.isSome
  | .mailPut _ _ a => a.isSome
  | .announce _ _ a => a.isSome
  | .progRead _ a => a.isSome
  | .resultPut _ a => a.isSome
  | .announceThresholdSet _ _ a | .counterSet _ _ a | .resultHoldSet _ _ a | .logConsumed _ _ a
  | .logBlockSet _ _ a => a.isSome
  | .tunnelSet _ _ a => a.isSome
  | .directorySet _ _ a => a.isSome
  | .regionSet _ _ a => a.isSome
  | .progWrite _ a => a.isSome
  | .ringSet _ _ a => a.isSome
  | .watchSet _ _ a => a.isSome
  | _ => true

/-! ### What a request's payload must be -/

/-- The checks of TUNNEL_SET (R31). -/
structure TunnelArgs.Passes (a : TunnelArgs) : Prop where
  defaultRecipe : a.defaultRecipe ≤ 16
  offsets : ∀ n, a.map.headOpenOffset.get n ≤ 4194303 ∧ a.map.headSpan.get n ≤ 4194303
  counts : a.map.gateOffset ≤ 4194303 ∧ a.map.decisionMargin ≤ 4194303 ∧
    a.map.exitTolerance ≤ 4194303 ∧ a.map.minLength ≤ 4194303 ∧ a.map.maxLength ≤ 4194303
  lengths : a.map.enable = true → 1 ≤ a.map.minLength ∧ a.map.minLength ≤ a.map.maxLength
  margin : a.map.enable = true → a.map.decisionMargin ≤ a.map.gateOffset
  windows : a.map.enable = true → ∀ n ∈ a.map.headServes,
    a.map.headOpenOffset.get n < a.map.gateOffset - a.map.decisionMargin
  exit : a.map.enable = true → a.map.gateOffset + a.map.exitTolerance ≤ 4194303
  limits : a.map.enable = true → ∀ n ∈ a.map.headServes,
    a.map.headOpenOffset.get n + a.map.maxLength + a.map.headSpan.get n ≤ 4194303

/-- The checks of DIRECTORY_SET (R45). -/
structure DirEntry.Passes (e : DirEntry) : Prop where
  bases : ∀ n, e.listBase.get n % 8 = 0 ∧ e.listBase.get n ≤ 16777215
  lengths : ∀ n, e.listLength.get n ≤ 4095
  ends : ∀ n, e.listBase.get n + 8 * e.listLength.get n ≤ 16777216
  limits : e.reworkLimit ≤ 255 ∧ e.marginalLimit ≤ 255

/-- The item an item of a RESULT_PUT stands for where it passes R86: joint id, grade and class inside the
values of R85, a class present for every grade but GOOD and absent for GOOD. -/
def RawItem.standsFor : RawItem → Item → Prop
  | .result t j g c v, .result u k h d w =>
    t = u ∧ j = k.toNat ∧ Grade.all[g]? = some h ∧ c = d.map DefectClass.code ∧ v = w ∧
      (d.isSome ↔ h ≠ .good)
  | .done t, .done u => t = u
  | .abort t x, .abort u y => t = u ∧ x = y
  | _, _ => False

namespace Machine

/-- The state with the response of a request in its port's slot and nothing else changed (R185, R194). -/
def State.answers (s : State) (p : Port) (st : Status) (code : Nat) (payload : List Byte) : State :=
  { s with ports := s.ports.set p { s.ports.get p with slot := ⟨st, BitVec.ofNat 8 code, payload⟩ } }

/-- Port `p` has no request pending. -/
def State.open_ (s : State) (p : Port) : Prop := (s.port p).pending = none

/-! ### What every step keeps -/

/-- Program memory keeps its canonical form. -/
def State.memoryWf (s : State) : Bool := Memory.wf s.mem

/-- Every queue and pool is within its capacity (00_scope.md, Numbers at a glance). -/
structure State.Capacity (s : State) : Prop where
  announces : ∀ l, (s.lane l).announces.length ≤ 4
  triggers : ∀ n, (s.link n).triggers.length ≤ 8
  results : ∀ n, (s.link n).results.length ≤ 64
  suspects : s.suspects.length ≤ 192
  defects : s.defects.length ≤ 384
  faults : s.faults.queue.length ≤ 8

/-- No two live records carry the same tag (R4). -/
def State.DistinctTags (s : State) : Prop :=
  ∀ i j r x, s.board i = some r → s.board j = some x → r.tag = x.tag → i = j

/-- 0 ≤ producer - consumer ≤ ring size, with room for a write that is waiting or in flight, and ring sizes
of at most 65,536 (R152, R158). -/
structure ChannelReg.Bounded (x : ChannelReg) : Prop where
  occupancy : x.occupancy ≤ x.ring.size
  room : x.write ≠ none → x.occupancy < x.ring.size
  size : x.ring.size ≤ 65536
  held : ∀ r, x.held = some r → r.size ≤ 65536

def State.RingsBounded (s : State) : Prop := ∀ c, (s.channel c).Bounded

/-- The fields of a board that nothing changes after creation (R1). -/
structure Record.SameBoard (r x : Record) : Prop where
  tag : x.tag = r.tag
  lane : x.lane = r.lane
  recipe : x.recipe = r.recipe
  serial : x.serial = r.serial
  entryPos : x.entryPos = r.entryPos

/-! ### What a tracking event leaves unchanged -/

/-- A channel but for its write. -/
def ChannelReg.fixed (x : ChannelReg) : ChannelReg := { x with write := none }

/-- What an event about the boards in the slots `A` leaves unchanged: every other board, program memory,
regions, cache, Merge Engine, arbiter, watches, ports, mailboxes, the tag counter, the commands that wait,
belt counters, announce queues and thresholds, result queues and hold thresholds, every channel but for a
write it may come to request, masks, enables and soft-source sets, and the station's reported set. -/
structure Frame (A : Slot → Prop) (s t : State) : Prop where
  boards : ∀ j, ¬ A j → t.board j = s.board j
  tagCounter : t.tagCounter = s.tagCounter
  mem : t.mem = s.mem
  regions : t.regions = s.regions
  cache : t.cache = s.cache
  merge : t.merge = s.merge
  arbiter : t.arbiter = s.arbiter
  watches : t.watches = s.watches
  ports : t.ports = s.ports
  mail : t.mail = s.mail
  pending : t.pending = s.pending
  counter : ∀ l, (t.lane l).counter = (s.lane l).counter
  announces : ∀ l, (t.lane l).announces = (s.lane l).announces
  announceThreshold : ∀ l, (t.lane l).announceThreshold = (s.lane l).announceThreshold
  results : ∀ n, (t.link n).results = (s.link n).results
  threshold : ∀ n, (t.link n).threshold = (s.link n).threshold
  channels : ∀ c, (t.channel c).fixed = (s.channel c).fixed
  mask : ∀ p, (t.alert p).mask = (s.alert p).mask
  enable : ∀ p, (t.alert p).enable = (s.alert p).enable
  softSources : ∀ p, (t.alert p).softSources = (s.alert p).softSources
  reported : t.faults.reported = s.faults.reported

/-- What events about the boards in the slots `A` leave unchanged, with the grants that follow them (R148): all
that `Frame` names, but the arbiter where it was idle, a port whose write is given up IN_USE (R55), and the
state of a channel that a grant finds forbidden its place (R159). -/
structure FrameButGrants (A : Slot → Prop) (s t : State) : Prop where
  boards : ∀ j, ¬ A j → t.board j = s.board j
  tagCounter : t.tagCounter = s.tagCounter
  mem : t.mem = s.mem
  regions : t.regions = s.regions
  cache : t.cache = s.cache
  merge : t.merge = s.merge
  arbiter : s.arbiter.op ≠ none → t.arbiter = s.arbiter
  watches : t.watches = s.watches
  ports : ∀ p, t.port p = s.port p ∨ t.port p = ⟨⟨.inUse, 26#8, []⟩, none⟩
  mail : t.mail = s.mail
  pending : t.pending = s.pending
  counter : ∀ l, (t.lane l).counter = (s.lane l).counter
  announces : ∀ l, (t.lane l).announces = (s.lane l).announces
  announceThreshold : ∀ l, (t.lane l).announceThreshold = (s.lane l).announceThreshold
  results : ∀ n, (t.link n).results = (s.link n).results
  threshold : ∀ n, (t.link n).threshold = (s.link n).threshold
  channels : ∀ c, (t.channel c).fixed = (s.channel c).fixed ∨
    (t.channel c).fixed = { (s.channel c).fixed with state := .faulted }
  mask : ∀ p, (t.alert p).mask = (s.alert p).mask
  enable : ∀ p, (t.alert p).enable = (s.alert p).enable
  softSources : ∀ p, (t.alert p).softSources = (s.alert p).softSources
  reported : t.faults.reported = s.faults.reported

/-! ### Parts of statements -/

/-- The link without the triggers of a tag (R80). -/
def Link.without (k : Link) (t : Tag) : Link :=
  { k with triggers := k.triggers.filter fun x => decide (x.tag ≠ t) }

/-- The record that takes its length under the map `m` (R17): INSPECTING, LENGTH_LIMIT disarmed, a HEAD_LIMIT
armed for each head that is not final. -/
def Record.accepted (r : Record) (m : TunnelMap) (length : Nat) : Record :=
  { r with
    length := some length
    state := .inspecting
    armed := (r.armed.filter fun e => decide (e.kind ≠ .lengthLimit)) ++
      ((HeadId.all.filter fun n => !(r.headStatus n).isFinal).map fun n =>
        ⟨.headLimit n,
          r.entryPos + BitVec.ofNat 24 (m.headOpenOffset.get n + length + m.headSpan.get n)⟩) }

/-- No EXIT_DUE of a record of the lane order is due. -/
def State.noExitDue (s : State) (l : Lane) : Prop :=
  ∀ i ∈ (s.lane l).order, ∀ r t, s.board i = some r → r.targetOf .exitDue = some t →
    due (s.lane r.lane).counter t = false

/-- The command of the table that hands over a scheduled event (R37). -/
def ScheduledEvent.command (e : ScheduledEvent) : Instr :=
  match e.kind with
  | .lengthLimit => .lengthLimit e.slot
  | .headOpen n => .headOpen e.slot n
  | .headLimit n => .headLimit e.slot n
  | .deadline => .deadline e.slot
  | .exitDue => .exitDue e.slot

/-! ### What a close leaves -/

/-- How many suspects of slot `i` have the grade `g`. -/
def State.suspectsGraded (s : State) (i : Slot) (g : Grade) : Nat :=
  s.suspects.countP fun x => decide (x.slot = i) && decide (x.grade = g)

/-- How many DEFECT suspects of slot `i` are CRITICAL. -/
def State.criticalSuspects (s : State) (i : Slot) : Nat :=
  s.suspects.countP fun x =>
    decide (x.slot = i) && decide (x.grade = .defect) && decide (x.criticality = .critical)

/-- The entries no head of a record has passed, 0 with NO_RECIPE (R126). -/
def State.unpassed (s : State) (r : Record) : Nat :=
  match s.entryOf r with
  | none => 0
  | some e =>
    (e.listLength.v0 - r.heads.v0.cursor) + (e.listLength.v1 - r.heads.v1.cursor) +
      (e.listLength.v2 - r.heads.v2.cursor) + (e.listLength.v3 - r.heads.v3.cursor)

/-- `x` is what the close of the record `r` in slot `i` makes of it (R126 to R129), apart from its
outstanding defects and DEFECT_RECORDS_DROPPED, which the Defect Pool decides (R119). -/
structure ClosedFrom (s : State) (i : Slot) (r x : Record) : Prop where
  board : r.SameBoard x
  state : x.state = .decided
  length : x.length = r.length
  exitFate : x.exitFate = r.exitFate
  exitPos : x.exitPos = r.exitPos
  heads : ∀ n, x.heads.get n =
    { r.heads.get n with
      status := if (r.headStatus n).isFinal then r.headStatus n else .late }
  armed : x.armed = r.armed.filter fun e => decide (e.kind = .exitDue)
  defects : x.counts.defects = r.counts.defects + s.suspectsGraded i .defect
  critical : x.counts.critical = r.counts.critical + s.criticalSuspects i
  advisory : x.counts.advisory = r.counts.advisory
  marginals : x.counts.marginals = r.counts.marginals + s.suspectsGraded i .marginal
  unseen : x.counts.unseen =
    r.counts.unseen + s.unpassed r + s.suspectsGraded i .notMeasured
  cleared : x.counts.cleared = r.counts.cleared
  verdict : x.verdict = some (verdictOf (s.entryOf r) x)
  flags : ∀ f, f ≠ .defectRecordsDropped → (f ∈ x.flags ↔ f ∈ r.flags ∨
    (f = .headLate ∧ ∃ n, (r.headStatus n).isFinal = false) ∨
    (f = .headAbsent ∧ BoardFlag.noRecipe ∉ r.flags ∧ ∃ n, r.headStatus n = .absent))

/-- The board `r` in slot `i` has become `x`, and the Defect Pool of `s` that of `t`, by the defect records
`ds` of one close (R119, R127): those with room join the tail and are outstanding; the first one without room
gives DEFECT_POOL_FULL where DEFECT_RECORDS_DROPPED was clear. A DISABLED channel drops all (R157). -/
structure PooledFrom (s t : State) (i : Slot) (r x : Record) (ds : List DefectRec) : Prop where
  disabled : (s.channel .defect).state = .disabled → t.defects = s.defects ∧
    x.outstanding = r.outstanding ∧ t.faults = s.faults ∧
    (.defectRecordsDropped ∈ x.flags ↔ .defectRecordsDropped ∈ r.flags)
  pool : (s.channel .defect).state ≠ .disabled →
    t.defects = s.defects ++ (ds.take (384 - s.defects.length)).map fun d => ⟨i, d⟩
  outstanding : (s.channel .defect).state ≠ .disabled →
    x.outstanding = r.outstanding + (ds.take (384 - s.defects.length)).length
  dropped : (s.channel .defect).state ≠ .disabled → (.defectRecordsDropped ∈ x.flags ↔
    .defectRecordsDropped ∈ r.flags ∨ 384 - s.defects.length < ds.length)
  faults : (s.channel .defect).state ≠ .disabled → t.faults =
    match ds.drop (384 - s.defects.length) with
    | [] => s.faults
    | d :: _ =>
      if .defectRecordsDropped ∈ r.flags then s.faults
      else (s.recordFault
        { cause := .defectPoolFull, source := .verdictUnit, lane := some r.lane, tag := some r.tag,
          slot := some i, head := some d.firstHead, joint := some d.joint, detail := 384 }).faults

end Machine

/-! ### Log records as bytes (R196, R197) -/

/-- The number that `k` bytes from byte `n` on spell, least significant byte first (R190). -/
def numberAt (bytes : List Byte) (n k : Nat) : Nat :=
  ((bytes.drop n).take k).foldr (fun b x => b.toNat + 256 * x) 0

/-- The `w` bits of a number from bit `lo` up. -/
def bitsAt (lo w x : Nat) : Nat := x / 2 ^ lo % 2 ^ w

end Sys2Proof
end

