-- ==== Sys2Proof/Certificates/Slice0/Obligations.lean ====
section
/-! DEFINITION. The statements. A command's statement gives the state it answers with: an equation, in which
what is not named is unchanged, over the shared operations that statements of their own describe
(a fault recorded, a flag raised, a close, a board leaving its lane). -/

open Sys2Proof Sys2Proof.Machine

/-! ### The block as a machine -/

/-- A step takes the command at the front of the queue and runs it with the queue's rest (log entry 7). -/
def Obligations.StepRunsFrontCommand : Prop :=
  ∀ (c : Instr) (cs : List Instr) (s : State),
    step { s with pending := c :: cs } = exec c { s with pending := cs }

/-- On an empty queue the block idles (log entry 10), and a command for an event that is not armed or not due
changes nothing (log entry 7; R40 for an event disarmed): both are the model's choice. -/
def Obligations.NothingThereChangesNothing : Prop :=
  (∀ s : State, s.pending = [] → step s = .next s) ∧
  ∀ (s : State) (i : Slot) (k : EventKind),
    (∀ r t, s.board i = some r → r.targetOf k = some t → due (s.lane r.lane).counter t = false) →
    exec (match k with
      | .lengthLimit => .lengthLimit i
      | .headOpen n => .headOpen i n
      | .headLimit n => .headLimit i n
      | .deadline => .deadline i
      | .exitDue => .exitDue i) s = .next s

/-- POWER_ON_RESET: every piece of state at its reset value; a byte of program memory changes only where a
write in flight was abandoned, and then to that write's byte (R51). The events that steps have made due act first
(R41; log entry 8), and a grant that follows one (log entry 9) may put that write in flight. The queue of
commands stays. -/
def Obligations.PowerOnResetGivesResetValues : Prop :=
  ∀ s0 : State,
    let s := s0.takeDue [.A, .B]
    FrameButGrants (fun _ => True) s0 s ∧ ∃ t, exec .powerOnReset s0 = .next t ∧
    (∀ i, t.board i = none) ∧ t.tagCounter = 0#8 ∧
    (∀ l, t.lane l = ⟨0#24, .ready, .ready,
      ⟨false, [], PerHead.const 0, PerHead.const 0, 0, 0, 0, 0, 0, none⟩, none, [], [], 1⟩) ∧
    (∀ k, t.dir k = ⟨⟨false, PerHead.const 0, PerHead.const 0, 0, 0⟩, 0, none⟩) ∧
    (∀ k : RegionId, t.regions[k] = ⟨true, false, false⟩) ∧
    (∀ k, (t.line k).valid = false) ∧ t.cache.isolation = .normal ∧ t.cache.fill = none ∧
    t.cache.waiting = none ∧ (∀ n, t.link n = ⟨[], [], 8⟩) ∧ t.merge = ⟨none, .h3⟩ ∧
    t.suspects = [] ∧ t.defects = [] ∧ t.arbiter = ⟨none, .hl .h3, .summary⟩ ∧
    (∀ c, t.channel c = ⟨.disabled, ⟨0, 0, .low⟩, 0#17, 0#17, 16, 16, 0, 0#16, none, none⟩) ∧
    (∀ w, t.watch w = ⟨false, none, none, none, none, none, false, false⟩) ∧
    t.summaryReady = [] ∧ t.faults = ⟨[], [], []⟩ ∧
    (∀ p, t.alert p = ⟨[], [], [], false, []⟩) ∧ (∀ p, t.port p = ⟨⟨.empty, 0#8, []⟩, none⟩) ∧
    (∀ o, t.mailPair o = ⟨none, none⟩) ∧ t.pending = s0.pending ∧
    (s0.memoryWf = true → ∀ x, Memory.read t.mem x = Memory.read s0.mem x ∨
      ∃ a bytes, s.writeInFlight = some (a, bytes) ∧ a ≤ x ∧ bytes[x - a]? = some (Memory.read t.mem x))

/-- The state after reset meets what every step keeps. -/
def Obligations.ResetMeetsWhatStepsKeep : Prop :=
  State.reset.memoryWf = true ∧ State.reset.Capacity ∧ State.reset.DistinctTags ∧
    State.reset.RingsBounded ∧ State.reset.grantDue = false

/-- TRACK_RESET (R22): the tracking state is emptied, held updates are applied, the rest is kept. The events
that steps have made due act first (R41; log entry 8). -/
def Obligations.TrackResetEmptiesTracking : Prop :=
  ∀ s0 : State, s0.open_ .sta →
    let s := s0.takeDue [.A, .B]
    FrameButGrants (fun _ => True) s0 s ∧ ∃ t, exec (.trackReset .sta (some ())) s0 = .next t ∧
    (∀ i, t.board i = none) ∧ t.tagCounter = s.tagCounter ∧
    (∀ l, t.lane l = { s.lane l with
      order := [], announces := [], entry := .ready, exit := .ready,
      map := (s.lane l).heldMap.getD (s.lane l).map, heldMap := none }) ∧
    (∀ k, t.dir k = ⟨(s.dir k).held.getD (s.dir k).entry, 0, none⟩) ∧
    (∀ n, t.link n = ⟨[], [], (s.link n).threshold⟩) ∧
    t.merge = ⟨none, s.merge.lastServed⟩ ∧ t.suspects = [] ∧ t.defects = [] ∧
    t.summaryReady = [] ∧
    t.cache = { s.cache with
      waiting := none
      isolation := if s.cache.isolation = .isolating ∧ s.cache.fill = none then .isolated
        else s.cache.isolation } ∧
    (∀ c, t.channel c = { s.channel c with
      write := match (s.channel c).write with
        | some (.inFlight i q r _) => some (.inFlight i q r none)
        | _ => none }) ∧
    t.mem = s.mem ∧ t.regions = s.regions ∧ t.arbiter = s.arbiter ∧ t.watches = s.watches ∧
    t.faults = s.faults ∧ t.mail = s.mail ∧ t.pending = s.pending ∧ t.draws = s.draws ∧
    (t.port .sta).slot = ⟨.done, 17#8, []⟩ ∧ (∀ p, p ≠ .sta → t.port p = s.port p) ∧
    (∀ p, (t.alert p).mask = (s.alert p).mask ∧ (t.alert p).enable = (s.alert p).enable ∧
      (t.alert p).softSources = (s.alert p).softSources) ∧
    (∀ p f, f ∈ (t.alert p).latched ↔ f ∈ (s.alert p).latched ∨
      (p = .sta ∧ f = .heldApplied ∧
        ((∃ l, (s.lane l).heldMap ≠ none) ∨ ∃ k, (s.dir k).held ≠ none)) ∨
      ∃ n, p = .hl n ∧ f = .queueReleased ∧ (s.link n).holdOn = true ∧ (s.link n).threshold < 64)

/-! ### Transactions and refusals -/

/-- R187: while a port is pending no transaction on it changes anything. NOP never does (R185), nor does a
transaction of no whole byte (R184). A frame that fails its checks gives BAD_FRAME (R186). -/
def Obligations.TransactionsWithoutARequest : Prop :=
  ∀ (s : State) (p : Port),
    exec (.nop p) s = .next s ∧ exec (.pendingTransaction p) s = .next s ∧
    exec (.frameRejected p []) s = .next s ∧
    ((s.port p).pending ≠ none →
      (∀ c code, c.asks = some (p, code) → exec c s = .next s) ∧
      ∀ bytes, exec (.frameRejected p bytes) s = .next s) ∧
    (s.open_ p → ∀ code rest, Decode.frameOk (code :: rest) = false →
      exec (.frameRejected p (code :: rest)) s = .next (s.answers p .badFrame code.toNat []))

/-- R186: the first of the three refusals that holds, and no change but the port's response. -/
def Obligations.RefusalsChangeOnlyTheResponse : Prop :=
  ∀ (s : State) (c : Instr) (p : Port) (code : Nat), c.asks = some (p, code) → s.open_ p →
    (mayAsk p code = false → exec c s = .next (s.answers p .notPermitted code [])) ∧
    (mayAsk p code = true → c.objectInRange = false →
      exec c s = .next (s.answers p .badObject code [])) ∧
    (mayAsk p code = true → c.objectInRange = true → c.payloadSuits = false →
      exec c s = .next (s.answers p .badValue code []))

/-! ### Faults and alerts -/

/-- R178: the flag set and unseen, every other flag and port as it was; the line follows the flags (R180), a
level flag its condition (R177, R179). R134, R133, R135: the presentation, its lines and DISP_READY. -/
def Obligations.RaisedFlagIsSetAndUnseen : Prop :=
  (∀ (s : State) (p : Port) (f : AlertFlag), ∃ x, s.raise p f = { s with alerts := s.alerts.set p x } ∧
    x.mask = (s.alert p).mask ∧ x.enable = (s.alert p).enable ∧
    x.softSources = (s.alert p).softSources ∧
    (∀ g, g ∈ x.latched ↔ g = f ∨ g ∈ (s.alert p).latched) ∧
    ∀ g, g ∈ x.seen ↔ g ≠ f ∧ g ∈ (s.alert p).seen) ∧
  (∀ (s : State) (p : Port), s.alertLine p = true ↔
    (s.alert p).enable = true ∧ ∃ f ∈ (s.alert p).mask, s.flagActive p f = true) ∧
  (∀ (s : State) (p : Port) (f : AlertFlag), s.flagActive p f = true ↔
    f ∈ (s.alert p).latched ∨ s.levelFlag p f = true) ∧
  (∀ s : State,
    (∀ n, s.levelFlag (.hl n) .triggerPending = true ↔ (s.link n).triggers ≠ []) ∧
    (s.levelFlag .sta .mailUp = true ↔ ∃ o, (s.mailPair o).up ≠ none) ∧
    (∀ o : Outer, s.levelFlag o.port .mailDown = true ↔ (s.mailPair o).down ≠ none) ∧
    (s.levelFlag .gtc .dispReadyA = true ↔ s.presentation .A ≠ none) ∧
    (s.levelFlag .gtc .dispReadyB = true ↔ s.presentation .B ≠ none)) ∧
  ∀ (s : State) (l : Lane),
    ((s.lane l).order = [] → s.presentation l = none) ∧
    (∀ i rest r, (s.lane l).order = i :: rest → s.board i = some r →
      (r.state ≠ .decided → s.presentation l = none) ∧
      ∀ v, r.state = .decided → r.verdict = some v → s.presentation l = some (r.tag, v)) ∧
    (s.presentation l = none → s.disposition l = ⟨false, false, false, 0#4⟩) ∧
    ∀ t v, s.presentation l = some (t, v) →
      (s.disposition l).dv = true ∧ (s.disposition l).dt.toNat = t.toNat % 16 ∧
      ((s.disposition l).dr1, (s.disposition l).dr0) =
        match v with
        | .pass => (false, false)
        | .rework => (false, true)
        | .unverified => (true, false)
        | .scrap => (true, true)

/-- R173: with fewer than 8 records a fault joins the tail with an empty reader set; with 8 its cause joins
the overflow set and FAULT_OVERFLOW is raised. FAULT_PENDING follows the queue. -/
def Obligations.FaultJoinsQueueOrOverflow : Prop :=
  ∀ (s : State) (f : FaultRec),
    (s.faults.queue.length < 8 → s.recordFault f =
      { s with faults := { s.faults with queue := s.faults.queue ++ [⟨f, []⟩] } }) ∧
    (8 ≤ s.faults.queue.length → ∃ o, (∀ c, c ∈ o ↔ c = f.cause ∨ c ∈ s.faults.overflow) ∧
      s.recordFault f =
        State.raise { s with faults := { s.faults with overflow := o } } .sta .faultOverflow) ∧
    (s.flagActive .sta .faultPending = true ↔
      .faultPending ∈ (s.alert .sta).latched ∨ s.faults.queue ≠ [])

/-- R46, R47, R32, R33: a fall of use_count to 0 applies the recipe's held update, an empty lane order the
lane's held map; each raises HELD_APPLIED. -/
def Obligations.HeldUpdatesAreApplied : Prop :=
  (∀ (s : State) (k : RecipeId), ∃ d, (s.dropUse k).directory = s.directory.set k d ∧
    d.useCount = (s.dir k).useCount - 1 ∧
    (∀ e, (s.dir k).held = some e → (s.dir k).useCount = 1 →
      d.entry = e ∧ d.held = none ∧
      s.dropUse k = State.raise { s with directory := s.directory.set k d } .sta .heldApplied) ∧
    ((s.dir k).held = none ∨ (s.dir k).useCount ≠ 1 →
      d.entry = (s.dir k).entry ∧ d.held = (s.dir k).held ∧
      s.dropUse k = { s with directory := s.directory.set k d })) ∧
  ∀ (s : State) (l : Lane),
    (∀ m, (s.lane l).heldMap = some m → (s.lane l).order = [] →
      s.applyHeldMap l = State.raise { s with lanes := s.lanes.set l { s.lane l with
        map := m, heldMap := none, entry := .ready, exit := .ready } } .sta .heldApplied) ∧
    ((s.lane l).heldMap = none ∨ (s.lane l).order ≠ [] → s.applyHeldMap l = s)

/-! ### Records leaving, channels and the Defect Pool -/

/-- R154, R144, R119, R157: when a channel requests a write, what becomes of a record that is LEAVING, and of a
new defect record: it joins the pool, is dropped by a DISABLED channel, or is not kept. The head that
DEFECT_POOL_FULL names for a pair is the model's reading (log entry 20). -/
def Obligations.RecordsReachTheMoveEngine : Prop :=
  (∀ (s : State) (c : Channel), s.requestWrite c =
    if (s.channel c).state = .running ∧ (s.channel c).write = none ∧ (s.channel c).held = none ∧
        (s.channel c).occupancy < (s.channel c).ring.size ∧ 0 < s.sourceLength c then
      { s with channels := s.channels.set c { s.channel c with
        write := some (.waiting (s.channel c).producer) } }
    else s) ∧
  (∀ (s : State) (i : Slot) (r : Record) (fate : ExitFate), s.board i = some r →
    s.makeLeaving i fate =
      let s1 : State := { s with
        slots := s.slots.set i (some
          { r with exitFate := some fate, armed := [], state := .leaving })
        lanes := s.lanes.set r.lane { s.lane r.lane with
          order := (s.lane r.lane).order.filter fun j => decide (j ≠ i) } }
      if r.outstanding ≠ 0 then s1
      else if (s.channel .summary).state = .disabled then { s1 with slots := s.slots.set i none }
      else State.requestWrite { s1 with summaryReady := s.summaryReady ++ [i] } .summary) ∧
  ∀ (s : State) (src : Source) (i : Slot) (r : Record) (d : DefectRec), s.board i = some r →
    ((s.channel .defect).state = .disabled → s.addDefect src i d = (s, [])) ∧
    ((s.channel .defect).state ≠ .disabled → s.defects.length < 384 → s.addDefect src i d =
      (State.requestWrite { s with
        slots := s.slots.set i (some { r with outstanding := r.outstanding + 1 })
        defects := s.defects ++ [⟨i, d⟩] } .defect, [])) ∧
    ((s.channel .defect).state ≠ .disabled → 384 ≤ s.defects.length → s.addDefect src i d =
      ({ s with slots := s.slots.set i (some (r.addFlag .defectRecordsDropped)) },
        if .defectRecordsDropped ∈ r.flags then []
        else [{ cause := .defectPoolFull, source := src, lane := some r.lane, tag := some r.tag,
                slot := some i, head := some d.firstHead, joint := some d.joint,
                detail := 384 }]))

/-! ### Merge rules -/

/-- R112: what a report resolved alone changes, by its grade. A DEFECT report has a class and a value (R86); the
`getD` of an absent one, OTHER and 0, is the model's choice (log entry 26). -/
def Obligations.ReportResolvedAlone : Prop :=
  ∀ (s : State) (src : Source) (i : Slot) (r : Record) (joint : JointId) (p : Report),
    s.board i = some r →
    s.resolveAlone src i joint p =
      match p.grade with
      | .good => (s, [])
      | .marginal => ({ s with slots := s.slots.set i (some
          { r with counts := { r.counts with marginals := r.counts.marginals + 1 } }) }, [])
      | .notMeasured => ({ s with slots := s.slots.set i (some
          { r with counts := { r.counts with unseen := r.counts.unseen + 1 } }) }, [])
      | .defect => State.addDefect { s with slots := s.slots.set i (some
          { r with counts := { r.counts with
            defects := r.counts.defects + 1
            critical := r.counts.critical + if p.criticality = .critical then 1 else 0 } }) }
          src i
          { tag := r.tag, lane := r.lane, recipe := r.recipe, serial := r.serial,
            entryPos := r.entryPos, joint := joint, cls := p.cls.getD .other,
            criticality := p.criticality, advisory := false, firstHead := p.head,
            firstGrade := .defect, second := none, value := p.value.getD 0#16,
            secondValue := none }

/-- R113, R114: the first row that holds for two reports; the defect of a pair. The `getD` of an absent class,
OTHER, and of an absent value, 0, is the model's choice (log entry 26). -/
def Obligations.PairResolvedByFirstRow : Prop :=
  ∀ (s : State) (i : Slot) (r : Record) (joint : JointId) (a b : Report), s.board i = some r →
    s.resolvePair i joint a b =
      if a.grade = .good ∧ b.grade = .good then (s, [])
      else if a.grade = .good ∨ b.grade = .good then ({ s with slots := s.slots.set i (some
        { r with counts := { r.counts with cleared := r.counts.cleared + 1 } }) }, [])
      else if a.grade = .notMeasured ∧ b.grade = .notMeasured then
        ({ s with slots := s.slots.set i (some
          { r with counts := { r.counts with unseen := r.counts.unseen + 2 } }) }, [])
      else if a.grade = .notMeasured then s.resolveAlone .mergeEngine i joint b
      else if b.grade = .notMeasured then s.resolveAlone .mergeEngine i joint a
      else if a.grade = .defect ∨ b.grade = .defect then
        let worst : Criticality :=
          if a.criticality = .critical ∨ b.criticality = .critical then .critical
          else if a.criticality = .major ∨ b.criticality = .major then .major
          else .minor
        State.addDefect { s with slots := s.slots.set i (some
          { r with counts := { r.counts with
            defects := r.counts.defects + 1
            critical := r.counts.critical + if worst = .critical then 1 else 0 } }) }
          .mergeEngine i
          { tag := r.tag, lane := r.lane, recipe := r.recipe, serial := r.serial,
            entryPos := r.entryPos, joint := joint,
            cls := (if a.grade = .defect then a.cls else b.cls).getD .other,
            criticality := worst, advisory := false, firstHead := a.head, firstGrade := a.grade,
            second := some (b.head, b.grade),
            value := (if a.grade = .defect then a.value else b.value).getD 0#16,
            secondValue := some ((if a.grade = .defect then b.value else a.value).getD 0#16) }
      else ({ s with slots := s.slots.set i (some
        { r with counts := { r.counts with marginals := r.counts.marginals + 1 } }) }, [])

/-- R109, R110, R111, R116: the rule of a passed entry. That a report's own fault goes ahead of
SUSPECT_POOL_FULL is the model's choice (log entry 21), as are `defectOf`'s class OTHER and value 0 for a report
without them (log entry 26). -/
def Obligations.PassedEntryGoesThroughItsRule : Prop :=
  ∀ (s : State) (i : Slot) (r : Record) (e : HeadEntry) (p : Report), s.board i = some r →
    (e.rule = .any ∨ (e.rule = .confirm ∧ e.partner = p.head) →
      s.applyRule i e p = s.resolveAlone .mergeEngine i e.joint p) ∧
    (e.rule = .advisory → s.applyRule i e p =
      if p.grade = .defect then State.addDefect { s with slots := s.slots.set i (some
          { r with counts := { r.counts with advisory := r.counts.advisory + 1 } }) }
        .mergeEngine i { r.defectOf e.joint false p with advisory := true }
      else (s, [])) ∧
    (e.rule = .confirm → e.partner ≠ p.head →
      (∀ x, s.suspectAt i e.joint = some x → s.applyRule i e p =
        State.resolvePair { s with suspects := s.suspects.filter fun y => decide (y ≠ x) } i e.joint
          ⟨x.head, x.grade, x.cls, x.value, x.criticality⟩ p) ∧
      (s.suspectAt i e.joint = none →
        ((∃ q, (r.heads.get e.partner).lastPassed = some q ∧ e.joint ≤ q) → s.applyRule i e p =
          s.resolvePair i e.joint ⟨e.partner, .good, none, none, p.criticality⟩ p) ∧
        ((∀ q, (r.heads.get e.partner).lastPassed = some q → q < e.joint) →
          ((r.headStatus e.partner).isFinal = true →
            s.applyRule i e p = s.resolveAlone .mergeEngine i e.joint p) ∧
          ((r.headStatus e.partner).isFinal = false →
            (p.grade = .good → s.applyRule i e p = (s, [])) ∧
            (p.grade ≠ .good → s.suspects.length < 192 →
              ∃ xs, xs.Perm (⟨i, e.joint, p.head, p.grade, p.cls, p.value, p.criticality⟩ ::
                s.suspects) ∧ s.applyRule i e p = ({ s with suspects := xs }, [])) ∧
            (p.grade ≠ .good → 192 ≤ s.suspects.length →
              (s.applyRule i e p).1 =
                (s.resolveAlone .mergeEngine i e.joint p).1.modBoard i
                  (fun x => x.addFlag .suspectOverflow) ∧
              (s.applyRule i e p).2 = (s.resolveAlone .mergeEngine i e.joint p).2 ++
                if .suspectOverflow ∈ r.flags then []
                else [{ cause := .suspectPoolFull, source := .mergeEngine, lane := some r.lane,
                        tag := some r.tag, slot := some i, head := some p.head,
                        joint := some e.joint, detail := 192 }])))))

/-! ### Closing -/

/-- R125 to R129: the close of a record, and the close check; R127: the defect records of its DEFECT suspects,
in ascending joint id (class OTHER for an absent one and value 0, log entry 26). What a close does not name is
unchanged: `Frame` for the other boards and blocks, and every lane but for its entry state. -/
def Obligations.CloseFixesTheVerdict : Prop :=
  (∀ (s : State) (i : Slot) (r : Record), s.board i = some r →
    ∃ x, (s.close i).board i = some x ∧ ClosedFrom s i r x ∧
      Frame (fun j => j = i) s (s.close i) ∧
      (s.close i).suspects = s.suspects.filter (fun y => decide (y.slot ≠ i)) ∧
      (∀ n, (s.close i).link n =
        if r.headStatus n = .triggered then
          { s.link n with triggers := (s.link n).triggers.filter fun q => decide (q.tag ≠ r.tag) }
        else s.link n) ∧
      (∀ l, (s.close i).lane l =
        if l = r.lane ∧ r.state = .entering ∧ (s.lane l).entry = .covered then
          { s.lane l with entry := .untracked }
        else s.lane l) ∧
      (s.close i).directory = (s.release r).directory ∧
      (s.close i).summaryReady = s.summaryReady ∧
      ∃ xs : List Suspect,
        xs.Perm (s.suspects.filter fun y => decide (y.slot = i) && decide (y.grade = .defect)) ∧
        xs.Pairwise (fun a b => a.joint ≤ b.joint) ∧
        PooledFrom s (s.close i) i r x (xs.map fun y =>
          { tag := r.tag, lane := r.lane, recipe := r.recipe, serial := r.serial,
            entryPos := r.entryPos, joint := y.joint, cls := y.cls.getD .other,
            criticality := y.criticality, advisory := false, firstHead := y.head,
            firstGrade := .defect, second := none, value := y.value.getD 0#16,
            secondValue := none })) ∧
  ∀ (s : State) (i : Slot) (r : Record), s.board i = some r →
    (r.state = .inspecting → (∀ n, (r.headStatus n).isFinal = true) → s.closeCheck i = s.close i) ∧
    (r.state ≠ .inspecting ∨ (∃ n, (r.headStatus n).isFinal = false) → s.closeCheck i = s)

/-- R128: the first row that holds gives the verdict. -/
def Obligations.VerdictIsTheFirstRowThatHolds : Prop :=
  ∀ (r : Record) (e : DirEntry),
    verdictOf (some e) r =
      (if 1 ≤ r.counts.critical ∨ e.reworkLimit < r.counts.defects then .scrap
      else if 0 < r.counts.unseen ∨ .noRecipe ∈ r.flags ∨ .overlength ∈ r.flags then .unverified
      else if 1 ≤ r.counts.defects ∨
        (0 < e.marginalLimit ∧ e.marginalLimit ≤ r.counts.marginals) then .rework
      else .pass) ∧
    (.noRecipe ∈ r.flags → verdictOf none r =
      if 1 ≤ r.counts.critical then .scrap else .unverified)

/-! ### Entry -/

/-- R5: the next tag is the first value above the tag counter that no live record carries. -/
def Obligations.NextTagIsTheFirstFreeOne : Prop :=
  ∀ (s : State) (i : Slot), s.board i = none →
    ∃ k, k < 24 ∧ s.nextTag = s.tagCounter + BitVec.ofNat 8 (k + 1) ∧
      (∀ j r, s.board j = some r → r.tag ≠ s.nextTag) ∧
      ∀ m, m < k → ∃ j r, s.board j = some r ∧ r.tag = s.tagCounter + BitVec.ofNat 8 (m + 1)

/-- R10, R11, R13: the fields of a new record, for the entry in force `e` where there is one. -/
def Obligations.NewRecordFields : Prop :=
  ∀ (s : State) (l : Lane),
    let r := s.newRecord l
    let m := (s.lane l).map
    let p := (s.lane l).counter
    r.state = .entering ∧ r.tag = s.nextTag ∧ r.lane = l ∧ r.entryPos = p ∧ r.length = none ∧
    r.counts = ⟨0, 0, 0, 0, 0, 0⟩ ∧ r.outstanding = 0 ∧ r.verdict = none ∧ r.exitFate = none ∧
    r.exitPos = none ∧
    (∀ a rest, (s.lane l).announces = a :: rest →
      r.recipe = some a.recipe ∧ r.serial = a.serial ∧ .unannounced ∉ r.flags) ∧
    ((s.lane l).announces = [] →
      r.recipe = m.defaultRecipe ∧ r.serial = none ∧ .unannounced ∈ r.flags) ∧
    (∀ f, f ∈ r.flags → f = .unannounced ∨ f = .noRecipe) ∧
    (.noRecipe ∈ r.flags ↔ ∀ k, r.recipe = some k → (s.dir k).entry.valid = false) ∧
    (∀ n, (r.heads.get n).cursor = 0 ∧ (r.heads.get n).lastPassed = none ∧
      (r.heads.get n).discarded = 0 ∧
      (.noRecipe ∈ r.flags → r.headStatus n = .absent) ∧
      ∀ k, r.recipe = some k → .noRecipe ∉ r.flags → r.headStatus n =
        if (s.dir k).entry.listLength.get n = 0 then .notRequired
        else if n ∈ m.headServes then .waiting else .absent) ∧
    (∀ e, e ∈ r.armed ↔
      e = ⟨.lengthLimit, p + BitVec.ofNat 24 m.maxLength⟩ ∨
      e = ⟨.deadline, p + BitVec.ofNat 24 m.gateOffset - BitVec.ofNat 24 m.decisionMargin⟩ ∨
      e = ⟨.exitDue, p + BitVec.ofNat 24 m.gateOffset + BitVec.ofNat 24 m.exitTolerance⟩ ∨
      ∃ n, r.headStatus n = .waiting ∧
        e = ⟨.headOpen n, p + BitVec.ofNat 24 (m.headOpenOffset.get n)⟩)

/-- R4, R10, R12: a record created in the lowest FREE slot, before the events due at once and the grant of what
they request (`State.thenGrant`, R148). -/
def Obligations.EntryEdgeCreatesARecord : Prop :=
  ∀ (s : State) (l : Lane) (i : Slot), (s.lane l).map.enable = true → (s.lane l).entry = .ready →
    s.board i = none → (∀ j, j < i → s.board j ≠ none) →
    let r := s.newRecord l
    let s1 : State := { s with
      slots := s.slots.set i (some r)
      tagCounter := s.nextTag
      lanes := s.lanes.set l { s.lane l with
        order := (s.lane l).order ++ [i]
        announces := (s.lane l).announces.drop 1
        entry := .covered } }
    (∀ k, r.recipe = some k → .noRecipe ∉ r.flags → exec (.entryLeadingEdge l) s = .next
      (s.thenGrant (State.dueAtArming { s1 with directory := s.directory.set k { s.dir k with
        useCount := (s.dir k).useCount + 1 } } i fun _ => true))) ∧
    (.noRecipe ∈ r.flags →
      exec (.entryLeadingEdge l) s = .next (s.thenGrant (s1.dueAtArming i fun _ => true)))

/-- R14: with no FREE slot no record is created and ENTRY_OVERRUN is recorded. R9: an edge on a disabled
lane, or in another entry state, is ignored. -/
def Obligations.EntryEdgeThatCreatesNothing : Prop :=
  ∀ (s : State) (l : Lane),
    ((s.lane l).map.enable = true → (s.lane l).entry = .ready → (∀ i, s.board i ≠ none) →
      exec (.entryLeadingEdge l) s = .next (State.recordFault
        { s with lanes := s.lanes.set l { s.lane l with entry := .untracked } }
        { cause := .entryOverrun, source := .boardTable, lane := some l,
          position := some (s.lane l).counter,
          detail := (List.finRange 24).countP fun i =>
            decide ((s.board i).map (·.state) = some .leaving) })) ∧
    ((s.lane l).map.enable = false ∨ (s.lane l).entry ≠ .ready →
      exec (.entryLeadingEdge l) s = .next s) ∧
    ((s.lane l).map.enable = false ∨ (s.lane l).entry = .ready →
      exec (.entryTrailingEdge l) s = .next s) ∧
    ((s.lane l).map.enable = true → (s.lane l).entry = .untracked →
      exec (.entryTrailingEdge l) s = .next
        { s with lanes := s.lanes.set l { s.lane l with entry := .ready } })

/-- R16: a record shorter than min_length is withdrawn. -/
def Obligations.ShortBoardIsWithdrawn : Prop :=
  ∀ (s : State) (l : Lane) (i : Slot) (r : Record), (s.lane l).map.enable = true →
    (s.lane l).entry = .covered → (s.lane l).order.getLast? = some i → s.board i = some r →
    r.state = .entering → ((s.lane l).counter - r.entryPos).toNat < (s.lane l).map.minLength →
    exec (.entryTrailingEdge l) s = .next (State.applyHeldMap
      (State.recordFault
        (State.release
          { s with
            slots := s.slots.set i none
            links := ⟨(s.link .h0).without r.tag, (s.link .h1).without r.tag,
              (s.link .h2).without r.tag, (s.link .h3).without r.tag⟩
            lanes := s.lanes.set l { s.lane l with
              order := (s.lane l).order.filter fun j => decide (j ≠ i)
              entry := .ready
              announces := match r.recipe with
                | some k =>
                  if .unannounced ∉ r.flags ∧ (s.lane l).announces.length < 4 then
                    ⟨k, r.serial⟩ :: (s.lane l).announces
                  else (s.lane l).announces
                | none => (s.lane l).announces } } r)
        { cause := .sensorGlitch, source := .boardTable, lane := some l, tag := some r.tag,
          slot := some i, position := some (s.lane l).counter,
          detail := min ((s.lane l).counter - r.entryPos).toNat 65535 }) l)

/-- R17: a record of min_length or more is accepted; its close check and the HEAD_LIMITs due at once follow. -/
def Obligations.LongEnoughBoardIsAccepted : Prop :=
  ∀ (s : State) (l : Lane) (i : Slot) (r : Record), (s.lane l).map.enable = true →
    (s.lane l).entry = .covered → (s.lane l).order.getLast? = some i → s.board i = some r →
    r.lane = l → r.state = .entering →
    (s.lane l).map.minLength ≤ ((s.lane l).counter - r.entryPos).toNat →
    exec (.entryTrailingEdge l) s = .next (s.thenGrant (State.dueAtArming
      (State.closeCheck { s with
        slots := s.slots.set i (some
          (r.accepted (s.lane l).map ((s.lane l).counter - r.entryPos).toNat))
        lanes := s.lanes.set l { s.lane l with entry := .ready } } i) i EventKind.isHeadLimit))

/-! ### The lane schedule -/

/-- R36 to R38: events due together are handed over one after another, in an order the spec leaves open
(log entry 3), at a belt step (log entry 8) as at their arming; handing one over is its own command, its grant
included (R148), but an event due as it is armed is part of the event that armed it (R36). R25, R26:
a step adds 1 to its lane's counter, modulo 2^24, and moves no other counter; an event is due from its target
on for 2^23 counts. -/
def Obligations.EventsDueTogetherGoOneByOne : Prop :=
  (∀ (s : State) (i : Slot) (newly : EventKind → Bool),
    (s.dueOf i newly = [] → s.dueAtArming i newly = s) ∧
    ∃ es : List ScheduledEvent, es.Perm (s.dueOf i newly) ∧ (es ≠ [] → s.dueAtArming i newly =
      es.foldl State.handOver { s with draws := s.draws + 1 })) ∧
  (∀ (s : State) (l : Lane),
    let stepped (u : State) : State := { u with
      lanes := u.lanes.set l { u.lane l with counter := (u.lane l).counter + 1#24 } }
    exec (.beltStep l) s = .next (stepped (s.takeDue [l])) ∧
    FrameButGrants (fun _ => True) (stepped s) (stepped (s.takeDue [l]))) ∧
  (∀ (s : State) (ls : List Lane),
    (ls.flatMap s.dueEvents = [] → s.takeDue ls = s) ∧
    ∃ es : List ScheduledEvent, es.Perm (ls.flatMap s.dueEvents) ∧ (es ≠ [] →
      s.takeDue ls = es.foldl State.handOverAny { s with draws := s.draws + 1 })) ∧
  (∀ (s : State) (l : Lane) (i : Slot) (k : EventKind), ⟨i, k⟩ ∈ s.dueEvents l ↔
    i ∈ (s.lane l).order ∧ ∃ r e, s.board i = some r ∧ e ∈ r.armed ∧ e.kind = k ∧
      due (s.lane l).counter e.target = true) ∧
  (∀ (s : State) (e : ScheduledEvent), exec e.command s = .next (s.handOverAny e) ∧
    (e.kind = .lengthLimit → s.handOver e = s) ∧
    (e.kind ≠ .lengthLimit → s.handOverAny e = s.thenGrant (s.handOver e))) ∧
  ∀ c t : Pos, due c t = true ↔ (c.toNat + 2 ^ 24 - t.toNat) % 2 ^ 24 < 2 ^ 23

/-- R18: LENGTH_LIMIT on a record in ENTERING. The fault goes ahead of the close check's own, the model's choice
(log entry 21). -/
def Obligations.LengthLimitMakesOverlength : Prop :=
  ∀ (s : State) (i : Slot) (r : Record) (t : Pos), s.board i = some r →
    r.targetOf .lengthLimit = some t → due (s.lane r.lane).counter t = true → r.state = .entering →
    exec (.lengthLimit i) s = .next (s.thenGrant (State.dueAtArming
      (State.closeCheck
        (State.recordFault
          { s with
            slots := s.slots.set i (some ((r.accepted (s.lane r.lane).map
              (s.lane r.lane).map.maxLength).addFlag .overlength))
            lanes := s.lanes.set r.lane { s.lane r.lane with entry := .untracked } }
          { cause := .overlength, source := .boardTable, lane := some r.lane, tag := some r.tag,
            slot := some i, position := some r.entryPos, detail := 0 }) i)
      i EventKind.isHeadLimit))

/-- R76, R77, R78: HEAD_OPEN for a head in WAITING places its trigger, or overruns a queue of 8; the fault goes
ahead of the close check's own, the model's choice (log entry 21). -/
def Obligations.HeadOpenPlacesOrOverruns : Prop :=
  ∀ (s : State) (i : Slot) (n : HeadId) (r : Record) (t : Pos) (k : RecipeId) (e : DirEntry),
    s.board i = some r → r.targetOf (.headOpen n) = some t →
    due (s.lane r.lane).counter t = true → r.headStatus n = .waiting → r.recipe = some k →
    s.entryOf r = some e →
    ((s.link n).triggers.length < 8 → exec (.headOpen i n) s = .next { s with
      slots := s.slots.set i (some ((r.disarm (.headOpen n)).setStatus n .triggered))
      links := s.links.set n { s.link n with triggers := (s.link n).triggers ++
        [⟨r.tag, r.lane, k, r.serial, r.entryPos, e.listBase.get n, e.listLength.get n⟩] } }) ∧
    (∀ q rest, (s.link n).triggers = q :: rest → 8 ≤ (q :: rest).length →
      exec (.headOpen i n) s = .next (s.thenGrant (State.closeCheck
        (State.recordFault
          { s with slots := s.slots.set i (some
              ((((r.disarm (.headOpen n)).setStatus n .faulted).disarm (.headLimit n)).addFlag
                .headFaulted)) }
          { cause := .triggerOverrun, source := .headLink, lane := some r.lane, tag := some r.tag,
            slot := some i, head := some n, position := some t, detail := q.tag.toNat }) i)))

/-- R84, R83: HEAD_LIMIT makes a head that is not final LATE, and the close check follows; R131: DEADLINE
closes the record, which stays in its lane order. -/
def Obligations.HeadLimitAndDeadline : Prop :=
  (∀ (s : State) (i : Slot) (n : HeadId) (r : Record) (t : Pos), s.board i = some r →
    r.targetOf (.headLimit n) = some t → due (s.lane r.lane).counter t = true →
    (r.headStatus n = .triggered ∨ r.headStatus n = .taken ∨ r.headStatus n = .reporting) →
    exec (.headLimit i n) s = .next (s.thenGrant (State.closeCheck
      { s with
        slots := s.slots.set i (some
          (((r.disarm (.headLimit n)).setStatus n .late).addFlag .headLate))
        links := if r.headStatus n = .triggered then s.links.set n ((s.link n).without r.tag)
          else s.links } i))) ∧
  ∀ (s : State) (i : Slot) (r : Record) (t : Pos), s.board i = some r →
    r.targetOf .deadline = some t → due (s.lane r.lane).counter t = true →
    (r.state = .entering ∨ r.state = .inspecting) →
    exec (.deadline i) s = .next (s.thenGrant (State.close
      { s with slots := s.slots.set i (some (r.disarm .deadline)) } i))

/-- R142: EXIT_DUE on the front record of its lane order, and on one that is not the front: each record ahead
goes missing first, at its own target. The fault follows those of the close, the model's choice (log
entry 21). -/
def Obligations.ExitDueMakesTheFrontMissing : Prop :=
  (∀ (s : State) (i : Slot) (rest : List Slot) (r : Record) (t : Pos), s.board i = some r →
    (s.lane r.lane).order = i :: rest → r.targetOf .exitDue = some t →
    due (s.lane r.lane).counter t = true →
    let s0 : State := { s with slots := s.slots.set i (some (r.disarm .exitDue)) }
    let s1 := if r.state = .entering ∨ r.state = .inspecting then s0.close i else s0
    exec (.exitDue i) s = .next (s.thenGrant (State.applyHeldMap
      (State.recordFault
        ((s1.modBoard i fun x => x.addFlag .missingAtExit).makeLeaving i .missing)
        { cause := .missingAtExit, source := .verdictUnit, lane := some r.lane, tag := some r.tag,
          slot := some i, position := some t, detail := if r.state = .decided then 0 else 1 })
      r.lane))) ∧
  (∀ (s : State) (i : Slot) (r : Record) (t : Pos), s.board i = some r → s.miss i t =
    let s1 := if r.state = .entering ∨ r.state = .inspecting then s.close i else s
    State.applyHeldMap
      (State.recordFault
        ((s1.modBoard i fun x => x.addFlag .missingAtExit).makeLeaving i .missing)
        { cause := .missingAtExit, source := .verdictUnit, lane := some r.lane, tag := some r.tag,
          slot := some i, position := some t, detail := if r.state = .decided then 0 else 1 })
      r.lane) ∧
  ∀ (s : State) (i : Slot) (ahead rest : List Slot) (r : Record) (t : Pos), s.board i = some r →
    (s.lane r.lane).order = ahead ++ i :: rest → i ∉ ahead → r.targetOf .exitDue = some t →
    due (s.lane r.lane).counter t = true →
    exec (.exitDue i) s = .next (s.thenGrant (State.miss (ahead.foldl (fun (u : State) j =>
      match u.board j with
      | some x => u.miss j ((x.targetOf .exitDue).getD (x.entryPos +
          BitVec.ofNat 24 ((u.lane x.lane).map.gateOffset + (u.lane x.lane).map.exitTolerance)))
      | none => u)
      { s with slots := s.slots.set i (some (r.disarm .exitDue)) }) i t))

/-! ### Exit -/

/-- R138, R140: an exit edge in or after the front record's window, none of the lane's EXIT_DUE being due; and
an exit edge on any state is that edge after the lane's due EXIT_DUE events, front first (log entry 8). -/
def Obligations.ExitEdgeMatchesTheFront : Prop :=
  (∀ (s : State) (l : Lane), (s.lane l).map.enable = true → (s.lane l).exit = .ready →
    exec (.exitLeadingEdge l) s = exec (.exitLeadingEdge l)
      ((s.lane l).order.foldl (fun u i => u.handOverAny ⟨i, .exitDue⟩) s)) ∧
  ∀ (s : State) (l : Lane) (i : Slot) (rest : List Slot) (r : Record),
    (s.lane l).map.enable = true → (s.lane l).exit = .ready → s.noExitDue l →
    (s.lane l).order = i :: rest → s.board i = some r →
    earlier (s.lane l).counter (r.entryPos + BitVec.ofNat 24 (s.lane l).map.gateOffset -
      BitVec.ofNat 24 (s.lane l).map.exitTolerance) = false →
    let s1 := if r.state = .decided then s
      else State.closeIfOpen { s with slots := s.slots.set i (some (r.addFlag .earlyExit)) } i
    let s2 := State.makeLeaving
      (s1.modBoard i fun y => { y with exitPos := some (s.lane l).counter }) i .matched
    exec (.exitLeadingEdge l) s = .next (s.thenGrant (State.applyHeldMap { s2 with
      lanes := s2.lanes.set l { s2.lane l with exit := .occupied } } l))

/-- R138, R139: an unexpected exit edge; R137: an edge that is ignored, and the trailing edge. -/
def Obligations.ExitEdgeThatMatchesNothing : Prop :=
  ∀ (s : State) (l : Lane),
    ((s.lane l).map.enable = true → (s.lane l).exit = .ready → (s.lane l).order = [] →
      exec (.exitLeadingEdge l) s = .next (State.recordFault
        { s with lanes := s.lanes.set l { s.lane l with exit := .occupied } }
        { cause := .unexpectedAtExit, source := .verdictUnit, lane := some l,
          position := some (s.lane l).counter, detail := 0 })) ∧
    (∀ i rest r, (s.lane l).map.enable = true → (s.lane l).exit = .ready → s.noExitDue l →
      (s.lane l).order = i :: rest → s.board i = some r →
      let w := r.entryPos + BitVec.ofNat 24 (s.lane l).map.gateOffset -
        BitVec.ofNat 24 (s.lane l).map.exitTolerance
      earlier (s.lane l).counter w = true →
      exec (.exitLeadingEdge l) s = .next (State.recordFault
        { s with lanes := s.lanes.set l { s.lane l with exit := .occupied } }
        { cause := .unexpectedAtExit, source := .verdictUnit, lane := some l, tag := some r.tag,
          slot := some i, position := some (s.lane l).counter,
          detail := min (w - (s.lane l).counter).toNat 65535 })) ∧
    ((s.lane l).map.enable = false ∨ (s.lane l).exit = .occupied →
      exec (.exitLeadingEdge l) s = .next s) ∧
    ((s.lane l).map.enable = false ∨ (s.lane l).exit = .ready →
      exec (.exitTrailingEdge l) s = .next s) ∧
    ((s.lane l).map.enable = true → (s.lane l).exit = .occupied →
      exec (.exitTrailingEdge l) s = .next
        { s with lanes := s.lanes.set l { s.lane l with exit := .ready } })

/-! ### The Merge Engine -/

/-- R88, R89, R90, R96: DONE and ABORT taken for a head that is TAKEN or REPORTING. HEAD_ABORTED goes ahead of
the close check's faults, the model's choice (log entry 21). -/
def Obligations.MergeTakesDoneAndAbort : Prop :=
  ∀ (s : State) (n : HeadId) (x : Item) (rest : List Item) (i : Slot) (r : Record),
    s.merge.item = none → s.cache.isolation = .normal →
    (roundRobin s.merge.lastServed).find? s.eligible = some n → (s.link n).results = x :: rest →
    s.slotOfTag (Item.tag x) = some i → s.board i = some r →
    (r.headStatus n = .taken ∨ r.headStatus n = .reporting) →
    let s1 := s.setLink n { s.link n with results := rest }
    let s2 : State := { s1 with merge := { s1.merge with lastServed := n } }
    (∀ t, x = .done t → exec .mergeTakeItem s = .next (s.thenGrant (State.closeCheck
      { s2 with slots := s2.slots.set i (some
        ((r.setStatus n .complete).disarm (.headLimit n))) } i))) ∧
    (∀ t reason, x = .abort t reason → exec .mergeTakeItem s = .next (s.thenGrant (State.closeCheck
      (State.recordFault
        { s2 with slots := s2.slots.set i (some
          (((r.setStatus n .faulted).disarm (.headLimit n)).addFlag .headFaulted)) }
        { cause := .headAborted, source := .headLink, lane := some r.lane, tag := some r.tag,
          slot := some i, head := some n, position := some r.entryPos,
          detail := reason.toNat }) i)))

/-- R88, R100: the items that are dropped; and R96: nothing is taken where the engine is not idle, the cache
is not in NORMAL or no queue is eligible. -/
def Obligations.MergeDropsWhatItCannotApply : Prop :=
  (∀ s : State, s.merge.item ≠ none ∨ s.cache.isolation ≠ .normal ∨
    (∀ n, s.eligible n = false) → exec .mergeTakeItem s = .next s) ∧
  ∀ (s : State) (n : HeadId) (x : Item) (rest : List Item), s.merge.item = none →
    s.cache.isolation = .normal →
    (roundRobin s.merge.lastServed).find? s.eligible = some n → (s.link n).results = x :: rest →
    let s1 := s.setLink n { s.link n with results := rest }
    let s2 : State := { s1 with merge := { s1.merge with lastServed := n } }
    let kind := match x with
      | .result _ _ _ _ _ => 0
      | .done _ => 1
      | .abort _ _ => 2
    (s.slotOfTag (Item.tag x) = none → exec .mergeTakeItem s = .next (s2.recordFault
      { cause := .strayResult, source := .headLink, tag := some (Item.tag x), head := some n,
        joint := Item.joint x, detail := kind })) ∧
    ∀ i r, s.slotOfTag (Item.tag x) = some i → s.board i = some r →
      (r.headStatus n = .waiting ∨ r.headStatus n = .triggered → exec .mergeTakeItem s = .next
        (s2.recordFault
          { cause := .earlyResult, source := .headLink, lane := some r.lane, tag := some r.tag,
            slot := some i, head := some n, joint := Item.joint x, detail := kind })) ∧
      ((r.headStatus n).isFinal = true → exec .mergeTakeItem s = .next { s2 with
        slots := s2.slots.set i (some { r with heads := r.heads.set n { r.heads.get n with
          discarded := min ((r.heads.get n).discarded + 1) 65535 } }) }) ∧
      ∀ t joint grade cls value last, x = .result t joint grade cls value →
        (r.headStatus n = .taken ∨ r.headStatus n = .reporting) →
        (r.heads.get n).lastPassed = some last → joint ≤ last →
        exec .mergeTakeItem s = .next (s2.recordFault
          { cause := .sequenceError, source := .mergeEngine, lane := some r.lane,
            tag := some r.tag, slot := some i, head := some n, joint := some joint,
            detail := last.toNat })

/-- R62, R63, R98, R101, R107: a RESULT walks its head's list, entry by entry: at the list's end the walk ends;
with a fill in flight the request waits; an entry not cached starts a fill; one that is cached is supplied, and
the walk goes on from a skipped one. In full for a first entry, one not cached, whose fill an idle arbiter
grants at once (R148), and one of rule ANY that names the joint. -/
def Obligations.ResultWalksTheList : Prop :=
  (∀ (s : State) (n : HeadId) (t : Tag) (joint : JointId) (grade : Grade)
    (cls : Option DefectClass) (value : Value) (rest : List Item) (i : Slot) (r : Record),
    s.merge.item = none → s.cache.isolation = .normal →
    (roundRobin s.merge.lastServed).find? s.eligible = some n →
    (s.link n).results = .result t joint grade cls value :: rest →
    s.slotOfTag t = some i → s.board i = some r →
    (r.headStatus n = .taken ∨ r.headStatus n = .reporting) →
    (∀ last, (r.heads.get n).lastPassed = some last → last < joint) →
    let s1 := s.setLink n { s.link n with results := rest }
    exec .mergeTakeItem s = .next (s.thenGrant (State.walk
      { s1 with merge := { s1.merge with lastServed := n } }
      ⟨n, i, t, joint, grade, cls, value, []⟩))) ∧
  (∀ (s : State) (x : InFlight) (r : Record) (e : DirEntry), s.board x.slot = some r →
    s.entryOf r = some e →
    let cursor := (r.heads.get x.head).cursor + x.walk.length
    let a := e.listBase.get x.head + 8 * cursor
    let line := s.line (cacheIndex a)
    (e.listLength.get x.head ≤ cursor → s.walk x = s.finish x none .notInProgram) ∧
    (cursor < e.listLength.get x.head → s.cache.fill ≠ none → s.walk x = { s with
      merge := { s.merge with item := some x }
      cache := { s.cache with waiting := some a } }) ∧
    (cursor < e.listLength.get x.head → s.cache.fill = none →
      (line.valid = false ∨ line.tag ≠ a / 8192 → s.walk x = { s with
        merge := { s.merge with item := some x }
        cache := { s.cache with
          lines := s.cache.lines.set (cacheIndex a) { line with valid := false }
          fill := some ⟨cacheIndex a, a / 8192, false⟩
          waiting := some a } }) ∧
      (line.valid = true → line.tag = a / 8192 → s.walk x =
        match s.supply x ((line.bytes.drop (a % 64)).take 8) with
        | (u, none) => u
        | (u, some y) => u.walk y))) ∧
  ∀ (s : State) (n : HeadId) (t : Tag) (joint : JointId) (grade : Grade) (cls : Option DefectClass)
    (value : Value) (rest : List Item) (i : Slot) (r : Record) (e : DirEntry),
    s.merge.item = none → s.cache.isolation = .normal →
    (roundRobin s.merge.lastServed).find? s.eligible = some n →
    (s.link n).results = .result t joint grade cls value :: rest →
    s.slotOfTag t = some i → s.board i = some r →
    (r.headStatus n = .taken ∨ r.headStatus n = .reporting) →
    (∀ last, (r.heads.get n).lastPassed = some last → last < joint) → s.entryOf r = some e →
    (r.heads.get n).cursor < e.listLength.get n → s.cache.fill = none →
    let s1 := s.setLink n { s.link n with results := rest }
    let s2 : State := { s1 with merge := { s1.merge with lastServed := n } }
    let a := e.listBase.get n + 8 * (r.heads.get n).cursor
    let line := s.line (cacheIndex a)
    (line.valid = false ∨ line.tag ≠ a / 8192 → exec .mergeTakeItem s = .next { s2 with
      merge := ⟨some ⟨n, i, t, joint, grade, cls, value, []⟩, n⟩
      cache := { s.cache with
        lines := s.cache.lines.set (cacheIndex a) { line with valid := false }
        fill := some ⟨cacheIndex a, a / 8192, false⟩
        waiting := some a }
      arbiter := if s.arbiter.op = none ∧ s.grantDue = false then
          { s.arbiter with
            op := some ⟨.cache, .fill, a / 8192 * 8192 + (cacheIndex a).val * 64, 64⟩ }
        else s.arbiter }) ∧
    ∀ entry, line.valid = true → line.tag = a / 8192 →
      HeadEntry.ofBytes ((line.bytes.drop (a % 64)).take 8) = some entry →
      entry.joint = joint → entry.rule = .any →
      let s3 : State := { s2 with slots := s2.slots.set i (some (r.setStatus n .reporting)) }
      let done := s3.resolveAlone .mergeEngine i joint
        ⟨n, grade, cls, some value, entry.criticality⟩
      exec .mergeTakeItem s = .next (s.thenGrant { (State.recordFaults
        (done.1.modBoard i fun y => { y with heads := y.heads.set n { y.heads.get n with
          cursor := (y.heads.get n).cursor + 1, lastPassed := some joint } }) done.2) with
        merge := ⟨none, n⟩ })

/-- R99, R101: an entry supplied to a walk: the item's record is examined again, and the entry judged. R102 to
R105, R107: the finish of the item, its skipped and matched entries through their rules in walk order. A walk's
fault goes ahead of those of its entries and after those of its close check (log entry 21). -/
def Obligations.SuppliedEntryIsExaminedAndJudged : Prop :=
  (∀ (x : InFlight) (r : Record) (raw : List Byte),
    (HeadEntry.ofBytes raw = none → x.judge r raw = .stops .programCheck) ∧
    ∀ e, HeadEntry.ofBytes raw = some e →
      ((∃ q, x.previous r = some q ∧ e.joint ≤ q) → x.judge r raw = .stops .programOrder) ∧
      ((∀ q, x.previous r = some q → q < e.joint) →
        (e.joint < x.joint → x.judge r raw = .skipped e) ∧
        (e.joint = x.joint → x.judge r raw = .matched e) ∧
        (x.joint < e.joint → x.judge r raw = .stops .notInProgram))) ∧
  (∀ (s : State) (x : InFlight) (raw : List Byte),
    ((∀ r, s.board x.slot = some r → r.tag ≠ x.tag) → s.supply x raw =
      (State.recordFault { s with merge := { s.merge with item := none } }
        { cause := .strayResult, source := .headLink, tag := some x.tag, head := some x.head,
          joint := some x.joint, detail := 0 }, none)) ∧
    ∀ r, s.board x.slot = some r → r.tag = x.tag →
      ((r.headStatus x.head).isFinal = true → s.supply x raw = ({ s with
        merge := { s.merge with item := none }
        slots := s.slots.set x.slot (some { r with
          heads := r.heads.set x.head { r.heads.get x.head with
            discarded := min ((r.heads.get x.head).discarded + 1) 65535 } }) }, none)) ∧
      ((r.headStatus x.head).isFinal = false →
        (∀ e, x.judge r raw = .skipped e → s.supply x raw = (s, some { x with
          walk := x.walk ++ [⟨(r.heads.get x.head).cursor + x.walk.length, e⟩] })) ∧
        (∀ e, x.judge r raw = .matched e → s.supply x raw = (s.finish x (some e) .matched, none)) ∧
        ∀ w, x.judge r raw = .stops w → s.supply x raw = (s.finish x none w, none))) ∧
  (∀ (s : State) (i : Slot), s.applyRules i [] = (s, []) ∧
    ∀ e p rest, s.applyRules i ((e, p) :: rest) =
      let a := s.applyRule i e p
      ((a.1.applyRules i rest).1, a.2 ++ (a.1.applyRules i rest).2)) ∧
  ∀ (s : State) (x : InFlight) (m : Option HeadEntry) (r : Record), s.board x.slot = some r →
    let h := r.heads.get x.head
    let skips : List (HeadEntry × Report) := x.walk.map fun w =>
      (w.entry, ⟨x.head, .notMeasured, none, none, w.entry.criticality⟩)
    let passed := match m with
      | some e => skips ++ [(e, ⟨x.head, x.grade, x.cls, some x.value, e.criticality⟩)]
      | none => skips
    let s1 : State := { s with slots := s.slots.set x.slot (some
      (if h.status = .taken then r.setStatus x.head .reporting else r)) }
    let a := s1.applyRules x.slot passed
    let advanced (y : HeadRec) : HeadRec :=
      { y with
        cursor := y.cursor + passed.length
        lastPassed := match passed.getLast? with
          | some p => some p.1.joint
          | none => y.lastPassed }
    let s2 := a.1.modBoard x.slot fun y =>
      { y with heads := y.heads.set x.head (advanced (y.heads.get x.head)) }
    let bad := s2.modBoard x.slot fun y =>
      ((y.setStatus x.head .faulted).disarm (.headLimit x.head)).addFlag .headFaulted
    let fault (c : Cause) : FaultRec :=
      { cause := c, source := .mergeEngine, lane := some r.lane, tag := some r.tag,
        slot := some x.slot, head := some x.head, joint := some x.joint,
        detail := h.cursor + passed.length }
    let idle (u : State) : State := { u with merge := { u.merge with item := none } }
    s.finish x m .matched = idle (s2.recordFaults a.2) ∧
    s.finish x m .notInProgram = idle (s2.recordFaults (fault .notInProgram :: a.2)) ∧
    s.finish x m .programCheck =
      idle ((bad.closeCheck x.slot).recordFaults (fault .programCheck :: a.2)) ∧
    s.finish x m .programOrder =
      idle ((bad.closeCheck x.slot).recordFaults (fault .programOrder :: a.2))

/-! ### The Memory Arbiter -/

/-- R148: the grant follows the event that made both its conditions hold, no operation in flight and a request
waiting (log entry 9), and leaves them unmet. R148, R149, R151, R55: with no operation in flight a fill is
granted first, then the first waiting port after the last granted one; a write that has come to lie in a list in
use is given up, its port counting as the last granted, and the next grant follows within the event. -/
def Obligations.GrantGoesToFillThenPorts : Prop :=
  (∀ s t : State, s.thenGrant t =
    if t.grantDue = true ∧ s.grantDue = false then t.grant else t) ∧
  (∀ s : State, s.grantDue = true ↔ s.arbiter.op = none ∧
    (s.cache.fill ≠ none ∨ (∃ p, s.portOp p ≠ none) ∨ ∃ c, s.waits c = true)) ∧
  ∀ s : State,
    exec .memoryGrant s = .next s.grant ∧ s.grant.grantDue = false ∧
    (s.arbiter.op ≠ none → exec .memoryGrant s = .next s) ∧
    (∀ f, s.arbiter.op = none → s.cache.fill = some f → exec .memoryGrant s = .next { s with
      arbiter := { s.arbiter with op := some ⟨.cache, .fill, f.tag * 8192 + f.index.val * 64, 64⟩ } }) ∧
    ∀ p o, s.arbiter.op = none → s.cache.fill = none →
      (portOrder s.arbiter.lastPort).findSome? (fun q => (s.portOp q).map fun o => (q, o)) =
        some (p, o) →
      (o.kind ≠ .progWrite ∨ s.inUse o.address o.count = false → exec .memoryGrant s = .next { s with
        arbiter := { s.arbiter with op := some o, lastPort := p } }) ∧
      (o.kind = .progWrite → s.inUse o.address o.count = true →
        exec .memoryGrant s = exec .memoryGrant { s with
          arbiter := { s.arbiter with lastPort := p }
          ports := s.ports.set p.port ⟨⟨.inUse, 26#8, []⟩, none⟩ } ∧
        ∃ t, exec .memoryGrant s = .next t ∧
          t.port p.port = ⟨⟨.inUse, 26#8, []⟩, none⟩ ∧ t.mem = s.mem ∧
          t.slots = s.slots ∧ t.cache = s.cache)

/-- R150, R154, R159, R151: with no fill and no port request waiting, the channel that is granted, and its
write; a write refused leaves the other channel the next grant within the event. R153, R167: the record a
channel writes is the front of its source. -/
def Obligations.GrantGoesToOneChannel : Prop :=
  (∀ s : State, s.waitingChannel =
    if s.waits .defect = true ∧ s.waits .summary = true then
      if (s.channel .defect).ring.priority = (s.channel .summary).ring.priority then
        some (if s.arbiter.lastChannel = .defect then .summary else .defect)
      else if (s.channel .defect).ring.priority = .high then some .defect
      else some .summary
    else if s.waits .defect = true then some .defect
    else if s.waits .summary = true then some .summary
    else none) ∧
  (∀ (s : State) (d : PooledDefect) (ds : List PooledDefect), s.defects = d :: ds →
    s.sourceRecord .defect = some (.defect d.record, d.slot)) ∧
  (∀ (s : State) (i : Slot) (rest : List Slot) (r : Record), s.summaryReady = i :: rest →
    s.board i = some r → s.sourceRecord .summary = some (.summary
      { tag := r.tag, lane := r.lane, recipe := r.recipe, serial := r.serial,
        entryPos := r.entryPos, length := r.length, exitPos := r.exitPos, verdict := r.verdict,
        exitFate := r.exitFate, flags := r.flags, counts := r.counts,
        heads := ⟨(r.heads.v0.status, r.heads.v0.discarded),
          (r.heads.v1.status, r.heads.v1.discarded), (r.heads.v2.status, r.heads.v2.discarded),
          (r.heads.v3.status, r.heads.v3.discarded)⟩ }, i)) ∧
  ∀ (s : State) (c : Channel) (r : LogRecord) (i : Slot), s.arbiter.op = none →
    s.cache.fill = none → (∀ p, s.portOp p = none) → s.waitingChannel = some c →
    s.sourceRecord c = some (r, i) →
    let x := s.channel c
    let a := x.ring.base + 32 * (x.producer.toNat % x.ring.size)
    ((s.regionAt a).moveWrite = true → exec .memoryGrant s = .next { s with
      channels := s.channels.set c { x with write := some (.inFlight x.producer x.seq r (some i)) }
      arbiter := { s.arbiter with op := some ⟨.channel c, .moveWrite, a, 32⟩, lastChannel := c } }) ∧
    ((s.regionAt a).moveWrite = false →
      let refused := State.raise (State.recordFault
        { s with
          channels := s.channels.set c { x with state := .faulted, write := none }
          arbiter := { s.arbiter with lastChannel := c } }
        { cause := .accessViolation, source := .moveEngine, lane := some (LogRecord.lane r),
          tag := some (LogRecord.tag r), slot := if c = .summary then some i else none,
          detail := x.producer.toNat % x.ring.size }) .sta .channelFault
      exec .memoryGrant s = exec .memoryGrant refused ∧
      (s.waits c.other = false → exec .memoryGrant s = .next refused))

/-- R51, R66 to R68: at the end of a write its bytes are in memory, and no others change; the cached copy of
its line follows, and a fill of the line is spoiled. -/
def Obligations.WriteEndsInMemoryAndCache : Prop :=
  ∀ (s : State) (a : Nat) (bytes : List Byte),
    (s.memoryWf = true → ∀ x, Memory.read (s.writeEnds a bytes).mem x =
      if a ≤ x ∧ x < a + bytes.length then bytes.getD (x - a) 0#8 else Memory.read s.mem x) ∧
    (∀ k, k ≠ cacheIndex a → (s.writeEnds a bytes).line k = s.line k) ∧
    (s.cached a = false → (s.writeEnds a bytes).line (cacheIndex a) = s.line (cacheIndex a)) ∧
    (s.cached a = true → ¬(a % 8 = 0 ∧ bytes.length % 8 = 0) →
      (s.writeEnds a bytes).line (cacheIndex a) =
        { s.line (cacheIndex a) with valid := false }) ∧
    (s.cached a = true → a % 8 = 0 → bytes.length % 8 = 0 →
      (s.writeEnds a bytes).line (cacheIndex a) = { s.line (cacheIndex a) with
        bytes := (s.line (cacheIndex a)).bytes.take (a % 64) ++ bytes ++
          (s.line (cacheIndex a)).bytes.drop (a % 64 + bytes.length) }) ∧
    (s.writeEnds a bytes).cache.fill = s.cache.fill.map (fun f =>
      if f.index = cacheIndex a ∧ f.tag = a / 8192 then { f with spoiled := true } else f) ∧
    ∃ m y, s.writeEnds a bytes = { s with mem := m, cache := y } ∧
      y.isolation = s.cache.isolation ∧ y.waiting = s.cache.waiting

/-- R55, R56, R64, R151: the ends of a fill, after which the waiting request is looked up again, of a read and
of a write; the next grant follows within the event. The bytes read follow a count byte, the model's reading
of R190 (log entry 13). -/
def Obligations.OperationEndsAndTheNextIsGranted : Prop :=
  (∀ (s : State) (o : MemOp) (f : Fill), s.arbiter.op = some o → o.kind = .fill →
    s.cache.fill = some f →
    exec .cacheFillEnd s = .next (State.grant (State.isolationEffect (State.resume { s with
      arbiter := { s.arbiter with op := none }
      cache := { s.cache with
        fill := none
        lines := if f.spoiled then s.cache.lines
          else s.cache.lines.set f.index ⟨f.tag, true,
            Memory.readBytes s.mem (f.tag * 8192 + f.index.val * 64) 64⟩ } })))) ∧
  (∀ s : State,
    (s.cache.waiting = none → s.resume = s) ∧
    (∀ a, s.cache.waiting = some a → s.cache.fill = none → s.cached a = false → s.resume = { s with
      cache := { s.cache with
        lines := s.cache.lines.set (cacheIndex a) { s.line (cacheIndex a) with valid := false }
        fill := some ⟨cacheIndex a, a / 8192, false⟩ } }) ∧
    ∀ a x, s.cache.waiting = some a → s.cache.fill = none → s.cached a = true →
      s.merge.item = some x → s.resume =
        match State.supply { s with cache := { s.cache with waiting := none } } x
          (((s.line (cacheIndex a)).bytes.drop (a % 64)).take 8) with
        | (u, none) => u
        | (u, some y) => u.walk y) ∧
  (∀ (s : State) (p : MemPort) (a n : Nat), s.arbiter.op = some ⟨.port p, .progRead, a, n⟩ →
    exec .progReadEnd s = .next (State.grant { s with
      arbiter := { s.arbiter with op := none }
      ports := s.ports.set p.port
        ⟨⟨.done, 14#8, le 1 n ++ Memory.readBytes s.mem a n⟩, none⟩ })) ∧
  ∀ (s : State) (p : MemPort) (a n : Nat) (bytes : List Byte),
    s.arbiter.op = some ⟨.port p, .progWrite, a, n⟩ →
    (s.port p.port).pending = some (.progWrite a bytes) →
    exec .progWriteEnd s = .next (State.grant { s.writeEnds a bytes with
      arbiter := { s.arbiter with op := none }
      ports := s.ports.set p.port ⟨⟨.done, 26#8, []⟩, none⟩ })

/-- R155, R164: the end of a channel's write: the record leaves its source, the indexes and the block count
rise, the watches are matched, FULL is met at the ring size, and the next write is requested. R196, R197: the
32 bytes written for each kind of record; a number that its field cannot hold goes in by its low bits, and a
head status that is not final as 0, the model's choice (log entry 26). -/
def Obligations.MoveWriteEndCompletesTheRecord : Prop :=
  (∀ (d : DefectRec) (q : SeqNo),
    let b := LogRecord.logBytes q (.defect d)
    let serial := d.serial.getD 0#48
    let second := d.second.getD (.h0, .marginal)
    b.length = 32 ∧ numberAt b 0 2 = q.toNat ∧ numberAt b 2 1 = d.tag.toNat ∧
    bitsAt 0 1 (numberAt b 3 1) = d.lane.code ∧
    (∀ k, d.recipe = some k → bitsAt 1 4 (numberAt b 3 1) = k.val) ∧
    bitsAt 5 1 (numberAt b 3 1) = d.serial.isSome.toNat ∧
    bitsAt 6 1 (numberAt b 3 1) = d.advisory.toNat ∧
    bitsAt 7 1 (numberAt b 3 1) = d.second.isSome.toNat ∧
    numberAt b 4 6 = serial.toNat ∧ numberAt b 10 3 = d.entryPos.toNat ∧
    bitsAt 0 12 (numberAt b 13 2) = d.joint.toNat ∧ bitsAt 4 4 (numberAt b 14 1) = d.cls.code ∧
    bitsAt 0 2 (numberAt b 15 1) = d.criticality.code ∧
    bitsAt 2 2 (numberAt b 15 1) = d.firstHead.code ∧
    bitsAt 4 1 (numberAt b 15 1) = (if d.firstGrade = .defect then 1 else 0) ∧
    bitsAt 5 2 (numberAt b 15 1) = second.1.code ∧
    bitsAt 7 1 (numberAt b 15 1) = (if second.2 = .defect then 1 else 0) ∧
    numberAt b 16 2 = d.value.toNat ∧ numberAt b 18 2 = (d.secondValue.getD 0#16).toNat ∧
    numberAt b 20 12 = 0) ∧
  (∀ (r : SummaryRec) (q : SeqNo),
    let b := LogRecord.logBytes q (.summary r)
    let serial := r.serial.getD 0#48
    let has (f : BoardFlag) : Nat := (r.flags.contains f).toNat
    let final (n : HeadId) : Nat := match (r.heads.get n).1 with
      | .late => 1
      | .faulted => 2
      | .absent => 3
      | .notRequired => 4
      | _ => 0
    let n := numberAt b 20 12
    b.length = 32 ∧ numberAt b 0 2 = q.toNat ∧ numberAt b 2 1 = r.tag.toNat ∧
    bitsAt 0 1 (numberAt b 3 1) = r.lane.code ∧
    bitsAt 1 5 (numberAt b 3 1) = (match r.recipe with
      | some k => k.val
      | none => 16) ∧
    bitsAt 6 1 (numberAt b 3 1) = r.serial.isSome.toNat ∧
    bitsAt 7 1 (numberAt b 3 1) = has .unannounced ∧
    (∀ v, r.verdict = some v → bitsAt 0 2 (numberAt b 4 1) = v.code) ∧
    (∀ f, r.exitFate = some f → bitsAt 2 2 (numberAt b 4 1) = f.code) ∧
    (∀ h, bitsAt (4 + h.code) 1 (numberAt b 4 1) =
      (if 0 < (r.heads.get h).2 then 1 else 0)) ∧
    numberAt b 5 6 = serial.toNat ∧ numberAt b 11 3 = r.entryPos.toNat ∧
    bitsAt 0 22 (numberAt b 14 3) = r.length.getD 0 % 4194304 ∧
    bitsAt 22 1 (numberAt b 14 3) = has .noRecipe ∧
    bitsAt 23 1 (numberAt b 14 3) = has .overlength ∧
    (∀ x, r.exitFate = some .matched → r.exitPos = some x →
      bitsAt 0 22 (numberAt b 17 3) = (x - r.entryPos).toNat % 4194304) ∧
    (r.exitFate ≠ some .matched → bitsAt 0 22 (numberAt b 17 3) = 0) ∧
    bitsAt 22 1 (numberAt b 17 3) = has .suspectOverflow ∧
    bitsAt 23 1 (numberAt b 17 3) = has .defectRecordsDropped ∧
    bitsAt 0 14 n = r.counts.defects % 16384 ∧ bitsAt 14 14 n = r.counts.critical % 16384 ∧
    bitsAt 28 14 n = r.counts.advisory % 16384 ∧ bitsAt 42 14 n = r.counts.marginals % 16384 ∧
    bitsAt 56 14 n = r.counts.unseen % 16384 ∧ bitsAt 70 14 n = r.counts.cleared % 16384 ∧
    bitsAt 84 10 n = final .h0 + 5 * final .h1 + 25 * final .h2 + 125 * final .h3 ∧
    bitsAt 94 1 n = has .earlyExit ∧ bitsAt 95 1 n = 0) ∧
  ∀ (s : State) (c : Channel) (k : RingIndex) (q : SeqNo) (rec : LogRecord) (board : Option Slot),
    (s.channel c).write = some (.inFlight k q rec board) →
    (∀ a n, s.arbiter.op = some ⟨.channel c, .moveWrite, a, n⟩ →
      exec .moveWriteEnd s = .next (State.grant (State.completeWrite
        (State.writeEnds { s with arbiter := { s.arbiter with op := none } } a (rec.logBytes q))
        c q rec board))) ∧
    let x := s.channel c
    let full := (x.producer + 1#17 - x.consumer).toNat = x.ring.size
    let block := x.blockCount + 1 = x.blockInUse
    ∃ u : State, State.completeWrite s c q rec board = u.requestWrite c ∧ u.mem = s.mem ∧
      u.cache = s.cache ∧
      u.channel c = { x with
        producer := x.producer + 1#17
        seq := x.seq + 1#16
        blockCount := if block then 0 else x.blockCount + 1
        blockInUse := if block then x.blockSetting else x.blockInUse
        state := if full then .full else x.state
        write := none } ∧
      (Channel.blockFlag c ∈ (u.alert .sta).latched ↔ Channel.blockFlag c ∈ (s.alert .sta).latched ∨ block) ∧
      (Channel.fullFlag c ∈ (u.alert .sta).latched ↔ Channel.fullFlag c ∈ (s.alert .sta).latched ∨ full) ∧
      (board = none → u.defects = s.defects ∧ u.summaryReady = s.summaryReady ∧
        u.slots = s.slots) ∧
      (∀ i r, board = some i → s.board i = some r →
        (c = .summary → u.summaryReady = s.summaryReady.tail ∧ u.board i = none) ∧
        (c = .defect → u.defects = s.defects.tail ∧
          (r.state ≠ .leaving ∨ r.outstanding ≠ 1 →
            u.board i = some { r with outstanding := r.outstanding - 1 } ∧
            u.summaryReady = s.summaryReady) ∧
          (r.state = .leaving → r.outstanding = 1 → (s.channel .summary).state ≠ .disabled →
            u.summaryReady = s.summaryReady ++ [i]))) ∧
      ((∀ d, rec ≠ .defect d) → u.watches = s.watches) ∧
      ∀ d, rec = .defect d → ∀ w, u.watch w =
        let y := s.watch w
        if y.enable = true ∧ (∀ v, y.recipe = some v → d.recipe = some v) ∧
            (∀ v, y.joint = some v → d.joint = v) ∧ (∀ v, y.cls = some v → d.cls = v) ∧
            (∀ v, y.criticality = some v → d.criticality = v) then
          match y.status with
          | none => { y with status := some ⟨q, d.tag, d.joint⟩ }
          | some _ => { y with again := true, seen := false }
        else y

/-! ### Requests of every port -/

/-- R24: BOARD_READ of a live record and of a FREE slot (field order, log entry 31). R174: FAULT_READ marks
the oldest record read for the port. Whether-values and on or off are coded by place, and optional members
have presence bytes: the model's reading of R190 (log entries 14, 15). -/
def Obligations.BoardAndFaultReads : Prop :=
  (∀ (s : State) (p : Port) (o : Byte) (i : Slot), s.open_ p → o.toNat = i.val →
    (s.board i = none →
      exec (.boardRead p o (some ())) s = .next (s.answers p .done 2 [o, 0#8])) ∧
    ∀ r, s.board i = some r → exec (.boardRead p o (some ())) s = .next
      (s.answers p .done 2 (encRecord i (s.suspects.filter fun x => decide (x.slot = i)).length
        (s.lane r.lane).counter r))) ∧
  ∀ (s : State) (p : Port), s.open_ p →
    let f' := if p = .sta then s.faults.overflow else s.faults.reported
    (s.faults.queue = [] → exec (.faultRead p (some ())) s = .next
      (State.answers { s with faults := { s.faults with reported := f' } } p
        (if s.faults.overflow = [] then .empty else .done) 3
        (if s.faults.overflow = [] then []
          else [0#8, 1#8, 0#8] ++ encSet Cause.all s.faults.overflow))) ∧
    ∀ q qs, s.faults.queue = q :: qs → ∃ readers,
      (∀ x, x ∈ readers ↔ x = p ∨ x ∈ q.readers) ∧
      exec (.faultRead p (some ())) s = .next (State.answers
        { s with faults := ⟨⟨q.fault, readers⟩ :: qs, s.faults.overflow, f'⟩ } p .done 3
        ([1#8] ++ encFault q.fault ++ [if p ∈ q.readers then 0#8 else 1#8] ++
          [BitVec.ofNat 8 (qs.length + 1)] ++ encSet Cause.all s.faults.overflow))

/-- R175: the four rows of FAULT_POP; FAULT_PENDING follows the queue; the other ports are refused. -/
def Obligations.FaultPopRemovesWhatWasRead : Prop :=
  ∀ s : State,
    (∀ p, p ≠ .sta → s.open_ p →
      exec (.faultPop p (some ())) s = .next (s.answers p .notPermitted 42 [])) ∧
    (s.open_ .sta →
      let kept := s.faults.overflow.filter fun c => decide (c ∉ s.faults.reported)
      (∀ q qs, s.faults.queue = q :: qs → .sta ∈ q.readers →
        exec (.faultPop .sta (some ())) s = .next
          (State.answers { s with faults := ⟨qs, kept, []⟩ } .sta .done 42 [])) ∧
      (∀ q qs, s.faults.queue = q :: qs → .sta ∉ q.readers →
        exec (.faultPop .sta (some ())) s = .next (s.answers .sta .badState 42 [])) ∧
      (s.faults.queue = [] → s.faults.reported ≠ [] →
        exec (.faultPop .sta (some ())) s = .next
          (State.answers { s with faults := ⟨[], kept, []⟩ } .sta .done 42 [])) ∧
      (s.faults.queue = [] → s.faults.reported = [] →
        exec (.faultPop .sta (some ())) s = .next (s.answers .sta .empty 42 []))) ∧
    (s.levelFlag .sta .faultPending = true ↔ s.faults.queue ≠ [])

/-- R181: ALERT_READ marks the set flags seen; R182: ALERT_CLEAR clears the named flags set and seen.
On or off and the line are coded by place, the model's reading of R190 (log entry 14). -/
def Obligations.AlertsAreReadThenCleared : Prop :=
  ∀ (s : State) (p : Port), s.open_ p →
    exec (.alertRead p (some ())) s = .next (State.answers
      { s with alerts := s.alerts.set p { s.alert p with seen := (s.alert p).latched } } p .done 4
      (encSet (Decode.flagsOf p) ((Decode.flagsOf p).filter fun f =>
          (s.alert p).latched.contains f || s.levelFlag p f) ++
        encSet Port.all (s.alert p).softSources ++ encSet (Decode.flagsOf p) (s.alert p).mask ++
        [if (s.alert p).enable then 0#8 else 1#8] ++ [if s.alertLine p then 0#8 else 1#8])) ∧
    ∀ fs : List AlertFlag,
      ((∃ f ∈ fs, f ∉ Decode.flagsOf p) →
        exec (.alertClear p (some fs)) s = .next (s.answers p .badValue 5 [])) ∧
      ((∀ f ∈ fs, f ∈ Decode.flagsOf p) → ∃ x cleared left,
        exec (.alertClear p (some fs)) s = .next (State.answers
          { s with alerts := s.alerts.set p x } p .done 5
          (encSet (Decode.flagsOf p) cleared ++ encSet (Decode.flagsOf p) left)) ∧
        (∀ f, f ∈ cleared ↔ f ∈ fs ∧ f ∈ (s.alert p).latched ∧ f ∈ (s.alert p).seen) ∧
        (∀ f, f ∈ left ↔ f ∈ fs ∧ f ∈ (s.alert p).latched ∧ f ∉ (s.alert p).seen) ∧
        (∀ f, f ∈ x.latched ↔ f ∈ (s.alert p).latched ∧ f ∉ cleared) ∧
        (∀ f, f ∈ x.seen ↔ f ∈ (s.alert p).seen ∧ f ∉ cleared) ∧
        x.mask = (s.alert p).mask ∧ x.enable = (s.alert p).enable ∧
        x.softSources = if .soft ∈ cleared then [] else (s.alert p).softSources)

/-- R180: the port's own mask and global enable take the values given. -/
def Obligations.AlertMaskSetOnOwnPort : Prop :=
  ∀ (s : State) (p : Port) (a : MaskArgs), s.open_ p →
    ((∃ f ∈ a.flags, f ∉ Decode.flagsOf p) →
      exec (.alertMaskSet p (some a)) s = .next (s.answers p .badValue 6 [])) ∧
    ((∀ f ∈ a.flags, f ∈ Decode.flagsOf p) → ∃ mask, (∀ f, f ∈ mask ↔ f ∈ a.flags) ∧
      exec (.alertMaskSet p (some a)) s = .next (State.answers
        { s with alerts := s.alerts.set p { s.alert p with mask := mask, enable := a.enable } }
        p .done 6 []))

/-- R183: SOFT raised on the target, the requesting port in its soft-source set. -/
def Obligations.SoftAlertRaisesOnTheTarget : Prop :=
  ∀ (s : State) (p : Port) (o : Byte), s.open_ p →
    (7 ≤ o.toNat →
      exec (.softAlert p o (some ())) s = .next (s.answers p .badObject 7 [])) ∧
    ∀ t, Port.all[o.toNat]? = some t → ∃ x,
      exec (.softAlert p o (some ())) s = .next (State.answers
        { s with alerts := s.alerts.set t x } p .done 7 []) ∧
      (∀ f, f ∈ x.latched ↔ f = .soft ∨ f ∈ (s.alert t).latched) ∧
      (∀ f, f ∈ x.seen ↔ f ≠ .soft ∧ f ∈ (s.alert t).seen) ∧
      (∀ q, q ∈ x.softSources ↔ q = p ∨ q ∈ (s.alert t).softSources) ∧
      x.mask = (s.alert t).mask ∧ x.enable = (s.alert t).enable

/-- R191, R192: messages put into and taken from the mailboxes, the station's side and a port's side. A message
follows a count byte and the up-slot set is over the six ports: the model's reading of R190 (log entries
13, 17). -/
def Obligations.MailIsPutAndTaken : Prop :=
  ∀ (s : State) (p : Port) (obj : Byte) (o : Outer), s.open_ p →
    (p = .sta ∧ Port.all[obj.toNat]? = some o.port ∨ p = o.port) →
    let m := s.mailPair o
    let into := if p = .sta then m.down else m.up
    let outOf := if p = .sta then m.up else m.down
    (∀ msg : List Byte, msg.length < 1 ∨ 16 < msg.length →
      exec (.mailPut p obj (some msg)) s = .next (s.answers p .badValue 8 [])) ∧
    (∀ msg : List Byte, 1 ≤ msg.length → msg.length ≤ 16 →
      (into ≠ none → exec (.mailPut p obj (some msg)) s = .next (s.answers p .full 8 [])) ∧
      (into = none → exec (.mailPut p obj (some msg)) s = .next (State.answers
        { s with
          mail := s.mail.set o
            (if p = .sta then { m with down := some msg } else { m with up := some msg }) }
        p .done 8 []))) ∧
    let m' : MailPair := if p = .sta then { m with up := none } else { m with down := none }
    let s' : State := { s with mail := s.mail.set o m' }
    let ups (u : State) := if p = .sta then
      encSet Outer.all (Outer.all.filter fun x => (u.mailPair x).up.isSome) else []
    (∀ msg, outOf = some msg → exec (.mailTake p obj (some ())) s = .next
      (s'.answers p .done 9 (le 1 msg.length ++ msg ++ ups s'))) ∧
    (outOf = none → exec (.mailTake p obj (some ())) s = .next (s.answers p .empty 9 (ups s)))

/-! ### Lanes -/

/-- R7, R29: ANNOUNCE and COUNTER_SET. R20, R143: LANE_PURGE closes and removes every record of the lane order,
front to tail, and resets the lane's queues and sensors; the events that steps have made due act first (R41,
log entry 8). -/
def Obligations.LaneRequests : Prop :=
  ∀ (s : State) (p : Port) (o : Byte) (l : Lane), s.open_ p → Lane.all[o.toNat]? = some l →
    (p = .sta ∨ p = .lnc → ∀ a : AnnounceArgs,
      (16 ≤ a.recipe → exec (.announce p o (some a)) s = .next (s.answers p .badValue 10 [])) ∧
      (a.recipe < 16 → (s.lane l).announces.length = 4 →
        exec (.announce p o (some a)) s = .next (s.answers p .full 10 [])) ∧
      (a.recipe < 16 → (s.lane l).announces.length < 4 →
        exec (.announce p o (some a)) s = .next (State.answers { s with
          lanes := s.lanes.set l { s.lane l with
            announces := (s.lane l).announces ++ [⟨Fin.ofNat 16 a.recipe, a.serial⟩] } }
          p .done 10 []))) ∧
    (p = .sta ∨ p = .lnc →
      let s0 := s.takeDue [l]
      let u := (s0.lane l).order.foldl (fun (v : State) i =>
        (State.closeIfOpen (v.modBoard i fun r => r.addFlag .purged) i).makeLeaving i .purged) s0
      exec (.lanePurge p o (some ())) s = .next (State.answers
        (s0.thenGrant (State.applyHeldMap { u with lanes := u.lanes.set l { u.lane l with
          announces := [], entry := .ready, exit := .ready } } l)) p .done 11 [])) ∧
    (p = .sta → ∀ n : Nat,
      let busy := (s.lane l).order ≠ [] ∨ ∃ i r, s.board i = some r ∧ r.lane = l ∧
        r.state = .entering
      (16777215 < n →
        exec (.counterSet p o (some n)) s = .next (s.answers p .badValue 19 [])) ∧
      (n ≤ 16777215 → busy →
        exec (.counterSet p o (some n)) s = .next (s.answers p .badState 19 [])) ∧
      (n ≤ 16777215 → ¬busy → exec (.counterSet p o (some n)) s = .next (State.answers { s with
        lanes := s.lanes.set l { s.lane l with counter := BitVec.ofNat 24 n } } p .done 19 [])))

/-- R8: the announce-low threshold: its reset value, its request, and the flag it governs. -/
def Obligations.AnnounceThresholdGovernsItsFlag : Prop :=
  (∀ l, (State.reset.lane l).announceThreshold = 1) ∧
  State.reset.levelFlag .lnc .announceLowA = true ∧ State.reset.levelFlag .lnc .announceLowB = true ∧
  (∀ (s : State), s.open_ .sta → ∃ t, exec (.trackReset .sta (some ())) s = .next t ∧
    ∀ l, (t.lane l).announceThreshold = (s.lane l).announceThreshold) ∧
  ∀ (s : State) (o : Byte) (n : Nat), s.open_ .sta →
    (2 ≤ o.toNat → exec (.announceThresholdSet .sta o (some n)) s =
      .next (s.answers .sta .badObject 18 [])) ∧
    ∀ l, Lane.all[o.toNat]? = some l →
      (3 < n → exec (.announceThresholdSet .sta o (some n)) s =
        .next (s.answers .sta .badValue 18 [])) ∧
      (n ≤ 3 → exec (.announceThresholdSet .sta o (some n)) s = .next (State.answers { s with
        lanes := s.lanes.set l { s.lane l with announceThreshold := n } } .sta .done 18 [])) ∧
      (s.levelFlag .lnc (match l with
        | .A => .announceLowA
        | .B => .announceLowB) = true ↔
        (s.lane l).announces.length ≤ (s.lane l).announceThreshold)

/-- R28, R34, R48, R53, R72, R94, R108, R160 and R136: the requests that change no state, and their payloads
(R190; its general words are read as log entries 14, 15, 16 and 30 say). -/
def Obligations.ReadRequestsReport : Prop :=
  ∀ (s : State) (o : Byte),
    (∀ p l, (p = .sta ∨ p = .lnc) → s.open_ p → Lane.all[o.toNat]? = some l →
      exec (.counterRead p o (some ())) s = .next (s.answers p .done 12
        (le 3 (s.lane l).counter.toNat ++ [match (s.lane l).entry with
          | .ready => 0#8
          | .covered => 1#8
          | .untracked => 2#8] ++ [BitVec.ofNat 8 (s.lane l).order.length]))) ∧
    (∀ p l, (p = .sta ∨ p = .gtc) → s.open_ p → Lane.all[o.toNat]? = some l →
      (s.presentation l = none →
        exec (.dispRead p o (some ())) s = .next (s.answers p .empty 13 [])) ∧
      ∀ i rest r v, (s.lane l).order = i :: rest → s.board i = some r → r.state = .decided →
        r.verdict = some v → exec (.dispRead p o (some ())) s = .next (s.answers p .done 13
          ([r.tag] ++ encOpt (fun x => le 6 x.toNat) r.serial ++ [BitVec.ofNat 8 v.code] ++
            le 2 r.counts.defects ++ encSet BoardFlag.all r.flags))) ∧
    (s.open_ .sta →
      (∀ l, Lane.all[o.toNat]? = some l → exec (.tunnelRead .sta o (some ())) s = .next
        (s.answers .sta .done 21 (encMap (s.lane l).map ++ encOpt encMap (s.lane l).heldMap))) ∧
      (∀ k : RecipeId, o.toNat = k.val → exec (.directoryRead .sta o (some ())) s = .next
        (s.answers .sta .done 23 (encEntry (s.dir k).entry ++
          [BitVec.ofNat 8 (s.dir k).useCount] ++ encOpt encEntry (s.dir k).held))) ∧
      exec (.regionRead .sta (some ())) s = .next (s.answers .sta .done 25
        ((List.finRange 16).flatMap fun k => [if s.regions[k].stationWrite then 0#8 else 1#8,
          if s.regions[k].headRead then 0#8 else 1#8,
          if s.regions[k].moveWrite then 0#8 else 1#8])) ∧
      (∀ k : LineId, o.toNat = k.val → exec (.cacheTagRead .sta o (some ())) s = .next
        (s.answers .sta .done 28 (le 2 (s.line k).tag ++
          [if (s.line k).valid then 0#8 else 1#8] ++ [match s.cache.isolation with
            | .normal => 0#8
            | .isolating => 1#8
            | .isolated => 2#8]))) ∧
      (∀ n, HeadId.all[o.toNat]? = some n → exec (.headLinkRead .sta o (some ())) s = .next
        (s.answers .sta .done 33 (le 1 (s.link n).triggers.length ++
          (s.link n).triggers.flatMap (fun t => [t.tag, match t.lane with
            | .A => 0#8
            | .B => 1#8]) ++
          [BitVec.ofNat 8 (s.link n).results.length,
            BitVec.ofNat 8 (64 - (s.link n).results.length),
            BitVec.ofNat 8 (s.link n).threshold,
            if (s.link n).holdOn then 0#8 else 1#8,
            if s.merge.item.map (·.head) = some n then 0#8 else 1#8]))) ∧
      exec (.mergeStatusRead .sta (some ())) s = .next (s.answers .sta .done 34
        (encOpt (encInFlight s.cache.waiting.isSome) s.merge.item ++
          [BitVec.ofNat 8 s.merge.lastServed.code] ++
          encSet HeadId.all (HeadId.all.filter s.heldBack) ++
          le 1 s.suspects.length ++ le 2 s.defects.length)) ∧
      ∀ c, Channel.all[o.toNat]? = some c → exec (.channelRead .sta o (some ())) s = .next
        (s.answers .sta .done 38 (encChannel c (s.channel c) (match c with
          | .defect => s.defects.length
          | .summary => s.summaryReady.length))))

/-- R31, R32, R45, R46: a map or an entry that passes its checks is applied at once, or kept as held. -/
def Obligations.MapAndEntryAppliedOrHeld : Prop :=
  ∀ (s : State) (o : Byte), s.open_ .sta →
    (∀ l (a : TunnelArgs), Lane.all[o.toNat]? = some l →
      (¬a.Passes → exec (.tunnelSet .sta o (some a)) s =
        .next (s.answers .sta .badValue 20 [])) ∧
      (a.Passes →
        let m := { a.map with defaultRecipe :=
          if a.defaultRecipe = 16 then none else some (Fin.ofNat 16 a.defaultRecipe) }
        ((s.lane l).order = [] → exec (.tunnelSet .sta o (some a)) s = .next (State.answers
          { s with lanes := s.lanes.set l { s.lane l with
            map := m, heldMap := none, entry := .ready, exit := .ready } } .sta .done 20 [])) ∧
        ((s.lane l).order ≠ [] → exec (.tunnelSet .sta o (some a)) s = .next (State.answers
          { s with lanes := s.lanes.set l { s.lane l with heldMap := some m } }
          .sta .held 20 [])))) ∧
    ∀ (k : RecipeId) (e : DirEntry), o.toNat = k.val →
      (¬e.Passes → exec (.directorySet .sta o (some e)) s =
        .next (s.answers .sta .badValue 22 [])) ∧
      (e.Passes → (s.dir k).useCount = 0 → exec (.directorySet .sta o (some e)) s =
        .next (State.answers { s with directory := s.directory.set k ⟨e, 0, none⟩ }
          .sta .done 22 [])) ∧
      (e.Passes → 0 < (s.dir k).useCount → exec (.directorySet .sta o (some e)) s =
        .next (State.answers { s with
          directory := s.directory.set k { s.dir k with held := some e } } .sta .held 22 []))

/-- R53, R54, R56: REGION_SET; PROG_READ and PROG_WRITE make their port pending, or are refused. R148: one taken
with no operation in flight and nothing waiting is granted at once; any other waits. -/
def Obligations.ProgramMemoryRequests : Prop :=
  let idle (s : State) := s.arbiter.op = none ∧ s.cache.fill = none ∧ (∀ q, s.portOp q = none) ∧
    ∀ c, s.waits c = false
  (∀ (s : State) (o : Byte) (k : RegionId) (a : RegionArgs), s.open_ .sta → o.toNat = k.val →
    exec (.regionSet .sta o (some a)) s = .next (State.answers { s with
      regions := s.regions.set k ⟨a.stationWrite, a.headRead, a.moveWrite⟩ } .sta .done 24 [])) ∧
  (∀ (s : State) (p : Port) (a : ReadArgs), s.open_ p → (p = .sta ∨ ∃ n, p = .hl n) →
    let fits := a.address ≤ 16777215 ∧ 1 ≤ a.count ∧ a.count ≤ 64 ∧ a.address % 64 + a.count ≤ 64
    (¬fits → exec (.progRead p (some a)) s = .next (s.answers p .badValue 14 [])) ∧
    (fits → p ≠ .sta → (s.regionAt a.address).headRead = false →
      exec (.progRead p (some a)) s = .next (s.answers p .notPermitted 14 [])) ∧
    (fits → (p = .sta ∨ (s.regionAt a.address).headRead = true) →
      (¬idle s → exec (.progRead p (some a)) s = .next { s with
        ports := s.ports.set p ⟨⟨.pending, 14#8, []⟩, some (.progRead a.address a.count)⟩ }) ∧
      (idle s → ∀ q : MemPort, q.port = p → exec (.progRead p (some a)) s = .next { s with
        ports := s.ports.set p ⟨⟨.pending, 14#8, []⟩, some (.progRead a.address a.count)⟩
        arbiter := { s.arbiter with
          op := some ⟨.port q, .progRead, a.address, a.count⟩, lastPort := q } }))) ∧
  ∀ (s : State) (a : WriteArgs), s.open_ .sta →
    let n := a.bytes.length
    let fits := a.address ≤ 16777215 ∧ 1 ≤ n ∧ n ≤ 64 ∧ a.address % 64 + n ≤ 64
    let used := ∃ (k : RecipeId) (h : HeadId) (b : Nat), (s.dir k).entry.valid = true ∧
      0 < (s.dir k).useCount ∧ a.address ≤ b ∧ b < a.address + n ∧
      (s.dir k).entry.listBase.get h ≤ b ∧
      b < (s.dir k).entry.listBase.get h + 8 * (s.dir k).entry.listLength.get h
    (¬fits → exec (.progWrite .sta (some a)) s = .next (s.answers .sta .badValue 26 [])) ∧
    (fits → (s.regionAt a.address).stationWrite = false →
      exec (.progWrite .sta (some a)) s = .next (s.answers .sta .notPermitted 26 [])) ∧
    (fits → (s.regionAt a.address).stationWrite = true → used →
      exec (.progWrite .sta (some a)) s = .next (s.answers .sta .inUse 26 [])) ∧
    (fits → (s.regionAt a.address).stationWrite = true → ¬used →
      (¬idle s → exec (.progWrite .sta (some a)) s = .next { s with
        ports := s.ports.set .sta
          ⟨⟨.pending, 26#8, []⟩, some (.progWrite a.address a.bytes)⟩ }) ∧
      (idle s → exec (.progWrite .sta (some a)) s = .next { s with
        ports := s.ports.set .sta
          ⟨⟨.pending, 26#8, []⟩, some (.progWrite a.address a.bytes)⟩
        arbiter := { s.arbiter with
          op := some ⟨.port .sta, .progWrite, a.address, n⟩, lastPort := .sta } }))

/-! ### The Program Cache -/

/-- R70, R73: CACHE_ISOLATE and CACHE_INVALIDATE (ISOLATED with the port not pending; in ISOLATING, log
entries 26 and 27). -/
def Obligations.IsolationAndInvalidation : Prop :=
  ∀ s : State, s.open_ .sta →
    (s.cache.isolation = .isolated → exec (.cacheIsolate .sta (some ())) s =
      .next (s.answers .sta .done 27 [])) ∧
    (s.cache.isolation = .normal → s.merge.item = none → s.cache.fill = none →
      exec (.cacheIsolate .sta (some ())) s = .next (State.answers
        { s with cache := { s.cache with isolation := .isolated } } .sta .done 27 [])) ∧
    (s.cache.isolation = .normal → (s.merge.item ≠ none ∨ s.cache.fill ≠ none) →
      exec (.cacheIsolate .sta (some ())) s = .next { s with
        cache := { s.cache with isolation := .isolating }
        ports := s.ports.set .sta ⟨⟨.pending, 27#8, []⟩, some .cacheIsolate⟩ }) ∧
    (s.cache.isolation = .normal → ∀ o : Byte, o.toNat < 128 ∨ o.toNat = 255 →
      exec (.cacheInvalidate .sta o (some ())) s = .next (s.answers .sta .badState 29 [])) ∧
    (s.cache.isolation = .isolated → ∀ (o : Byte) (k : LineId), o.toNat = k.val →
      exec (.cacheInvalidate .sta o (some ())) s = .next (State.answers { s with
        cache := { s.cache with lines := s.cache.lines.set k { s.line k with valid := false } } }
        .sta .done 29 [])) ∧
    (s.cache.isolation = .isolated → ∃ t,
      exec (.cacheInvalidate .sta 255#8 (some ())) s = .next t ∧
      (∀ k, t.line k = { s.line k with valid := false }) ∧
      t = State.answers { s with cache := { s.cache with lines := t.cache.lines } } .sta .done 29 [])

/-- R74: CACHE_RELEASE ends isolation; releasing makes no fill and changes no line. -/
def Obligations.CacheReleaseEndsIsolation : Prop :=
  ∀ s : State,
    (∀ p, p ≠ .sta → s.open_ p →
      exec (.cacheRelease p (some ())) s = .next (s.answers p .notPermitted 30 [])) ∧
    (s.open_ .sta → s.cache.isolation = .isolated →
      let t := State.answers { s with cache := { s.cache with isolation := .normal } } .sta .done 30 []
      exec (.cacheRelease .sta (some ())) s = .next t ∧
      (s.merge.item = none → t.mayTake = true)) ∧
    (s.open_ .sta → s.cache.isolation = .normal →
      exec (.cacheRelease .sta (some ())) s = .next (s.answers .sta .badState 30 [])) ∧
    ((s.port .sta).pending = some .cacheIsolate →
      exec (.cacheRelease .sta (some ())) s = .next s) ∧
    (∃ t, exec .powerOnReset s = .next t ∧ t.cache.isolation = .normal) ∧
    (s.open_ .sta → s.cache.isolation = .isolated → ∃ t,
      exec (.trackReset .sta (some ())) s = .next t ∧ t.cache.isolation = .isolated)

/-! ### Head Links -/

/-- R79, R86, R87: TRIGGER_TAKE, RESULT_PUT and RESULT_HOLD_SET; QUEUE_RELEASED is raised when the hold state
goes from ON to OFF. The hold state's code is the model's reading of R190 (log entry 14). -/
def Obligations.HeadRequests : Prop :=
  (∀ (s : State) (n : HeadId) (x : Link), s.setLink n x =
    if 64 - (s.link n).results.length ≤ (s.link n).threshold ∧
        ¬64 - x.results.length ≤ x.threshold then
      State.raise { s with links := s.links.set n x } (.hl n) .queueReleased
    else { s with links := s.links.set n x }) ∧
  (∀ (s : State) (n : HeadId), s.open_ (.hl n) →
    ((s.link n).triggers = [] →
      exec (.triggerTake (.hl n) (some ())) s = .next (s.answers (.hl n) .empty 15 [])) ∧
    ∀ q rest i r, (s.link n).triggers = q :: rest → s.slotOfTag q.tag = some i →
      s.board i = some r → exec (.triggerTake (.hl n) (some ())) s = .next (State.answers
        { s with
          links := s.links.set n { s.link n with triggers := rest }
          slots := s.slots.set i (some (r.setStatus n .taken)) } (.hl n) .done 15
        ([q.tag] ++ [BitVec.ofNat 8 q.lane.code] ++ [BitVec.ofNat 8 q.recipe.val] ++
          encOpt (fun x => le 6 x.toNat) q.serial ++ le 3 q.entryPos.toNat ++ le 3 q.listBase ++
          le 2 q.listLength ++ [BitVec.ofNat 8 rest.length]))) ∧
  (∀ (s : State) (n : HeadId) (raw : List RawItem), s.open_ (.hl n) →
    (raw.length < 1 ∨ 8 < raw.length ∨ (∃ x ∈ raw, ∀ y, ¬x.standsFor y) →
      exec (.resultPut (.hl n) (some raw)) s = .next (s.answers (.hl n) .badValue 16 [])) ∧
    ∀ items, 1 ≤ raw.length → raw.length ≤ 8 → List.Forall₂ RawItem.standsFor raw items →
      let free := 64 - (s.link n).results.length
      let taken := min items.length free
      let k : Link := { s.link n with results := (s.link n).results ++ items.take free }
      exec (.resultPut (.hl n) (some raw)) s = .next (State.answers (s.setLink n k) (.hl n)
        (if taken = items.length then .done else .full) 16
        [BitVec.ofNat 8 taken, BitVec.ofNat 8 (64 - k.results.length),
          if 64 - k.results.length ≤ k.threshold then 0#8 else 1#8])) ∧
  ∀ (s : State) (o : Byte) (n : HeadId) (k : Nat), s.open_ .sta → HeadId.all[o.toNat]? = some n →
    (k < 1 ∨ 63 < k →
      exec (.resultHoldSet .sta o (some k)) s = .next (s.answers .sta .badValue 31 [])) ∧
    (1 ≤ k → k ≤ 63 → exec (.resultHoldSet .sta o (some k)) s = .next (State.answers
      (s.setLink n { s.link n with threshold := k }) .sta .done 31 []))

/-- R92: HEAD_FLUSH empties both queues and ends head n of each record that holds an open trigger, in an
order the spec leaves open (log entry 4). -/
def Obligations.HeadFlushEmptiesTheLink : Prop :=
  ∀ (s : State) (o : Byte) (n : HeadId), s.open_ .sta → HeadId.all[o.toNat]? = some n →
    ∃ es : List Slot, es.Perm (List.finRange 24) ∧
      let s1 := s.setLink n ⟨[], [], (s.link n).threshold⟩
      exec (.headFlush .sta o (some ())) s = .next (State.answers
        (s.thenGrant (es.foldl (fun (u : State) i =>
          match u.board i with
          | none => u
          | some r =>
            if r.headStatus n = .triggered ∨ r.headStatus n = .taken ∨
                r.headStatus n = .reporting then
              State.closeCheck { u with slots := u.slots.set i (some
                (((r.setStatus n .faulted).disarm (.headLimit n)).addFlag .headFaulted)) } i
            else u) { s1 with draws := s1.draws + 1 })) .sta .done 32 [])

/-! ### Log channels and watches -/

/-- R158: RING_SET, checked, applied at once or held. For size 0 the channel keeps its base and priority, the
model's choice (log entry 33). R157: the records waiting in the source are then dropped, oldest first; each
DEFECT drop takes 1 from its board's outstanding defects, and a LEAVING board left with none is ready for its
summary, or FREE with SUMMARY DISABLED. -/
def Obligations.RingIsAppliedOrHeld : Prop :=
  (∀ (s : State) (o : Byte) (c : Channel) (a : RingArgs), s.open_ .sta →
    Channel.all[o.toNat]? = some c →
    let size := a.size = 0 ∨ ∃ k, 4 ≤ k ∧ k ≤ 16 ∧ a.size = 2 ^ k
    let base := a.base % 64 = 0 ∧ a.base + 32 * a.size ≤ 16777216
    let x := s.channel c
    let atOnce := x.state = .disabled ∨ x.state = .faulted ∨ (x.occupancy = 0 ∧ x.inFlight = false)
    (¬size ∨ (a.size ≠ 0 ∧ (¬base ∨ a.priority = none)) →
      exec (.ringSet .sta o (some a)) s = .next (s.answers .sta .badValue 35 [])) ∧
    (∀ q, size → a.size ≠ 0 → base → a.priority = some q →
      let allowed := ∀ k : RegionId, a.base / 1048576 ≤ k.val →
        k.val ≤ (a.base + 32 * a.size - 1) / 1048576 → s.regions[k].moveWrite = true
      (¬allowed → exec (.ringSet .sta o (some a)) s =
        .next (s.answers .sta .notPermitted 35 [])) ∧
      (allowed → atOnce → exec (.ringSet .sta o (some a)) s = .next (State.answers
        (s.thenGrant (State.requestWrite { s with
          channels := s.channels.set c ⟨.running, ⟨a.base, a.size, q⟩, 0#17, 0#17,
            x.blockSetting, x.blockSetting, 0, x.seq, none, none⟩ } c)) .sta .done 35 [])) ∧
      (allowed → ¬atOnce → exec (.ringSet .sta o (some a)) s = .next (State.answers
        { s with
          channels := s.channels.set c { x with
            held := some ⟨a.base, a.size, q⟩
            write := if x.inFlight then x.write else none } } .sta .held 35 []))) ∧
    (a.size = 0 → atOnce → exec (.ringSet .sta o (some a)) s = .next (State.answers
      (s.thenGrant (State.dropSource { s with
        channels := s.channels.set c ⟨.disabled, ⟨x.ring.base, 0, x.ring.priority⟩, 0#17, 0#17,
          x.blockSetting, x.blockSetting, 0, x.seq, none, none⟩ } c)) .sta .done 35 [])) ∧
    (a.size = 0 → ¬atOnce → exec (.ringSet .sta o (some a)) s = .next (State.answers
      { s with
        channels := s.channels.set c { x with
          held := some ⟨x.ring.base, 0, x.ring.priority⟩
          write := if x.inFlight then x.write else none } } .sta .held 35 []))) ∧
  (∀ (s : State), s.dropSource .summary = s.summaryReady.foldl (fun u i =>
    { u with slots := u.slots.set i none }) { s with summaryReady := [] }) ∧
  (∀ (s : State), s.dropSource .defect = s.defects.foldl (fun u d => u.dropOutstanding d.slot)
    { s with defects := [] }) ∧
  ∀ (s : State) (i : Slot),
    (s.board i = none → s.dropOutstanding i = s) ∧
    ∀ r, s.board i = some r → s.dropOutstanding i =
      let s1 : State := { s with
        slots := s.slots.set i (some { r with outstanding := r.outstanding - 1 }) }
      if r.state ≠ .leaving ∨ r.outstanding ≠ 1 then s1
      else if (s.channel .summary).state = .disabled then { s with slots := s.slots.set i none }
      else State.requestWrite { s1 with summaryReady := s.summaryReady ++ [i] } .summary

/-- R156, R162: LOG_CONSUMED (the order of its refusals, log entry 19) and LOG_BLOCK_SET. -/
def Obligations.LogIsConsumedInBounds : Prop :=
  ∀ (s : State) (o : Byte) (c : Channel), s.open_ .sta → Channel.all[o.toNat]? = some c →
    let x := s.channel c
    (∀ n : Nat,
      (131071 < n → exec (.logConsumed .sta o (some n)) s =
        .next (s.answers .sta .badValue 36 [])) ∧
      (n ≤ 131071 → x.state = .disabled → exec (.logConsumed .sta o (some n)) s =
        .next (s.answers .sta .badState 36 [])) ∧
      (n ≤ 131071 → x.state ≠ .disabled →
        x.occupancy < (BitVec.ofNat 17 n - x.consumer).toNat →
        exec (.logConsumed .sta o (some n)) s = .next (s.answers .sta .badValue 36 [])) ∧
      (n ≤ 131071 → x.state ≠ .disabled →
        (BitVec.ofNat 17 n - x.consumer).toNat ≤ x.occupancy →
        let left := (x.producer - BitVec.ofNat 17 n).toNat
        let x' : ChannelReg := { x with
          consumer := BitVec.ofNat 17 n
          state := if x.state = .full ∧ left < x.ring.size then .running else x.state }
        let s1 : State := { s with channels := s.channels.set c x' }
        (∀ r, x.held = some r → left = 0 → x.inFlight = false →
          exec (.logConsumed .sta o (some n)) s = .next (State.answers
            (s.thenGrant ((s1.applyRing c r).raise .sta .heldApplied)) .sta .done 36 [])) ∧
        (x.held ≠ none → left ≠ 0 ∨ x.inFlight = true →
          exec (.logConsumed .sta o (some n)) s = .next (s1.answers .sta .done 36 [])) ∧
        (x.held = none → exec (.logConsumed .sta o (some n)) s = .next
          (State.answers (s.thenGrant (s1.requestWrite c)) .sta .done 36 [])))) ∧
    ∀ n : Nat,
      (n < 1 ∨ 255 < n → exec (.logBlockSet .sta o (some n)) s =
        .next (s.answers .sta .badValue 37 [])) ∧
      (1 ≤ n → n ≤ 255 → exec (.logBlockSet .sta o (some n)) s = .next (State.answers
        { s with channels := s.channels.set c { x with blockSetting := n } } .sta .done 37 []))

/-- R165: WATCH_READ and WATCH_CLEAR; R163: WATCH_SET. On or off is coded by place, the model's reading of R190
(log entry 14). -/
def Obligations.WatchesAreSetReadAndCleared : Prop :=
  ∀ (s : State) (o : Byte), s.open_ .sta →
    (2 ≤ o.toNat →
      exec (.watchRead .sta o (some ())) s = .next (s.answers .sta .badObject 40 []) ∧
      exec (.watchClear .sta o (some ())) s = .next (s.answers .sta .badObject 41 [])) ∧
    ∀ w, WatchId.all[o.toNat]? = some w →
      let x := s.watch w
      let fields := [if x.enable then 0#8 else 1#8] ++ encOpt (fun r => le 1 r.val) x.recipe ++
        encOpt (fun j => le 2 j.toNat) x.joint ++ encOpt (fun c => le 1 c.code) x.cls ++
        encOpt (fun c => le 1 c.code) x.criticality ++
        encOpt (fun h => le 2 h.seq.toNat ++ [h.tag] ++ le 2 h.joint.toNat) x.status ++
        [if x.again then 0#8 else 1#8]
      (x.status = none →
        exec (.watchRead .sta o (some ())) s = .next (s.answers .sta .done 40 fields) ∧
        exec (.watchClear .sta o (some ())) s = .next (s.answers .sta .done 41 [])) ∧
      (x.status ≠ none →
        exec (.watchRead .sta o (some ())) s = .next (State.answers
          { s with watches := s.watches.set w { x with seen := true } } .sta .done 40 fields)) ∧
      (x.status ≠ none → x.seen = true →
        exec (.watchClear .sta o (some ())) s = .next (State.answers
          { s with
            watches := s.watches.set w
              { x with status := none, again := false, seen := false } } .sta .done 41 [])) ∧
      (x.status ≠ none → x.seen = false →
        exec (.watchClear .sta o (some ())) s = .next (s.answers .sta .badState 41 [])) ∧
      ∀ a : WatchArgs,
        let fits := (∀ v, a.recipe = some v → v < 16) ∧ (∀ v, a.joint = some v → v ≤ 4095) ∧
          (∀ v, a.cls = some v → v < 9) ∧ ∀ v, a.criticality = some v → v < 3
        (¬fits → exec (.watchSet .sta o (some a)) s = .next (s.answers .sta .badValue 39 [])) ∧
        (fits → ∃ y : Watch, y.enable = a.enable ∧ y.recipe.map (·.val) = a.recipe ∧
          y.joint.map (·.toNat) = a.joint ∧ y.cls.map DefectClass.code = a.cls ∧
          y.criticality.map Criticality.code = a.criticality ∧ y.status = none ∧
          y.again = false ∧ y.seen = false ∧
          exec (.watchSet .sta o (some a)) s = .next (State.answers
            { s with watches := s.watches.set w y } .sta .done 39 []))

/-! ### What every step keeps -/

/-- The canonical form of program memory. -/
def Obligations.StepKeepsMemoryCanonical : Prop :=
  ∀ s t : State, step s = .next t → s.memoryWf = true → t.memoryWf = true

/-- Every queue and pool within its capacity; 0 ≤ producer - consumer ≤ ring size (R152); no request waits for a
grant while no operation is in flight (R148). -/
def Obligations.StepKeepsCapacities : Prop :=
  ∀ s t : State, step s = .next t → (s.Capacity → t.Capacity) ∧ (s.RingsBounded → t.RingsBounded) ∧
    (s.grantDue = false → t.grantDue = false)

/-- No two live records carry the same tag (R4). -/
def Obligations.StepKeepsTagsDistinct : Prop :=
  ∀ s t : State, step s = .next t → s.DistinctTags → t.DistinctTags

/-- A step that is no entry edge makes no new board and changes no live board's tag, lane, recipe, serial or
entry position (R1). -/
def Obligations.BoardIdentityNeverChanges : Prop :=
  ∀ (s t : State), (∀ l cs, s.pending ≠ .entryLeadingEdge l :: cs) → step s = .next t →
    ∀ i x, t.board i = some x → ∃ r, s.board i = some r ∧ r.SameBoard x
end

