-- ==== Sys2Proof/Laws/State.lean ====
section
/-! SUPPORT. One lemma per field per update, true by rfl, and the readers of the state after each update. -/

namespace Sys2Proof

/-! ### Containers -/

@[simp] theorem PerLane.get_set {α : Type} (x : PerLane α) (i j : Lane) (v : α) :
    (x.set i v).get j = if j = i then v else x.get j := by
  cases i <;> cases j <;> rfl

@[simp] theorem PerLane.set_get {α : Type} (x : PerLane α) (i : Lane) : x.set i (x.get i) = x := by
  cases i <;> rfl

@[simp] theorem PerLane.set_set {α : Type} (x : PerLane α) (i : Lane) (v w : α) :
    (x.set i v).set i w = x.set i w := by
  cases i <;> rfl

@[simp] theorem PerHead.get_set {α : Type} (x : PerHead α) (i j : HeadId) (v : α) :
    (x.set i v).get j = if j = i then v else x.get j := by
  cases i <;> cases j <;> rfl

@[simp] theorem PerHead.set_get {α : Type} (x : PerHead α) (i : HeadId) : x.set i (x.get i) = x := by
  cases i <;> rfl

@[simp] theorem PerHead.set_set {α : Type} (x : PerHead α) (i : HeadId) (v w : α) :
    (x.set i v).set i w = x.set i w := by
  cases i <;> rfl

@[simp] theorem PerChannel.get_set {α : Type} (x : PerChannel α) (i j : Channel) (v : α) :
    (x.set i v).get j = if j = i then v else x.get j := by
  cases i <;> cases j <;> rfl

@[simp] theorem PerChannel.set_get {α : Type} (x : PerChannel α) (i : Channel) : x.set i (x.get i) = x := by
  cases i <;> rfl

@[simp] theorem PerChannel.set_set {α : Type} (x : PerChannel α) (i : Channel) (v w : α) :
    (x.set i v).set i w = x.set i w := by
  cases i <;> rfl

@[simp] theorem PerWatch.get_set {α : Type} (x : PerWatch α) (i j : WatchId) (v : α) :
    (x.set i v).get j = if j = i then v else x.get j := by
  cases i <;> cases j <;> rfl

@[simp] theorem PerWatch.set_get {α : Type} (x : PerWatch α) (i : WatchId) : x.set i (x.get i) = x := by
  cases i <;> rfl

@[simp] theorem PerWatch.set_set {α : Type} (x : PerWatch α) (i : WatchId) (v w : α) :
    (x.set i v).set i w = x.set i w := by
  cases i <;> rfl

@[simp] theorem PerPort.get_set {α : Type} (x : PerPort α) (i j : Port) (v : α) :
    (x.set i v).get j = if j = i then v else x.get j := by
  cases i <;> cases j <;> simp [PerPort.set, PerPort.get]

@[simp] theorem PerPort.set_get {α : Type} (x : PerPort α) (i : Port) : x.set i (x.get i) = x := by
  cases i <;> simp [PerPort.set, PerPort.get]

@[simp] theorem PerPort.set_set {α : Type} (x : PerPort α) (i : Port) (v w : α) :
    (x.set i v).set i w = x.set i w := by
  cases i <;> simp [PerPort.set]

@[simp] theorem PerOuter.get_set {α : Type} (x : PerOuter α) (i j : Outer) (v : α) :
    (x.set i v).get j = if j = i then v else x.get j := by
  cases i <;> cases j <;> simp [PerOuter.set, PerOuter.get]

@[simp] theorem PerOuter.set_get {α : Type} (x : PerOuter α) (i : Outer) : x.set i (x.get i) = x := by
  cases i <;> simp [PerOuter.set, PerOuter.get]

@[simp] theorem PerOuter.set_set {α : Type} (x : PerOuter α) (i : Outer) (v w : α) :
    (x.set i v).set i w = x.set i w := by
  cases i <;> simp [PerOuter.set]

@[simp] theorem PerHead.get_const {α : Type} (v : α) (i : HeadId) : (PerHead.const v).get i = v := by
  cases i <;> simp [PerHead.const, PerHead.get]

@[simp] theorem PerPort.get_const {α : Type} (v : α) (i : Port) : (PerPort.const v).get i = v := by
  cases i <;> simp [PerPort.const, PerPort.get, PerHead.get_const]

@[simp] theorem PerOuter.get_const {α : Type} (v : α) (i : Outer) : (PerOuter.const v).get i = v := by
  cases i <;> simp [PerOuter.const, PerOuter.get, PerHead.get_const]

end Sys2Proof

namespace Sys2Proof.Machine

open Sys2Proof

variable (s : State)

/-! ### Fields after an update -/

@[simp] theorem State.setBoard_slots (i : Slot) (r : Option Record) : (s.setBoard i r).slots = s.slots.set i r := rfl
@[simp] theorem State.setBoard_tagCounter (i : Slot) (r : Option Record) : (s.setBoard i r).tagCounter = s.tagCounter := rfl
@[simp] theorem State.setBoard_lanes (i : Slot) (r : Option Record) : (s.setBoard i r).lanes = s.lanes := rfl
@[simp] theorem State.setBoard_directory (i : Slot) (r : Option Record) : (s.setBoard i r).directory = s.directory := rfl
@[simp] theorem State.setBoard_mem (i : Slot) (r : Option Record) : (s.setBoard i r).mem = s.mem := rfl
@[simp] theorem State.setBoard_regions (i : Slot) (r : Option Record) : (s.setBoard i r).regions = s.regions := rfl
@[simp] theorem State.setBoard_cache (i : Slot) (r : Option Record) : (s.setBoard i r).cache = s.cache := rfl
@[simp] theorem State.setBoard_links (i : Slot) (r : Option Record) : (s.setBoard i r).links = s.links := rfl
@[simp] theorem State.setBoard_merge (i : Slot) (r : Option Record) : (s.setBoard i r).merge = s.merge := rfl
@[simp] theorem State.setBoard_suspects (i : Slot) (r : Option Record) : (s.setBoard i r).suspects = s.suspects := rfl
@[simp] theorem State.setBoard_defects (i : Slot) (r : Option Record) : (s.setBoard i r).defects = s.defects := rfl
@[simp] theorem State.setBoard_arbiter (i : Slot) (r : Option Record) : (s.setBoard i r).arbiter = s.arbiter := rfl
@[simp] theorem State.setBoard_channels (i : Slot) (r : Option Record) : (s.setBoard i r).channels = s.channels := rfl
@[simp] theorem State.setBoard_watches (i : Slot) (r : Option Record) : (s.setBoard i r).watches = s.watches := rfl
@[simp] theorem State.setBoard_summaryReady (i : Slot) (r : Option Record) : (s.setBoard i r).summaryReady = s.summaryReady := rfl
@[simp] theorem State.setBoard_faults (i : Slot) (r : Option Record) : (s.setBoard i r).faults = s.faults := rfl
@[simp] theorem State.setBoard_alerts (i : Slot) (r : Option Record) : (s.setBoard i r).alerts = s.alerts := rfl
@[simp] theorem State.setBoard_ports (i : Slot) (r : Option Record) : (s.setBoard i r).ports = s.ports := rfl
@[simp] theorem State.setBoard_mail (i : Slot) (r : Option Record) : (s.setBoard i r).mail = s.mail := rfl
@[simp] theorem State.setBoard_draws (i : Slot) (r : Option Record) : (s.setBoard i r).draws = s.draws := rfl
@[simp] theorem State.setBoard_pending (i : Slot) (r : Option Record) : (s.setBoard i r).pending = s.pending := rfl

@[simp] theorem State.setLane_slots (l : Lane) (x : LaneState) : (s.setLane l x).slots = s.slots := rfl
@[simp] theorem State.setLane_tagCounter (l : Lane) (x : LaneState) : (s.setLane l x).tagCounter = s.tagCounter := rfl
@[simp] theorem State.setLane_lanes (l : Lane) (x : LaneState) : (s.setLane l x).lanes = s.lanes.set l x := rfl
@[simp] theorem State.setLane_directory (l : Lane) (x : LaneState) : (s.setLane l x).directory = s.directory := rfl
@[simp] theorem State.setLane_mem (l : Lane) (x : LaneState) : (s.setLane l x).mem = s.mem := rfl
@[simp] theorem State.setLane_regions (l : Lane) (x : LaneState) : (s.setLane l x).regions = s.regions := rfl
@[simp] theorem State.setLane_cache (l : Lane) (x : LaneState) : (s.setLane l x).cache = s.cache := rfl
@[simp] theorem State.setLane_links (l : Lane) (x : LaneState) : (s.setLane l x).links = s.links := rfl
@[simp] theorem State.setLane_merge (l : Lane) (x : LaneState) : (s.setLane l x).merge = s.merge := rfl
@[simp] theorem State.setLane_suspects (l : Lane) (x : LaneState) : (s.setLane l x).suspects = s.suspects := rfl
@[simp] theorem State.setLane_defects (l : Lane) (x : LaneState) : (s.setLane l x).defects = s.defects := rfl
@[simp] theorem State.setLane_arbiter (l : Lane) (x : LaneState) : (s.setLane l x).arbiter = s.arbiter := rfl
@[simp] theorem State.setLane_channels (l : Lane) (x : LaneState) : (s.setLane l x).channels = s.channels := rfl
@[simp] theorem State.setLane_watches (l : Lane) (x : LaneState) : (s.setLane l x).watches = s.watches := rfl
@[simp] theorem State.setLane_summaryReady (l : Lane) (x : LaneState) : (s.setLane l x).summaryReady = s.summaryReady := rfl
@[simp] theorem State.setLane_faults (l : Lane) (x : LaneState) : (s.setLane l x).faults = s.faults := rfl
@[simp] theorem State.setLane_alerts (l : Lane) (x : LaneState) : (s.setLane l x).alerts = s.alerts := rfl
@[simp] theorem State.setLane_ports (l : Lane) (x : LaneState) : (s.setLane l x).ports = s.ports := rfl
@[simp] theorem State.setLane_mail (l : Lane) (x : LaneState) : (s.setLane l x).mail = s.mail := rfl
@[simp] theorem State.setLane_draws (l : Lane) (x : LaneState) : (s.setLane l x).draws = s.draws := rfl
@[simp] theorem State.setLane_pending (l : Lane) (x : LaneState) : (s.setLane l x).pending = s.pending := rfl

@[simp] theorem State.setDir_slots (k : RecipeId) (x : DirState) : (s.setDir k x).slots = s.slots := rfl
@[simp] theorem State.setDir_tagCounter (k : RecipeId) (x : DirState) : (s.setDir k x).tagCounter = s.tagCounter := rfl
@[simp] theorem State.setDir_lanes (k : RecipeId) (x : DirState) : (s.setDir k x).lanes = s.lanes := rfl
@[simp] theorem State.setDir_directory (k : RecipeId) (x : DirState) : (s.setDir k x).directory = s.directory.set k x := rfl
@[simp] theorem State.setDir_mem (k : RecipeId) (x : DirState) : (s.setDir k x).mem = s.mem := rfl
@[simp] theorem State.setDir_regions (k : RecipeId) (x : DirState) : (s.setDir k x).regions = s.regions := rfl
@[simp] theorem State.setDir_cache (k : RecipeId) (x : DirState) : (s.setDir k x).cache = s.cache := rfl
@[simp] theorem State.setDir_links (k : RecipeId) (x : DirState) : (s.setDir k x).links = s.links := rfl
@[simp] theorem State.setDir_merge (k : RecipeId) (x : DirState) : (s.setDir k x).merge = s.merge := rfl
@[simp] theorem State.setDir_suspects (k : RecipeId) (x : DirState) : (s.setDir k x).suspects = s.suspects := rfl
@[simp] theorem State.setDir_defects (k : RecipeId) (x : DirState) : (s.setDir k x).defects = s.defects := rfl
@[simp] theorem State.setDir_arbiter (k : RecipeId) (x : DirState) : (s.setDir k x).arbiter = s.arbiter := rfl
@[simp] theorem State.setDir_channels (k : RecipeId) (x : DirState) : (s.setDir k x).channels = s.channels := rfl
@[simp] theorem State.setDir_watches (k : RecipeId) (x : DirState) : (s.setDir k x).watches = s.watches := rfl
@[simp] theorem State.setDir_summaryReady (k : RecipeId) (x : DirState) : (s.setDir k x).summaryReady = s.summaryReady := rfl
@[simp] theorem State.setDir_faults (k : RecipeId) (x : DirState) : (s.setDir k x).faults = s.faults := rfl
@[simp] theorem State.setDir_alerts (k : RecipeId) (x : DirState) : (s.setDir k x).alerts = s.alerts := rfl
@[simp] theorem State.setDir_ports (k : RecipeId) (x : DirState) : (s.setDir k x).ports = s.ports := rfl
@[simp] theorem State.setDir_mail (k : RecipeId) (x : DirState) : (s.setDir k x).mail = s.mail := rfl
@[simp] theorem State.setDir_draws (k : RecipeId) (x : DirState) : (s.setDir k x).draws = s.draws := rfl
@[simp] theorem State.setDir_pending (k : RecipeId) (x : DirState) : (s.setDir k x).pending = s.pending := rfl

@[simp] theorem State.setRegion_slots (k : RegionId) (x : Region) : (s.setRegion k x).slots = s.slots := rfl
@[simp] theorem State.setRegion_tagCounter (k : RegionId) (x : Region) : (s.setRegion k x).tagCounter = s.tagCounter := rfl
@[simp] theorem State.setRegion_lanes (k : RegionId) (x : Region) : (s.setRegion k x).lanes = s.lanes := rfl
@[simp] theorem State.setRegion_directory (k : RegionId) (x : Region) : (s.setRegion k x).directory = s.directory := rfl
@[simp] theorem State.setRegion_mem (k : RegionId) (x : Region) : (s.setRegion k x).mem = s.mem := rfl
@[simp] theorem State.setRegion_regions (k : RegionId) (x : Region) : (s.setRegion k x).regions = s.regions.set k x := rfl
@[simp] theorem State.setRegion_cache (k : RegionId) (x : Region) : (s.setRegion k x).cache = s.cache := rfl
@[simp] theorem State.setRegion_links (k : RegionId) (x : Region) : (s.setRegion k x).links = s.links := rfl
@[simp] theorem State.setRegion_merge (k : RegionId) (x : Region) : (s.setRegion k x).merge = s.merge := rfl
@[simp] theorem State.setRegion_suspects (k : RegionId) (x : Region) : (s.setRegion k x).suspects = s.suspects := rfl
@[simp] theorem State.setRegion_defects (k : RegionId) (x : Region) : (s.setRegion k x).defects = s.defects := rfl
@[simp] theorem State.setRegion_arbiter (k : RegionId) (x : Region) : (s.setRegion k x).arbiter = s.arbiter := rfl
@[simp] theorem State.setRegion_channels (k : RegionId) (x : Region) : (s.setRegion k x).channels = s.channels := rfl
@[simp] theorem State.setRegion_watches (k : RegionId) (x : Region) : (s.setRegion k x).watches = s.watches := rfl
@[simp] theorem State.setRegion_summaryReady (k : RegionId) (x : Region) : (s.setRegion k x).summaryReady = s.summaryReady := rfl
@[simp] theorem State.setRegion_faults (k : RegionId) (x : Region) : (s.setRegion k x).faults = s.faults := rfl
@[simp] theorem State.setRegion_alerts (k : RegionId) (x : Region) : (s.setRegion k x).alerts = s.alerts := rfl
@[simp] theorem State.setRegion_ports (k : RegionId) (x : Region) : (s.setRegion k x).ports = s.ports := rfl
@[simp] theorem State.setRegion_mail (k : RegionId) (x : Region) : (s.setRegion k x).mail = s.mail := rfl
@[simp] theorem State.setRegion_draws (k : RegionId) (x : Region) : (s.setRegion k x).draws = s.draws := rfl
@[simp] theorem State.setRegion_pending (k : RegionId) (x : Region) : (s.setRegion k x).pending = s.pending := rfl

@[simp] theorem State.setLine_slots (i : LineId) (x : CacheLine) : (s.setLine i x).slots = s.slots := rfl
@[simp] theorem State.setLine_tagCounter (i : LineId) (x : CacheLine) : (s.setLine i x).tagCounter = s.tagCounter := rfl
@[simp] theorem State.setLine_lanes (i : LineId) (x : CacheLine) : (s.setLine i x).lanes = s.lanes := rfl
@[simp] theorem State.setLine_directory (i : LineId) (x : CacheLine) : (s.setLine i x).directory = s.directory := rfl
@[simp] theorem State.setLine_mem (i : LineId) (x : CacheLine) : (s.setLine i x).mem = s.mem := rfl
@[simp] theorem State.setLine_regions (i : LineId) (x : CacheLine) : (s.setLine i x).regions = s.regions := rfl
@[simp] theorem State.setLine_cache (i : LineId) (x : CacheLine) : (s.setLine i x).cache = { s.cache with lines := s.cache.lines.set i x } := rfl
@[simp] theorem State.setLine_links (i : LineId) (x : CacheLine) : (s.setLine i x).links = s.links := rfl
@[simp] theorem State.setLine_merge (i : LineId) (x : CacheLine) : (s.setLine i x).merge = s.merge := rfl
@[simp] theorem State.setLine_suspects (i : LineId) (x : CacheLine) : (s.setLine i x).suspects = s.suspects := rfl
@[simp] theorem State.setLine_defects (i : LineId) (x : CacheLine) : (s.setLine i x).defects = s.defects := rfl
@[simp] theorem State.setLine_arbiter (i : LineId) (x : CacheLine) : (s.setLine i x).arbiter = s.arbiter := rfl
@[simp] theorem State.setLine_channels (i : LineId) (x : CacheLine) : (s.setLine i x).channels = s.channels := rfl
@[simp] theorem State.setLine_watches (i : LineId) (x : CacheLine) : (s.setLine i x).watches = s.watches := rfl
@[simp] theorem State.setLine_summaryReady (i : LineId) (x : CacheLine) : (s.setLine i x).summaryReady = s.summaryReady := rfl
@[simp] theorem State.setLine_faults (i : LineId) (x : CacheLine) : (s.setLine i x).faults = s.faults := rfl
@[simp] theorem State.setLine_alerts (i : LineId) (x : CacheLine) : (s.setLine i x).alerts = s.alerts := rfl
@[simp] theorem State.setLine_ports (i : LineId) (x : CacheLine) : (s.setLine i x).ports = s.ports := rfl
@[simp] theorem State.setLine_mail (i : LineId) (x : CacheLine) : (s.setLine i x).mail = s.mail := rfl
@[simp] theorem State.setLine_draws (i : LineId) (x : CacheLine) : (s.setLine i x).draws = s.draws := rfl
@[simp] theorem State.setLine_pending (i : LineId) (x : CacheLine) : (s.setLine i x).pending = s.pending := rfl

@[simp] theorem State.setRawLink_slots (n : HeadId) (x : Link) : (s.setRawLink n x).slots = s.slots := rfl
@[simp] theorem State.setRawLink_tagCounter (n : HeadId) (x : Link) : (s.setRawLink n x).tagCounter = s.tagCounter := rfl
@[simp] theorem State.setRawLink_lanes (n : HeadId) (x : Link) : (s.setRawLink n x).lanes = s.lanes := rfl
@[simp] theorem State.setRawLink_directory (n : HeadId) (x : Link) : (s.setRawLink n x).directory = s.directory := rfl
@[simp] theorem State.setRawLink_mem (n : HeadId) (x : Link) : (s.setRawLink n x).mem = s.mem := rfl
@[simp] theorem State.setRawLink_regions (n : HeadId) (x : Link) : (s.setRawLink n x).regions = s.regions := rfl
@[simp] theorem State.setRawLink_cache (n : HeadId) (x : Link) : (s.setRawLink n x).cache = s.cache := rfl
@[simp] theorem State.setRawLink_links (n : HeadId) (x : Link) : (s.setRawLink n x).links = s.links.set n x := rfl
@[simp] theorem State.setRawLink_merge (n : HeadId) (x : Link) : (s.setRawLink n x).merge = s.merge := rfl
@[simp] theorem State.setRawLink_suspects (n : HeadId) (x : Link) : (s.setRawLink n x).suspects = s.suspects := rfl
@[simp] theorem State.setRawLink_defects (n : HeadId) (x : Link) : (s.setRawLink n x).defects = s.defects := rfl
@[simp] theorem State.setRawLink_arbiter (n : HeadId) (x : Link) : (s.setRawLink n x).arbiter = s.arbiter := rfl
@[simp] theorem State.setRawLink_channels (n : HeadId) (x : Link) : (s.setRawLink n x).channels = s.channels := rfl
@[simp] theorem State.setRawLink_watches (n : HeadId) (x : Link) : (s.setRawLink n x).watches = s.watches := rfl
@[simp] theorem State.setRawLink_summaryReady (n : HeadId) (x : Link) : (s.setRawLink n x).summaryReady = s.summaryReady := rfl
@[simp] theorem State.setRawLink_faults (n : HeadId) (x : Link) : (s.setRawLink n x).faults = s.faults := rfl
@[simp] theorem State.setRawLink_alerts (n : HeadId) (x : Link) : (s.setRawLink n x).alerts = s.alerts := rfl
@[simp] theorem State.setRawLink_ports (n : HeadId) (x : Link) : (s.setRawLink n x).ports = s.ports := rfl
@[simp] theorem State.setRawLink_mail (n : HeadId) (x : Link) : (s.setRawLink n x).mail = s.mail := rfl
@[simp] theorem State.setRawLink_draws (n : HeadId) (x : Link) : (s.setRawLink n x).draws = s.draws := rfl
@[simp] theorem State.setRawLink_pending (n : HeadId) (x : Link) : (s.setRawLink n x).pending = s.pending := rfl

@[simp] theorem State.setChannel_slots (c : Channel) (x : ChannelReg) : (s.setChannel c x).slots = s.slots := rfl
@[simp] theorem State.setChannel_tagCounter (c : Channel) (x : ChannelReg) : (s.setChannel c x).tagCounter = s.tagCounter := rfl
@[simp] theorem State.setChannel_lanes (c : Channel) (x : ChannelReg) : (s.setChannel c x).lanes = s.lanes := rfl
@[simp] theorem State.setChannel_directory (c : Channel) (x : ChannelReg) : (s.setChannel c x).directory = s.directory := rfl
@[simp] theorem State.setChannel_mem (c : Channel) (x : ChannelReg) : (s.setChannel c x).mem = s.mem := rfl
@[simp] theorem State.setChannel_regions (c : Channel) (x : ChannelReg) : (s.setChannel c x).regions = s.regions := rfl
@[simp] theorem State.setChannel_cache (c : Channel) (x : ChannelReg) : (s.setChannel c x).cache = s.cache := rfl
@[simp] theorem State.setChannel_links (c : Channel) (x : ChannelReg) : (s.setChannel c x).links = s.links := rfl
@[simp] theorem State.setChannel_merge (c : Channel) (x : ChannelReg) : (s.setChannel c x).merge = s.merge := rfl
@[simp] theorem State.setChannel_suspects (c : Channel) (x : ChannelReg) : (s.setChannel c x).suspects = s.suspects := rfl
@[simp] theorem State.setChannel_defects (c : Channel) (x : ChannelReg) : (s.setChannel c x).defects = s.defects := rfl
@[simp] theorem State.setChannel_arbiter (c : Channel) (x : ChannelReg) : (s.setChannel c x).arbiter = s.arbiter := rfl
@[simp] theorem State.setChannel_channels (c : Channel) (x : ChannelReg) : (s.setChannel c x).channels = s.channels.set c x := rfl
@[simp] theorem State.setChannel_watches (c : Channel) (x : ChannelReg) : (s.setChannel c x).watches = s.watches := rfl
@[simp] theorem State.setChannel_summaryReady (c : Channel) (x : ChannelReg) : (s.setChannel c x).summaryReady = s.summaryReady := rfl
@[simp] theorem State.setChannel_faults (c : Channel) (x : ChannelReg) : (s.setChannel c x).faults = s.faults := rfl
@[simp] theorem State.setChannel_alerts (c : Channel) (x : ChannelReg) : (s.setChannel c x).alerts = s.alerts := rfl
@[simp] theorem State.setChannel_ports (c : Channel) (x : ChannelReg) : (s.setChannel c x).ports = s.ports := rfl
@[simp] theorem State.setChannel_mail (c : Channel) (x : ChannelReg) : (s.setChannel c x).mail = s.mail := rfl
@[simp] theorem State.setChannel_draws (c : Channel) (x : ChannelReg) : (s.setChannel c x).draws = s.draws := rfl
@[simp] theorem State.setChannel_pending (c : Channel) (x : ChannelReg) : (s.setChannel c x).pending = s.pending := rfl

@[simp] theorem State.setWatch_slots (w : WatchId) (x : Watch) : (s.setWatch w x).slots = s.slots := rfl
@[simp] theorem State.setWatch_tagCounter (w : WatchId) (x : Watch) : (s.setWatch w x).tagCounter = s.tagCounter := rfl
@[simp] theorem State.setWatch_lanes (w : WatchId) (x : Watch) : (s.setWatch w x).lanes = s.lanes := rfl
@[simp] theorem State.setWatch_directory (w : WatchId) (x : Watch) : (s.setWatch w x).directory = s.directory := rfl
@[simp] theorem State.setWatch_mem (w : WatchId) (x : Watch) : (s.setWatch w x).mem = s.mem := rfl
@[simp] theorem State.setWatch_regions (w : WatchId) (x : Watch) : (s.setWatch w x).regions = s.regions := rfl
@[simp] theorem State.setWatch_cache (w : WatchId) (x : Watch) : (s.setWatch w x).cache = s.cache := rfl
@[simp] theorem State.setWatch_links (w : WatchId) (x : Watch) : (s.setWatch w x).links = s.links := rfl
@[simp] theorem State.setWatch_merge (w : WatchId) (x : Watch) : (s.setWatch w x).merge = s.merge := rfl
@[simp] theorem State.setWatch_suspects (w : WatchId) (x : Watch) : (s.setWatch w x).suspects = s.suspects := rfl
@[simp] theorem State.setWatch_defects (w : WatchId) (x : Watch) : (s.setWatch w x).defects = s.defects := rfl
@[simp] theorem State.setWatch_arbiter (w : WatchId) (x : Watch) : (s.setWatch w x).arbiter = s.arbiter := rfl
@[simp] theorem State.setWatch_channels (w : WatchId) (x : Watch) : (s.setWatch w x).channels = s.channels := rfl
@[simp] theorem State.setWatch_watches (w : WatchId) (x : Watch) : (s.setWatch w x).watches = s.watches.set w x := rfl
@[simp] theorem State.setWatch_summaryReady (w : WatchId) (x : Watch) : (s.setWatch w x).summaryReady = s.summaryReady := rfl
@[simp] theorem State.setWatch_faults (w : WatchId) (x : Watch) : (s.setWatch w x).faults = s.faults := rfl
@[simp] theorem State.setWatch_alerts (w : WatchId) (x : Watch) : (s.setWatch w x).alerts = s.alerts := rfl
@[simp] theorem State.setWatch_ports (w : WatchId) (x : Watch) : (s.setWatch w x).ports = s.ports := rfl
@[simp] theorem State.setWatch_mail (w : WatchId) (x : Watch) : (s.setWatch w x).mail = s.mail := rfl
@[simp] theorem State.setWatch_draws (w : WatchId) (x : Watch) : (s.setWatch w x).draws = s.draws := rfl
@[simp] theorem State.setWatch_pending (w : WatchId) (x : Watch) : (s.setWatch w x).pending = s.pending := rfl

@[simp] theorem State.setAlert_slots (p : Port) (x : AlertState) : (s.setAlert p x).slots = s.slots := rfl
@[simp] theorem State.setAlert_tagCounter (p : Port) (x : AlertState) : (s.setAlert p x).tagCounter = s.tagCounter := rfl
@[simp] theorem State.setAlert_lanes (p : Port) (x : AlertState) : (s.setAlert p x).lanes = s.lanes := rfl
@[simp] theorem State.setAlert_directory (p : Port) (x : AlertState) : (s.setAlert p x).directory = s.directory := rfl
@[simp] theorem State.setAlert_mem (p : Port) (x : AlertState) : (s.setAlert p x).mem = s.mem := rfl
@[simp] theorem State.setAlert_regions (p : Port) (x : AlertState) : (s.setAlert p x).regions = s.regions := rfl
@[simp] theorem State.setAlert_cache (p : Port) (x : AlertState) : (s.setAlert p x).cache = s.cache := rfl
@[simp] theorem State.setAlert_links (p : Port) (x : AlertState) : (s.setAlert p x).links = s.links := rfl
@[simp] theorem State.setAlert_merge (p : Port) (x : AlertState) : (s.setAlert p x).merge = s.merge := rfl
@[simp] theorem State.setAlert_suspects (p : Port) (x : AlertState) : (s.setAlert p x).suspects = s.suspects := rfl
@[simp] theorem State.setAlert_defects (p : Port) (x : AlertState) : (s.setAlert p x).defects = s.defects := rfl
@[simp] theorem State.setAlert_arbiter (p : Port) (x : AlertState) : (s.setAlert p x).arbiter = s.arbiter := rfl
@[simp] theorem State.setAlert_channels (p : Port) (x : AlertState) : (s.setAlert p x).channels = s.channels := rfl
@[simp] theorem State.setAlert_watches (p : Port) (x : AlertState) : (s.setAlert p x).watches = s.watches := rfl
@[simp] theorem State.setAlert_summaryReady (p : Port) (x : AlertState) : (s.setAlert p x).summaryReady = s.summaryReady := rfl
@[simp] theorem State.setAlert_faults (p : Port) (x : AlertState) : (s.setAlert p x).faults = s.faults := rfl
@[simp] theorem State.setAlert_alerts (p : Port) (x : AlertState) : (s.setAlert p x).alerts = s.alerts.set p x := rfl
@[simp] theorem State.setAlert_ports (p : Port) (x : AlertState) : (s.setAlert p x).ports = s.ports := rfl
@[simp] theorem State.setAlert_mail (p : Port) (x : AlertState) : (s.setAlert p x).mail = s.mail := rfl
@[simp] theorem State.setAlert_draws (p : Port) (x : AlertState) : (s.setAlert p x).draws = s.draws := rfl
@[simp] theorem State.setAlert_pending (p : Port) (x : AlertState) : (s.setAlert p x).pending = s.pending := rfl

@[simp] theorem State.setPort_slots (p : Port) (x : PortState) : (s.setPort p x).slots = s.slots := rfl
@[simp] theorem State.setPort_tagCounter (p : Port) (x : PortState) : (s.setPort p x).tagCounter = s.tagCounter := rfl
@[simp] theorem State.setPort_lanes (p : Port) (x : PortState) : (s.setPort p x).lanes = s.lanes := rfl
@[simp] theorem State.setPort_directory (p : Port) (x : PortState) : (s.setPort p x).directory = s.directory := rfl
@[simp] theorem State.setPort_mem (p : Port) (x : PortState) : (s.setPort p x).mem = s.mem := rfl
@[simp] theorem State.setPort_regions (p : Port) (x : PortState) : (s.setPort p x).regions = s.regions := rfl
@[simp] theorem State.setPort_cache (p : Port) (x : PortState) : (s.setPort p x).cache = s.cache := rfl
@[simp] theorem State.setPort_links (p : Port) (x : PortState) : (s.setPort p x).links = s.links := rfl
@[simp] theorem State.setPort_merge (p : Port) (x : PortState) : (s.setPort p x).merge = s.merge := rfl
@[simp] theorem State.setPort_suspects (p : Port) (x : PortState) : (s.setPort p x).suspects = s.suspects := rfl
@[simp] theorem State.setPort_defects (p : Port) (x : PortState) : (s.setPort p x).defects = s.defects := rfl
@[simp] theorem State.setPort_arbiter (p : Port) (x : PortState) : (s.setPort p x).arbiter = s.arbiter := rfl
@[simp] theorem State.setPort_channels (p : Port) (x : PortState) : (s.setPort p x).channels = s.channels := rfl
@[simp] theorem State.setPort_watches (p : Port) (x : PortState) : (s.setPort p x).watches = s.watches := rfl
@[simp] theorem State.setPort_summaryReady (p : Port) (x : PortState) : (s.setPort p x).summaryReady = s.summaryReady := rfl
@[simp] theorem State.setPort_faults (p : Port) (x : PortState) : (s.setPort p x).faults = s.faults := rfl
@[simp] theorem State.setPort_alerts (p : Port) (x : PortState) : (s.setPort p x).alerts = s.alerts := rfl
@[simp] theorem State.setPort_ports (p : Port) (x : PortState) : (s.setPort p x).ports = s.ports.set p x := rfl
@[simp] theorem State.setPort_mail (p : Port) (x : PortState) : (s.setPort p x).mail = s.mail := rfl
@[simp] theorem State.setPort_draws (p : Port) (x : PortState) : (s.setPort p x).draws = s.draws := rfl
@[simp] theorem State.setPort_pending (p : Port) (x : PortState) : (s.setPort p x).pending = s.pending := rfl

@[simp] theorem State.setMail_slots (o : Outer) (x : MailPair) : (s.setMail o x).slots = s.slots := rfl
@[simp] theorem State.setMail_tagCounter (o : Outer) (x : MailPair) : (s.setMail o x).tagCounter = s.tagCounter := rfl
@[simp] theorem State.setMail_lanes (o : Outer) (x : MailPair) : (s.setMail o x).lanes = s.lanes := rfl
@[simp] theorem State.setMail_directory (o : Outer) (x : MailPair) : (s.setMail o x).directory = s.directory := rfl
@[simp] theorem State.setMail_mem (o : Outer) (x : MailPair) : (s.setMail o x).mem = s.mem := rfl
@[simp] theorem State.setMail_regions (o : Outer) (x : MailPair) : (s.setMail o x).regions = s.regions := rfl
@[simp] theorem State.setMail_cache (o : Outer) (x : MailPair) : (s.setMail o x).cache = s.cache := rfl
@[simp] theorem State.setMail_links (o : Outer) (x : MailPair) : (s.setMail o x).links = s.links := rfl
@[simp] theorem State.setMail_merge (o : Outer) (x : MailPair) : (s.setMail o x).merge = s.merge := rfl
@[simp] theorem State.setMail_suspects (o : Outer) (x : MailPair) : (s.setMail o x).suspects = s.suspects := rfl
@[simp] theorem State.setMail_defects (o : Outer) (x : MailPair) : (s.setMail o x).defects = s.defects := rfl
@[simp] theorem State.setMail_arbiter (o : Outer) (x : MailPair) : (s.setMail o x).arbiter = s.arbiter := rfl
@[simp] theorem State.setMail_channels (o : Outer) (x : MailPair) : (s.setMail o x).channels = s.channels := rfl
@[simp] theorem State.setMail_watches (o : Outer) (x : MailPair) : (s.setMail o x).watches = s.watches := rfl
@[simp] theorem State.setMail_summaryReady (o : Outer) (x : MailPair) : (s.setMail o x).summaryReady = s.summaryReady := rfl
@[simp] theorem State.setMail_faults (o : Outer) (x : MailPair) : (s.setMail o x).faults = s.faults := rfl
@[simp] theorem State.setMail_alerts (o : Outer) (x : MailPair) : (s.setMail o x).alerts = s.alerts := rfl
@[simp] theorem State.setMail_ports (o : Outer) (x : MailPair) : (s.setMail o x).ports = s.ports := rfl
@[simp] theorem State.setMail_mail (o : Outer) (x : MailPair) : (s.setMail o x).mail = s.mail.set o x := rfl
@[simp] theorem State.setMail_draws (o : Outer) (x : MailPair) : (s.setMail o x).draws = s.draws := rfl
@[simp] theorem State.setMail_pending (o : Outer) (x : MailPair) : (s.setMail o x).pending = s.pending := rfl

@[simp] theorem State.drawn_slots : (s.drawn).slots = s.slots := rfl
@[simp] theorem State.drawn_tagCounter : (s.drawn).tagCounter = s.tagCounter := rfl
@[simp] theorem State.drawn_lanes : (s.drawn).lanes = s.lanes := rfl
@[simp] theorem State.drawn_directory : (s.drawn).directory = s.directory := rfl
@[simp] theorem State.drawn_mem : (s.drawn).mem = s.mem := rfl
@[simp] theorem State.drawn_regions : (s.drawn).regions = s.regions := rfl
@[simp] theorem State.drawn_cache : (s.drawn).cache = s.cache := rfl
@[simp] theorem State.drawn_links : (s.drawn).links = s.links := rfl
@[simp] theorem State.drawn_merge : (s.drawn).merge = s.merge := rfl
@[simp] theorem State.drawn_suspects : (s.drawn).suspects = s.suspects := rfl
@[simp] theorem State.drawn_defects : (s.drawn).defects = s.defects := rfl
@[simp] theorem State.drawn_arbiter : (s.drawn).arbiter = s.arbiter := rfl
@[simp] theorem State.drawn_channels : (s.drawn).channels = s.channels := rfl
@[simp] theorem State.drawn_watches : (s.drawn).watches = s.watches := rfl
@[simp] theorem State.drawn_summaryReady : (s.drawn).summaryReady = s.summaryReady := rfl
@[simp] theorem State.drawn_faults : (s.drawn).faults = s.faults := rfl
@[simp] theorem State.drawn_alerts : (s.drawn).alerts = s.alerts := rfl
@[simp] theorem State.drawn_ports : (s.drawn).ports = s.ports := rfl
@[simp] theorem State.drawn_mail : (s.drawn).mail = s.mail := rfl
@[simp] theorem State.drawn_draws : (s.drawn).draws = s.draws + 1 := rfl
@[simp] theorem State.drawn_pending : (s.drawn).pending = s.pending := rfl

/-! ### Readers after an update of another part -/

@[simp] theorem State.setBoard_lane (i : Slot) (r : Option Record) (l' : Lane) :
    (s.setBoard i r).lane l' = s.lane l' := rfl
@[simp] theorem State.setBoard_dir (i : Slot) (r : Option Record) (k' : RecipeId) :
    (s.setBoard i r).dir k' = s.dir k' := rfl
@[simp] theorem State.setBoard_link (i : Slot) (r : Option Record) (n' : HeadId) :
    (s.setBoard i r).link n' = s.link n' := rfl
@[simp] theorem State.setBoard_channel (i : Slot) (r : Option Record) (c' : Channel) :
    (s.setBoard i r).channel c' = s.channel c' := rfl
@[simp] theorem State.setBoard_watch (i : Slot) (r : Option Record) (w' : WatchId) :
    (s.setBoard i r).watch w' = s.watch w' := rfl
@[simp] theorem State.setBoard_alert (i : Slot) (r : Option Record) (p' : Port) :
    (s.setBoard i r).alert p' = s.alert p' := rfl
@[simp] theorem State.setBoard_port (i : Slot) (r : Option Record) (p' : Port) :
    (s.setBoard i r).port p' = s.port p' := rfl
@[simp] theorem State.setBoard_mailPair (i : Slot) (r : Option Record) (o' : Outer) :
    (s.setBoard i r).mailPair o' = s.mailPair o' := rfl
@[simp] theorem State.setBoard_line (i : Slot) (r : Option Record) (i' : LineId) :
    (s.setBoard i r).line i' = s.line i' := rfl

@[simp] theorem State.setLane_board (l : Lane) (x : LaneState) (i' : Slot) :
    (s.setLane l x).board i' = s.board i' := rfl
@[simp] theorem State.setLane_dir (l : Lane) (x : LaneState) (k' : RecipeId) :
    (s.setLane l x).dir k' = s.dir k' := rfl
@[simp] theorem State.setLane_link (l : Lane) (x : LaneState) (n' : HeadId) :
    (s.setLane l x).link n' = s.link n' := rfl
@[simp] theorem State.setLane_channel (l : Lane) (x : LaneState) (c' : Channel) :
    (s.setLane l x).channel c' = s.channel c' := rfl
@[simp] theorem State.setLane_watch (l : Lane) (x : LaneState) (w' : WatchId) :
    (s.setLane l x).watch w' = s.watch w' := rfl
@[simp] theorem State.setLane_alert (l : Lane) (x : LaneState) (p' : Port) :
    (s.setLane l x).alert p' = s.alert p' := rfl
@[simp] theorem State.setLane_port (l : Lane) (x : LaneState) (p' : Port) :
    (s.setLane l x).port p' = s.port p' := rfl
@[simp] theorem State.setLane_mailPair (l : Lane) (x : LaneState) (o' : Outer) :
    (s.setLane l x).mailPair o' = s.mailPair o' := rfl
@[simp] theorem State.setLane_line (l : Lane) (x : LaneState) (i' : LineId) :
    (s.setLane l x).line i' = s.line i' := rfl

@[simp] theorem State.setDir_board (k : RecipeId) (x : DirState) (i' : Slot) :
    (s.setDir k x).board i' = s.board i' := rfl
@[simp] theorem State.setDir_lane (k : RecipeId) (x : DirState) (l' : Lane) :
    (s.setDir k x).lane l' = s.lane l' := rfl
@[simp] theorem State.setDir_link (k : RecipeId) (x : DirState) (n' : HeadId) :
    (s.setDir k x).link n' = s.link n' := rfl
@[simp] theorem State.setDir_channel (k : RecipeId) (x : DirState) (c' : Channel) :
    (s.setDir k x).channel c' = s.channel c' := rfl
@[simp] theorem State.setDir_watch (k : RecipeId) (x : DirState) (w' : WatchId) :
    (s.setDir k x).watch w' = s.watch w' := rfl
@[simp] theorem State.setDir_alert (k : RecipeId) (x : DirState) (p' : Port) :
    (s.setDir k x).alert p' = s.alert p' := rfl
@[simp] theorem State.setDir_port (k : RecipeId) (x : DirState) (p' : Port) :
    (s.setDir k x).port p' = s.port p' := rfl
@[simp] theorem State.setDir_mailPair (k : RecipeId) (x : DirState) (o' : Outer) :
    (s.setDir k x).mailPair o' = s.mailPair o' := rfl
@[simp] theorem State.setDir_line (k : RecipeId) (x : DirState) (i' : LineId) :
    (s.setDir k x).line i' = s.line i' := rfl

@[simp] theorem State.setRegion_board (k : RegionId) (x : Region) (i' : Slot) :
    (s.setRegion k x).board i' = s.board i' := rfl
@[simp] theorem State.setRegion_lane (k : RegionId) (x : Region) (l' : Lane) :
    (s.setRegion k x).lane l' = s.lane l' := rfl
@[simp] theorem State.setRegion_dir (k : RegionId) (x : Region) (k' : RecipeId) :
    (s.setRegion k x).dir k' = s.dir k' := rfl
@[simp] theorem State.setRegion_link (k : RegionId) (x : Region) (n' : HeadId) :
    (s.setRegion k x).link n' = s.link n' := rfl
@[simp] theorem State.setRegion_channel (k : RegionId) (x : Region) (c' : Channel) :
    (s.setRegion k x).channel c' = s.channel c' := rfl
@[simp] theorem State.setRegion_watch (k : RegionId) (x : Region) (w' : WatchId) :
    (s.setRegion k x).watch w' = s.watch w' := rfl
@[simp] theorem State.setRegion_alert (k : RegionId) (x : Region) (p' : Port) :
    (s.setRegion k x).alert p' = s.alert p' := rfl
@[simp] theorem State.setRegion_port (k : RegionId) (x : Region) (p' : Port) :
    (s.setRegion k x).port p' = s.port p' := rfl
@[simp] theorem State.setRegion_mailPair (k : RegionId) (x : Region) (o' : Outer) :
    (s.setRegion k x).mailPair o' = s.mailPair o' := rfl
@[simp] theorem State.setRegion_line (k : RegionId) (x : Region) (i' : LineId) :
    (s.setRegion k x).line i' = s.line i' := rfl

@[simp] theorem State.setLine_board (i : LineId) (x : CacheLine) (i' : Slot) :
    (s.setLine i x).board i' = s.board i' := rfl
@[simp] theorem State.setLine_lane (i : LineId) (x : CacheLine) (l' : Lane) :
    (s.setLine i x).lane l' = s.lane l' := rfl
@[simp] theorem State.setLine_dir (i : LineId) (x : CacheLine) (k' : RecipeId) :
    (s.setLine i x).dir k' = s.dir k' := rfl
@[simp] theorem State.setLine_link (i : LineId) (x : CacheLine) (n' : HeadId) :
    (s.setLine i x).link n' = s.link n' := rfl
@[simp] theorem State.setLine_channel (i : LineId) (x : CacheLine) (c' : Channel) :
    (s.setLine i x).channel c' = s.channel c' := rfl
@[simp] theorem State.setLine_watch (i : LineId) (x : CacheLine) (w' : WatchId) :
    (s.setLine i x).watch w' = s.watch w' := rfl
@[simp] theorem State.setLine_alert (i : LineId) (x : CacheLine) (p' : Port) :
    (s.setLine i x).alert p' = s.alert p' := rfl
@[simp] theorem State.setLine_port (i : LineId) (x : CacheLine) (p' : Port) :
    (s.setLine i x).port p' = s.port p' := rfl
@[simp] theorem State.setLine_mailPair (i : LineId) (x : CacheLine) (o' : Outer) :
    (s.setLine i x).mailPair o' = s.mailPair o' := rfl

@[simp] theorem State.setRawLink_board (n : HeadId) (x : Link) (i' : Slot) :
    (s.setRawLink n x).board i' = s.board i' := rfl
@[simp] theorem State.setRawLink_lane (n : HeadId) (x : Link) (l' : Lane) :
    (s.setRawLink n x).lane l' = s.lane l' := rfl
@[simp] theorem State.setRawLink_dir (n : HeadId) (x : Link) (k' : RecipeId) :
    (s.setRawLink n x).dir k' = s.dir k' := rfl
@[simp] theorem State.setRawLink_channel (n : HeadId) (x : Link) (c' : Channel) :
    (s.setRawLink n x).channel c' = s.channel c' := rfl
@[simp] theorem State.setRawLink_watch (n : HeadId) (x : Link) (w' : WatchId) :
    (s.setRawLink n x).watch w' = s.watch w' := rfl
@[simp] theorem State.setRawLink_alert (n : HeadId) (x : Link) (p' : Port) :
    (s.setRawLink n x).alert p' = s.alert p' := rfl
@[simp] theorem State.setRawLink_port (n : HeadId) (x : Link) (p' : Port) :
    (s.setRawLink n x).port p' = s.port p' := rfl
@[simp] theorem State.setRawLink_mailPair (n : HeadId) (x : Link) (o' : Outer) :
    (s.setRawLink n x).mailPair o' = s.mailPair o' := rfl
@[simp] theorem State.setRawLink_line (n : HeadId) (x : Link) (i' : LineId) :
    (s.setRawLink n x).line i' = s.line i' := rfl

@[simp] theorem State.setChannel_board (c : Channel) (x : ChannelReg) (i' : Slot) :
    (s.setChannel c x).board i' = s.board i' := rfl
@[simp] theorem State.setChannel_lane (c : Channel) (x : ChannelReg) (l' : Lane) :
    (s.setChannel c x).lane l' = s.lane l' := rfl
@[simp] theorem State.setChannel_dir (c : Channel) (x : ChannelReg) (k' : RecipeId) :
    (s.setChannel c x).dir k' = s.dir k' := rfl
@[simp] theorem State.setChannel_link (c : Channel) (x : ChannelReg) (n' : HeadId) :
    (s.setChannel c x).link n' = s.link n' := rfl
@[simp] theorem State.setChannel_watch (c : Channel) (x : ChannelReg) (w' : WatchId) :
    (s.setChannel c x).watch w' = s.watch w' := rfl
@[simp] theorem State.setChannel_alert (c : Channel) (x : ChannelReg) (p' : Port) :
    (s.setChannel c x).alert p' = s.alert p' := rfl
@[simp] theorem State.setChannel_port (c : Channel) (x : ChannelReg) (p' : Port) :
    (s.setChannel c x).port p' = s.port p' := rfl
@[simp] theorem State.setChannel_mailPair (c : Channel) (x : ChannelReg) (o' : Outer) :
    (s.setChannel c x).mailPair o' = s.mailPair o' := rfl
@[simp] theorem State.setChannel_line (c : Channel) (x : ChannelReg) (i' : LineId) :
    (s.setChannel c x).line i' = s.line i' := rfl

@[simp] theorem State.setWatch_board (w : WatchId) (x : Watch) (i' : Slot) :
    (s.setWatch w x).board i' = s.board i' := rfl
@[simp] theorem State.setWatch_lane (w : WatchId) (x : Watch) (l' : Lane) :
    (s.setWatch w x).lane l' = s.lane l' := rfl
@[simp] theorem State.setWatch_dir (w : WatchId) (x : Watch) (k' : RecipeId) :
    (s.setWatch w x).dir k' = s.dir k' := rfl
@[simp] theorem State.setWatch_link (w : WatchId) (x : Watch) (n' : HeadId) :
    (s.setWatch w x).link n' = s.link n' := rfl
@[simp] theorem State.setWatch_channel (w : WatchId) (x : Watch) (c' : Channel) :
    (s.setWatch w x).channel c' = s.channel c' := rfl
@[simp] theorem State.setWatch_alert (w : WatchId) (x : Watch) (p' : Port) :
    (s.setWatch w x).alert p' = s.alert p' := rfl
@[simp] theorem State.setWatch_port (w : WatchId) (x : Watch) (p' : Port) :
    (s.setWatch w x).port p' = s.port p' := rfl
@[simp] theorem State.setWatch_mailPair (w : WatchId) (x : Watch) (o' : Outer) :
    (s.setWatch w x).mailPair o' = s.mailPair o' := rfl
@[simp] theorem State.setWatch_line (w : WatchId) (x : Watch) (i' : LineId) :
    (s.setWatch w x).line i' = s.line i' := rfl

@[simp] theorem State.setAlert_board (p : Port) (x : AlertState) (i' : Slot) :
    (s.setAlert p x).board i' = s.board i' := rfl
@[simp] theorem State.setAlert_lane (p : Port) (x : AlertState) (l' : Lane) :
    (s.setAlert p x).lane l' = s.lane l' := rfl
@[simp] theorem State.setAlert_dir (p : Port) (x : AlertState) (k' : RecipeId) :
    (s.setAlert p x).dir k' = s.dir k' := rfl
@[simp] theorem State.setAlert_link (p : Port) (x : AlertState) (n' : HeadId) :
    (s.setAlert p x).link n' = s.link n' := rfl
@[simp] theorem State.setAlert_channel (p : Port) (x : AlertState) (c' : Channel) :
    (s.setAlert p x).channel c' = s.channel c' := rfl
@[simp] theorem State.setAlert_watch (p : Port) (x : AlertState) (w' : WatchId) :
    (s.setAlert p x).watch w' = s.watch w' := rfl
@[simp] theorem State.setAlert_port (p : Port) (x : AlertState) (p' : Port) :
    (s.setAlert p x).port p' = s.port p' := rfl
@[simp] theorem State.setAlert_mailPair (p : Port) (x : AlertState) (o' : Outer) :
    (s.setAlert p x).mailPair o' = s.mailPair o' := rfl
@[simp] theorem State.setAlert_line (p : Port) (x : AlertState) (i' : LineId) :
    (s.setAlert p x).line i' = s.line i' := rfl

@[simp] theorem State.setPort_board (p : Port) (x : PortState) (i' : Slot) :
    (s.setPort p x).board i' = s.board i' := rfl
@[simp] theorem State.setPort_lane (p : Port) (x : PortState) (l' : Lane) :
    (s.setPort p x).lane l' = s.lane l' := rfl
@[simp] theorem State.setPort_dir (p : Port) (x : PortState) (k' : RecipeId) :
    (s.setPort p x).dir k' = s.dir k' := rfl
@[simp] theorem State.setPort_link (p : Port) (x : PortState) (n' : HeadId) :
    (s.setPort p x).link n' = s.link n' := rfl
@[simp] theorem State.setPort_channel (p : Port) (x : PortState) (c' : Channel) :
    (s.setPort p x).channel c' = s.channel c' := rfl
@[simp] theorem State.setPort_watch (p : Port) (x : PortState) (w' : WatchId) :
    (s.setPort p x).watch w' = s.watch w' := rfl
@[simp] theorem State.setPort_alert (p : Port) (x : PortState) (p' : Port) :
    (s.setPort p x).alert p' = s.alert p' := rfl
@[simp] theorem State.setPort_mailPair (p : Port) (x : PortState) (o' : Outer) :
    (s.setPort p x).mailPair o' = s.mailPair o' := rfl
@[simp] theorem State.setPort_line (p : Port) (x : PortState) (i' : LineId) :
    (s.setPort p x).line i' = s.line i' := rfl

@[simp] theorem State.setMail_board (o : Outer) (x : MailPair) (i' : Slot) :
    (s.setMail o x).board i' = s.board i' := rfl
@[simp] theorem State.setMail_lane (o : Outer) (x : MailPair) (l' : Lane) :
    (s.setMail o x).lane l' = s.lane l' := rfl
@[simp] theorem State.setMail_dir (o : Outer) (x : MailPair) (k' : RecipeId) :
    (s.setMail o x).dir k' = s.dir k' := rfl
@[simp] theorem State.setMail_link (o : Outer) (x : MailPair) (n' : HeadId) :
    (s.setMail o x).link n' = s.link n' := rfl
@[simp] theorem State.setMail_channel (o : Outer) (x : MailPair) (c' : Channel) :
    (s.setMail o x).channel c' = s.channel c' := rfl
@[simp] theorem State.setMail_watch (o : Outer) (x : MailPair) (w' : WatchId) :
    (s.setMail o x).watch w' = s.watch w' := rfl
@[simp] theorem State.setMail_alert (o : Outer) (x : MailPair) (p' : Port) :
    (s.setMail o x).alert p' = s.alert p' := rfl
@[simp] theorem State.setMail_port (o : Outer) (x : MailPair) (p' : Port) :
    (s.setMail o x).port p' = s.port p' := rfl
@[simp] theorem State.setMail_line (o : Outer) (x : MailPair) (i' : LineId) :
    (s.setMail o x).line i' = s.line i' := rfl

@[simp] theorem State.drawn_board (i' : Slot) :
    (s.drawn).board i' = s.board i' := rfl
@[simp] theorem State.drawn_lane (l' : Lane) :
    (s.drawn).lane l' = s.lane l' := rfl
@[simp] theorem State.drawn_dir (k' : RecipeId) :
    (s.drawn).dir k' = s.dir k' := rfl
@[simp] theorem State.drawn_link (n' : HeadId) :
    (s.drawn).link n' = s.link n' := rfl
@[simp] theorem State.drawn_channel (c' : Channel) :
    (s.drawn).channel c' = s.channel c' := rfl
@[simp] theorem State.drawn_watch (w' : WatchId) :
    (s.drawn).watch w' = s.watch w' := rfl
@[simp] theorem State.drawn_alert (p' : Port) :
    (s.drawn).alert p' = s.alert p' := rfl
@[simp] theorem State.drawn_port (p' : Port) :
    (s.drawn).port p' = s.port p' := rfl
@[simp] theorem State.drawn_mailPair (o' : Outer) :
    (s.drawn).mailPair o' = s.mailPair o' := rfl
@[simp] theorem State.drawn_line (i' : LineId) :
    (s.drawn).line i' = s.line i' := rfl

/-! ### Readers after an update of their own part -/

@[simp] theorem State.setBoard_board (i : Slot) (r : Option Record) (j : Slot) :
    (s.setBoard i r).board j = if j = i then r else s.board j := by
  simp only [State.board, State.setBoard, Fin.getElem_fin, Vector.getElem_set]
  by_cases h : j = i
  · simp [h]
  · rw [if_neg h, if_neg (fun e => h (Fin.ext e.symm))]

@[simp] theorem State.setDir_dir (k : RecipeId) (x : DirState) (j : RecipeId) :
    (s.setDir k x).dir j = if j = k then x else s.dir j := by
  simp only [State.dir, State.setDir, Fin.getElem_fin, Vector.getElem_set]
  by_cases h : j = k
  · simp [h]
  · rw [if_neg h, if_neg (fun e => h (Fin.ext e.symm))]

@[simp] theorem State.setLine_line (i : LineId) (x : CacheLine) (j : LineId) :
    (s.setLine i x).line j = if j = i then x else s.line j := by
  simp only [State.line, State.setLine, Fin.getElem_fin, Vector.getElem_set]
  by_cases h : j = i
  · simp [h]
  · rw [if_neg h, if_neg (fun e => h (Fin.ext e.symm))]

@[simp] theorem State.setLane_lane (l : Lane) (x : LaneState) (j : Lane) :
    (s.setLane l x).lane j = if j = l then x else s.lane j := by
  simp [State.lane, State.setLane]

@[simp] theorem State.setRawLink_link (n : HeadId) (x : Link) (j : HeadId) :
    (s.setRawLink n x).link j = if j = n then x else s.link j := by
  simp [State.link, State.setRawLink]

@[simp] theorem State.setChannel_channel (c : Channel) (x : ChannelReg) (j : Channel) :
    (s.setChannel c x).channel j = if j = c then x else s.channel j := by
  simp [State.channel, State.setChannel]

@[simp] theorem State.setWatch_watch (w : WatchId) (x : Watch) (j : WatchId) :
    (s.setWatch w x).watch j = if j = w then x else s.watch j := by
  simp [State.watch, State.setWatch]

@[simp] theorem State.setAlert_alert (p : Port) (x : AlertState) (j : Port) :
    (s.setAlert p x).alert j = if j = p then x else s.alert j := by
  simp [State.alert, State.setAlert]

@[simp] theorem State.setPort_port (p : Port) (x : PortState) (j : Port) :
    (s.setPort p x).port j = if j = p then x else s.port j := by
  simp [State.port, State.setPort]

@[simp] theorem State.setMail_mailPair (o : Outer) (x : MailPair) (j : Outer) :
    (s.setMail o x).mailPair j = if j = o then x else s.mailPair j := by
  simp [State.mailPair, State.setMail]

theorem State.setBoard_self (i : Slot) : s.setBoard i (s.board i) = s := by
  simp [State.setBoard, State.board]

@[simp] theorem State.setBoard_setBoard (i : Slot) (r x : Option Record) :
    (s.setBoard i r).setBoard i x = s.setBoard i x := by
  simp [State.setBoard]

@[simp] theorem State.setPort_setPort (p : Port) (x y : PortState) :
    (s.setPort p x).setPort p y = s.setPort p y := by
  simp [State.setPort]

end Sys2Proof.Machine
end

