-- ==== Sys2Proof/Laws/Actions.lean ====
section
/-! SUPPORT. What the shared steps of an event come to, as equations: an armed event taken, a board written
twice, the HEAD_LIMITs armed, a board accepted, a recipe let go. -/

namespace Sys2Proof.Machine

open Sys2Proof

/-- An armed event that is due leaves the schedule, and its owner acts. -/
theorem takeEvent_due {s : State} {i : Slot} {k : EventKind} {r : Record} {t : Pos}
    (act : Record → Pos → State → State) (h1 : s.board i = some r) (h2 : r.targetOf k = some t)
    (h3 : due (s.lane r.lane).counter t = true) :
    s.takeEvent i k act = act (r.disarm k) t (s.setBoard i (some (r.disarm k))) := by
  unfold State.takeEvent
  simp only [h1, h2]
  rw [if_pos h3]

/-- An event that is not armed or not due is not taken. -/
theorem takeEvent_none {s : State} {i : Slot} {k : EventKind} (act : Record → Pos → State → State)
    (h : ∀ r t, s.board i = some r → r.targetOf k = some t → due (s.lane r.lane).counter t = false) :
    s.takeEvent i k act = s := by
  unfold State.takeEvent
  split
  · rfl
  · rename_i r hr
    split
    · rfl
    · rename_i t ht
      rw [if_neg (by rw [h r t hr ht]; exact Bool.false_ne_true)]

/-- The engine takes the oldest item of the next eligible queue, and settles it. -/
theorem mergeTake_eq {s : State} {n : HeadId} {x : Item} {rest : List Item}
    (h1 : s.merge.item = none) (h2 : s.cache.isolation = .normal)
    (h3 : (roundRobin s.merge.lastServed).find? s.eligible = some n)
    (h4 : (s.link n).results = x :: rest) :
    s.mergeTake =
      let s1 := s.setLink n { s.link n with results := rest }
      State.settle { s1 with merge := { s1.merge with lastServed := n } } n x := by
  unfold State.mergeTake State.mayTake
  rw [if_pos (by rw [h1, h2]; rfl), h3]
  dsimp only
  rw [h4]

/-- A Head Link's change touches its link and its port's flags only. -/
theorem setLink_only (s : State) (n : HeadId) (x : Link) :
    ∃ a, s.setLink n x = { s with links := s.links.set n x, alerts := a } := by
  unfold State.setLink
  split
  · exact ⟨_, rfl⟩
  · exact ⟨_, rfl⟩

theorem modBoard_some {s : State} {i : Slot} {r : Record} (h : s.board i = some r)
    (f : Record → Record) : s.modBoard i f = s.setBoard i (some (f r)) := by
  unfold State.modBoard
  rw [h]

theorem setBoard_setBoard (s : State) (i : Slot) (r x : Option Record) :
    (s.setBoard i r).setBoard i x = s.setBoard i x := by
  simp [State.setBoard]

theorem armLimits_eq (m : TunnelMap) (n : Nat) (r : Record) :
    Record.armLimits m n r = { r with
      armed := r.armed ++ (HeadId.all.filter fun k => !(r.headStatus k).isFinal).map fun k =>
        ⟨.headLimit k,
          r.entryPos + BitVec.ofNat 24 (m.headOpenOffset.get k + n + m.headSpan.get k)⟩ } := by
  have key : ∀ (ns : List HeadId) (x : Record), x.heads = r.heads → x.entryPos = r.entryPos →
      ns.foldl (fun x k =>
        if (r.headStatus k).isFinal then x
        else x.arm (.headLimit k)
          (r.entryPos + pos (m.headOpenOffset.get k + n + m.headSpan.get k))) x =
      { x with
        armed := x.armed ++ (ns.filter fun k => !(r.headStatus k).isFinal).map fun k =>
          ⟨.headLimit k,
            r.entryPos + BitVec.ofNat 24 (m.headOpenOffset.get k + n + m.headSpan.get k)⟩ } := by
    intro ns
    induction ns with
    | nil => intro x _ _; simp
    | cons k ns ih =>
      intro x hx hp
      rw [List.foldl_cons, List.filter_cons]
      cases hf : (r.headStatus k).isFinal with
      | true => exact ih x hx hp
      | false =>
        simp only [Bool.false_eq_true, if_false, Bool.not_false, if_true]
        rw [ih (x.arm _ _) hx hp]
        simp [Record.arm, pos]
  exact key _ r rfl rfl

theorem acceptLength_eq {s : State} {i : Slot} {r : Record} (h : s.board i = some r) (n : Nat) :
    s.acceptLength i n = s.setBoard i (some (r.accepted (s.lane r.lane).map n)) := by
  unfold State.acceptLength
  rw [modBoard_some h, armLimits_eq]
  rfl

/-- Letting a recipe go reads and writes only the directory and the station's flags. -/
theorem release_only (s : State) (r : Record) (sl : Vector (Option Record) 24) (tc : Tag)
    (ln : PerLane LaneState) (lk : PerHead Link) :
    State.release { s with slots := sl, tagCounter := tc, lanes := ln, links := lk } r =
      { s with
        slots := sl, tagCounter := tc, lanes := ln, links := lk
        directory := (s.release r).directory
        alerts := (s.release r).alerts } := by
  unfold State.release
  split
  · rfl
  · cases r.recipe with
    | none => rfl
    | some k =>
      unfold State.dropUse State.dir
      dsimp only
      cases (s.directory[k]).held with
      | none => rfl
      | some e =>
        dsimp only
        split <;> rfl

end Sys2Proof.Machine
end

