-- ==== Sys2Proof/Laws/Frame.lean ====
section
/-! SUPPORT. What a tracking operation can do, said once for each: `Tracks A s t` says that `t` differs from
`s` by the boards in the slots `A` and by what `Frame` does not name, that every board keeps its identity,
and that capacities and ring bounds are kept. -/

namespace Sys2Proof.Machine

open Sys2Proof

theorem Record.SameBoard.refl (r : Record) : r.SameBoard r := ⟨rfl, rfl, rfl, rfl, rfl⟩

theorem Record.SameBoard.trans {r x y : Record} (h : r.SameBoard x) (k : x.SameBoard y) :
    r.SameBoard y :=
  ⟨k.tag.trans h.tag, k.lane.trans h.lane, k.recipe.trans h.recipe, k.serial.trans h.serial,
    k.entryPos.trans h.entryPos⟩

/-- Every live board of `t` was live in `s`, with the same identity. -/
def Follows (s t : State) : Prop :=
  ∀ i x, t.board i = some x → ∃ r, s.board i = some r ∧ r.SameBoard x

theorem Follows.refl (s : State) : Follows s s := fun _ x h => ⟨x, h, .refl x⟩

theorem Follows.trans {s t u : State} (h : Follows s t) (k : Follows t u) : Follows s u := by
  intro i x hx
  obtain ⟨r, hr, h1⟩ := k i x hx
  obtain ⟨q, hq, h2⟩ := h i r hr
  exact ⟨q, hq, h2.trans h1⟩

theorem Follows.distinct {s t : State} (h : Follows s t) (hs : s.DistinctTags) : t.DistinctTags := by
  intro i j r x hr hx hrx
  obtain ⟨r', hr', e⟩ := h i r hr
  obtain ⟨x', hx', f⟩ := h j x hx
  exact hs i j r' x' hr' hx' (by rw [← e.tag, ← f.tag, hrx])

theorem Frame.refl (A : Slot → Prop) (s : State) : Frame A s s :=
  ⟨fun _ _ => rfl, rfl, rfl, rfl, rfl, rfl, rfl, rfl, rfl, rfl, rfl, fun _ => rfl, fun _ => rfl,
    fun _ => rfl, fun _ => rfl, fun _ => rfl, fun _ => rfl, fun _ => rfl, fun _ => rfl,
    fun _ => rfl, rfl⟩

theorem Frame.trans {A : Slot → Prop} {s t u : State} (h : Frame A s t) (k : Frame A t u) :
    Frame A s u where
  boards j hj := (k.boards j hj).trans (h.boards j hj)
  tagCounter := k.tagCounter.trans h.tagCounter
  mem := k.mem.trans h.mem
  regions := k.regions.trans h.regions
  cache := k.cache.trans h.cache
  merge := k.merge.trans h.merge
  arbiter := k.arbiter.trans h.arbiter
  watches := k.watches.trans h.watches
  ports := k.ports.trans h.ports
  mail := k.mail.trans h.mail
  pending := k.pending.trans h.pending
  counter l := (k.counter l).trans (h.counter l)
  announces l := (k.announces l).trans (h.announces l)
  announceThreshold l := (k.announceThreshold l).trans (h.announceThreshold l)
  results n := (k.results n).trans (h.results n)
  threshold n := (k.threshold n).trans (h.threshold n)
  channels c := (k.channels c).trans (h.channels c)
  mask p := (k.mask p).trans (h.mask p)
  enable p := (k.enable p).trans (h.enable p)
  softSources p := (k.softSources p).trans (h.softSources p)
  reported := k.reported.trans h.reported

theorem Frame.mono {A B : Slot → Prop} {s t : State} (h : Frame A s t) (hAB : ∀ j, A j → B j) :
    Frame B s t :=
  { h with boards := fun j hj => h.boards j fun ha => hj (hAB j ha) }

/-- What each tracking operation is shown to do. -/
structure Tracks (A : Slot → Prop) (s t : State) : Prop where
  frame : Frame A s t
  follows : Follows s t
  capacity : s.Capacity → t.Capacity
  rings : s.RingsBounded → t.RingsBounded

theorem Tracks.refl (A : Slot → Prop) (s : State) : Tracks A s s :=
  ⟨.refl A s, .refl s, id, id⟩

theorem Tracks.trans {A : Slot → Prop} {s t u : State} (h : Tracks A s t) (k : Tracks A t u) :
    Tracks A s u :=
  ⟨h.frame.trans k.frame, h.follows.trans k.follows, k.capacity ∘ h.capacity, k.rings ∘ h.rings⟩

theorem Tracks.mono {A B : Slot → Prop} {s t : State} (h : Tracks A s t) (hAB : ∀ j, A j → B j) :
    Tracks B s t := { h with frame := h.frame.mono hAB }

theorem Tracks.foldl {A : Slot → Prop} {α : Type} {f : State → α → State} (xs : List α)
    (h : ∀ s x, x ∈ xs → Tracks A s (f s x)) (s : State) : Tracks A s (xs.foldl f s) := by
  induction xs generalizing s with
  | nil => exact .refl A s
  | cons x xs ih =>
    exact (h s x (by simp)).trans (ih (fun s y hy => h s y (by simp [hy])) (f s x))

/-! ### One part written -/

theorem Tracks.setBoard {A : Slot → Prop} {i : Slot} (hi : A i) (s : State) (y : Option Record)
    (h : ∀ x, y = some x → ∃ r, s.board i = some r ∧ r.SameBoard x) : Tracks A s (s.setBoard i y) where
  frame := { Frame.refl A s with
    boards := fun j hj => by
      rw [State.setBoard_board, if_neg]; intro e; subst e; exact hj hi }
  follows j x hx := by
    rw [State.setBoard_board] at hx
    split at hx
    · rename_i e; subst e; exact h x hx
    · exact ⟨x, hx, .refl x⟩
  capacity hs := ⟨hs.announces, hs.triggers, hs.results, hs.suspects, hs.defects, hs.faults⟩
  rings hs := hs

theorem Tracks.modBoard {A : Slot → Prop} {i : Slot} (hi : A i) (s : State) (f : Record → Record)
    (h : ∀ r : Record, r.SameBoard (f r)) : Tracks A s (s.modBoard i f) := by
  unfold State.modBoard
  split
  · rename_i r hr
    exact .setBoard hi s _ fun x hx => ⟨r, hr, by cases hx; exact h r⟩
  · exact .refl A s

theorem Tracks.setLane {A : Slot → Prop} (s : State) (l : Lane) (x : LaneState)
    (h1 : x.counter = (s.lane l).counter) (h2 : x.announces = (s.lane l).announces)
    (h3 : x.announceThreshold = (s.lane l).announceThreshold) : Tracks A s (s.setLane l x) where
  frame := { Frame.refl A s with
    counter := fun m => by simp only [State.setLane_lane]; split <;> simp_all
    announces := fun m => by simp only [State.setLane_lane]; split <;> simp_all
    announceThreshold := fun m => by simp only [State.setLane_lane]; split <;> simp_all }
  follows := .refl s
  capacity hs :=
    { hs with
      announces := fun m => by
        simp only [State.setLane_lane]
        split
        · rw [h2]; exact hs.announces l
        · exact hs.announces m }
  rings hs := hs

theorem Tracks.setDir {A : Slot → Prop} (s : State) (k : RecipeId) (x : DirState) :
    Tracks A s (s.setDir k x) :=
  ⟨{ Frame.refl A s with }, .refl s,
    fun hs => ⟨hs.announces, hs.triggers, hs.results, hs.suspects, hs.defects, hs.faults⟩, id⟩

theorem Tracks.drawn {A : Slot → Prop} (s : State) : Tracks A s s.drawn :=
  ⟨{ Frame.refl A s with }, .refl s,
    fun hs => ⟨hs.announces, hs.triggers, hs.results, hs.suspects, hs.defects, hs.faults⟩, id⟩

theorem Tracks.setRawLink {A : Slot → Prop} (s : State) (n : HeadId) (x : Link)
    (h1 : x.results = (s.link n).results) (h2 : x.threshold = (s.link n).threshold)
    (h3 : (s.link n).triggers.length ≤ 8 → x.triggers.length ≤ 8) :
    Tracks A s (s.setRawLink n x) where
  frame := { Frame.refl A s with
    results := fun m => by simp only [State.setRawLink_link]; split <;> simp_all
    threshold := fun m => by simp only [State.setRawLink_link]; split <;> simp_all }
  follows := .refl s
  capacity hs :=
    { hs with
      triggers := fun m => by
        simp only [State.setRawLink_link]
        split
        · exact h3 (hs.triggers n)
        · exact hs.triggers m
      results := fun m => by
        simp only [State.setRawLink_link]
        split
        · rw [h1]; exact hs.results n
        · exact hs.results m }
  rings hs := hs

theorem Tracks.raise {A : Slot → Prop} (s : State) (p : Port) (f : AlertFlag) :
    Tracks A s (s.raise p f) where
  frame := { Frame.refl A s with
    mask := fun q => by simp only [State.raise, State.setAlert_alert]; split <;> simp_all
    enable := fun q => by simp only [State.raise, State.setAlert_alert]; split <;> simp_all
    softSources := fun q => by simp only [State.raise, State.setAlert_alert]; split <;> simp_all }
  follows := .refl s
  capacity hs := ⟨hs.announces, hs.triggers, hs.results, hs.suspects, hs.defects, hs.faults⟩
  rings hs := hs

theorem Tracks.recordFault {A : Slot → Prop} (s : State) (f : FaultRec) :
    Tracks A s (s.recordFault f) := by
  unfold State.recordFault
  split
  · rename_i h
    exact ⟨{ Frame.refl A s with }, .refl s,
      fun hs => ⟨hs.announces, hs.triggers, hs.results, hs.suspects, hs.defects, by
        simp only [List.length_append, List.length_singleton]
        exact h⟩, id⟩
  · refine Tracks.trans ?_ (.raise _ _ _)
    exact ⟨{ Frame.refl A s with }, .refl s,
      fun hs => ⟨hs.announces, hs.triggers, hs.results, hs.suspects, hs.defects, hs.faults⟩, id⟩

theorem Tracks.recordFaults {A : Slot → Prop} (s : State) (fs : List FaultRec) :
    Tracks A s (s.recordFaults fs) := .foldl fs (fun s f _ => .recordFault s f) s

theorem Tracks.suspects {A : Slot → Prop} (s : State) (xs : List Suspect)
    (h : s.suspects.length ≤ 192 → xs.length ≤ 192) : Tracks A s { s with suspects := xs } :=
  ⟨{ Frame.refl A s with }, .refl s,
    fun hs => ⟨hs.announces, hs.triggers, hs.results, h hs.suspects, hs.defects, hs.faults⟩, id⟩

theorem Tracks.defects {A : Slot → Prop} (s : State) (xs : List PooledDefect)
    (h : s.defects.length ≤ 384 → xs.length ≤ 384) : Tracks A s { s with defects := xs } :=
  ⟨{ Frame.refl A s with }, .refl s,
    fun hs => ⟨hs.announces, hs.triggers, hs.results, hs.suspects, h hs.defects, hs.faults⟩, id⟩

theorem Tracks.summaryReady {A : Slot → Prop} (s : State) (xs : List Slot) :
    Tracks A s { s with summaryReady := xs } :=
  ⟨{ Frame.refl A s with }, .refl s,
    fun hs => ⟨hs.announces, hs.triggers, hs.results, hs.suspects, hs.defects, hs.faults⟩, id⟩

/-- A channel written so that it differs by its write at most, and stays bounded. -/
theorem Tracks.setChannel {A : Slot → Prop} (s : State) (c : Channel) (x : ChannelReg)
    (h1 : x.fixed = (s.channel c).fixed) (h2 : (s.channel c).Bounded → x.Bounded) :
    Tracks A s (s.setChannel c x) where
  frame := { Frame.refl A s with
    channels := fun d => by
      simp only [State.setChannel_channel]
      split
      · rename_i e; subst e; exact h1
      · rfl }
  follows := .refl s
  capacity hs := ⟨hs.announces, hs.triggers, hs.results, hs.suspects, hs.defects, hs.faults⟩
  rings hs d := by
    simp only [State.setChannel_channel]
    split
    · exact h2 (hs c)
    · exact hs d

theorem Tracks.requestWrite {A : Slot → Prop} (s : State) (c : Channel) :
    Tracks A s (s.requestWrite c) := by
  unfold State.requestWrite
  split
  · rename_i h
    simp only [State.wantsWrite, Bool.and_eq_true, decide_eq_true_eq] at h
    exact .setChannel s c _ rfl fun b => ⟨b.occupancy, fun _ => h.1.2, b.size, b.held⟩
  · exact .refl A s

/-! ### Shared operations -/

theorem Tracks.dropTrigger {A : Slot → Prop} (s : State) (n : HeadId) (t : Tag) :
    Tracks A s (s.dropTrigger n t) :=
  .setRawLink s n _ rfl rfl fun h => Nat.le_trans (List.length_filter_le _ _) h

theorem Tracks.dropTriggers {A : Slot → Prop} (s : State) (t : Tag) :
    Tracks A s (s.dropTriggers t) := .foldl _ (fun s n _ => .dropTrigger s n t) s

theorem Tracks.dropUse {A : Slot → Prop} (s : State) (k : RecipeId) :
    Tracks A s (s.dropUse k) := by
  unfold State.dropUse
  dsimp only
  split
  · split
    · exact (Tracks.setDir s k _).trans (.raise _ _ _)
    · exact .setDir s k _
  · exact .setDir s k _

theorem Tracks.release {A : Slot → Prop} (s : State) (r : Record) : Tracks A s (s.release r) := by
  unfold State.release
  split
  · exact .refl A s
  · split
    · exact .dropUse s _
    · exact .refl A s

theorem Tracks.applyHeldMap {A : Slot → Prop} (s : State) (l : Lane) :
    Tracks A s (s.applyHeldMap l) := by
  unfold State.applyHeldMap
  split
  · split
    · refine Tracks.trans ?_ (.raise _ _ _)
      exact .setLane s l _ rfl rfl rfl
    · exact .refl A s
  · exact .refl A s

theorem Tracks.joinSummary {A : Slot → Prop} {i : Slot} (hi : A i) (s : State) :
    Tracks A s (s.joinSummary i) := by
  unfold State.joinSummary
  split
  · exact .setBoard hi s none fun x hx => nomatch hx
  · exact (Tracks.summaryReady s _).trans (.requestWrite _ _)

theorem Tracks.dropOutstanding {A : Slot → Prop} {i : Slot} (hi : A i) (s : State) :
    Tracks A s (s.dropOutstanding i) := by
  unfold State.dropOutstanding
  split
  · rename_i r hr
    have h : Tracks A s (s.setBoard i (some { r with outstanding := r.outstanding - 1 })) :=
      .setBoard hi s _ fun x hx => ⟨r, hr, by cases hx; exact ⟨rfl, rfl, rfl, rfl, rfl⟩⟩
    dsimp only
    split
    · exact h.trans (.joinSummary hi _)
    · exact h
  · exact .refl A s

theorem Tracks.addDefect {A : Slot → Prop} {i : Slot} (hi : A i) (s : State) (src : Source)
    (d : DefectRec) : Tracks A s (s.addDefect src i d).1 := by
  unfold State.addDefect
  split
  · exact .refl A s
  · split
    · rename_i h
      refine Tracks.trans ?_ (.requestWrite _ _)
      refine Tracks.trans (t := s.modBoard i fun r => { r with outstanding := r.outstanding + 1 })
        (.modBoard hi s _ fun r => ⟨rfl, rfl, rfl, rfl, rfl⟩) ?_
      refine .defects _ _ fun _ => ?_
      simp only [List.length_append, List.length_singleton]
      exact h
    · split
      · rename_i r hr
        exact .setBoard hi s _ fun x hx => ⟨r, hr, by cases hx; exact ⟨rfl, rfl, rfl, rfl, rfl⟩⟩
      · exact .refl A s

theorem Tracks.modCounts {A : Slot → Prop} {i : Slot} (hi : A i) (s : State) (f : Counts → Counts) :
    Tracks A s (s.modCounts i f) := .modBoard hi s _ fun _ => ⟨rfl, rfl, rfl, rfl, rfl⟩

theorem Tracks.resolveAlone {A : Slot → Prop} {i : Slot} (hi : A i) (s : State) (src : Source)
    (j : JointId) (p : Report) : Tracks A s (s.resolveAlone src i j p).1 := by
  unfold State.resolveAlone
  split
  · exact .refl A s
  · exact Tracks.modBoard hi s _ fun _ => ⟨rfl, rfl, rfl, rfl, rfl⟩
  · exact Tracks.modBoard hi s _ fun _ => ⟨rfl, rfl, rfl, rfl, rfl⟩
  · split
    · exact (Tracks.modCounts hi s _).trans (.addDefect hi _ _ _)
    · exact .refl A s

/-! ### The close and the ends of tracking -/

theorem setErase_length {α : Type} [DecidableEq α] (x : α) (xs : List α) :
    (setErase x xs).length ≤ xs.length := List.length_filter_le _ _

theorem Tracks.endHead {A : Slot → Prop} {i : Slot} (hi : A i) (s : State) (n : HeadId) :
    Tracks A s (s.endHead i n) := by
  unfold State.endHead
  split
  · exact .refl A s
  · rename_i r hr
    have h (x : Record) (e : r.SameBoard x) : Tracks A s (s.setBoard i (some x)) :=
      .setBoard hi s _ fun y hy => ⟨r, hr, by cases hy; exact e⟩
    have h' (x : Record) (e : r.SameBoard x) :
        Tracks A s ((s.dropTrigger n r.tag).setBoard i (some x)) :=
      (Tracks.dropTrigger s n r.tag).trans
        (.setBoard hi _ _ fun y hy => ⟨r, hr, by cases hy; exact e⟩)
    split
    · exact h _ ⟨rfl, rfl, rfl, rfl, rfl⟩
    · exact h _ ⟨rfl, rfl, rfl, rfl, rfl⟩
    · exact h _ ⟨rfl, rfl, rfl, rfl, rfl⟩
    · exact h' _ ⟨rfl, rfl, rfl, rfl, rfl⟩
    · split
      · exact .refl A s
      · exact h _ ⟨rfl, rfl, rfl, rfl, rfl⟩
    all_goals exact .refl A s

theorem Tracks.endHeads {A : Slot → Prop} {i : Slot} (hi : A i) (s : State) :
    Tracks A s (s.endHeads i) := .foldl _ (fun s n _ => .endHead hi s n) s

theorem Tracks.countUnwalked {A : Slot → Prop} {i : Slot} (hi : A i) (s : State) :
    Tracks A s (s.countUnwalked i) := by
  unfold State.countUnwalked
  split
  · exact .refl A s
  · exact .modCounts hi s _

theorem Tracks.resolveSuspect {A : Slot → Prop} {i : Slot} (hi : A i) (s : State) (x : Suspect) :
    Tracks A s (s.resolveSuspect i x) := by
  unfold State.resolveSuspect
  exact ((Tracks.suspects s _ fun h => Nat.le_trans (setErase_length x _) h).trans
    (.resolveAlone hi _ _ _ _)).trans (.recordFaults _ _)

theorem Tracks.resolveSuspects {A : Slot → Prop} {i : Slot} (hi : A i) (s : State) :
    Tracks A s (s.resolveSuspects i) := .foldl _ (fun s x _ => .resolveSuspect hi s x) s

theorem Tracks.fixVerdict {A : Slot → Prop} {i : Slot} (hi : A i) (s : State) (was : RecState) :
    Tracks A s (s.fixVerdict i was) := by
  unfold State.fixVerdict
  split
  · exact .refl A s
  · rename_i r hr
    have h : Tracks A s (((s.setBoard i (some { r with verdict := some (verdictOf (s.entryOf r) r) })).release
        r).modBoard i fun x =>
          { x with armed := x.armed.filter fun e => decide (e.kind = .exitDue), state := .decided }) :=
      ((Tracks.setBoard hi s _ fun x hx =>
        ⟨r, hr, by cases hx; exact ⟨rfl, rfl, rfl, rfl, rfl⟩⟩).trans (.release _ _)).trans
        (.modBoard hi _ _ fun _ => ⟨rfl, rfl, rfl, rfl, rfl⟩)
    dsimp only
    split
    · exact h.trans (.setLane _ _ _ rfl rfl rfl)
    · exact h

theorem Tracks.close {A : Slot → Prop} {i : Slot} (hi : A i) (s : State) :
    Tracks A s (s.close i) := by
  unfold State.close
  split
  · exact .refl A s
  · exact (((Tracks.endHeads hi s).trans (.countUnwalked hi _)).trans
      (.resolveSuspects hi _)).trans (.fixVerdict hi _ _)

theorem Tracks.closeIfOpen {A : Slot → Prop} {i : Slot} (hi : A i) (s : State) :
    Tracks A s (s.closeIfOpen i) := by
  unfold State.closeIfOpen
  split
  · split
    · exact .close hi s
    · exact .refl A s
  · exact .refl A s

theorem Tracks.closeCheck {A : Slot → Prop} {i : Slot} (hi : A i) (s : State) :
    Tracks A s (s.closeCheck i) := by
  unfold State.closeCheck
  split
  · split
    · exact .close hi s
    · exact .refl A s
  · exact .refl A s

theorem Tracks.markFinal {A : Slot → Prop} {i : Slot} (hi : A i) (s : State) (n : HeadId)
    (x : HeadStatus) : Tracks A s (s.markFinal i n x) := by
  refine .modBoard hi s _ fun r => ?_
  dsimp only
  split <;> exact ⟨rfl, rfl, rfl, rfl, rfl⟩

theorem Tracks.discard {A : Slot → Prop} {i : Slot} (hi : A i) (s : State) (n : HeadId) :
    Tracks A s (s.discard i n) := .modBoard hi s _ fun _ => ⟨rfl, rfl, rfl, rfl, rfl⟩

theorem Tracks.makeLeaving {A : Slot → Prop} {i : Slot} (hi : A i) (s : State) (f : ExitFate) :
    Tracks A s (s.makeLeaving i f) := by
  unfold State.makeLeaving
  split
  · exact .refl A s
  · rename_i r hr
    dsimp only
    have h : Tracks A s (s.setBoard i
        (some { r with exitFate := some f, armed := [], state := .leaving })) :=
      .setBoard hi s _ fun x hx => ⟨r, hr, by cases hx; exact ⟨rfl, rfl, rfl, rfl, rfl⟩⟩
    generalize s.setBoard i (some { r with exitFate := some f, armed := [], state := .leaving }) = u
      at h ⊢
    have h' : Tracks A s (u.setLane r.lane
        { u.lane r.lane with order := setErase i (u.lane r.lane).order }) :=
      h.trans (.setLane u _ _ rfl rfl rfl)
    split
    · exact h'.trans (.joinSummary hi _)
    · exact h'

theorem Tracks.miss {A : Slot → Prop} {i : Slot} (hi : A i) (s : State) (t : Pos) :
    Tracks A s (s.miss i t) := by
  unfold State.miss
  split
  · exact .refl A s
  · rename_i r hr
    have h : Tracks A s ((s.closeIfOpen i).modBoard i fun x => x.addFlag .missingAtExit) :=
      (Tracks.closeIfOpen hi s).trans (.modBoard hi _ _ fun r => ⟨rfl, rfl, rfl, rfl, rfl⟩)
    dsimp only
    exact ((h.trans (.makeLeaving hi _ _)).trans (.recordFault _ _)).trans (.applyHeldMap _ _)

end Sys2Proof.Machine
end

