-- ==== Sys2Proof/Laws/Memory.lean ====
section
/-! SUPPORT. Program memory: every write keeps the canonical form, and a read after a write gives the byte
written at its address and the byte before at every other. -/

namespace Sys2Proof.Memory

theorem wfAbove_mono {a b : Nat} (h : a ≤ b) : ∀ {m}, wfAbove b m = true → wfAbove a m = true
  | [], _ => rfl
  | (c, v) :: m, hm => by
    simp only [wfAbove, Bool.and_eq_true, decide_eq_true_eq] at hm ⊢
    exact ⟨⟨Nat.le_trans h hm.1.1, hm.1.2⟩, hm.2⟩

theorem wfAbove_write : ∀ {m : List Host.Cell} {k a : Nat} (v : Byte), wfAbove k m = true → k ≤ a →
    wfAbove k (write m a v) = true
  | [], k, a, v, _, hk => by
    by_cases h : v = Config.unwrittenByte <;> simp [write, wfAbove, h, hk]
  | (b, w) :: m, k, a, v, hm, hk => by
    simp only [wfAbove, Bool.and_eq_true, decide_eq_true_eq] at hm
    obtain ⟨⟨hb, hw⟩, hm⟩ := hm
    unfold write
    split
    · rename_i hab
      split
      · simp [wfAbove, hb, hw, hm]
      · rename_i hv
        simp only [wfAbove, Bool.and_eq_true, decide_eq_true_eq]
        exact ⟨⟨hk, hv⟩, ⟨⟨by omega, hw⟩, hm⟩⟩
    · split
      · rename_i hab
        subst hab
        split
        · exact wfAbove_mono (by omega) hm
        · rename_i hv
          simp only [wfAbove, Bool.and_eq_true, decide_eq_true_eq]
          exact ⟨⟨hk, hv⟩, hm⟩
      · simp only [wfAbove, Bool.and_eq_true, decide_eq_true_eq]
        exact ⟨⟨hb, hw⟩, wfAbove_write v hm (by omega)⟩

theorem wf_write {m : List Host.Cell} (a : Nat) (v : Byte) (h : wf m = true) :
    wf (write m a v) = true := wfAbove_write v h (Nat.zero_le a)

theorem wf_writeBytes : ∀ {m : List Host.Cell} (a : Nat) (vs : List Byte), wf m = true →
    wf (writeBytes m a vs) = true
  | _, _, [], h => h
  | _, a, v :: vs, h => wf_writeBytes (a + 1) vs (wf_write a v h)

theorem read_eq_of_above : ∀ {m : List Host.Cell} {k a : Nat}, wfAbove k m = true → a < k →
    read m a = Config.unwrittenByte
  | [], _, _, _, _ => rfl
  | (b, v) :: m, k, a, h, ha => by
    simp only [wfAbove, Bool.and_eq_true, decide_eq_true_eq] at h
    rw [read, if_neg (by omega)]
    exact read_eq_of_above h.2 (by omega)

/-- Reading a canonical memory after a write of one byte. -/
theorem read_write : ∀ {m : List Host.Cell} {k a : Nat} (v : Byte) (b : Nat), wfAbove k m = true →
    read (write m a v) b = if b = a then v else read m b
  | [], k, a, v, b, _ => by
    by_cases h : v = Config.unwrittenByte <;> by_cases hb : b = a <;> simp [write, read, h, hb]
  | (c, w) :: m, k, a, v, b, hm => by
    have hm' := hm
    simp only [wfAbove, Bool.and_eq_true, decide_eq_true_eq] at hm
    obtain ⟨⟨hc, hw⟩, ht⟩ := hm
    unfold write
    split
    · rename_i hac
      split
      · rename_i hv
        by_cases hb : b = a
        · subst hb
          rw [if_pos rfl, hv, read, if_neg (by omega)]
          exact read_eq_of_above ht (by omega)
        · rw [if_neg hb]
      · by_cases hb : b = a <;> simp [read, hb]
    · split
      · rename_i _ hac
        subst hac
        split
        · rename_i hv
          by_cases hb : b = a
          · subst hb; rw [if_pos rfl, hv]; exact read_eq_of_above ht (by omega)
          · simp [read, hb]
        · by_cases hb : b = a <;> simp [read, hb]
      · rename_i h1 h2
        rw [read, read_write v b ht]
        by_cases hb : b = c
        · subst hb; simp [read, Ne.symm h2]
        · simp [read, hb]

/-- Reading a canonical memory after a write of consecutive bytes. -/
theorem read_writeBytes : ∀ {m : List Host.Cell} (vs : List Byte) (a b : Nat), wf m = true →
    read (writeBytes m a vs) b =
      if h : a ≤ b ∧ b < a + vs.length then vs[b - a]'(by omega) else read m b
  | m, [], a, b, _ => by simp [writeBytes]
  | m, v :: vs, a, b, hm => by
    rw [writeBytes, read_writeBytes vs (a + 1) b (wf_write a v hm)]
    by_cases h : a + 1 ≤ b ∧ b < a + 1 + vs.length
    · rw [dif_pos h, dif_pos (by simp only [List.length_cons]; omega)]
      obtain ⟨d, rfl⟩ : ∃ d, b = a + 1 + d := ⟨b - (a + 1), by omega⟩
      simp only [show a + 1 + d - (a + 1) = d by omega, show a + 1 + d - a = d + 1 by omega,
        List.getElem_cons_succ]
    · rw [dif_neg h, read_write (k := 0) v b hm]
      by_cases hb : b = a
      · subst hb; simp
      · rw [if_neg hb, dif_neg (by simp only [List.length_cons]; omega)]

/-- Outside the bytes written, every byte reads as before. -/
theorem read_writeBytes_outside {m : List Host.Cell} (vs : List Byte) (a b : Nat) (hm : wf m = true)
    (h : b < a ∨ a + vs.length ≤ b) : read (writeBytes m a vs) b = read m b := by
  rw [read_writeBytes vs a b hm, dif_neg (by omega)]

theorem readBytes_length (m : List Host.Cell) : ∀ (n a : Nat), (readBytes m a n).length = n
  | 0, _ => rfl
  | n + 1, a => by simp [readBytes, readBytes_length m n]

end Sys2Proof.Memory
end

