-- ==== Sys2Proof/Laws/Events.lean ====
section
/-! SUPPORT. What the events of the lanes can do: armed events falling due, belt steps and sensor edges.
`Keeps s t` is what every step but a creation does: canonical memory, identities, capacities and ring
bounds are kept. -/

namespace Sys2Proof.Machine

open Sys2Proof

structure Keeps (s t : State) : Prop where
  mem : s.memoryWf = true → t.memoryWf = true
  follows : Follows s t
  capacity : s.Capacity → t.Capacity
  rings : s.RingsBounded → t.RingsBounded

theorem Keeps.refl (s : State) : Keeps s s := ⟨id, .refl s, id, id⟩

theorem Keeps.trans {s t u : State} (h : Keeps s t) (k : Keeps t u) : Keeps s u :=
  ⟨k.mem ∘ h.mem, h.follows.trans k.follows, k.capacity ∘ h.capacity, k.rings ∘ h.rings⟩

theorem Tracks.keeps {A : Slot → Prop} {s t : State} (h : Tracks A s t) : Keeps s t :=
  ⟨by unfold State.memoryWf; rw [h.frame.mem]; exact id, h.follows, h.capacity, h.rings⟩

theorem Keeps.foldl {α : Type} {f : State → α → State} (xs : List α)
    (h : ∀ s x, x ∈ xs → Keeps s (f s x)) (s : State) : Keeps s (xs.foldl f s) := by
  induction xs generalizing s with
  | nil => exact .refl s
  | cons x xs ih =>
    exact (h s x (by simp)).trans (ih (fun s y hy => h s y (by simp [hy])) (f s x))

/-! ### Lists in rank order -/

theorem mem_insertBy {α : Type} (rank : α → Nat) (x y : α) (xs : List α) :
    y ∈ insertBy rank x xs ↔ y = x ∨ y ∈ xs := by
  induction xs with
  | nil => simp [insertBy]
  | cons z zs ih =>
    unfold insertBy
    split
    · simp
    · simp only [List.mem_cons, ih]
      tauto

theorem insertBy_length {α : Type} (rank : α → Nat) (x : α) (xs : List α) :
    (insertBy rank x xs).length = xs.length + 1 := by
  induction xs with
  | nil => rfl
  | cons z zs ih =>
    unfold insertBy
    split
    · rfl
    · simp [ih]

theorem mem_orderBy {α : Type} (rank : α → Nat) (y : α) (xs : List α) :
    y ∈ orderBy rank xs ↔ y ∈ xs := by
  induction xs with
  | nil => simp [orderBy]
  | cons z zs ih => simp [orderBy, mem_insertBy, ih]

/-! ### Events taken by their owners -/

/-- An event that is taken does what its owner does, from the state with the event gone. -/
theorem Tracks.takeEvent {A : Slot → Prop} {i : Slot} (hi : A i) (s : State) (k : EventKind)
    (act : Record → Pos → State → State)
    (h : ∀ r t u, Tracks A u (act r t u)) : Tracks A s (s.takeEvent i k act) := by
  unfold State.takeEvent
  split
  · exact .refl A s
  · rename_i r hr
    split
    · exact .refl A s
    · split
      · have h1 : Tracks A s (s.setBoard i (some (r.disarm k))) :=
          .setBoard hi s _ fun x hx => ⟨r, hr, by cases hx; exact ⟨rfl, rfl, rfl, rfl, rfl⟩⟩
        exact h1.trans (h _ _ _)
      · exact .refl A s

theorem Tracks.headOpenAct {A : Slot → Prop} {i : Slot} (hi : A i) (n : HeadId) (r : Record) (t : Pos)
    (s : State) : Tracks A s (headOpenAct i n r t s) := by
  have hp (h : (s.link n).triggers.length < 8) : Tracks A s (headOpenAct.place i n r s) := by
    unfold headOpenAct.place
    split
    · rename_i k e _ _
      have h1 : Tracks A s (s.setRawLink n
          { s.link n with triggers := (s.link n).triggers ++ [r.triggerOf n k e] }) :=
        .setRawLink s n _ rfl rfl fun _ => by
          simp only [List.length_append, List.length_singleton]; exact h
      exact h1.trans (.modBoard hi _ _ fun r => ⟨rfl, rfl, rfl, rfl, rfl⟩)
    · exact .refl A s
  unfold Machine.headOpenAct
  split
  · exact .refl A s
  · split
    · rename_i oldest rest heq
      split
      · rename_i h
        exact hp (by rw [heq]; exact h)
      · exact ((Tracks.markFinal hi s _ _).trans (.recordFault _ _)).trans (.closeCheck hi _)
    · rename_i heq
      exact hp (by rw [heq]; decide)

theorem Tracks.headLimitAct {A : Slot → Prop} {i : Slot} (hi : A i) (n : HeadId) (r : Record) (t : Pos)
    (s : State) : Tracks A s (headLimitAct i n r t s) := by
  unfold Machine.headLimitAct
  split
  · exact ((Tracks.dropTrigger s _ _).trans (.markFinal hi _ _ _)).trans (.closeCheck hi _)
  · exact (Tracks.markFinal hi s _ _).trans (.closeCheck hi _)
  · exact (Tracks.markFinal hi s _ _).trans (.closeCheck hi _)
  all_goals exact .refl A s

theorem Tracks.deadlineAct {A : Slot → Prop} {i : Slot} (hi : A i) (r : Record) (t : Pos)
    (s : State) : Tracks A s (deadlineAct i r t s) := .closeIfOpen hi s

/-- EXIT_DUE of the record in slot `i` acts on it and on the records ahead of it. -/
theorem Tracks.exitDueAct {A : Slot → Prop} {i : Slot} (r : Record) (t : Pos) (s : State)
    (h : ∀ j, j ∈ (s.lane r.lane).order → A j) : Tracks A s (exitDueAct i r t s) := by
  unfold Machine.exitDueAct
  dsimp only
  split
  · rename_i hc
    have hi : A i := h i (by simpa using hc)
    refine Tracks.trans (.foldl _ (fun u j hj => ?_) s) (.miss hi _ _)
    have hj' : A j := h j (List.takeWhile_subset _ hj)
    split
    · exact .miss hj' _ _
    · exact .refl A u
  · exact .refl A s

/-- An event of any slot, with every slot allowed to change. -/
theorem Tracks.handOver (s : State) (e : ScheduledEvent) : Tracks (fun _ => True) s (s.handOver e) := by
  unfold State.handOver
  split
  · exact .takeEvent trivial s _ _ fun r t u => .headOpenAct trivial _ r t u
  · exact .takeEvent trivial s _ _ fun r t u => .headLimitAct trivial _ r t u
  · exact .takeEvent trivial s _ _ fun r t u => .deadlineAct trivial r t u
  · exact .takeEvent trivial s _ _ fun r t u => .exitDueAct r t u fun _ _ => trivial
  · exact .refl _ s

/-- An event other than LENGTH_LIMIT and EXIT_DUE acts on its own record only. -/
theorem Tracks.handOver_own {A : Slot → Prop} (s : State) (e : ScheduledEvent) (hi : A e.slot)
    (hk : e.kind ≠ .exitDue) : Tracks A s (s.handOver e) := by
  unfold State.handOver
  split
  · exact .takeEvent hi s _ _ fun r t u => .headOpenAct hi _ r t u
  · exact .takeEvent hi s _ _ fun r t u => .headLimitAct hi _ r t u
  · exact .takeEvent hi s _ _ fun r t u => .deadlineAct hi r t u
  · rename_i h; exact absurd h hk
  · exact .refl _ s

theorem Tracks.handOverAll {A : Slot → Prop} (s : State) (one : State → ScheduledEvent → State)
    (es : List ScheduledEvent) (h : ∀ u e, e ∈ es → Tracks A u (one u e)) :
    Tracks A s (s.handOverAll one es) := by
  unfold State.handOverAll
  split
  · exact .refl A s
  · exact (Tracks.drawn s).trans (.foldl _ (fun u e he => h u e ((mem_orderBy _ _ _).1 he)) _)

theorem Tracks.dueAtArming (s : State) (i : Slot) (newly : EventKind → Bool) :
    Tracks (fun _ => True) s (s.dueAtArming i newly) :=
  .handOverAll s _ _ fun u e _ => .handOver u e

/-- The events due of a kind other than EXIT_DUE act on their record only. -/
theorem Tracks.dueAtArming_own {A : Slot → Prop} {i : Slot} (hi : A i) (s : State)
    (newly : EventKind → Bool) (hn : newly .exitDue = false) : Tracks A s (s.dueAtArming i newly) := by
  refine .handOverAll s _ _ fun u e he => ?_
  unfold State.dueOf at he
  split at he
  · simp only [List.mem_map, List.mem_filter, Bool.and_eq_true] at he
    obtain ⟨x, ⟨_, hx, _⟩, rfl⟩ := he
    exact .handOver_own u _ hi fun hk => by
      dsimp only at hk; rw [hk, hn] at hx; exact absurd hx (by decide)
  · simp at he

theorem SameBoard.foldl {α : Type} {f : Record → α → Record}
    (h : ∀ (r : Record) (x : α), r.SameBoard (f r x))
    (xs : List α) (r : Record) : r.SameBoard (xs.foldl f r) := by
  induction xs generalizing r with
  | nil => exact .refl r
  | cons x xs ih => exact (h r x).trans (ih (f r x))

theorem Record.armLimits_same (m : TunnelMap) (length : Nat) (r : Record) :
    r.SameBoard (Record.armLimits m length r) := by
  refine SameBoard.foldl (fun x n => ?_) _ _
  split <;> exact ⟨rfl, rfl, rfl, rfl, rfl⟩

theorem Tracks.acceptLength {A : Slot → Prop} {i : Slot} (hi : A i) (s : State) (n : Nat) :
    Tracks A s (s.acceptLength i n) := by
  refine .modBoard hi s _ fun r => ?_
  have h : r.SameBoard (Record.armLimits (s.lane r.lane).map n (r.disarm .lengthLimit)) :=
    Record.SameBoard.trans (x := r.disarm .lengthLimit) ⟨rfl, rfl, rfl, rfl, rfl⟩
      (Record.armLimits_same _ _ _)
  exact ⟨h.tag, h.lane, h.recipe, h.serial, h.entryPos⟩

theorem Tracks.lengthLimitAct {A : Slot → Prop} {i : Slot} (hi : A i) (r : Record) (t : Pos)
    (s : State) : Tracks A s (lengthLimitAct i r t s) := by
  unfold Machine.lengthLimitAct
  split
  · dsimp only
    have h1 : Tracks A s ((s.acceptLength i (s.lane r.lane).map.maxLength).modBoard i fun x =>
        x.addFlag .overlength) :=
      (Tracks.acceptLength hi s _).trans (.modBoard hi _ _ fun x => ⟨rfl, rfl, rfl, rfl, rfl⟩)
    generalize (s.acceptLength i (s.lane r.lane).map.maxLength).modBoard i _ = u at h1 ⊢
    have h2 : Tracks A s (u.setLane r.lane { u.lane r.lane with entry := .untracked }) :=
      h1.trans (.setLane u _ _ rfl rfl rfl)
    exact ((h2.trans (.recordFault _ _)).trans (.closeCheck hi _)).trans
      (.dueAtArming_own hi _ _ rfl)
  · exact .refl A s

/-! ### Sensor edges -/

theorem Tracks.setEntry {A : Slot → Prop} (s : State) (l : Lane) (e : EntryState) :
    Tracks A s (s.setEntry l e) := .setLane s l _ rfl rfl rfl

theorem Tracks.setExit {A : Slot → Prop} (s : State) (l : Lane) (e : ExitState) :
    Tracks A s (s.setExit l e) := .setLane s l _ rfl rfl rfl

theorem Tracks.entryOverrun {A : Slot → Prop} (s : State) (l : Lane) :
    Tracks A s (s.entryOverrun l) := (Tracks.setEntry s l _).trans (.recordFault _ _)

theorem Tracks.accept {A : Slot → Prop} {i : Slot} (hi : A i) (s : State) (l : Lane) (n : Nat) :
    Tracks A s (s.accept l i n) :=
  (((Tracks.acceptLength hi s n).trans (.setEntry _ l _)).trans (.closeCheck hi _)).trans
    (.dueAtArming_own hi _ _ rfl)

theorem reannounce_length (x : LaneState) (r : Record) (h : x.announces.length ≤ 4) :
    (x.reannounce r).announces.length ≤ 4 := by
  unfold LaneState.reannounce
  split
  · split
    · exact h
    · rename_i hn
      have : ¬ 4 ≤ x.announces.length := fun hh => hn (Or.inr hh)
      simp only [List.length_cons]
      omega
  · exact h

theorem Keeps.setLane (s : State) (l : Lane) (x : LaneState)
    (h : (s.lane l).announces.length ≤ 4 → x.announces.length ≤ 4) : Keeps s (s.setLane l x) :=
  ⟨id, .refl s, fun hs => { hs with
    announces := fun m => by
      simp only [State.setLane_lane]
      split
      · exact h (hs.announces l)
      · exact hs.announces m }, fun hs => hs⟩

theorem Keeps.withdraw (s : State) (l : Lane) (i : Slot) (r : Record) (n : Nat) :
    Keeps s (s.withdraw l i r n) := by
  unfold State.withdraw
  dsimp only
  have h1 : Keeps s (((s.dropTriggers r.tag).release r).setBoard i none) :=
    (((Tracks.dropTriggers s r.tag).trans (.release _ r)).trans
      (.setBoard (A := fun _ => True) trivial _ none fun x hx => nomatch hx)).keeps
  generalize ((s.dropTriggers r.tag).release r).setBoard i none = u at h1 ⊢
  have h2 : Keeps s (u.setLane l { (u.lane l).reannounce r with
      order := setErase i ((u.lane l).reannounce r).order, entry := .ready }) :=
    h1.trans (.setLane u l _ (reannounce_length _ r))
  exact (h2.trans (Tracks.recordFault (A := fun _ => True) _ _).keeps).trans
    (Tracks.applyHeldMap (A := fun _ => True) _ _).keeps

theorem Keeps.entryTrailing (s : State) (l : Lane) : Keeps s (s.entryTrailing l) := by
  unfold State.entryTrailing
  split
  · split
    · exact .refl s
    · exact (Tracks.setEntry (A := fun _ => True) s l _).keeps
    · split
      · dsimp only
        split
        · exact .withdraw s l _ _ _
        · exact (Tracks.accept (A := fun _ => True) trivial s l _).keeps
      · exact (Tracks.setEntry (A := fun _ => True) s l _).keeps
  · exact .refl s

theorem Tracks.exitMatch {A : Slot → Prop} {i : Slot} (hi : A i) (s : State) (l : Lane) (r : Record)
    (x : Pos) : Tracks A s (s.exitMatch l i r x) := by
  unfold State.exitMatch
  dsimp only
  have h1 : Tracks A s (if r.state = .decided then s
      else (s.modBoard i fun y => y.addFlag .earlyExit).closeIfOpen i) := by
    split
    · exact .refl A s
    · refine Tracks.trans ?_ (.closeIfOpen hi _)
      exact .modBoard hi s _ fun x => ⟨rfl, rfl, rfl, rfl, rfl⟩
  generalize (if r.state = .decided then s
      else (s.modBoard i fun y => y.addFlag .earlyExit).closeIfOpen i) = u at h1 ⊢
  have h2 : Tracks A s (u.modBoard i fun y => { y with exitPos := some x }) :=
    h1.trans (.modBoard hi u _ fun x => ⟨rfl, rfl, rfl, rfl, rfl⟩)
  exact ((h2.trans (.makeLeaving hi _ _)).trans (.setExit _ l _)).trans (.applyHeldMap _ l)

theorem Tracks.exitUnexpected {A : Slot → Prop} (s : State) (l : Lane)
    (f : Option (Slot × Record)) (n : Nat) : Tracks A s (s.exitUnexpected l f n) :=
  (Tracks.setExit s l _).trans (.recordFault _ _)

theorem Tracks.exitCompare (s : State) (l : Lane) : Tracks (fun _ => True) s (s.exitCompare l) := by
  unfold State.exitCompare
  dsimp only
  split
  · exact .exitUnexpected s l _ _
  · split
    · exact .exitUnexpected s l _ _
    · exact .exitMatch trivial s l _ _

theorem Tracks.exitTrailing {A : Slot → Prop} (s : State) (l : Lane) :
    Tracks A s (s.exitTrailing l) := by
  unfold State.exitTrailing
  split
  · exact .setExit s l _
  · exact .refl A s

/-! ### LANE_PURGE and HEAD_FLUSH -/

theorem Tracks.purgeOne {A : Slot → Prop} {i : Slot} (hi : A i) (s : State) :
    Tracks A s (s.purgeOne i) := by
  unfold State.purgeOne
  have h : Tracks A s (s.modBoard i fun r => r.addFlag .purged) :=
    .modBoard hi s _ fun x => ⟨rfl, rfl, rfl, rfl, rfl⟩
  exact (h.trans (.closeIfOpen hi _)).trans (.makeLeaving hi _ _)

theorem Keeps.lanePurge (s : State) (l : Lane) : Keeps s (s.lanePurge l) := by
  unfold State.lanePurge
  dsimp only
  have h : Keeps s ((s.lane l).order.foldl State.purgeOne s) :=
    (Tracks.foldl (A := fun _ => True) _ (fun u i _ => .purgeOne trivial u) s).keeps
  generalize (s.lane l).order.foldl State.purgeOne s = u at h ⊢
  have h2 : Keeps s (u.setLane l
      { u.lane l with announces := [], entry := .ready, exit := .ready }) :=
    h.trans (.setLane u l _ fun _ => Nat.zero_le 4)
  exact h2.trans (Tracks.applyHeldMap (A := fun _ => True) _ l).keeps

theorem Tracks.flushRecord {A : Slot → Prop} {i : Slot} (hi : A i) (s : State) (n : HeadId) :
    Tracks A s (State.flushRecord n s i) := by
  unfold State.flushRecord
  split
  · exact .refl A s
  · split
    · exact (Tracks.markFinal hi s _ _).trans (.closeCheck hi _)
    · exact (Tracks.markFinal hi s _ _).trans (.closeCheck hi _)
    · exact (Tracks.markFinal hi s _ _).trans (.closeCheck hi _)
    all_goals exact .refl A s

theorem Keeps.setRawLink (s : State) (n : HeadId) (x : Link)
    (h1 : (s.link n).triggers.length ≤ 8 → x.triggers.length ≤ 8)
    (h2 : (s.link n).results.length ≤ 64 → x.results.length ≤ 64) : Keeps s (s.setRawLink n x) :=
  ⟨id, .refl s, fun hs => { hs with
    triggers := fun m => by
      simp only [State.setRawLink_link]
      split
      · exact h1 (hs.triggers n)
      · exact hs.triggers m
    results := fun m => by
      simp only [State.setRawLink_link]
      split
      · exact h2 (hs.results n)
      · exact hs.results m }, fun hs => hs⟩

theorem Keeps.setLink (s : State) (n : HeadId) (x : Link)
    (h1 : (s.link n).triggers.length ≤ 8 → x.triggers.length ≤ 8)
    (h2 : (s.link n).results.length ≤ 64 → x.results.length ≤ 64) : Keeps s (s.setLink n x) := by
  unfold State.setLink
  split
  · exact (Keeps.setRawLink s n x h1 h2).trans (Tracks.raise (A := fun _ => True) _ _ _).keeps
  · exact .setRawLink s n x h1 h2

theorem Keeps.headFlush (s : State) (n : HeadId) : Keeps s (s.headFlush n) := by
  unfold State.headFlush
  dsimp only
  refine ((Keeps.setLink s n { s.link n with triggers := [], results := [] }
    (fun _ => Nat.zero_le 8) (fun _ => Nat.zero_le 64)).trans
    (Tracks.drawn (A := fun _ => True) _).keeps).trans
    (Tracks.foldl (A := fun _ => True) _ (fun u i _ => .flushRecord trivial u n) _).keeps

end Sys2Proof.Machine
end

