-- ==== Sys2Proof/Laws/Close.lean ====
section
/-! SUPPORT. What the parts of a close do: every head ended (R126), the unwalked entries counted, the
suspects resolved alone (R127), the verdict fixed (R128, R129); and what one report resolved alone does. -/

namespace Sys2Proof.Machine

open Sys2Proof

/-! ### Sets and orders -/

theorem mem_setErase {α : Type} [DecidableEq α] (x y : α) (xs : List α) :
    y ∈ setErase x xs ↔ y ∈ xs ∧ y ≠ x := by
  simp [setErase]

theorem mem_addFlag (r : Record) (f g : BoardFlag) : g ∈ (r.addFlag f).flags ↔ g = f ∨ g ∈ r.flags := by
  have h : g ∈ BoardFlag.all := by cases g <;> decide
  simp [Record.addFlag, setInsert, h]

theorem mem_raised (s : State) (p : Port) (f g : AlertFlag) :
    g ∈ ((s.raise p f).alert p).latched ↔ g = f ∨ g ∈ (s.alert p).latched := by
  have h : g ∈ AlertFlag.all := by cases g <;> decide
  have e : ((s.raise p f).alert p).latched = setInsert AlertFlag.all f (s.alert p).latched := by
    simp [State.raise, State.alert, State.setAlert]
  rw [e]
  simp [setInsert, h]

theorem insertBy_perm {α : Type} (rank : α → Nat) (x : α) (xs : List α) :
    (insertBy rank x xs).Perm (x :: xs) := by
  induction xs with
  | nil => exact .refl _
  | cons y ys ih =>
    unfold insertBy
    split
    · exact .refl _
    · exact (ih.cons y).trans (.swap x y ys)

theorem orderBy_perm {α : Type} (rank : α → Nat) (xs : List α) : (orderBy rank xs).Perm xs := by
  induction xs with
  | nil => exact .refl _
  | cons x xs ih => exact (insertBy_perm rank x _).trans (ih.cons x)

theorem insertBy_pairwise {α : Type} (rank : α → Nat) (x : α) (xs : List α)
    (h : xs.Pairwise fun a b => rank a ≤ rank b) :
    (insertBy rank x xs).Pairwise fun a b => rank a ≤ rank b := by
  induction xs with
  | nil => simp [insertBy]
  | cons y ys ih =>
    unfold insertBy
    have hy := List.pairwise_cons.1 h
    split
    · rename_i hxy
      refine List.pairwise_cons.2 ⟨fun z hz => ?_, h⟩
      rcases List.mem_cons.1 hz with rfl | hz
      · exact hxy
      · exact Nat.le_trans hxy (hy.1 z hz)
    · rename_i hxy
      refine List.pairwise_cons.2 ⟨fun z hz => ?_, ih hy.2⟩
      rcases List.mem_cons.1 ((insertBy_perm rank x ys).mem_iff.1 hz) with rfl | hz
      · exact Nat.le_of_lt (Nat.lt_of_not_le hxy)
      · exact hy.1 z hz

/-- `orderBy` puts its list in rising rank. -/
theorem orderBy_pairwise {α : Type} (rank : α → Nat) (xs : List α) :
    (orderBy rank xs).Pairwise fun a b => rank a ≤ rank b := by
  induction xs with
  | nil => exact .nil
  | cons x xs ih => exact insertBy_pairwise rank x _ ih

/-! ### Ending the heads (R126) -/

/-- `x` is `r` with its heads in `ns` ended. -/
structure Ended (ns : List HeadId) (r x : Record) : Prop where
  rest : x = { r with heads := x.heads, flags := x.flags }
  heads : ∀ m, x.heads.get m =
    if m ∈ ns ∧ (r.headStatus m).isFinal = false then { r.heads.get m with status := .late }
    else r.heads.get m
  flags : ∀ f, f ∈ x.flags ↔ f ∈ r.flags ∨
    (f = .headLate ∧ ∃ n ∈ ns, (r.headStatus n).isFinal = false) ∨
    (f = .headAbsent ∧ BoardFlag.noRecipe ∉ r.flags ∧ ∃ n ∈ ns, r.headStatus n = .absent)

theorem Ended.nil (r : Record) : Ended [] r r := ⟨rfl, by simp, by simp⟩

theorem Ended.status {ns : List HeadId} {r x : Record} (h : Ended ns r x) {n : HeadId}
    (hn : n ∉ ns) : x.headStatus n = r.headStatus n := by
  unfold Record.headStatus
  rw [h.heads n, if_neg fun e => hn e.1]

theorem Ended.late {ns : List HeadId} {r x : Record} (h : Ended ns r x) {n : HeadId}
    (hn : n ∉ ns) (hs : (r.headStatus n).isFinal = false) :
    Ended (n :: ns) r ((x.setStatus n .late).addFlag .headLate) := by
  refine ⟨?_, fun m => ?_, fun f => ?_⟩
  · conv_lhs => rw [h.rest]
    rfl
  · show ((x.heads.set n { x.heads.get n with status := .late }).get m) = _
    rw [PerHead.get_set]
    by_cases e : m = n
    · subst e
      rw [if_pos rfl, if_pos ⟨List.mem_cons_self, hs⟩, h.heads m, if_neg fun e => hn e.1]
    · rw [if_neg e, h.heads m]
      simp [e]
  · have hx : f ∈ (x.setStatus n .late).flags ↔ f ∈ x.flags := Iff.rfl
    have ha : r.headStatus n ≠ .absent := fun e => by rw [e] at hs; exact nomatch hs
    rw [mem_addFlag, hx, h.flags]
    constructor
    · rintro (e | e | ⟨e, m, hm, k⟩ | ⟨e, k, m, hm, q⟩)
      · exact .inr (.inl ⟨e, n, List.mem_cons_self, hs⟩)
      · exact .inl e
      · exact .inr (.inl ⟨e, m, List.mem_cons_of_mem n hm, k⟩)
      · exact .inr (.inr ⟨e, k, m, List.mem_cons_of_mem n hm, q⟩)
    · rintro (e | ⟨e, m, hm, k⟩ | ⟨e, k, m, hm, q⟩)
      · exact .inr (.inl e)
      · exact .inl e
      · rcases List.mem_cons.1 hm with rfl | hm
        · exact absurd q ha
        · exact .inr (.inr (.inr ⟨e, k, m, hm, q⟩))

theorem Ended.absent {ns : List HeadId} {r x : Record} (h : Ended ns r x) {n : HeadId}
    (hs : r.headStatus n = .absent) (hr : BoardFlag.noRecipe ∉ r.flags) :
    Ended (n :: ns) r (x.addFlag .headAbsent) := by
  have hf : (r.headStatus n).isFinal ≠ false := by rw [hs]; exact Bool.noConfusion
  refine ⟨?_, fun m => ?_, fun f => ?_⟩
  · conv_lhs => rw [h.rest]
    rfl
  · show x.heads.get m = _
    rw [h.heads m]
    by_cases e : m = n
    · subst e
      rw [if_neg fun e => hf e.2, if_neg fun e => hf e.2]
    · simp [e]
  · rw [mem_addFlag, h.flags]
    constructor
    · rintro (e | e | ⟨e, m, hm, k⟩ | ⟨e, k, m, hm, q⟩)
      · exact .inr (.inr ⟨e, hr, n, List.mem_cons_self, hs⟩)
      · exact .inl e
      · exact .inr (.inl ⟨e, m, List.mem_cons_of_mem n hm, k⟩)
      · exact .inr (.inr ⟨e, k, m, List.mem_cons_of_mem n hm, q⟩)
    · rintro (e | ⟨e, m, hm, k⟩ | ⟨e, _⟩)
      · exact .inr (.inl e)
      · rcases List.mem_cons.1 hm with rfl | hm
        · exact absurd k hf
        · exact .inr (.inr (.inl ⟨e, m, hm, k⟩))
      · exact .inl e

/-- A head that gains no mark: final and not ABSENT, or ABSENT with NO_RECIPE. -/
theorem Ended.same {ns : List HeadId} {r x : Record} (h : Ended ns r x) {n : HeadId}
    (hs : (r.headStatus n).isFinal = true)
    (ha : r.headStatus n = .absent → BoardFlag.noRecipe ∈ r.flags) : Ended (n :: ns) r x := by
  have hf : (r.headStatus n).isFinal ≠ false := by rw [hs]; exact Bool.noConfusion
  refine ⟨h.rest, fun m => ?_, fun f => ?_⟩
  · rw [h.heads m]
    by_cases e : m = n
    · subst e
      rw [if_neg fun e => hf e.2, if_neg fun e => hf e.2]
    · simp [e]
  · rw [h.flags]
    constructor
    · rintro (e | ⟨e, m, hm, k⟩ | ⟨e, k, m, hm, q⟩)
      · exact .inl e
      · exact .inr (.inl ⟨e, m, List.mem_cons_of_mem n hm, k⟩)
      · exact .inr (.inr ⟨e, k, m, List.mem_cons_of_mem n hm, q⟩)
    · rintro (e | ⟨e, m, hm, k⟩ | ⟨e, k, m, hm, q⟩)
      · exact .inl e
      · rcases List.mem_cons.1 hm with rfl | hm
        · exact absurd k hf
        · exact .inr (.inl ⟨e, m, hm, k⟩)
      · rcases List.mem_cons.1 hm with rfl | hm
        · exact absurd (ha q) k
        · exact .inr (.inr ⟨e, k, m, hm, q⟩)

theorem endHead_rest (s : State) (i : Slot) (n : HeadId) :
    s.endHead i n = { s with slots := (s.endHead i n).slots, links := (s.endHead i n).links } := by
  unfold State.endHead
  split
  · rfl
  · split <;> first | rfl | (split <;> rfl)

theorem endHead_board {s : State} {i : Slot} {n : HeadId} {ns : List HeadId} {r x : Record}
    (hx : s.board i = some x) (h : Ended ns r x) (hn : n ∉ ns) :
    ∃ y, (s.endHead i n).board i = some y ∧ Ended (n :: ns) r y := by
  have hs := h.status hn
  have hflag : BoardFlag.noRecipe ∈ x.flags ↔ BoardFlag.noRecipe ∈ r.flags := by
    rw [h.flags]
    constructor
    · rintro (e | ⟨e, _⟩ | ⟨e, _⟩)
      · exact e
      · exact nomatch e
      · exact nomatch e
    · exact .inl
  unfold State.endHead
  rw [hx]
  dsimp only
  rw [hs]
  have hb (u : State) (y : Record) : (u.setBoard i (some y)).board i = some y := by
    rw [State.setBoard_board, if_pos rfl]
  cases e : r.headStatus n with
  | waiting => exact ⟨_, hb _ _, h.late hn (by rw [e]; rfl)⟩
  | triggered => exact ⟨_, hb _ _, h.late hn (by rw [e]; rfl)⟩
  | taken => exact ⟨_, hb _ _, h.late hn (by rw [e]; rfl)⟩
  | reporting => exact ⟨_, hb _ _, h.late hn (by rw [e]; rfl)⟩
  | absent =>
    dsimp only
    have hc : x.has .noRecipe = true ↔ BoardFlag.noRecipe ∈ r.flags := by
      rw [← hflag]
      exact List.contains_iff_mem
    by_cases hr : BoardFlag.noRecipe ∈ r.flags
    · rw [if_pos (hc.2 hr)]
      exact ⟨x, hx, h.same (by rw [e]; rfl) fun _ => hr⟩
    · rw [if_neg fun k => hr (hc.1 k)]
      exact ⟨_, hb _ _, h.absent e hr⟩
  | complete => exact ⟨x, hx, h.same (by rw [e]; rfl) fun q => nomatch e.symm.trans q⟩
  | late => exact ⟨x, hx, h.same (by rw [e]; rfl) fun q => nomatch e.symm.trans q⟩
  | faulted => exact ⟨x, hx, h.same (by rw [e]; rfl) fun q => nomatch e.symm.trans q⟩
  | notRequired => exact ⟨x, hx, h.same (by rw [e]; rfl) fun q => nomatch e.symm.trans q⟩

/-- `t` differs from `s` in boards and Head Links only. -/
def OnlyBoardsAndLinks (s t : State) : Prop := ∃ a b, t = { s with slots := a, links := b }

theorem OnlyBoardsAndLinks.trans {s t u : State} (h : OnlyBoardsAndLinks s t)
    (k : OnlyBoardsAndLinks t u) : OnlyBoardsAndLinks s u := by
  obtain ⟨a, b, rfl⟩ := h
  obtain ⟨c, d, rfl⟩ := k
  exact ⟨c, d, rfl⟩

theorem endHead_only (s : State) (i : Slot) (n : HeadId) : OnlyBoardsAndLinks s (s.endHead i n) :=
  ⟨_, _, endHead_rest s i n⟩

theorem endHeads_only (s : State) (i : Slot) : OnlyBoardsAndLinks s (s.endHeads i) :=
  (((endHead_only s i .h0).trans (endHead_only _ i .h1)).trans (endHead_only _ i .h2)).trans
    (endHead_only _ i .h3)

/-- Every head of the record is ended. -/
theorem endHeads_board {s : State} {i : Slot} {r : Record} (h : s.board i = some r) :
    ∃ x, (s.endHeads i).board i = some x ∧ Ended HeadId.all r x := by
  obtain ⟨x0, h0, e0⟩ := endHead_board (n := .h0) h (Ended.nil r) (by decide)
  obtain ⟨x1, h1, e1⟩ := endHead_board (s := s.endHead i .h0) (n := .h1) h0 e0 (by decide)
  obtain ⟨x2, h2, e2⟩ := endHead_board (s := (s.endHead i .h0).endHead i .h1) (n := .h2) h1
    e1 (by decide)
  obtain ⟨x3, h3, e3⟩ := endHead_board (s := ((s.endHead i .h0).endHead i .h1).endHead i .h2)
    (n := .h3) h2 e2 (by decide)
  have hm (n : HeadId) : n ∈ [HeadId.h3, .h2, .h1, .h0] ↔ n ∈ HeadId.all := by cases n <;> decide
  refine ⟨x3, h3, e3.rest, fun m => ?_, fun f => ?_⟩
  · rw [e3.heads m]
    simp only [hm]
  · rw [e3.flags f]
    simp only [hm]

/-- A head's trigger queue as the end of head n leaves it. -/
theorem endHead_link {s : State} {i : Slot} {n : HeadId} {x : Record} (hx : s.board i = some x)
    (m : HeadId) : (s.endHead i n).link m =
      if m = n ∧ x.headStatus n = .triggered then
        { s.link m with triggers := (s.link m).triggers.filter fun t => decide (t.tag ≠ x.tag) }
      else s.link m := by
  unfold State.endHead
  rw [hx]
  dsimp only
  have k (y : HeadStatus) (hy : y ≠ .triggered) : ¬(m = n ∧ y = .triggered) := fun q => hy q.2
  cases e : x.headStatus n with
  | triggered =>
    show ((s.links.set n _).get m) = _
    rw [PerHead.get_set]
    by_cases k : m = n
    · subst k; rw [if_pos rfl, if_pos ⟨rfl, rfl⟩]
    · rw [if_neg k, if_neg fun q => k q.1]; rfl
  | absent =>
    rw [if_neg (k .absent (by simp))]
    dsimp only
    split <;> rfl
  | waiting => rw [if_neg (k .waiting (by simp))]; rfl
  | taken => rw [if_neg (k .taken (by simp))]; rfl
  | reporting => rw [if_neg (k .reporting (by simp))]; rfl
  | complete => rw [if_neg (k .complete (by simp))]
  | late => rw [if_neg (k .late (by simp))]
  | faulted => rw [if_neg (k .faulted (by simp))]
  | notRequired => rw [if_neg (k .notRequired (by simp))]

/-- The close removes the record's trigger from the queue of each head that is TRIGGERED. -/
theorem endHeads_link {s : State} {i : Slot} {r : Record} (h : s.board i = some r) (m : HeadId) :
    (s.endHeads i).link m =
      if r.headStatus m = .triggered then
        { s.link m with triggers := (s.link m).triggers.filter fun t => decide (t.tag ≠ r.tag) }
      else s.link m := by
  obtain ⟨x0, h0, e0⟩ := endHead_board (n := .h0) h (Ended.nil r) (by decide)
  obtain ⟨x1, h1, e1⟩ := endHead_board (s := s.endHead i .h0) (n := .h1) h0 e0 (by decide)
  obtain ⟨x2, h2, e2⟩ := endHead_board (s := (s.endHead i .h0).endHead i .h1) (n := .h2) h1
    e1 (by decide)
  have t0 : x0.tag = r.tag := by rw [e0.rest]
  have t1 : x1.tag = r.tag := by rw [e1.rest]
  have t2 : x2.tag = r.tag := by rw [e2.rest]
  show ((((s.endHead i .h0).endHead i .h1).endHead i .h2).endHead i .h3).link m = _
  rw [endHead_link h2, endHead_link h1, endHead_link h0, endHead_link h, e2.status (by decide),
    e1.status (by decide), e0.status (by decide), t0, t1, t2]
  cases m <;> simp

/-! ### Resolving reports -/

/-- The counts after a report resolved alone (R112). -/
def Report.count (p : Report) (c : Counts) : Counts :=
  match p.grade with
  | .good => c
  | .marginal => { c with marginals := c.marginals + 1 }
  | .notMeasured => { c with unseen := c.unseen + 1 }
  | .defect => Counts.addDefect p.criticality c

/-- `t` differs from `s` in boards, the Defect Pool, the channels, faults and alerts only. -/
def OnlyDefects (s t : State) : Prop :=
  ∃ a b c d e, t = { s with slots := a, defects := b, channels := c, faults := d, alerts := e }

theorem OnlyDefects.refl (s : State) : OnlyDefects s s := ⟨_, _, _, _, _, rfl⟩

theorem OnlyDefects.trans {s t u : State} (h : OnlyDefects s t) (k : OnlyDefects t u) :
    OnlyDefects s u := by
  obtain ⟨a, b, c, d, e, rfl⟩ := h
  obtain ⟨a', b', c', d', e', rfl⟩ := k
  exact ⟨a', b', c', d', e', rfl⟩

theorem requestWrite_only (s : State) (c : Channel) : OnlyDefects s (s.requestWrite c) := by
  unfold State.requestWrite
  split <;> exact ⟨_, _, _, _, _, rfl⟩

theorem modBoard_only (s : State) (i : Slot) (f : Record → Record) : OnlyDefects s (s.modBoard i f) := by
  unfold State.modBoard
  split <;> exact ⟨_, _, _, _, _, rfl⟩

theorem recordFault_only (s : State) (f : FaultRec) : OnlyDefects s (s.recordFault f) := by
  unfold State.recordFault
  split <;> exact ⟨_, _, _, _, _, rfl⟩

theorem recordFaults_only (s : State) (fs : List FaultRec) : OnlyDefects s (s.recordFaults fs) := by
  unfold State.recordFaults
  induction fs generalizing s with
  | nil => exact .refl s
  | cons f fs ih => exact (recordFault_only s f).trans (ih _)

theorem addDefect_only (s : State) (src : Source) (i : Slot) (d : DefectRec) :
    OnlyDefects s (s.addDefect src i d).1 := by
  unfold State.addDefect
  split
  · exact .refl s
  · split
    · refine OnlyDefects.trans (t := { s.modBoard i (fun r => { r with outstanding := r.outstanding + 1 }) with
        defects := s.defects ++ [⟨i, d⟩] }) ?_ (requestWrite_only _ _)
      exact (modBoard_only s i _).trans ⟨_, _, _, _, _, rfl⟩
    · split
      · exact ⟨_, _, _, _, _, rfl⟩
      · exact .refl s

theorem resolveAlone_only (s : State) (src : Source) (i : Slot) (j : JointId) (p : Report) :
    OnlyDefects s (s.resolveAlone src i j p).1 := by
  unfold State.resolveAlone
  split
  · exact .refl s
  · exact modBoard_only s i _
  · exact modBoard_only s i _
  · split
    · exact (modBoard_only s i _).trans (addDefect_only _ _ _ _)
    · exact .refl s

/-- `x` is `r` with the counts `c`, apart from what the Defect Pool decides. -/
structure Counted (c : Counts) (r x : Record) : Prop where
  rest : x = { r with counts := c, outstanding := x.outstanding, flags := x.flags }
  flags : ∀ f, f ≠ .defectRecordsDropped → (f ∈ x.flags ↔ f ∈ r.flags)

theorem recordFaults_board (s : State) (fs : List FaultRec) (i : Slot) :
    (s.recordFaults fs).board i = s.board i :=
  (Tracks.recordFaults (A := fun _ => False) s fs).frame.boards i id

theorem addDefect_board {s : State} {i : Slot} {r : Record} (h : s.board i = some r) (src : Source)
    (d : DefectRec) : ∃ x, (s.addDefect src i d).1.board i = some x ∧ Counted r.counts r x := by
  have hb (u : State) (y : Record) : (u.setBoard i (some y)).board i = some y := by
    rw [State.setBoard_board, if_pos rfl]
  unfold State.addDefect
  split
  · exact ⟨r, h, rfl, fun _ _ => .rfl⟩
  · split
    · refine ⟨{ r with outstanding := r.outstanding + 1 }, ?_, rfl, fun _ _ => .rfl⟩
      have hq (u : State) : (u.requestWrite .defect).board i = u.board i :=
        (Tracks.requestWrite (A := fun _ => False) u .defect).frame.boards i id
      rw [hq]
      show (s.modBoard i _).board i = _
      unfold State.modBoard
      rw [h]
      exact hb _ _
    · rw [h]
      refine ⟨_, hb _ _, rfl, fun f hf => ?_⟩
      rw [mem_addFlag]
      exact ⟨fun e => e.resolve_left hf, .inr⟩

theorem modCounts_board {s : State} {i : Slot} {r : Record} (h : s.board i = some r)
    (f : Counts → Counts) :
    (s.modCounts i f).board i = some { r with counts := f r.counts } := by
  unfold State.modCounts State.modBoard
  rw [h]
  dsimp only
  rw [State.setBoard_board, if_pos rfl]

theorem resolveAlone_board {s : State} {i : Slot} {r : Record} (h : s.board i = some r)
    (src : Source) (j : JointId) (p : Report) :
    ∃ x, (s.resolveAlone src i j p).1.board i = some x ∧ Counted (p.count r.counts) r x := by
  unfold State.resolveAlone Report.count
  cases p.grade with
  | good => exact ⟨r, h, rfl, fun _ _ => .rfl⟩
  | marginal => exact ⟨_, modCounts_board h _, rfl, fun _ _ => .rfl⟩
  | notMeasured => exact ⟨_, modCounts_board h _, rfl, fun _ _ => .rfl⟩
  | defect =>
    dsimp only
    rw [h]
    obtain ⟨x, hx, e⟩ := addDefect_board (modCounts_board h (Counts.addDefect p.criticality)) src
      (r.defectOf j false p)
    exact ⟨x, hx, e.rest, e.flags⟩

theorem resolveSuspect_board {s : State} {i : Slot} {r : Record} (h : s.board i = some r)
    (x : Suspect) :
    ∃ y, (s.resolveSuspect i x).board i = some y ∧ Counted (x.report.count r.counts) r y := by
  have h' : State.board { s with suspects := setErase x s.suspects } i = some r := h
  obtain ⟨y, hy, e⟩ := resolveAlone_board h' .verdictUnit x.joint x.report
  refine ⟨y, ?_, e⟩
  unfold State.resolveSuspect
  dsimp only
  rw [recordFaults_board]
  exact hy

theorem resolveSuspect_only (s : State) (i : Slot) (x : Suspect) :
    OnlyDefects { s with suspects := setErase x s.suspects } (s.resolveSuspect i x) := by
  unfold State.resolveSuspect
  exact (resolveAlone_only _ _ _ _ _).trans (recordFaults_only _ _)

/-- The suspects `xs` of a record resolved one after another. -/
theorem foldSuspects_board {i : Slot} (xs : List Suspect) {s : State} {r : Record}
    (h : s.board i = some r) :
    ∃ y, (xs.foldl (fun u x => State.resolveSuspect u i x) s).board i = some y ∧
      Counted (xs.foldl (fun c x => x.report.count c) r.counts) r y := by
  induction xs generalizing s r with
  | nil => exact ⟨r, h, rfl, fun _ _ => .rfl⟩
  | cons x xs ih =>
    obtain ⟨y, hy, e⟩ := resolveSuspect_board h x
    obtain ⟨z, hz, k⟩ := ih hy
    refine ⟨z, hz, ?_, fun f hf => (k.flags f hf).trans (e.flags f hf)⟩
    have hc : y.counts = x.report.count r.counts := by rw [e.rest]
    rw [hc] at k
    conv_lhs => rw [k.rest, e.rest]
    rfl

theorem foldSuspects_only {i : Slot} (xs : List Suspect) (s : State) :
    OnlyDefects { s with suspects := s.suspects.filter fun x => !xs.contains x }
      (xs.foldl (fun u x => State.resolveSuspect u i x) s) := by
  induction xs generalizing s with
  | nil =>
    have e : (s.suspects.filter fun x => !([] : List Suspect).contains x) = s.suspects := by simp
    rw [e]
    exact .refl s
  | cons x xs ih =>
    obtain ⟨a, b, c, d, e, hu⟩ := resolveSuspect_only s i x
    refine OnlyDefects.trans ?_ (ih (s.resolveSuspect i x))
    have hs : (s.resolveSuspect i x).suspects = setErase x s.suspects := by rw [hu]
    have hf : (setErase x s.suspects).filter (fun y => !xs.contains y) =
        s.suspects.filter fun y => !(x :: xs).contains y := by
      unfold setErase
      rw [List.filter_filter]
      congr 1
      funext y
      by_cases q : y = x <;> simp [q]
    rw [hs, hf, hu]
    exact ⟨a, b, c, d, e, rfl⟩

/-- The counts that a list of suspects resolved alone adds up to. -/
theorem foldCounts (xs : List Suspect) (c : Counts) :
    xs.foldl (fun c x => x.report.count c) c =
      { c with
        defects := c.defects + xs.countP fun x => decide (x.grade = .defect)
        critical := c.critical +
          xs.countP fun x => decide (x.grade = .defect) && decide (x.criticality = .critical)
        marginals := c.marginals + xs.countP fun x => decide (x.grade = .marginal)
        unseen := c.unseen + xs.countP fun x => decide (x.grade = .notMeasured) } := by
  induction xs generalizing c with
  | nil => rfl
  | cons x xs ih =>
    rw [List.foldl_cons, ih]
    simp only [List.countP_cons]
    unfold Report.count Suspect.report
    cases hg : x.grade <;> cases hc : x.criticality <;>
      simp [Counts.addDefect, Nat.add_assoc, Nat.add_comm 1]

/-! ### What the Defect Pool keeps of a close (R119, R127, R157) -/

theorem PooledFrom.nil {s t : State} {i : Slot} {r x : Record} (h1 : t.defects = s.defects)
    (h2 : x.outstanding = r.outstanding) (h3 : t.faults = s.faults)
    (h4 : BoardFlag.defectRecordsDropped ∈ x.flags ↔ BoardFlag.defectRecordsDropped ∈ r.flags) :
    PooledFrom s t i r x [] :=
  ⟨fun _ => ⟨h1, h2, h3, h4⟩, fun _ => by simp [h1], fun _ => by simp [h2],
    fun _ => by simp [h4], fun _ => by simpa using h3⟩

theorem recordFault_faults {s t : State} (h : s.faults = t.faults) (f : FaultRec) :
    (s.recordFault f).faults = (t.recordFault f).faults := by
  unfold State.recordFault
  rw [h]
  split <;> rfl

theorem recordFaults_defects (s : State) (fs : List FaultRec) :
    (s.recordFaults fs).defects = s.defects := by
  unfold State.recordFaults
  induction fs generalizing s with
  | nil => rfl
  | cons f fs ih =>
    rw [List.foldl_cons, ih]
    unfold State.recordFault
    split <;> rfl

theorem PooledFrom.trans {s t u : State} {i : Slot} {r x y : Record} {ds es : List DefectRec}
    (h : PooledFrom s t i r x ds) (k : PooledFrom t u i x y es)
    (hc : (t.channel .defect).state = (s.channel .defect).state) (hl : x.lane = r.lane)
    (ht : x.tag = r.tag) : PooledFrom s u i r y (ds ++ es) := by
  have hn (hs : (s.channel .defect).state ≠ .disabled) :
      384 - t.defects.length = 384 - s.defects.length - ds.length := by
    rw [h.pool hs, List.length_append, List.length_map, List.length_take]
    omega
  refine ⟨fun hs => ?_, fun hs => ?_, fun hs => ?_, fun hs => ?_, fun hs => ?_⟩
  · obtain ⟨a, b, c, d⟩ := h.disabled hs
    obtain ⟨a', b', c', d'⟩ := k.disabled (hc.trans hs)
    exact ⟨a'.trans a, b'.trans b, c'.trans c, d'.trans d⟩
  · rw [k.pool (by rw [hc]; exact hs), hn hs, h.pool hs, List.take_append, List.map_append,
      List.append_assoc]
  · rw [k.outstanding (by rw [hc]; exact hs), hn hs, h.outstanding hs, List.take_append,
      List.length_append, Nat.add_assoc]
  · rw [k.dropped (by rw [hc]; exact hs), hn hs, h.dropped hs, List.length_append]
    by_cases e : 384 - s.defects.length < ds.length
    · constructor
      · intro _; right; omega
      · intro _; left; right; exact e
    · constructor
      · rintro ((a | a) | a)
        · exact .inl a
        · exact absurd a e
        · right; omega
      · rintro (a | a)
        · exact .inl (.inl a)
        · right; omega
  · rw [k.faults (by rw [hc]; exact hs), hn hs, List.drop_append, hl, ht]
    have hf := h.faults hs
    have hd := h.dropped hs
    cases e : ds.drop (384 - s.defects.length) with
    | nil =>
      rw [e] at hf
      have : ¬ 384 - s.defects.length < ds.length := by
        have := List.drop_eq_nil_iff.1 e; omega
      simp only [this, or_false] at hd
      simp only [List.nil_append]
      cases es.drop (384 - s.defects.length - ds.length) with
      | nil => exact hf
      | cons d rest =>
        dsimp only
        simp only [hd]
        split
        · exact hf
        · exact recordFault_faults hf _
    | cons d rest =>
      rw [e] at hf
      have : 384 - s.defects.length < ds.length := by
        have := congrArg List.length e
        simp only [List.length_drop, List.length_cons] at this
        omega
      have hx : BoardFlag.defectRecordsDropped ∈ x.flags := hd.2 (.inr this)
      simp only [List.cons_append]
      refine Eq.trans ?_ hf
      cases es.drop (384 - s.defects.length - ds.length) with
      | nil => rfl
      | cons _ _ => dsimp only; rw [if_pos hx]

theorem modCounts_some {s : State} {i : Slot} {r : Record} (h : s.board i = some r)
    (f : Counts → Counts) : s.modCounts i f = s.setBoard i (some { r with counts := f r.counts }) := by
  unfold State.modCounts State.modBoard
  rw [h]

theorem requestWrite_keeps (s : State) (c : Channel) : (s.requestWrite c).defects = s.defects ∧
    (s.requestWrite c).faults = s.faults ∧ (s.requestWrite c).slots = s.slots ∧
    ∀ d, ((s.requestWrite c).channel d).state = (s.channel d).state := by
  unfold State.requestWrite
  split
  · refine ⟨rfl, rfl, rfl, fun d => ?_⟩
    simp only [State.setChannel_channel]
    split
    · rename_i e; subst e; rfl
    · rfl
  · exact ⟨rfl, rfl, rfl, fun _ => rfl⟩

/-- A defect record of the Verdict Unit reaches the pool (R119). -/
theorem addDefect_pooled {s : State} {i : Slot} {r y : Record} (h : s.board i = some r)
    (d : DefectRec)
    (hy : ((s.addDefect .verdictUnit i d).1.recordFaults (s.addDefect .verdictUnit i d).2).board i =
      some y) :
    PooledFrom s ((s.addDefect .verdictUnit i d).1.recordFaults (s.addDefect .verdictUnit i d).2)
      i r y [d] := by
  rw [recordFaults_board] at hy
  unfold State.addDefect at hy ⊢
  by_cases h1 : (s.channel .defect).state = .disabled
  · rw [if_pos h1] at hy ⊢
    cases h.symm.trans hy
    have hn {p : Prop} (k : (s.channel .defect).state ≠ .disabled) : p := absurd h1 k
    exact ⟨fun _ => ⟨rfl, rfl, rfl, .rfl⟩, fun k => hn k, fun k => hn k, fun k => hn k, fun k => hn k⟩
  · rw [if_neg h1] at hy ⊢
    have hn {p : Prop} (k : (s.channel .defect).state = .disabled) : p := absurd k h1
    by_cases h2 : s.defects.length < 384
    · rw [if_pos (show s.defects.length < Config.defectCapacity from h2)] at hy ⊢
      obtain ⟨e1, e2, e3, _⟩ := requestWrite_keeps
        { s.modBoard i (fun r => { r with outstanding := r.outstanding + 1 }) with
          defects := s.defects ++ [⟨i, d⟩] } .defect
      have em : s.modBoard i (fun r => { r with outstanding := r.outstanding + 1 }) =
          s.setBoard i (some { r with outstanding := r.outstanding + 1 }) := by
        unfold State.modBoard; rw [h]
      have ey : some y = some { r with outstanding := r.outstanding + 1 } := by
        rw [← hy]
        unfold State.board
        dsimp only
        rw [e3, em]
        simp [State.setBoard]
      cases ey
      have ht : [d].take (384 - s.defects.length) = [d] := by
        rw [List.take_of_length_le]; simp only [List.length_singleton]; omega
      have hd : [d].drop (384 - s.defects.length) = [] := by
        rw [List.drop_eq_nil_iff]; simp only [List.length_singleton]; omega
      refine ⟨fun k => hn k, fun _ => ?_, fun _ => ?_, fun _ => ?_, fun _ => ?_⟩
      · rw [ht]; exact e1
      · rw [ht]; rfl
      · constructor
        · exact .inl
        · rintro (a | a)
          · exact a
          · simp only [List.length_singleton] at a; omega
      · rw [hd]
        refine e2.trans ?_
        rw [em]; rfl
    · rw [if_neg (show ¬ s.defects.length < Config.defectCapacity from h2)] at hy ⊢
      rw [h] at hy ⊢
      have ey : y = r.addFlag .defectRecordsDropped := by
        dsimp only at hy
        rw [State.setBoard_board, if_pos rfl] at hy
        cases hy; rfl
      have h0 : 384 - s.defects.length = 0 := by omega
      subst ey
      refine ⟨fun k => hn k, fun _ => ?_, fun _ => ?_, fun _ => ?_, fun _ => ?_⟩
      · rw [h0]
        dsimp only
        rw [List.take_zero, List.map_nil, List.append_nil]
        exact recordFaults_defects _ _
      · rw [h0]; rfl
      · rw [h0, mem_addFlag]; simp
      · rw [h0]
        show _ = if BoardFlag.defectRecordsDropped ∈ r.flags then s.faults else (s.recordFault _).faults
        by_cases k : BoardFlag.defectRecordsDropped ∈ r.flags
        · dsimp only
          rw [if_pos k, if_pos (show r.has _ = true from List.contains_iff_mem.2 k)]; rfl
        · dsimp only
          rw [if_neg k, if_neg (show ¬ r.has _ = true from fun e => k (List.contains_iff_mem.1 e))]
          exact recordFault_faults (s := s.setBoard i (some (r.addFlag .defectRecordsDropped)))
            (t := s) rfl _

/-- A report resolved alone by the Verdict Unit: its defect record, where it is a DEFECT. -/
theorem resolveAlone_pooled {s : State} {i : Slot} {r y : Record} (h : s.board i = some r)
    (j : JointId) (p : Report)
    (hy : ((s.resolveAlone .verdictUnit i j p).1.recordFaults
      (s.resolveAlone .verdictUnit i j p).2).board i = some y) :
    PooledFrom s ((s.resolveAlone .verdictUnit i j p).1.recordFaults
      (s.resolveAlone .verdictUnit i j p).2) i r y
      (if p.grade = .defect then [r.defectOf j false p] else []) := by
  have counted (f : Counts → Counts) (e : s.resolveAlone .verdictUnit i j p = (s.modCounts i f, []))
      (hy : ((s.resolveAlone .verdictUnit i j p).1.recordFaults
        (s.resolveAlone .verdictUnit i j p).2).board i = some y) :
      PooledFrom s ((s.resolveAlone .verdictUnit i j p).1.recordFaults
        (s.resolveAlone .verdictUnit i j p).2) i r y [] := by
    rw [e, modCounts_some h] at hy ⊢
    have : y = { r with counts := f r.counts } := by
      rw [recordFaults_board, State.setBoard_board, if_pos rfl] at hy
      cases hy; rfl
    subst this
    exact .nil rfl rfl rfl .rfl
  cases hg : p.grade with
  | good =>
    have e : s.resolveAlone .verdictUnit i j p = (s, []) := by unfold State.resolveAlone; rw [hg]
    rw [if_neg (by decide)]
    rw [e] at hy ⊢
    cases h.symm.trans hy
    exact .nil rfl rfl rfl .rfl
  | marginal =>
    rw [if_neg (by decide)]
    exact counted _ (by unfold State.resolveAlone; rw [hg]) hy
  | notMeasured =>
    rw [if_neg (by decide)]
    exact counted _ (by unfold State.resolveAlone; rw [hg]) hy
  | defect =>
    rw [if_pos rfl]
    have e : s.resolveAlone .verdictUnit i j p = (s.setBoard i (some
        { r with counts := Counts.addDefect p.criticality r.counts })).addDefect .verdictUnit i
          (r.defectOf j false p) := by
      unfold State.resolveAlone
      rw [hg]
      dsimp only
      rw [h, modCounts_some h]
    rw [e] at hy ⊢
    have hb : (s.setBoard i (some
        { r with counts := Counts.addDefect p.criticality r.counts })).board i =
        some { r with counts := Counts.addDefect p.criticality r.counts } := by
      rw [State.setBoard_board, if_pos rfl]
    have first : PooledFrom s (s.setBoard i (some
        { r with counts := Counts.addDefect p.criticality r.counts })) i r
        { r with counts := Counts.addDefect p.criticality r.counts } [] := .nil rfl rfl rfl .rfl
    exact first.trans (addDefect_pooled hb _ hy) rfl rfl rfl

/-- One suspect resolved alone (R127): its defect record, where it is a DEFECT. -/
theorem resolveSuspect_pooled {s : State} {i : Slot} {r y : Record} (h : s.board i = some r)
    (x : Suspect) (hy : (s.resolveSuspect i x).board i = some y) :
    PooledFrom s (s.resolveSuspect i x) i r y
      (if x.grade = .defect then [r.defectOf x.joint false x.report] else []) := by
  have first : PooledFrom s { s with suspects := setErase x s.suspects } i r r [] :=
    .nil rfl rfl rfl .rfl
  exact first.trans (resolveAlone_pooled
    (s := { s with suspects := setErase x s.suspects }) h x.joint x.report hy) rfl rfl rfl

/-- The suspects `xs` resolved one after another: the defect records of the DEFECT ones, in order. -/
theorem foldSuspects_pooled {i : Slot} (xs : List Suspect) {s : State} {r y : Record}
    (h : s.board i = some r)
    (hy : (xs.foldl (fun u x => State.resolveSuspect u i x) s).board i = some y) :
    PooledFrom s (xs.foldl (fun u x => State.resolveSuspect u i x) s) i r y
      ((xs.filter fun x => decide (x.grade = .defect)).map fun x =>
        r.defectOf x.joint false x.report) := by
  induction xs generalizing s r with
  | nil =>
    cases h.symm.trans hy
    exact .nil rfl rfl rfl .rfl
  | cons x xs ih =>
    obtain ⟨z, hz, e⟩ := resolveSuspect_board h x
    have k := (resolveSuspect_pooled h x hz).trans (ih hz hy)
      (by
        have := (Tracks.resolveSuspect (A := fun _ => True) trivial s x (i := i)).frame.channels .defect
        have := congrArg ChannelReg.state this
        exact this)
      (by rw [e.rest]) (by rw [e.rest])
    have hd : ∀ j p, z.defectOf j false p = r.defectOf j false p := fun j p => by rw [e.rest]; rfl
    simp only [hd] at k
    rw [List.filter_cons]
    by_cases g : x.grade = .defect
    · rw [if_pos g] at k
      rw [if_pos (decide_eq_true g), List.map_cons]
      exact k
    · rw [if_neg g] at k
      rw [if_neg (by simpa using g)]
      exact k

/-! ### The verdict fixed (R128, R129), and the suspects of a close -/

/-- A record let go changes the directory and alert flags only. -/
theorem release_parts (s : State) (r : Record) :
    ∃ d a, s.release r = { s with directory := d, alerts := a } := by
  unfold State.release State.dropUse
  split
  · exact ⟨_, _, rfl⟩
  · split
    · dsimp only
      split
      · split <;> exact ⟨_, _, rfl⟩
      · exact ⟨_, _, rfl⟩
    · exact ⟨_, _, rfl⟩

/-- The directory after a record is let go depends on the directory and its recipe only. -/
theorem release_directory {s t : State} {r x : Record} (h : t.directory = s.directory)
    (hf : x.has .noRecipe = r.has .noRecipe) (hr : x.recipe = r.recipe) :
    (t.release x).directory = (s.release r).directory := by
  unfold State.release State.dropUse State.dir
  rw [hf, hr]
  split
  · exact h
  · cases r.recipe with
    | none => exact h
    | some k =>
      dsimp only
      rw [h]
      split
      · split <;> simp [State.setDir, State.raise, State.setAlert, h]
      · simp [State.setDir, h]

/-- The record a close leaves. -/
def Record.decidedAs (r : Record) (v : Verdict) : Record :=
  { r with verdict := some v, armed := r.armed.filter fun e => decide (e.kind = .exitDue), state := .decided }

theorem fixVerdict_parts {s : State} {i : Slot} {r : Record} (h : s.board i = some r) (b : RecState) :
    ∃ d a, (s.release r).directory = d ∧ s.fixVerdict i b = { s with
      slots := s.slots.set i (some (r.decidedAs (verdictOf (s.entryOf r) r)))
      lanes := if b = .entering ∧ (s.lane r.lane).entry = .covered then
        s.lanes.set r.lane { s.lane r.lane with entry := .untracked } else s.lanes
      directory := d
      alerts := a } := by
  unfold State.fixVerdict
  rw [h]
  dsimp only
  obtain ⟨d, a, e⟩ := release_parts
    (s.setBoard i (some { r with verdict := some (verdictOf (s.entryOf r) r) })) r
  have hd := release_directory (s := s)
    (t := s.setBoard i (some { r with verdict := some (verdictOf (s.entryOf r) r) })) (r := r) (x := r)
    rfl rfl rfl
  rw [e] at hd ⊢
  refine ⟨d, a, hd.symm, ?_⟩
  have hb : State.board { s.setBoard i (some { r with verdict := some (verdictOf (s.entryOf r) r) }) with
      directory := d, alerts := a } i = some { r with verdict := some (verdictOf (s.entryOf r) r) } := by
    simp [State.board, State.setBoard]
  unfold State.modBoard
  rw [hb]
  by_cases hc : b = .entering ∧ (s.lanes.get r.lane).entry = .covered
  · simp [State.setBoard, State.setLane, State.lane, Record.decidedAs, hc]
  · have k1 : ¬(b = .entering ∧ (State.lane (State.setBoard { s.setBoard i (some
        { r with verdict := some (verdictOf (s.entryOf r) r) }) with directory := d, alerts := a } i
        (some (r.decidedAs (verdictOf (s.entryOf r) r)))) r.lane).entry = .covered) := hc
    have k2 : ¬(b = .entering ∧ (s.lane r.lane).entry = .covered) := hc
    refine (if_neg k1).trans ?_
    rw [if_neg k2]
    simp [State.setBoard, Record.decidedAs]

theorem suspectsOf_perm (s : State) (i : Slot) :
    (s.suspectsOf i).Perm (s.suspects.filter fun x => decide (x.slot = i)) := orderBy_perm _ _

/-- The suspects a close leaves are those of the other slots. -/
theorem suspects_of_others (s : State) (i : Slot) :
    (s.suspects.filter fun x => !(s.suspectsOf i).contains x) =
      s.suspects.filter fun y => decide (y.slot ≠ i) := by
  refine List.filter_congr fun x hx => ?_
  have : x ∈ s.suspectsOf i ↔ x.slot = i := by
    rw [(suspectsOf_perm s i).mem_iff]; simp [hx]
  by_cases h : x.slot = i <;> simp [h, this]

end Sys2Proof.Machine
end

