-- ==== Sys2Proof/Laws/Creation.lean ====
section
/-! SUPPORT. What the creation of a record does: the tag it takes is carried by no live record (R5), so
tags stay distinct, and it keeps program memory, capacities and ring bounds. -/

namespace Sys2Proof.Machine

open Sys2Proof

/-! ### Looking up a tag -/

theorem slotOfTag_eq_none (s : State) (t : Tag) :
    s.slotOfTag t = none ↔ ∀ i r, s.board i = some r → r.tag ≠ t := by
  unfold State.slotOfTag
  rw [List.find?_eq_none]
  constructor
  · intro h i r hr e
    refine h i (List.mem_finRange i) ?_
    rw [hr]
    exact decide_eq_true e
  · intro h i _
    cases hi : s.board i with
    | none => simp
    | some r => simpa using h i r hi

theorem board_of_slotOfTag {s : State} {t : Tag} {i : Slot} (h : s.slotOfTag t = some i) :
    ∃ r, s.board i = some r ∧ r.tag = t := by
  have h := List.find?_some h
  cases hi : s.board i with
  | none => rw [hi] at h; exact nomatch h
  | some r =>
    rw [hi] at h
    exact ⟨r, rfl, of_decide_eq_true h⟩

theorem board_of_freeSlot {s : State} {i : Slot} (h : s.freeSlot = some i) : s.board i = none := by
  have h := List.find?_some h
  exact Option.isNone_iff_eq_none.1 h

/-! ### The next tag -/

/-- The `k`-th value examined is carried by no live record, for some `k` of the 24 (R5). -/
theorem free_candidate {s : State} {i : Slot} (hi : s.board i = none) :
    ∃ k, k < 24 ∧ s.slotOfTag (s.tagCounter + BitVec.ofNat 8 (k + 1)) = none := by
  by_contra hcon
  have hall : ∀ k : Fin 24, ∃ j : Slot,
      s.slotOfTag (s.tagCounter + BitVec.ofNat 8 (k.val + 1)) = some j := by
    intro k
    cases h : s.slotOfTag (s.tagCounter + BitVec.ofNat 8 (k.val + 1)) with
    | none => exact absurd ⟨k.val, k.isLt, h⟩ hcon
    | some j => exact ⟨j, rfl⟩
  choose f hf using hall
  have hinj : Function.Injective f := by
    intro a b hab
    obtain ⟨r, hr, er⟩ := board_of_slotOfTag (hf a)
    obtain ⟨x, hx, ex⟩ := board_of_slotOfTag (hf b)
    rw [hab, hx] at hr
    cases hr
    have e := BitVec.add_right_inj _ |>.1 (er.symm.trans ex)
    have e := congrArg BitVec.toNat e
    rw [BitVec.toNat_ofNat, BitVec.toNat_ofNat] at e
    have := a.isLt
    have := b.isLt
    exact Fin.ext (by omega)
  obtain ⟨k, hk⟩ := (Finite.injective_iff_surjective.1 hinj) i
  obtain ⟨r, hr, _⟩ := board_of_slotOfTag (hf k)
  rw [hk, hi] at hr
  exact nomatch hr

theorem nextTag_fresh {s : State} {i : Slot} (hi : s.board i = none) :
    s.slotOfTag s.nextTag = none := by
  unfold State.nextTag
  cases h : ((List.range 24).map fun k => s.tagCounter + BitVec.ofNat 8 (k + 1)).find? fun t =>
      (s.slotOfTag t).isNone with
  | some t => exact Option.isNone_iff_eq_none.1 (List.find?_some (p := fun t => (s.slotOfTag t).isNone) h)
  | none =>
    obtain ⟨k, hk, e⟩ := free_candidate hi
    rw [List.find?_eq_none] at h
    refine absurd (by rw [e]; rfl) (h _ (List.mem_map.2 ⟨k, List.mem_range.2 hk, rfl⟩))

/-! ### Creation -/

/-- The part of `create` before the recipe is counted. -/
def State.created (s : State) (l : Lane) (i : Slot) : State :=
  { (s.setBoard i (some (s.newRecord l))).setLane l ((s.lane l).entered i) with
    tagCounter := (s.newRecord l).tag }

theorem Tracks.countUse {A : Slot → Prop} (s : State) (r : Record) : Tracks A s (s.countUse r) := by
  unfold State.countUse
  split
  · exact .refl A s
  · split
    · exact .setDir s _ _
    · exact .refl A s

theorem created_capacity (s : State) (l : Lane) (i : Slot) (h : s.Capacity) :
    (s.created l i).Capacity := by
  refine ⟨fun m => ?_, h.triggers, h.results, h.suspects, h.defects, h.faults⟩
  have hm := h.announces m
  have hl : ((s.lane l).entered i).announces.length ≤ (s.lane l).announces.length := by
    simp [LaneState.entered]
  show ((s.lanes.set l ((s.lane l).entered i)).get m).announces.length ≤ 4
  rw [PerLane.get_set]
  split
  · rename_i e; subst e; exact hl.trans (h.announces _)
  · exact hm

theorem created_distinct (s : State) (l : Lane) (i : Slot) (hi : s.board i = none)
    (h : s.DistinctTags) : (s.created l i).DistinctTags := by
  have hf := (slotOfTag_eq_none s s.nextTag).1 (nextTag_fresh hi)
  have hb (j : Slot) : (s.created l i).board j = if j = i then some (s.newRecord l) else s.board j :=
    State.setBoard_board s i _ j
  intro j k r x hr hx e
  rw [hb] at hr hx
  split at hr <;> split at hx
  · rename_i a b; rw [a, b]
  · cases hr; exact absurd e.symm (hf k x hx)
  · cases hx; exact absurd e (hf j r hr)
  · exact h j k r x hr hx e

theorem create_eq (s : State) (l : Lane) (i : Slot) :
    s.create l i = (s.created l i).countUse (s.newRecord l) := rfl

/-- What an entry leading edge keeps: all but the rise of a new board. -/
theorem entryLeading_mem (s : State) (l : Lane) (h : s.memoryWf = true) :
    (s.entryLeading l).memoryWf = true := by
  unfold State.entryLeading
  split
  · split
    · rename_i i _
      refine (Tracks.dueAtArming _ i _).keeps.mem ?_
      rw [create_eq]
      exact (Tracks.countUse (A := fun _ => True) _ _).keeps.mem h
    · exact (Tracks.entryOverrun (A := fun _ => True) s l).keeps.mem h
  · exact h

theorem entryLeading_capacity (s : State) (l : Lane) (h : s.Capacity) :
    (s.entryLeading l).Capacity := by
  unfold State.entryLeading
  split
  · split
    · rename_i i _
      refine (Tracks.dueAtArming _ i _).capacity ?_
      rw [create_eq]
      exact (Tracks.countUse (A := fun _ => True) _ _).capacity (created_capacity s l i h)
    · exact (Tracks.entryOverrun (A := fun _ => True) s l).capacity h
  · exact h

theorem entryLeading_rings (s : State) (l : Lane) (h : s.RingsBounded) :
    (s.entryLeading l).RingsBounded := by
  unfold State.entryLeading
  split
  · split
    · rename_i i _
      refine (Tracks.dueAtArming _ i _).rings ?_
      rw [create_eq]
      exact (Tracks.countUse (A := fun _ => True) _ _).rings h
    · exact (Tracks.entryOverrun (A := fun _ => True) s l).rings h
  · exact h

theorem entryLeading_distinct (s : State) (l : Lane) (h : s.DistinctTags) :
    (s.entryLeading l).DistinctTags := by
  unfold State.entryLeading
  split
  · split
    · rename_i i hi
      refine (Tracks.dueAtArming _ i _).follows.distinct ?_
      rw [create_eq]
      exact (Tracks.countUse (A := fun _ => True) _ _).follows.distinct
        (created_distinct s l i (board_of_freeSlot hi) h)
    · exact (Tracks.entryOverrun (A := fun _ => True) s l).follows.distinct h
  · exact h

end Sys2Proof.Machine
end

