-- ==== Sys2Proof/Laws/Grant.lean ====
section
/-! SUPPORT. Grants: what one does, that the grants of an event end, and what an event with the grant that follows
it keeps (R148, R151). -/

namespace Sys2Proof.Machine

open Sys2Proof

/-! ### Changes a grant makes -/

theorem Keeps.recordFault (s : State) (f : FaultRec) : Keeps s (s.recordFault f) :=
  (Tracks.recordFault (A := fun _ => True) s f).keeps

theorem Keeps.setPorts (s : State) (x : PerPort PortState) : Keeps s { s with ports := x } :=
  ⟨id, .refl s, fun hs => ⟨hs.announces, hs.triggers, hs.results, hs.suspects, hs.defects, hs.faults⟩, id⟩

theorem Keeps.setPort (s : State) (p : Port) (x : PortState) : Keeps s (s.setPort p x) := .setPorts s _

theorem Keeps.respond (s : State) (p : Port) (q : Request) (r : Reply) : Keeps s (s.respond p q r) :=
  .setPorts s _

theorem Keeps.endPending (s : State) (p : Port) (q : Request) (r : Reply) :
    Keeps s (s.endPending p q r) := (Keeps.setPorts s _).trans (.respond _ p q r)

/-- A state change that touches no memory, board, queue, pool or fault, and one channel. -/
theorem Keeps.setChannel (s : State) (c : Channel) (x : ChannelReg)
    (h : (s.channel c).Bounded → x.Bounded) : Keeps s (s.setChannel c x) :=
  ⟨id, .refl s, fun hs => ⟨hs.announces, hs.triggers, hs.results, hs.suspects, hs.defects, hs.faults⟩,
    fun hs d => by
      simp only [State.setChannel_channel]
      split
      · exact h (hs c)
      · exact hs d⟩

theorem Keeps.raise (s : State) (p : Port) (f : AlertFlag) : Keeps s (s.raise p f) :=
  (Tracks.raise (A := fun _ => True) s p f).keeps

/-! ### The arbiter -/

theorem Keeps.setArbiter (s : State) (x : Arbiter) : Keeps s { s with arbiter := x } :=
  ⟨id, .refl s, fun hs => ⟨hs.announces, hs.triggers, hs.results, hs.suspects, hs.defects, hs.faults⟩, id⟩

/-- A channel that waits takes its write in flight; a channel that does not wait is not granted. -/
theorem waitingChannel_waits (s : State) (c : Channel) (h : s.waitingChannel = some c) :
    s.waits c = true := by
  unfold State.waitingChannel at h
  split at h
  · exact absurd h (by simp)
  · cases h; assumption
  · cases h; assumption
  · rename_i h1 h2
    cases c
    · exact h1
    · exact h2

theorem waits_write (s : State) (c : Channel) (h : s.waits c = true) : (s.channel c).write ≠ none := by
  intro e
  unfold State.waits at h
  rw [e] at h
  exact absurd h (by simp)

theorem Keeps.grantChannel (s : State) (c : Channel) (hw : (s.channel c).write ≠ none) :
    Keeps s (s.grantChannel c).1 := by
  unfold State.grantChannel
  dsimp only
  refine Keeps.trans (.setArbiter s { s.arbiter with lastChannel := c }) ?_
  have hw' : (State.channel { s with arbiter := { s.arbiter with lastChannel := c } } c).write ≠ none :=
    hw
  generalize { s with arbiter := { s.arbiter with lastChannel := c } } = u at hw' ⊢
  split
  · exact .setChannel u c _ fun b => ⟨b.occupancy, fun hn => absurd rfl hn, b.size, b.held⟩
  · split
    · refine Keeps.trans (.setChannel u c _ fun b => ?_) (.setArbiter _ _)
      exact ⟨b.occupancy, fun _ => b.room hw', b.size, b.held⟩
    · refine Keeps.trans (Keeps.trans (.setChannel u c _ fun b => ?_) (.recordFault _ _)) (.raise _ _ _)
      exact ⟨b.occupancy, fun hn => absurd rfl hn, b.size, b.held⟩

theorem Keeps.grantPort (s : State) (p : MemPort) (o : MemOp) : Keeps s (s.grantPort p o).1 := by
  unfold State.grantPort
  dsimp only
  split
  · exact (Keeps.setArbiter s _).trans (.endPending _ _ _ _)
  · exact (Keeps.setArbiter s _).trans (.setArbiter _ _)

theorem Keeps.grantOnce (s : State) : Keeps s s.grantOnce.1 := by
  unfold State.grantOnce
  split
  · exact .refl s
  · split
    · exact .setArbiter s _
    · split
      · exact .grantPort s _ _
      · split
        · rename_i c hc
          exact .grantChannel s c (waits_write s c (waitingChannel_waits s c hc))
        · exact .refl s

theorem Keeps.grantUpTo : ∀ (k : Nat) (s : State), Keeps s (State.grantUpTo k s)
  | 0, s => .refl s
  | k + 1, s => by
    have h := Keeps.grantOnce s
    unfold State.grantUpTo
    split
    · rename_i s1 e
      rw [e] at h
      exact h.trans (Keeps.grantUpTo k s1)
    · rename_i s1 e
      rw [e] at h
      exact h

theorem Keeps.grant (s : State) : Keeps s s.grant := .grantUpTo 8 s

theorem countP_lt_of_one_fewer {α : Type} {f g : α → Bool} (xs : List α) (p : α) (hp : p ∈ xs)
    (hle : ∀ x, g x = true → f x = true) (hf : f p = true) (hg : g p = false) :
    xs.countP g < xs.countP f := by
  induction xs with
  | nil => cases hp
  | cons y ys ih =>
    have hm : ys.countP g ≤ ys.countP f := List.countP_mono_left fun x _ => hle x
    simp only [List.countP_cons]
    rcases List.mem_cons.mp hp with rfl | h
    · simp only [hf, hg, if_true, Bool.false_eq_true, if_false]; omega
    · have := ih h
      have h2 := hle y
      cases hgy : g y <;> cases hfy : f y <;> simp_all

/-- The ports and channels that wait for a grant: at most five and two. -/
def State.waiters (s : State) : Nat :=
  (MemPort.all.countP fun p => (s.portOp p).isSome) + Channel.all.countP s.waits

theorem waiters_le (s : State) : s.waiters ≤ 7 :=
  Nat.add_le_add (List.countP_le_length (l := MemPort.all)) (List.countP_le_length (l := Channel.all))

theorem MemPort.mem_all (p : MemPort) : p ∈ MemPort.all := by
  cases p with
  | sta => decide
  | hl n => cases n <;> decide

theorem waitingPort_op (s : State) (p : MemPort) (o : MemOp) (h : s.waitingPort = some (p, o)) :
    s.portOp p = some o := by
  obtain ⟨q, _, hq⟩ := List.exists_of_findSome?_eq_some h
  cases ho : s.portOp q with
  | none => rw [ho] at hq; cases hq
  | some o' => rw [ho] at hq; cases hq; exact ho

theorem portOp_endPending (s : State) (p : Port) (k : Request) (r : Reply) (q : MemPort) :
    (s.endPending p k r).portOp q = if q.port = p then none else s.portOp q := by
  have h : ((s.endPending p k r).port q.port).pending =
      if q.port = p then none else (s.port q.port).pending := by
    simp only [State.endPending, State.setPending, State.respond, State.setPort_port]
    split <;> rfl
  unfold State.portOp
  rw [h]
  by_cases e : q.port = p
  · rw [if_pos e, if_pos e]
  · rw [if_neg e, if_neg e]

/-- A grant given up leaves one fewer waiting (R55, R159). -/
theorem waiters_lt_of_givenUp (s u : State) (h : s.grantOnce = (u, true)) : u.waiters < s.waiters := by
  unfold State.grantOnce at h
  split at h
  · cases h
  · split at h
    · cases h
    · split at h
      · rename_i p o hp
        have hop := waitingPort_op s p o hp
        unfold State.grantPort at h
        dsimp only at h
        split at h
        · obtain ⟨rfl, -⟩ := Prod.mk.inj h
          refine Nat.add_lt_add_of_lt_of_le (countP_lt_of_one_fewer _ p (MemPort.mem_all p)
            (fun q hq => ?_) ?_ ?_) (Nat.le_of_eq rfl)
          · rw [portOp_endPending] at hq
            split at hq
            · cases hq
            · exact hq
          · rw [hop]; rfl
          · rw [portOp_endPending, if_pos rfl]; rfl
        · cases h
      · split at h
        · rename_i c hc
          have hw := waitingChannel_waits s c hc
          have key (x : ChannelReg) (hx : x.write = none) (v : State)
              (h1 : v.channels = s.channels.set c x) (h2 : v.ports = s.ports) :
              v.waiters < s.waiters := by
            refine Nat.add_lt_add_of_le_of_lt (Nat.le_of_eq ?_)
              (countP_lt_of_one_fewer _ c (by cases c <;> decide) ?_ hw ?_)
            · simp only [State.portOp, State.port, h2]
            · intro d hd
              by_cases e : d = c
              · subst e; exact hw
              · have : v.channel d = s.channel d := by
                  show v.channels.get d = s.channels.get d
                  rw [h1]; cases d <;> cases c <;> first | rfl | exact absurd rfl e
                simp only [State.waits, this] at hd
                exact hd
            · have : v.channel c = x := by
                show v.channels.get c = x
                rw [h1]; cases c <;> rfl
              simp only [State.waits, this, hx]
          unfold State.grantChannel at h
          dsimp only at h
          split at h
          · obtain ⟨rfl, -⟩ := Prod.mk.inj h
            exact key _ rfl _ rfl rfl
          · split at h
            · cases h
            · obtain ⟨rfl, -⟩ := Prod.mk.inj h
              refine key { s.channel c with state := .faulted, write := none } rfl _ ?_ ?_
              · unfold State.refuseMove State.recordFault; split <;> rfl
              · unfold State.refuseMove State.recordFault; split <;> rfl
        · cases h

theorem grantUpTo_enough : ∀ (k : Nat) (s : State), s.waiters < k →
    State.grantUpTo (k + 1) s = State.grantUpTo k s
  | 0, _, h => absurd h (Nat.not_lt_zero _)
  | k + 1, s, h => by
    rw [State.grantUpTo, State.grantUpTo]
    rcases hg : s.grantOnce with ⟨u, _ | _⟩
    · rfl
    · exact grantUpTo_enough k u (by have := waiters_lt_of_givenUp s u hg; omega)

/-- A grant given up is followed by the next grant within the event (R151). -/
theorem grant_of_givenUp (s u : State) (h : s.grantOnce = (u, true)) : s.grant = u.grant := by
  have hl := waiters_lt_of_givenUp s u h
  have h7 := waiters_le s
  show State.grantUpTo 8 s = State.grantUpTo 8 u
  rw [State.grantUpTo, h]
  exact (grantUpTo_enough 7 u (by omega)).symm

/-- A grant that is made, or finds nothing that waits, ends the event's grants. -/
theorem grant_of_made (s u : State) (h : s.grantOnce = (u, false)) : s.grant = u := by
  show State.grantUpTo 8 s = u
  rw [State.grantUpTo, h]

/-! ### The grant that follows an event (R148) -/

/-- What waits for a grant (R148). -/
theorem grantDue_iff (s : State) : s.grantDue = true ↔
    s.arbiter.op = none ∧ (s.cache.fill ≠ none ∨ s.waitingPort ≠ none ∨ s.waitingChannel ≠ none) := by
  simp only [State.grantDue, State.requests, Bool.and_eq_true, Bool.or_eq_true,
    Option.isNone_iff_eq_none, Option.isSome_iff_ne_none, or_assoc]

/-- An event that does not make the two conditions hold is followed by no grant. -/
theorem thenGrant_of_not {s t : State} (h : t.grantDue = true → s.grantDue = true) :
    s.thenGrant t = t := by
  unfold State.thenGrant
  cases ht : t.grantDue
  · rfl
  · rw [h ht]; rfl

@[simp] theorem thenGrant_self (s : State) : s.thenGrant s = s := thenGrant_of_not id

/-- On an arbiter with an operation in flight after the event nothing is granted. -/
theorem thenGrant_busy {s t : State} (h : t.arbiter.op ≠ none) : s.thenGrant t = t :=
  thenGrant_of_not fun k => absurd ((grantDue_iff t).1 k).1 h

/-- An event that makes both conditions hold is followed by the grant. -/
theorem thenGrant_due {s t : State} (h : t.grantDue = true) (k : s.grantDue = false) :
    s.thenGrant t = t.grant := by
  unfold State.thenGrant; rw [h, k]; rfl

theorem keeps_thenGrant (s t : State) : Keeps t (s.thenGrant t) := by
  unfold State.thenGrant
  split
  · exact .grant t
  · exact .refl t

theorem Keeps.thenGrant {s t : State} (h : Keeps s t) : Keeps s (s.thenGrant t) :=
  h.trans (keeps_thenGrant s t)

/-! ### Events with their grants -/

theorem Keeps.handOverAny (s : State) (e : ScheduledEvent) : Keeps s (s.handOverAny e) := by
  refine Keeps.thenGrant ?_
  split
  · exact (Tracks.takeEvent (A := fun _ => True) trivial s _ _ fun r t u =>
      .lengthLimitAct trivial r t u).keeps
  all_goals exact (Tracks.handOver s e).keeps

theorem Keeps.takeDue (s : State) (ls : List Lane) : Keeps s (s.takeDue ls) := by
  unfold State.takeDue State.handOverAll
  split
  · exact .refl s
  · exact (Tracks.drawn (A := fun _ => True) s).keeps.trans
      (.foldl _ (fun u e _ => .handOverAny u e) _)

theorem takeDue_none (s : State) (ls : List Lane) (h : ls.flatMap s.dueEvents = []) :
    s.takeDue ls = s := by
  rw [State.takeDue, h]; rfl

theorem Keeps.beltStep (s : State) (l : Lane) : Keeps s (s.beltStep l) := by
  unfold State.beltStep
  refine (Keeps.takeDue s [l]).trans ?_
  generalize s.takeDue [l] = u
  exact ⟨id, .refl u, fun h => { h with
    announces := fun m => by
      simp only [State.setLane_lane]
      split
      · exact h.announces l
      · exact h.announces m }, fun h => h⟩

theorem Keeps.exitDuesFirst (s : State) (l : Lane) : Keeps s (s.exitDuesFirst l) :=
  .foldl _ (fun u _ _ => .handOverAny u _) s

theorem Keeps.exitLeading (s : State) (l : Lane) : Keeps s (s.exitLeading l) := by
  unfold State.exitLeading
  split
  · split
    · exact (Keeps.exitDuesFirst s l).trans (Tracks.exitCompare _ l).keeps.thenGrant
    · exact .exitDuesFirst s l
  · exact .refl s

end Sys2Proof.Machine
end

