-- ==== Sys2Proof/Laws/Engines.lean ====
section
/-! SUPPORT. What the engines can do: the merge rules, a walk and its finish, the cache, the Move Engine's
completion of a write and the ends of memory operations. -/

namespace Sys2Proof.Machine

open Sys2Proof

/-! ### Merge rules -/

theorem Tracks.resolveAdvisory {A : Slot → Prop} {i : Slot} (hi : A i) (s : State) (j : JointId)
    (p : Report) : Tracks A s (s.resolveAdvisory i j p).1 := by
  unfold State.resolveAdvisory
  split
  · split
    · exact (Tracks.modCounts hi s _).trans (.addDefect hi _ _ _)
    · exact .refl A s
  all_goals exact .refl A s

theorem Tracks.pairDefect {A : Slot → Prop} {i : Slot} (hi : A i) (s : State) (j : JointId)
    (a b : Report) : Tracks A s (s.pairDefect i j a b).1 := by
  unfold State.pairDefect
  split
  · exact (Tracks.modCounts hi s _).trans (.addDefect hi _ _ _)
  · exact .refl A s

theorem Tracks.resolvePair {A : Slot → Prop} {i : Slot} (hi : A i) (s : State) (j : JointId)
    (a b : Report) : Tracks A s (s.resolvePair i j a b).1 := by
  unfold State.resolvePair
  split
  all_goals
    first
      | exact .refl A s
      | exact .resolveAlone hi s _ _ _
      | exact .pairDefect hi s _ _ _
      | exact Tracks.modBoard hi s _ fun _ => ⟨rfl, rfl, rfl, rfl, rfl⟩

theorem Tracks.addSuspect {A : Slot → Prop} {i : Slot} (hi : A i) (s : State) (j : JointId)
    (p : Report) : Tracks A s (s.addSuspect i j p).1 := by
  unfold State.addSuspect
  split
  · rename_i h
    exact .suspects s _ fun _ => by rw [insertBy_length]; exact h
  · split
    · dsimp only
      refine Tracks.trans (.resolveAlone hi s .mergeEngine j p) ?_
      exact .modBoard hi _ _ fun x => ⟨rfl, rfl, rfl, rfl, rfl⟩
    · exact .refl A s

theorem Tracks.resolveConfirm {A : Slot → Prop} {i : Slot} (hi : A i) (s : State) (e : HeadEntry)
    (p : Report) : Tracks A s (s.resolveConfirm i e p).1 := by
  unfold State.resolveConfirm
  split
  · exact (Tracks.suspects s _ fun h => Nat.le_trans (setErase_length _ _) h).trans
      (.resolvePair hi _ _ _ _)
  · split
    · split
      · exact .resolvePair hi s _ _ _
      · split
        · exact .resolveAlone hi s _ _ _
        · split
          · exact .refl A s
          · exact .addSuspect hi s _ _
    · exact .refl A s

theorem Tracks.applyRule {A : Slot → Prop} {i : Slot} (hi : A i) (s : State) (e : HeadEntry)
    (p : Report) : Tracks A s (s.applyRule i e p).1 := by
  unfold State.applyRule
  split
  · exact .resolveAdvisory hi s _ _
  · exact .resolveAlone hi s _ _ _
  · split
    · exact .resolveAlone hi s _ _ _
    · exact .resolveConfirm hi s _ _

theorem Tracks.applyRules {A : Slot → Prop} {i : Slot} (hi : A i) :
    ∀ (xs : List (HeadEntry × Report)) (s : State), Tracks A s (s.applyRules i xs).1
  | [], s => .refl A s
  | (e, p) :: xs, s => (Tracks.applyRule hi s e p).trans (Tracks.applyRules hi xs _)

/-! ### The finish and the walk -/

theorem Keeps.setMerge (s : State) (m : Merge) : Keeps s { s with merge := m } :=
  ⟨id, .refl s, fun hs => ⟨hs.announces, hs.triggers, hs.results, hs.suspects, hs.defects, hs.faults⟩, id⟩

theorem Keeps.idle (s : State) : Keeps s s.idle := .setMerge s _

theorem Keeps.setCache (s : State) (c : Cache) : Keeps s { s with cache := c } :=
  ⟨id, .refl s, fun hs => ⟨hs.announces, hs.triggers, hs.results, hs.suspects, hs.defects, hs.faults⟩, id⟩

theorem Tracks.walkFault {A : Slot → Prop} (s : State) (x : InFlight) (hi : A x.slot) (w : WalkEnd) :
    Tracks A s (s.walkFault x w) := by
  unfold State.walkFault
  split
  · exact (Tracks.markFinal hi s _ _).trans (.closeCheck hi _)
  · exact (Tracks.markFinal hi s _ _).trans (.closeCheck hi _)
  all_goals exact .refl A s

theorem Record.reporting_same (r : Record) (n : HeadId) : r.SameBoard (r.reporting n) := by
  unfold Record.reporting
  split <;> exact ⟨rfl, rfl, rfl, rfl, rfl⟩

/-- The finish acts on the item's record, then leaves the engine idle. -/
theorem finish_tracks {A : Slot → Prop} (s : State) (x : InFlight) (hi : A x.slot)
    (m : Option HeadEntry) (w : WalkEnd) :
    ∃ u, Tracks A s u ∧ s.finish x m w = u.idle := by
  unfold State.finish
  split
  · exact ⟨s, .refl A s, rfl⟩
  · refine ⟨_, ?_, rfl⟩
    refine Tracks.trans ?_ (.recordFaults _ _)
    refine Tracks.trans ?_ (.walkFault _ x hi w)
    refine Tracks.trans ?_ (.modBoard hi _ _ fun r => ⟨rfl, rfl, rfl, rfl, rfl⟩)
    exact (Tracks.modBoard hi s _ fun r => Record.reporting_same r _).trans (.applyRules hi _ _)

theorem Keeps.finish (s : State) (x : InFlight) (m : Option HeadEntry) (w : WalkEnd) :
    Keeps s (s.finish x m w) := by
  obtain ⟨u, h, e⟩ := finish_tracks (A := fun _ => True) s x trivial m w
  rw [e]
  exact h.keeps.trans (.idle u)

theorem Keeps.cacheRequest (s : State) (a : Nat) : Keeps s (s.cacheRequest a).1 := by
  unfold State.cacheRequest
  split
  · exact .setCache s _
  · split
    · exact .refl s
    · exact .setCache s _

theorem Keeps.supply (s : State) (x : InFlight) (raw : List Byte) : Keeps s (s.supply x raw).1 := by
  unfold State.supply
  split
  · exact (Keeps.recordFault s _).trans (.idle _)
  · split
    · exact (Keeps.recordFault s _).trans (.idle _)
    · split
      · exact (Tracks.discard (A := fun _ => True) trivial s _).keeps.trans (.idle _)
      · split
        · exact .refl s
        · exact .finish s _ _ _
        · exact .finish s _ _ _

theorem Keeps.walkOn : ∀ (k : Nat) (s : State) (x : InFlight), Keeps s (State.walkOn k s x)
  | 0, s, x => .finish s _ _ _
  | k + 1, s, x => by
    unfold State.walkOn
    split
    · exact .finish s _ _ _
    · rename_i a _
      have h1 := Keeps.cacheRequest s a
      split
      · rename_i s1 h
        rw [h] at h1
        exact h1.trans (.setMerge s1 _)
      · rename_i s1 raw h
        rw [h] at h1
        have h2 := Keeps.supply s1 x raw
        split
        · rename_i s2 h'
          rw [h'] at h2
          exact h1.trans h2
        · rename_i s2 y h'
          rw [h'] at h2
          exact (h1.trans h2).trans (Keeps.walkOn k s2 y)

theorem Keeps.walk (s : State) (x : InFlight) : Keeps s (s.walk x) := .walkOn _ s x

/-- A walk that starts with no entry left ends with NOT_IN_PROGRAM (R101). -/
theorem nextEntry_none_iff (s : State) (x : InFlight) : s.nextEntry x = none ↔ s.entriesLeft x = 0 := by
  unfold State.nextEntry State.entriesLeft
  cases s.board x.slot with
  | none => simp
  | some r =>
    dsimp only
    cases s.entryOf r with
    | none => simp
    | some d =>
      simp only [Option.bind_some, Option.map_some, Option.getD_some]
      split
      · simp; omega
      · simp; omega

/-- An entry skipped leaves the state as it is and one entry fewer to the list's end. -/
theorem supply_skips (s u : State) (x y : InFlight) (raw : List Byte) (h : s.supply x raw = (u, some y)) :
    u = s ∧ s.entriesLeft y = s.entriesLeft x - 1 := by
  unfold State.supply at h
  split at h
  · cases h
  · rename_i r hr
    split at h
    · cases h
    · split at h
      · cases h
      · split at h
        · rename_i e _
          cases h
          refine ⟨rfl, ?_⟩
          simp only [State.entriesLeft, InFlight.extend, InFlight.cursor, hr, List.length_append,
            List.length_singleton]
          cases s.entryOf r <;> (simp; try omega)
        · cases h
        · cases h

theorem cacheRequest_hit (s u : State) (a : Nat) (raw : List Byte)
    (h : s.cacheRequest a = (u, some raw)) : u = s := by
  unfold State.cacheRequest at h
  split at h
  · cases h
  · split at h
    · cases h; rfl
    · cases h

/-- One step of a walk (R98, R101): what it asks for, and where it goes. -/
theorem walk_eq (s : State) (x : InFlight) : s.walk x =
    match s.nextEntry x with
    | none => s.finish x none .notInProgram
    | some a =>
      match s.cacheRequest a with
      | (s1, none) => { s1 with merge := { s1.merge with item := some x } }
      | (s1, some raw) =>
        match s1.supply x raw with
        | (s2, none) => s2
        | (s2, some y) => s2.walk y := by
  unfold State.walk
  rw [State.walkOn]
  cases hn : s.nextEntry x with
  | none => rfl
  | some a =>
    dsimp only
    rcases hc : s.cacheRequest a with ⟨s1, _ | raw⟩
    · rfl
    · dsimp only
      rcases hs : s1.supply x raw with ⟨s2, _ | y⟩
      · rfl
      · dsimp only
        have h1 := cacheRequest_hit s s1 a raw hc
        subst h1
        obtain ⟨rfl, h2⟩ := supply_skips _ _ _ _ _ hs
        have h3 : s2.entriesLeft x ≠ 0 := fun h => by
          rw [(nextEntry_none_iff s2 x).mpr h] at hn; cases hn
        rw [h2]
        congr 1
        omega
theorem Keeps.applyItem (s : State) (n : HeadId) (i : Slot) (r : Record) (x : Item) :
    Keeps s (s.applyItem n i r x) := by
  unfold State.applyItem
  split
  · exact ((Tracks.markFinal (A := fun _ => True) trivial s _ _).trans (.closeCheck trivial _)).keeps
  · exact (((Tracks.markFinal (A := fun _ => True) trivial s _ _).trans (.recordFault _ _)).trans
      (.closeCheck trivial _)).keeps
  · split
    · split
      · exact .recordFault s _
      · exact .walk s _
    · exact .walk s _

theorem Keeps.settle (s : State) (n : HeadId) (x : Item) : Keeps s (s.settle n x) := by
  unfold State.settle
  split
  · exact .recordFault s _
  · split
    · exact .recordFault s _
    · split
      · exact .recordFault s _
      · exact .recordFault s _
      · exact .applyItem s _ _ _ _
      · exact .applyItem s _ _ _ _
      all_goals exact (Tracks.discard (A := fun _ => True) trivial s _).keeps

theorem Keeps.mergeTake (s : State) : Keeps s s.mergeTake := by
  unfold State.mergeTake
  split
  · split
    · exact .refl s
    · split
      · exact .refl s
      · rename_i n _ _ x rest heq
        dsimp only
        refine Keeps.trans ?_ (.settle _ _ _)
        refine Keeps.trans (t := s.setLink n { s.link n with results := rest })
          (.setLink s _ _ id fun h => ?_) (.setMerge _ _)
        rw [heq, List.length_cons] at h
        exact Nat.le_of_succ_le h
  · exact .refl s

/-! ### Program memory and the cache -/

theorem Keeps.setMem (s : State) (m : List Host.Cell)
    (h : Memory.wf s.mem = true → Memory.wf m = true) : Keeps s { s with mem := m } :=
  ⟨h, .refl s, fun hs => ⟨hs.announces, hs.triggers, hs.results, hs.suspects, hs.defects, hs.faults⟩, id⟩

theorem Keeps.writeEnds (s : State) (a : Nat) (bytes : List Byte) : Keeps s (s.writeEnds a bytes) := by
  unfold State.writeEnds
  refine (Keeps.setMem s _ (Memory.wf_writeBytes a bytes)).trans ?_
  generalize { s with mem := Memory.writeBytes s.mem a bytes } = u
  have h1 : Keeps u (u.updateLine a bytes) := by
    unfold State.updateLine
    split
    · split
      · exact .setCache u _
      · exact .setCache u _
    · exact .refl u
  refine h1.trans ?_
  generalize u.updateLine a bytes = v
  unfold State.spoil
  split
  · split
    · exact .setCache v _
    · exact .refl v
  · exact .refl v

theorem Keeps.isolationEffect (s : State) : Keeps s s.isolationEffect := by
  unfold State.isolationEffect
  split
  · exact (Keeps.setCache s _).trans (.endPending _ _ _ _)
  · exact .refl s

theorem Keeps.resume (s : State) : Keeps s s.resume := by
  unfold State.resume
  split
  · exact .refl s
  · rename_i a _
    have h1 : Keeps s (State.cacheRequest { s with cache := { s.cache with waiting := none } } a).1 :=
      (Keeps.setCache s _).trans (.cacheRequest _ a)
    split
    · rename_i s1 h
      rw [h] at h1; exact h1
    · rename_i s1 raw h
      rw [h] at h1
      split
      · exact h1
      · rename_i x _
        have h2 := Keeps.supply s1 x raw
        split
        · rename_i s2 h'
          rw [h'] at h2; exact h1.trans h2
        · rename_i s2 y h'
          rw [h'] at h2; exact (h1.trans h2).trans (.walk s2 y)

theorem Keeps.fillEnds (s : State) (f : Fill) : Keeps s (s.fillEnds f) := by
  unfold State.fillEnds
  have h1 : Keeps s (s.fillLine f) := by
    unfold State.fillLine
    split
    · exact .refl s
    · exact .setCache s _
  exact ((h1.trans (.setCache _ _)).trans (.resume _)).trans (.isolationEffect _)

/-! ### The Move Engine -/

theorem Tracks.leaveSource (s : State) (c : Channel) (b : Option Slot) :
    Tracks (fun _ => True) s (s.leaveSource c b) := by
  unfold State.leaveSource
  split
  · exact .refl _ s
  · split
    · exact (Tracks.defects s _ fun h => by
        rw [List.length_tail]; exact Nat.le_trans (Nat.sub_le _ _) h).trans
        (.dropOutstanding trivial _)
    · exact (Tracks.summaryReady s _).trans (.setBoard trivial _ none fun x hx => nomatch hx)

/-- The sources leave a channel that holds a write as it is. -/
theorem requestWrite_channel_of_write (s : State) (c d : Channel) (h : (s.channel d).write ≠ none) :
    (s.requestWrite c).channel d = s.channel d := by
  unfold State.requestWrite
  split
  · rename_i hw
    simp only [State.setChannel_channel]
    split
    · rename_i e; subst e
      simp only [State.wantsWrite, Bool.and_eq_true, Option.isNone_iff_eq_none] at hw
      exact absurd hw.1.1.1.2 h
    · rfl
  · rfl

theorem leaveSource_channel (s : State) (c : Channel) (b : Option Slot)
    (h : (s.channel c).write ≠ none) : (s.leaveSource c b).channel c = s.channel c := by
  unfold State.leaveSource
  split
  · rfl
  · split
    · unfold State.dropOutstanding
      split
      · dsimp only
        split
        · unfold State.joinSummary
          split
          · rfl
          · exact requestWrite_channel_of_write _ _ _ h
        · rfl
      · rfl
    · rfl

theorem occupancy_advance (x : ChannelReg) (h : x.occupancy < 131071) :
    x.advance.occupancy = x.occupancy + 1 := by
  have e : x.advance.occupancy = ((x.producer + 1#17) - x.consumer).toNat := by
    unfold ChannelReg.advance ChannelReg.occupancy
    dsimp only
    split <;> rfl
  rw [e]
  unfold ChannelReg.occupancy at h ⊢
  have h1 : x.producer + 1#17 - x.consumer = (x.producer - x.consumer) + 1#17 := by
    rw [BitVec.sub_eq_add_neg, BitVec.sub_eq_add_neg, BitVec.add_assoc, BitVec.add_comm 1#17,
      ← BitVec.add_assoc]
  rw [h1, BitVec.toNat_add]
  have : (1#17).toNat = 1 := rfl
  rw [this, Nat.mod_eq_of_lt (by omega)]

theorem advance_ring (x : ChannelReg) : x.advance.ring = x.ring := by
  unfold ChannelReg.advance; dsimp only; split <;> rfl

theorem advance_held (x : ChannelReg) : x.advance.held = x.held := by
  unfold ChannelReg.advance; dsimp only; split <;> rfl

theorem Keeps.requestWrite (s : State) (c : Channel) : Keeps s (s.requestWrite c) :=
  (Tracks.requestWrite (A := fun _ => True) s c).keeps

/-- Everything but the ring bounds of channel `c`, whose write is at its end. -/
structure NearlyKeeps (c : Channel) (s t : State) : Prop where
  mem : s.memoryWf = true → t.memoryWf = true
  follows : Follows s t
  capacity : s.Capacity → t.Capacity
  others : s.RingsBounded → ∀ d, d ≠ c → (t.channel d).Bounded
  own : s.RingsBounded → (t.channel c).occupancy ≤ (t.channel c).ring.size ∧
    (t.channel c).ring.size ≤ 65536 ∧ ∀ r, (t.channel c).held = some r → r.size ≤ 65536

theorem NearlyKeeps.finish {c : Channel} {s t : State} (h : NearlyKeeps c s t) :
    Keeps s (t.nextWrite c) := by
  unfold State.nextWrite
  refine Keeps.trans (t := t.setChannel c { t.channel c with write := none }) ?_ (.requestWrite _ c)
  refine ⟨h.mem, h.follows, fun hs => ?_, fun hs d => ?_⟩
  · have := h.capacity hs
    exact ⟨this.announces, this.triggers, this.results, this.suspects, this.defects, this.faults⟩
  · simp only [State.setChannel_channel]
    split
    · obtain ⟨h1, h2, h3⟩ := h.own hs
      exact ⟨h1, fun hn => absurd rfl hn, h2, h3⟩
    · rename_i hd; exact h.others hs d hd

theorem NearlyKeeps.step {c : Channel} {s t u : State} (h : NearlyKeeps c s t) (k : Keeps t u)
    (hc : ∀ d, (u.channel d) = (t.channel d) ∨ (d = c ∧ (u.channel d).occupancy = (t.channel d).occupancy ∧
      (u.channel d).ring = (t.channel d).ring ∧ (u.channel d).held = (t.channel d).held)) :
    NearlyKeeps c s u where
  mem := k.mem ∘ h.mem
  follows := h.follows.trans k.follows
  capacity := k.capacity ∘ h.capacity
  others hs d hd := by
    rcases hc d with e | ⟨e, _⟩
    · rw [e]; exact h.others hs d hd
    · exact absurd e hd
  own hs := by
    rcases hc c with e | ⟨_, e1, e2, e3⟩
    · rw [e]; exact h.own hs
    · rw [e1, e2, e3]; exact h.own hs

theorem matchWatch_channel (s : State) (q : SeqNo) (d : DefectRec) (w : WatchId) (c : Channel) :
    (s.matchWatch q d w).channel c = s.channel c := by
  unfold State.matchWatch; split <;> rfl

theorem Keeps.matchWatch (s : State) (q : SeqNo) (d : DefectRec) (w : WatchId) :
    Keeps s (s.matchWatch q d w) := by
  unfold State.matchWatch
  split
  · refine Keeps.trans (t := s.setWatch w ((s.watch w).matched q d)) ?_ (.raise _ _ _)
    exact ⟨id, .refl s,
      fun hs => ⟨hs.announces, hs.triggers, hs.results, hs.suspects, hs.defects, hs.faults⟩, id⟩
  · exact .refl s

theorem Keeps.matchWatches (s : State) (q : SeqNo) (r : LogRecord) : Keeps s (s.matchWatches q r) := by
  unfold State.matchWatches
  split
  · exact .foldl _ (fun u w _ => .matchWatch u q _ w) s
  · exact .refl s

theorem matchWatches_channel (s : State) (q : SeqNo) (r : LogRecord) (c : Channel) :
    (s.matchWatches q r).channel c = s.channel c := by
  unfold State.matchWatches
  split
  · simp only [WatchId.all, List.foldl_cons, List.foldl_nil, matchWatch_channel]
  · rfl

/-- A write in flight that ends keeps every invariant (R152, R155). -/
theorem Keeps.completeWrite (s : State) (c : Channel) (q : SeqNo) (r : LogRecord) (b : Option Slot)
    (hw : (s.channel c).write ≠ none) : Keeps s (s.completeWrite c q r b) := by
  unfold State.completeWrite
  refine NearlyKeeps.finish ?_
  have h1 := (Tracks.leaveSource s c b).keeps
  have h2 := leaveSource_channel s c b hw
  generalize s.leaveSource c b = u at h1 h2
  have h3 : NearlyKeeps c s (u.advance c) := by
    have hch (v : State) (hv : v = u.setChannel c (u.channel c).advance ∨
        ∃ f, v = (u.setChannel c (u.channel c).advance).raise .sta f) :
        NearlyKeeps c s v := by
      have hc : ∀ d, v.channel d = if d = c then (u.channel c).advance else u.channel d := by
        intro d
        rcases hv with rfl | ⟨f, rfl⟩ <;> simp [State.raise]
      refine ⟨?_, ?_, ?_, fun hs d hd => ?_, fun hs => ?_⟩
      · rcases hv with rfl | ⟨f, rfl⟩ <;> exact h1.mem
      · rcases hv with rfl | ⟨f, rfl⟩ <;> exact h1.follows
      · intro hs
        have := h1.capacity hs
        rcases hv with rfl | ⟨f, rfl⟩ <;>
          exact ⟨this.announces, this.triggers, this.results, this.suspects, this.defects, this.faults⟩
      · rw [hc, if_neg hd]; exact h1.rings hs d
      · rw [hc, if_pos rfl, advance_ring, advance_held]
        have hb := h1.rings hs c
        have hr := hb.room (by rw [h2]; exact hw)
        rw [occupancy_advance _ (by have := hb.size; omega)]
        exact ⟨hr, hb.size, hb.held⟩
    unfold State.advance
    dsimp only
    split
    · exact hch _ (Or.inr ⟨_, rfl⟩)
    · exact hch _ (Or.inl rfl)
  generalize u.advance c = v at h3
  have h4 : NearlyKeeps c s (v.matchWatches q r) :=
    h3.step (.matchWatches v q r) fun d => Or.inl (matchWatches_channel v q r d)
  generalize v.matchWatches q r = w at h4
  unfold State.fullCheck
  split
  · refine ⟨h4.mem, h4.follows, ?_, fun hs d hd => ?_, fun hs => ?_⟩
    · intro hs
      have := h4.capacity hs
      exact ⟨this.announces, this.triggers, this.results, this.suspects, this.defects, this.faults⟩
    · have : ((w.setChannel c { w.channel c with state := .full }).raise .sta (Channel.fullFlag c)).channel d =
          w.channel d := by simp [State.raise, hd]
      rw [this]; exact h4.others hs d hd
    · have : ((w.setChannel c { w.channel c with state := .full }).raise .sta (Channel.fullFlag c)).channel c =
          { w.channel c with state := .full } := by simp [State.raise]
      rw [this]; exact h4.own hs
  · exact h4

theorem Keeps.dropSource (s : State) (c : Channel) : Keeps s (s.dropSource c) := by
  unfold State.dropSource
  split
  · exact ((Tracks.defects (A := fun _ => True) s [] fun _ => Nat.zero_le _).trans
      (.foldl _ (fun u d _ => .dropOutstanding trivial u) _)).keeps
  · exact ((Tracks.summaryReady (A := fun _ => True) s []).trans
      (.foldl _ (fun u d _ => .setBoard trivial u none fun x hx => nomatch hx) _)).keeps

theorem ChannelReg.applied_bounded (x : ChannelReg) (r : Ring) (h : r.size ≤ 65536) :
    (x.applied r).Bounded := by
  have ho : (x.applied r).occupancy = 0 := by
    simp [ChannelReg.applied, ChannelReg.occupancy]
  refine ⟨by rw [ho]; exact Nat.zero_le _, fun hn => absurd rfl hn, ?_, fun q hq => nomatch hq⟩
  unfold ChannelReg.applied
  dsimp only
  split
  · exact Nat.zero_le _
  · exact h

theorem Keeps.applyRing (s : State) (c : Channel) (r : Ring)
    (h : (s.channel c).Bounded → r.size ≤ 65536) : Keeps s (s.applyRing c r) := by
  unfold State.applyRing
  dsimp only
  have h1 : Keeps s (s.setChannel c ((s.channel c).applied r)) :=
    .setChannel s c _ fun b => ChannelReg.applied_bounded _ r (h b)
  split
  · exact h1.trans (.dropSource _ c)
  · exact h1.trans (.requestWrite _ c)

/-! ### The ends of operations -/

theorem Keeps.endOp (s : State) : Keeps s s.endOp := .setArbiter s _

theorem Keeps.cacheFillEnd (s : State) : Keeps s s.cacheFillEnd := by
  unfold State.cacheFillEnd
  split
  · split
    · exact ((Keeps.endOp s).trans (.fillEnds _ _)).trans (.grant _)
    · exact .refl s
  · exact .refl s

theorem Keeps.progReadEnd (s : State) : Keeps s s.progReadEnd := by
  unfold State.progReadEnd
  split
  · exact ((Keeps.endOp s).trans (.endPending _ _ _ _)).trans (.grant _)
  · exact .refl s

theorem Keeps.progWriteEnd (s : State) : Keeps s s.progWriteEnd := by
  unfold State.progWriteEnd
  split
  · exact (((Keeps.endOp s).trans (.writeEnds _ _ _)).trans (.endPending _ _ _ _)).trans (.grant _)
  · exact .refl s

theorem writeEnds_channel (s : State) (a : Nat) (bytes : List Byte) (c : Channel) :
    (s.writeEnds a bytes).channel c = s.channel c := by
  have h1 (u : State) : (u.updateLine a bytes).channel c = u.channel c := by
    unfold State.updateLine
    split
    · split <;> rfl
    · rfl
  have h2 (u : State) : (u.spoil a).channel c = u.channel c := by
    unfold State.spoil
    split
    · split <;> rfl
    · rfl
  unfold State.writeEnds
  rw [h2, h1]
  rfl

theorem Keeps.moveWriteEnd (s : State) : Keeps s s.moveWriteEnd := by
  unfold State.moveWriteEnd
  split
  · rename_i c a _ _
    split
    · rename_i seq r board hw
      have h1 : Keeps s (s.endOp.writeEnds a (r.logBytes seq)) :=
        (Keeps.endOp s).trans (.writeEnds _ _ _)
      refine (h1.trans (.completeWrite _ c seq r board ?_)).trans (.grant _)
      rw [writeEnds_channel]
      intro e
      have : (s.channel c).write = none := e
      rw [hw] at this
      exact absurd this (by simp)
    · exact .refl s
  · exact .refl s

end Sys2Proof.Machine
end

