-- ==== Sys2Proof/Laws/Exit.lean ====
section
/-! SUPPORT. The exit's due events (R142, R138): an operation of the Verdict Unit arms no EXIT_DUE, moves no
counter and adds nothing to a lane order, so once a lane's due EXIT_DUE events are taken none is due. -/

namespace Sys2Proof.Machine

open Sys2Proof

/-- From `s` to `t` no counter moves, no lane order gains a slot, and no EXIT_DUE is armed or moved. -/
structure Quiets (s t : State) : Prop where
  counter : ∀ l, (t.lane l).counter = (s.lane l).counter
  order : ∀ l i, i ∈ (t.lane l).order → i ∈ (s.lane l).order
  target : ∀ i x p, t.board i = some x → x.targetOf .exitDue = some p →
    ∃ r, s.board i = some r ∧ r.lane = x.lane ∧ r.targetOf .exitDue = some p

theorem Quiets.same {s t : State} (h1 : t.slots = s.slots) (h2 : t.lanes = s.lanes) : Quiets s t where
  counter l := by simp only [State.lane, h2]
  order l i := by simp only [State.lane, h2]; exact id
  target i x p hx hp := ⟨x, by simpa only [State.board, h1] using hx, rfl, hp⟩

theorem Quiets.refl (s : State) : Quiets s s := .same rfl rfl

theorem Quiets.trans {s t u : State} (h : Quiets s t) (k : Quiets t u) : Quiets s u where
  counter l := (k.counter l).trans (h.counter l)
  order l i hi := h.order l i (k.order l i hi)
  target i x p hx hp := by
    obtain ⟨y, hy, e, q⟩ := k.target i x p hx hp
    obtain ⟨r, hr, f, w⟩ := h.target i y p hy q
    exact ⟨r, hr, f.trans e, w⟩

theorem Quiets.foldl {α : Type} {f : State → α → State} (xs : List α)
    (h : ∀ s x, Quiets s (f s x)) (s : State) : Quiets s (xs.foldl f s) := by
  induction xs generalizing s with
  | nil => exact .refl s
  | cons x xs ih => exact (h s x).trans (ih _)

/-- The lane of `x` and its EXIT_DUE are those of `r`, or it has no EXIT_DUE. -/
def Record.SameExit (r x : Record) : Prop :=
  x.lane = r.lane ∧ (x.targetOf .exitDue = none ∨ x.targetOf .exitDue = r.targetOf .exitDue)

theorem Quiets.setBoard {s : State} {i : Slot} {r x : Record} (h : s.board i = some r)
    (hx : r.SameExit x) : Quiets s (s.setBoard i (some x)) where
  counter _ := rfl
  order _ _ := id
  target j y p hy hp := by
    rw [State.setBoard_board] at hy
    split at hy
    · rename_i e
      subst e
      cases hy
      refine ⟨r, h, hx.1.symm, ?_⟩
      rcases hx.2 with e | e
      · rw [e] at hp; cases hp
      · rw [← e]; exact hp
    · exact ⟨y, hy, rfl, hp⟩

theorem Quiets.erase (s : State) (i : Slot) : Quiets s (s.setBoard i none) where
  counter _ := rfl
  order _ _ := id
  target j y p hy hp := by
    rw [State.setBoard_board] at hy
    split at hy
    · cases hy
    · exact ⟨y, hy, rfl, hp⟩

theorem Quiets.modBoard (s : State) (i : Slot) (f : Record → Record) (h : ∀ r : Record, r.SameExit (f r)) :
    Quiets s (s.modBoard i f) := by
  unfold State.modBoard
  split
  · rename_i r hr
    exact .setBoard hr (h r)
  · exact .refl s

theorem Quiets.modCounts (s : State) (i : Slot) (f : Counts → Counts) : Quiets s (s.modCounts i f) :=
  .modBoard s i _ fun _ => ⟨rfl, .inr rfl⟩

theorem Quiets.setLane (s : State) (l : Lane) (x : LaneState) (h1 : x.counter = (s.lane l).counter)
    (h2 : ∀ i, i ∈ x.order → i ∈ (s.lane l).order) : Quiets s (s.setLane l x) where
  counter m := by
    simp only [State.setLane_lane]
    split
    · rename_i e; subst e; exact h1
    · rfl
  order m i := by
    simp only [State.setLane_lane]
    split
    · rename_i e; subst e; exact h2 i
    · exact id
  target i y p hy hp := ⟨y, hy, rfl, hp⟩

theorem Quiets.requestWrite (s : State) (c : Channel) : Quiets s (s.requestWrite c) := by
  unfold State.requestWrite
  split <;> exact .same rfl rfl

theorem Quiets.recordFault (s : State) (f : FaultRec) : Quiets s (s.recordFault f) := by
  unfold State.recordFault
  split <;> exact .same rfl rfl

theorem Quiets.release (s : State) (r : Record) : Quiets s (s.release r) := by
  unfold State.release State.dropUse
  split
  · exact .refl s
  · split
    · dsimp only
      split
      · split <;> exact .same rfl rfl
      · exact .same rfl rfl
    · exact .refl s

theorem Quiets.addDefect (s : State) (src : Source) (i : Slot) (d : DefectRec) :
    Quiets s (s.addDefect src i d).1 := by
  unfold State.addDefect
  split
  · exact .refl s
  · split
    · refine Quiets.trans ?_ (.requestWrite _ _)
      refine Quiets.trans (t := s.modBoard i fun r => { r with outstanding := r.outstanding + 1 })
        (.modBoard s i _ fun _ => ⟨rfl, .inr rfl⟩) (.same rfl rfl)
    · split
      · rename_i r hr
        exact .setBoard hr ⟨rfl, .inr rfl⟩
      · exact .refl s

theorem Quiets.resolveAlone (s : State) (src : Source) (i : Slot) (j : JointId) (p : Report) :
    Quiets s (s.resolveAlone src i j p).1 := by
  unfold State.resolveAlone
  split
  · exact .refl s
  · exact Quiets.modBoard s i _ fun _ => ⟨rfl, .inr rfl⟩
  · exact Quiets.modBoard s i _ fun _ => ⟨rfl, .inr rfl⟩
  · split
    · exact (Quiets.modCounts s i _).trans (.addDefect _ _ _ _)
    · exact .refl s

theorem Quiets.dropTrigger (s : State) (n : HeadId) (t : Tag) : Quiets s (s.dropTrigger n t) :=
  .same rfl rfl

theorem Quiets.endHead (s : State) (i : Slot) (n : HeadId) : Quiets s (s.endHead i n) := by
  unfold State.endHead
  split
  · exact .refl s
  · rename_i r hr
    have h (x : Record) (e : r.SameExit x) : Quiets s (s.setBoard i (some x)) := .setBoard hr e
    split
    · exact h _ ⟨rfl, .inr rfl⟩
    · exact h _ ⟨rfl, .inr rfl⟩
    · exact h _ ⟨rfl, .inr rfl⟩
    · exact (Quiets.dropTrigger s n r.tag).trans
        (Quiets.setBoard (s := s.dropTrigger n r.tag) (r := r) hr ⟨rfl, .inr rfl⟩)
    · split
      · exact .refl s
      · exact h _ ⟨rfl, .inr rfl⟩
    all_goals exact .refl s

/-- A close keeps EXIT_DUE armed and disarms the rest (R129). -/
theorem targetOf_exitDue_kept (r : Record) (v : Option Verdict) (b : RecState) :
    ({ r with armed := r.armed.filter (fun e => decide (e.kind = .exitDue)), verdict := v,
              state := b } : Record).targetOf .exitDue = r.targetOf .exitDue := by
  unfold Record.targetOf
  dsimp only
  rw [List.find?_filter]
  congr 2
  funext e
  simp

theorem Quiets.fixVerdict (s : State) (i : Slot) (b : RecState) : Quiets s (s.fixVerdict i b) := by
  unfold State.fixVerdict
  split
  · exact .refl s
  · rename_i r hr
    have h : Quiets s (((s.setBoard i (some { r with verdict := some (verdictOf (s.entryOf r) r) })).release
        r).modBoard i fun x =>
          { x with armed := x.armed.filter fun e => decide (e.kind = .exitDue), state := .decided }) :=
      ((Quiets.setBoard (x := { r with verdict := some (verdictOf (s.entryOf r) r) }) hr
        ⟨rfl, .inr rfl⟩).trans (.release _ _)).trans
        (.modBoard _ _ _ fun x => ⟨rfl, .inr (targetOf_exitDue_kept x x.verdict .decided)⟩)
    dsimp only
    split
    · exact h.trans (.setLane _ _ _ rfl fun _ => id)
    · exact h

theorem Quiets.close (s : State) (i : Slot) : Quiets s (s.close i) := by
  unfold State.close
  split
  · exact .refl s
  · refine Quiets.trans (t := (s.endHeads i).countUnwalked i |>.resolveSuspects i)
      (Quiets.trans (t := (s.endHeads i).countUnwalked i) (Quiets.trans (t := s.endHeads i) ?_ ?_) ?_)
      (.fixVerdict _ _ _)
    · exact .foldl _ (fun u n => .endHead u i n) s
    · unfold State.countUnwalked
      split
      · exact .refl _
      · exact Quiets.modBoard _ i _ fun _ => ⟨rfl, .inr rfl⟩
    · refine .foldl _ (fun u x => ?_) _
      refine Quiets.trans (Quiets.trans (t := { u with suspects := setErase x u.suspects })
        (.same rfl rfl) (.resolveAlone _ .verdictUnit i x.joint x.report)) ?_
      exact .foldl _ (fun v f => .recordFault v f) _

theorem Quiets.joinSummary (s : State) (i : Slot) : Quiets s (s.joinSummary i) := by
  unfold State.joinSummary
  split
  · exact .erase s i
  · exact Quiets.trans (t := { s with summaryReady := s.summaryReady ++ [i] }) (.same rfl rfl)
      (.requestWrite _ _)

theorem Quiets.makeLeaving (s : State) (i : Slot) (f : ExitFate) : Quiets s (s.makeLeaving i f) := by
  unfold State.makeLeaving
  split
  · exact .refl s
  · rename_i r hr
    dsimp only
    have h := Quiets.setBoard (x := { r with exitFate := some f, armed := [], state := .leaving }) hr
      ⟨rfl, .inl rfl⟩
    generalize s.setBoard i (some { r with exitFate := some f, armed := [], state := .leaving }) = u
      at h ⊢
    have h' : Quiets s (u.setLane r.lane
        { u.lane r.lane with order := setErase i (u.lane r.lane).order }) :=
      h.trans (.setLane _ _ _ rfl fun j hj => List.mem_of_mem_filter hj)
    split
    · exact h'.trans (.joinSummary _ _)
    · exact h'

theorem Quiets.applyHeldMap (s : State) (l : Lane) : Quiets s (s.applyHeldMap l) := by
  unfold State.applyHeldMap
  split
  · split
    · exact (Quiets.setLane s l ((s.lane l).applied _) rfl fun _ => id).trans (.same rfl rfl)
    · exact .refl s
  · exact .refl s

theorem Quiets.closeIfOpen (s : State) (i : Slot) : Quiets s (s.closeIfOpen i) := by
  unfold State.closeIfOpen
  split
  · split
    · exact .close s i
    · exact .refl s
  · exact .refl s

theorem Quiets.miss (s : State) (i : Slot) (t : Pos) : Quiets s (s.miss i t) := by
  unfold State.miss
  split
  · exact .refl s
  · have h : Quiets s ((s.closeIfOpen i).modBoard i fun x => x.addFlag .missingAtExit) :=
      (Quiets.closeIfOpen s i).trans (.modBoard _ _ _ fun _ => ⟨rfl, .inr rfl⟩)
    dsimp only
    exact ((h.trans (.makeLeaving _ _ _)).trans (.recordFault _ _)).trans (.applyHeldMap _ _)

theorem Quiets.exitDueAct (s : State) (i : Slot) (r : Record) (t : Pos) :
    Quiets s (Machine.exitDueAct i r t s) := by
  unfold Machine.exitDueAct
  dsimp only
  split
  · refine Quiets.trans (.foldl _ (fun u j => ?_) s) (.miss _ i t)
    split
    · exact .miss _ _ _
    · exact .refl u
  · exact .refl s

theorem disarm_exitDue (r : Record) : (r.disarm .exitDue).targetOf .exitDue = none := by
  unfold Record.targetOf Record.disarm
  dsimp only
  rw [List.find?_eq_none.2]
  · rfl
  · intro e he
    simp only [List.mem_filter, decide_eq_true_eq] at he
    simpa using he.2

/-- The record's EXIT_DUE is not due. -/
def State.exitNotDue (s : State) (i : Slot) : Prop :=
  ∀ r t, s.board i = some r → r.targetOf .exitDue = some t → due (s.lane r.lane).counter t = false

theorem Quiets.exitNotDue {s t : State} (h : Quiets s t) {i : Slot} (k : s.exitNotDue i) :
    t.exitNotDue i := by
  intro x p hx hp
  obtain ⟨r, hr, e, hq⟩ := h.target i x p hx hp
  rw [h.counter, ← e]
  exact k r p hr hq

/-- A grant moves no board and no lane. -/
theorem Quiets.grantOnce (s : State) : Quiets s s.grantOnce.1 := by
  unfold State.grantOnce
  split
  · exact .refl s
  · split
    · exact .same rfl rfl
    · split
      · unfold State.grantPort
        dsimp only
        split <;> exact .same rfl rfl
      · split
        · unfold State.grantChannel
          dsimp only
          split
          · exact .same rfl rfl
          · split
            · exact .same rfl rfl
            · unfold State.refuseMove
              refine Quiets.trans (t := State.setChannel
                { s with arbiter := { s.arbiter with lastChannel := ‹Channel› } } ‹Channel› _)
                (.same rfl rfl) ((Quiets.recordFault _ _).trans (.same rfl rfl))
        · exact .refl s

theorem Quiets.grantUpTo : ∀ (k : Nat) (s : State), Quiets s (State.grantUpTo k s)
  | 0, s => .refl s
  | k + 1, s => by
    have h := Quiets.grantOnce s
    unfold State.grantUpTo
    split
    · rename_i s1 e
      rw [e] at h
      exact h.trans (Quiets.grantUpTo k s1)
    · rename_i s1 e
      rw [e] at h
      exact h

theorem Quiets.thenGrant (s t : State) : Quiets t (s.thenGrant t) := by
  unfold State.thenGrant
  split
  · exact .grantUpTo 8 t
  · exact .refl t

/-- An EXIT_DUE handed over: its record has none left that is due. -/
theorem takeEvent_exitDue (s : State) (i : Slot) :
    Quiets s (s.takeEvent i .exitDue (exitDueAct i)) ∧
      (s.takeEvent i .exitDue (exitDueAct i)).exitNotDue i := by
  unfold State.takeEvent
  split
  · rename_i hn
    exact ⟨.refl s, fun r t h => by rw [hn] at h; cases h⟩
  · rename_i r hr
    split
    · rename_i hn
      exact ⟨.refl s, fun x t h ht => by rw [hr] at h; cases h; rw [hn] at ht; cases ht⟩
    · rename_i t ht
      split
      · have h1 : Quiets s (s.setBoard i (some (r.disarm .exitDue))) :=
          .setBoard hr ⟨rfl, .inl (disarm_exitDue r)⟩
        have h2 : (s.setBoard i (some (r.disarm .exitDue))).exitNotDue i := by
          intro x p hx hp
          rw [State.setBoard_board, if_pos rfl] at hx
          cases hx
          rw [disarm_exitDue] at hp
          cases hp
        exact ⟨h1.trans (.exitDueAct _ _ _ _), (Quiets.exitDueAct _ _ _ _).exitNotDue h2⟩
      · rename_i hd
        refine ⟨.refl s, fun x p h hp => ?_⟩
        rw [hr] at h
        cases h
        rw [ht] at hp
        cases hp
        exact Bool.eq_false_iff.2 hd

/-- The same with the grant that follows it. -/
theorem handOverAny_exitDue (s : State) (i : Slot) :
    Quiets s (s.handOverAny ⟨i, .exitDue⟩) ∧ (s.handOverAny ⟨i, .exitDue⟩).exitNotDue i := by
  obtain ⟨h, k⟩ := takeEvent_exitDue s i
  have g := Quiets.thenGrant s (s.takeEvent i .exitDue (exitDueAct i))
  exact ⟨h.trans g, g.exitNotDue k⟩

theorem foldExitDues {xs : List Slot} (s : State) :
    Quiets s (xs.foldl (fun u i => u.handOverAny ⟨i, .exitDue⟩) s) ∧
      ∀ i ∈ xs, (xs.foldl (fun u i => u.handOverAny ⟨i, .exitDue⟩) s).exitNotDue i := by
  induction xs generalizing s with
  | nil => exact ⟨.refl s, fun i hi => nomatch hi⟩
  | cons x xs ih =>
    obtain ⟨h1, h2⟩ := handOverAny_exitDue s x
    obtain ⟨k1, k2⟩ := ih (s.handOverAny ⟨x, .exitDue⟩)
    refine ⟨h1.trans k1, fun i hi => ?_⟩
    rcases List.mem_cons.1 hi with rfl | hi
    · exact k1.exitNotDue h2
    · exact k2 i hi

/-- With no EXIT_DUE of the lane due, an exit edge finds the state as it was. -/
theorem exitDuesFirst_none {s : State} {l : Lane} (h : s.noExitDue l) : s.exitDuesFirst l = s := by
  have key : ∀ xs : List Slot, (∀ j ∈ xs, j ∈ (s.lane l).order) →
      xs.foldl (fun u i => u.handOverAny ⟨i, .exitDue⟩) s = s := by
    intro xs
    induction xs with
    | nil => exact fun _ => rfl
    | cons j xs ih =>
      intro hx
      have hj : s.handOverAny ⟨j, .exitDue⟩ = s := by
        show s.thenGrant (s.takeEvent j .exitDue (exitDueAct j)) = s
        rw [takeEvent_none _ fun r t hr ht => h j (hx j (by simp)) r t hr ht, thenGrant_self]
      rw [List.foldl_cons, hj]
      exact ih fun i hi => hx i (by simp [hi])
  exact key _ fun _ hj => hj

/-- Once they are taken none is due (log entry 8). -/
theorem exitDuesFirst_leaves (s : State) (l : Lane) : (s.exitDuesFirst l).noExitDue l := by
  obtain ⟨h, k⟩ := foldExitDues (xs := (s.lane l).order) s
  exact fun i hi => k i (h.order l i hi)

/-- An exit edge is the edge on the state with the lane's due EXIT_DUE events taken (R138; log entry 8). -/
theorem exitLeading_exitDuesFirst (s : State) (l : Lane) (h : s.exitActs l = true) :
    s.exitLeading l = (s.exitDuesFirst l).exitLeading l := by
  conv_lhs => unfold State.exitLeading
  conv_rhs => unfold State.exitLeading
  rw [if_pos h, exitDuesFirst_none (exitDuesFirst_leaves s l)]
  split <;> rename_i k <;> simp

end Sys2Proof.Machine
end

