-- ==== Sys2Proof/Laws/Layout.lean ====
section
/-! SUPPORT. Reading back what a log record writes (R196, R197): the length of a field, the number it holds,
and the fields before it passed over. -/

namespace Sys2Proof

theorem le_length (k n : Nat) : (le k n).length = k := by
  induction k generalizing n with
  | zero => rfl
  | succ k ih => simp [le, ih]

/-- A field of `k` bytes reads back its number. -/
theorem numberAt_here (k n : Nat) (xs : List Byte) : numberAt (le k n ++ xs) 0 k = n % 256 ^ k := by
  unfold numberAt
  rw [List.drop_zero]
  induction k generalizing n with
  | zero => simp [le, Nat.mod_one]
  | succ k ih =>
    simp only [le, List.cons_append, List.take_succ_cons, List.foldr_cons]
    rw [ih, BitVec.toNat_ofNat]
    show n % 256 + 256 * (n / 256 % 256 ^ k) = n % 256 ^ (k + 1)
    rw [Nat.pow_succ, Nat.mul_comm (256 ^ k) 256, Nat.mod_mul]

/-- The last field of a record. -/
theorem numberAt_last (k n : Nat) : numberAt (le k n) 0 k = n % 256 ^ k := by
  have h := numberAt_here k n []
  rwa [List.append_nil] at h

/-- A read past a field does not depend on it. -/
theorem numberAt_skip (j n m k : Nat) (xs : List Byte) (h : j ≤ m) :
    numberAt (le j n ++ xs) m k = numberAt xs (m - j) k := by
  unfold numberAt
  rw [List.drop_append, List.drop_eq_nil_of_le (by rw [le_length]; exact h), le_length,
    List.nil_append]

theorem bit_eq (n : Nat) (x : Bool) : bit n x = x.toNat * 2 ^ n := by cases x <;> simp [bit]

end Sys2Proof
end

