-- ==== Sys2Proof/Laws/Requests.lean ====
section
/-! SUPPORT. What a request can do: how one is served, and what each request's effect keeps. -/

namespace Sys2Proof.Machine

open Sys2Proof

/-! ### Serving -/

theorem serve_pending (s : State) (p : Port) (q : Request) (act : State → State × Reply)
    (h : (s.port p).pending.isSome) : s.serve p q act = s := by
  rw [State.serve, if_pos h]

theorem serve_refused (s : State) (p : Port) (q : Request) (act : State → State × Reply)
    (h : (s.port p).pending = none) (hp : permitted p q = false) :
    s.serve p q act = s.respond p q ⟨.notPermitted, []⟩ := by
  rw [State.serve, if_neg (by rw [h]; exact Bool.false_ne_true), if_neg (by rw [hp]; exact Bool.false_ne_true)]

theorem serve_taken (s : State) (p : Port) (q : Request) (act : State → State × Reply)
    (h : (s.port p).pending = none) (hp : permitted p q = true) :
    s.serve p q act = (act s).1.respond p q (act s).2 := by
  rw [State.serve, if_neg (by rw [h]; exact Bool.false_ne_true), if_pos hp]

theorem respond_eq_answers (s : State) (p : Port) (q : Request) (st : Status) (x : List Byte) :
    s.respond p q ⟨st, x⟩ = s.answers p st (Request.all.idxOf q + 1) x := rfl

/-- The table of R189, as the meanings read it and as the claims do. -/
theorem permitted_eq_mayAsk (p : Port) (q : Request) :
    permitted p q = mayAsk p (Request.all.idxOf q + 1) := by
  cases q <;> cases p <;> rfl

theorem serve_notPermitted (s : State) (p : Port) (q : Request) (act : State → State × Reply)
    (h : s.open_ p) (hp : mayAsk p (Request.all.idxOf q + 1) = false) :
    s.serve p q act = s.answers p .notPermitted (Request.all.idxOf q + 1) [] :=
  serve_refused s p q act h ((permitted_eq_mayAsk p q).trans hp)

/-- A permitted request on an open port: its effect, then its response. -/
theorem serve_answers (s : State) (p : Port) (q : Request) (act : State → State × Reply)
    (h : s.open_ p) (hp : permitted p q = true) :
    s.serve p q act =
      (act s).1.answers p (act s).2.status (Request.all.idxOf q + 1) (act s).2.payload :=
  serve_taken s p q act h hp

theorem serve_badObject {α β : Type} (s : State) (p : Port) (q : Request) (args : Option β)
    (act : α → β → State → State × Reply) (h : s.open_ p) (hp : permitted p q = true) :
    s.serve p q (onObject none args act) = s.answers p .badObject (Request.all.idxOf q + 1) [] :=
  serve_taken s p q _ h hp

theorem serve_badValue {α β : Type} (s : State) (p : Port) (q : Request) (x : α)
    (act : α → β → State → State × Reply) (h : s.open_ p) (hp : permitted p q = true) :
    s.serve p q (onObject (some x) none act) =
      s.answers p .badValue (Request.all.idxOf q + 1) [] :=
  serve_taken s p q _ h hp

theorem serve_badArgs {β : Type} (s : State) (p : Port) (q : Request)
    (act : β → State → State × Reply) (h : s.open_ p) (hp : permitted p q = true) :
    s.serve p q (onArgs none act) = s.answers p .badValue (Request.all.idxOf q + 1) [] :=
  serve_taken s p q _ h hp

/-! ### Objects -/

theorem Lane.ofObject_none (o : Byte) : Lane.ofObject o = none ↔ 2 ≤ o.toNat := by
  simp [Lane.ofObject, Lane.all]
  omega

theorem Head.ofObject_none (o : Byte) : Head.ofObject o = none ↔ 4 ≤ o.toNat := by
  simp [Head.ofObject, HeadId.all]

theorem Channel.ofObject_none (o : Byte) : Channel.ofObject o = none ↔ 2 ≤ o.toNat := by
  simp [Channel.ofObject, Channel.all]
  omega

theorem WatchId.ofObject_none (o : Byte) : WatchId.ofObject o = none ↔ 2 ≤ o.toNat := by
  simp [WatchId.ofObject, WatchId.all]
  omega

theorem Port.ofObject_none (o : Byte) : Port.ofObject o = none ↔ 7 ≤ o.toNat := by
  simp [Port.ofObject, Port.all]

theorem finOf_none (n x : Nat) : finOf n x = none ↔ n ≤ x := by
  unfold finOf
  split <;> simp_all

theorem finOf_val (n : Nat) (k : Fin n) : finOf n k.val = some k := by
  simp [finOf]

theorem Outer.ofObject_none (o : Byte) :
    Outer.ofObject o = none ↔ ¬(1 ≤ o.toNat ∧ o.toNat < 7) := by
  have h : ∀ x : Byte, Outer.ofObject x = none ↔ ¬(1 ≤ x.toNat ∧ x.toNat < 7) := by decide
  exact h o

theorem lineOrAll_none (o : Byte) : lineOrAll o = none ↔ ¬(o.toNat < 128 ∨ o.toNat = 255) := by
  have h : ∀ x : Byte, lineOrAll x = none ↔ ¬(x.toNat < 128 ∨ x.toNat = 255) := by decide
  exact h o

theorem Keeps.serve (s : State) (p : Port) (q : Request) (act : State → State × Reply)
    (h : Keeps s (act s).1) : Keeps s (s.serve p q act) := by
  unfold State.serve
  split
  · exact .refl s
  · split
    · exact h.trans (.respond _ _ _ _)
    · exact .respond s _ _ _

theorem Keeps.onObject {α β : Type} (obj : Option α) (args : Option β)
    (act : α → β → State → State × Reply) (s : State) (h : ∀ x a, Keeps s (act x a s).1) :
    Keeps s (onObject obj args act s).1 := by
  unfold Machine.onObject
  split
  · exact .refl s
  · exact .refl s
  · exact h _ _

theorem Keeps.onArgs {β : Type} (args : Option β) (act : β → State → State × Reply) (s : State)
    (h : ∀ a, Keeps s (act a s).1) : Keeps s (onArgs args act s).1 := by
  unfold Machine.onArgs
  split
  · exact .refl s
  · exact h _

theorem Keeps.onHead {β : Type} (p : Port) (args : Option β)
    (act : HeadId → β → State → State × Reply) (s : State) (h : ∀ n a, Keeps s (act n a s).1) :
    Keeps s (onHead p args act s).1 := by
  unfold Machine.onHead
  split
  · exact .onArgs _ _ s (h _)
  · exact .refl s

/-! ### Requests of every port -/

theorem Keeps.frameRejected (s : State) (p : Port) (bytes : List Byte) :
    Keeps s (s.frameRejected p bytes) := by
  unfold State.frameRejected
  split
  · exact .refl s
  · split
    · exact .refl s
    · exact .setPorts s _

theorem Keeps.setFaults (s : State) (x : FaultUnit)
    (h : s.faults.queue.length ≤ 8 → x.queue.length ≤ 8) : Keeps s { s with faults := x } :=
  ⟨id, .refl s, fun hs => ⟨hs.announces, hs.triggers, hs.results, hs.suspects, hs.defects, h hs.faults⟩, id⟩

theorem Keeps.faultRead (s : State) (p : Port) : Keeps s (s.faultRead p).1 := by
  unfold State.faultRead
  refine .setFaults s _ fun h => ?_
  unfold FaultUnit.readBy
  dsimp only
  split
  · exact Nat.zero_le 8
  · rename_i heq
    rw [heq] at h
    exact h

theorem Keeps.faultPop (s : State) : Keeps s s.faultPop.1 := by
  unfold State.faultPop
  split
  · rename_i heq
    split
    · refine .setFaults s _ fun h => ?_
      rw [heq] at h
      exact Nat.le_of_succ_le h
    · exact .refl s
  · split
    · exact .refl s
    · exact .setFaults s _ fun h => h

theorem Keeps.setAlert (s : State) (p : Port) (x : AlertState) : Keeps s (s.setAlert p x) :=
  ⟨id, .refl s, fun hs => ⟨hs.announces, hs.triggers, hs.results, hs.suspects, hs.defects, hs.faults⟩, id⟩

theorem Keeps.alertClear (s : State) (p : Port) (fs : List AlertFlag) :
    Keeps s (s.alertClear p fs).1 := by
  unfold State.alertClear
  split
  · exact .setAlert s _ _
  · exact .refl s

theorem Keeps.alertMaskSet (s : State) (p : Port) (a : MaskArgs) :
    Keeps s (s.alertMaskSet p a).1 := by
  unfold State.alertMaskSet
  split
  · exact .setAlert s _ _
  · exact .refl s

theorem Keeps.softAlert (s : State) (p t : Port) : Keeps s (s.softAlert p t).1 :=
  (Keeps.raise s t .soft).trans (.setAlert _ _ _)

theorem Keeps.setMail (s : State) (o : Outer) (x : MailPair) : Keeps s (s.setMail o x) :=
  ⟨id, .refl s, fun hs => ⟨hs.announces, hs.triggers, hs.results, hs.suspects, hs.defects, hs.faults⟩, id⟩

theorem Keeps.mailPut (s : State) (p : Port) (o : Outer) (m : List Byte) :
    Keeps s (s.mailPut p o m).1 := by
  unfold State.mailPut
  split
  · exact .refl s
  · split
    · exact .refl s
    · exact .setMail s _ _

theorem Keeps.mailTake (s : State) (p : Port) (o : Outer) : Keeps s (s.mailTake p o).1 := by
  unfold State.mailTake
  split
  · exact .setMail s _ _
  · exact .refl s

/-! ### Requests about a lane -/

theorem Keeps.announce (s : State) (l : Lane) (a : AnnounceArgs) : Keeps s (s.announce l a).1 := by
  unfold State.announce
  split
  · exact .refl s
  · split
    · rename_i h
      exact .setLane s l _ fun _ => by
        simp only [List.length_append, List.length_singleton]; exact h
    · exact .refl s

theorem Keeps.announceThresholdSet (s : State) (l : Lane) (n : Nat) :
    Keeps s (s.announceThresholdSet l n).1 := by
  unfold State.announceThresholdSet
  split
  · exact .setLane s l _ id
  · exact .refl s

theorem Keeps.counterSet (s : State) (l : Lane) (n : Nat) : Keeps s (s.counterSet l n).1 := by
  unfold State.counterSet
  split
  · exact .refl s
  · split
    · exact .refl s
    · exact .setLane s l _ id

theorem Keeps.dispRead (s : State) (l : Lane) : Keeps s (s.dispRead l).1 := by
  unfold State.dispRead
  split <;> exact .refl s

theorem Keeps.tunnelSet (s : State) (l : Lane) (a : TunnelArgs) : Keeps s (s.tunnelSet l a).1 := by
  unfold State.tunnelSet
  split
  · exact .refl s
  · split
    · exact .setLane s l _ id
    · exact .setLane s l _ id

/-! ### Requests about recipes, memory and the cache -/

theorem Keeps.setDir (s : State) (k : RecipeId) (x : DirState) : Keeps s (s.setDir k x) :=
  (Tracks.setDir (A := fun _ => True) s k x).keeps

theorem Keeps.directorySet (s : State) (k : RecipeId) (e : DirEntry) :
    Keeps s (s.directorySet k e).1 := by
  unfold State.directorySet
  split
  · split
    · exact .setDir s k _
    · exact .setDir s k _
  · exact .refl s

theorem Keeps.regionSet (s : State) (k : RegionId) (a : RegionArgs) : Keeps s (s.regionSet k a).1 :=
  ⟨id, .refl s, fun hs => ⟨hs.announces, hs.triggers, hs.results, hs.suspects, hs.defects, hs.faults⟩, id⟩

theorem Keeps.askMemory (s : State) (p : Port) (x : PendingReq) : Keeps s (s.askMemory p x).1 :=
  (Keeps.setPorts s _).thenGrant

theorem Keeps.progRead (s : State) (p : Port) (a : ReadArgs) : Keeps s (s.progRead p a).1 := by
  unfold State.progRead
  split
  · split
    · exact .refl s
    · exact .askMemory s _ _
  · exact .refl s

theorem Keeps.progWrite (s : State) (p : Port) (a : WriteArgs) : Keeps s (s.progWrite p a).1 := by
  unfold State.progWrite
  split
  · split
    · split
      · exact .refl s
      · exact .askMemory s _ _
    · exact .refl s
  · exact .refl s

theorem Keeps.cacheIsolate (s : State) (p : Port) : Keeps s (s.cacheIsolate p).1 := by
  unfold State.cacheIsolate
  split
  · exact .refl s
  · split
    · exact .setCache s _
    · exact (Keeps.setCache s _).trans (.setPorts _ _)
  · exact .refl s

theorem Keeps.cacheInvalidate (s : State) (x : Option LineId) : Keeps s (s.cacheInvalidate x).1 := by
  unfold State.cacheInvalidate
  split
  · split <;> exact .setCache s _
  · exact .refl s

theorem Keeps.cacheRelease (s : State) : Keeps s s.cacheRelease.1 := by
  unfold State.cacheRelease
  split
  · exact .setCache s _
  · exact .refl s

/-! ### Requests about a head -/

theorem Keeps.markTaken (s : State) (n : HeadId) (t : Tag) : Keeps s (s.markTaken n t) := by
  unfold State.markTaken
  split
  · rename_i i _
    have h : Tracks (fun _ => True) s (s.modBoard i fun r => r.setStatus n .taken) :=
      .modBoard trivial s _ fun r => ⟨rfl, rfl, rfl, rfl, rfl⟩
    exact h.keeps
  · exact .refl s

theorem Keeps.triggerTake (s : State) (n : HeadId) : Keeps s (s.triggerTake n).1 := by
  unfold State.triggerTake
  split
  · exact .refl s
  · rename_i t rest heq
    refine Keeps.trans (t := s.setRawLink n { s.link n with triggers := rest })
      (.setRawLink s n _ (fun h => ?_) id) (.markTaken _ n _)
    rw [heq] at h
    exact Nat.le_of_succ_le h

theorem accept_length (k : Link) (items : List Item) (h : k.results.length ≤ 64) :
    (k.accept items).results.length ≤ 64 := by
  have hf : k.freeSlots = 64 - k.results.length := rfl
  simp only [Link.accept, List.length_append, List.length_take, hf]
  omega

theorem Keeps.resultPut (s : State) (n : HeadId) (xs : List RawItem) :
    Keeps s (s.resultPut n xs).1 := by
  unfold State.resultPut
  split
  · exact .refl s
  · split
    · exact .refl s
    · exact .setLink s n _ id (accept_length _ _)

theorem Keeps.resultHoldSet (s : State) (n : HeadId) (k : Nat) : Keeps s (s.resultHoldSet n k).1 := by
  unfold State.resultHoldSet
  split
  · exact .setLink s n _ id id
  · exact .refl s

/-! ### Requests about the log channels and watches -/

theorem ringCheck_size (s : State) (c : Channel) (a : RingArgs) (r : Ring)
    (h : s.ringCheck c a = .ok r) : r.size ≤ 65536 := by
  have hk (hs : ringSizeOk a.size = true) : a.size ≤ 65536 := by
    unfold ringSizeOk at hs
    rcases Bool.or_eq_true_iff.1 hs with h | h
    · have : a.size = 0 := of_decide_eq_true h
      omega
    · rw [List.any_eq_true] at h
      obtain ⟨k, hk, e⟩ := h
      have e := of_decide_eq_true e
      have : k < 13 := List.mem_range.1 hk
      rw [e]
      exact (Nat.pow_le_pow_right (by decide) (show k + 4 ≤ 16 by omega)).trans (by decide)
  unfold State.ringCheck at h
  split at h
  · cases h
  · rename_i hs
    have hs : ringSizeOk a.size = true := by simpa using hs
    split at h
    · cases h; exact Nat.zero_le _
    · split at h
      · cases h
      · split at h
        · cases h
        · split at h
          · cases h; exact hk hs
          · cases h

theorem Keeps.ringSet (s : State) (c : Channel) (a : RingArgs) : Keeps s (s.ringSet c a).1 := by
  unfold State.ringSet
  split
  · exact .refl s
  · rename_i r hr
    have h := ringCheck_size s c a r hr
    split
    · exact (Keeps.applyRing s c r fun _ => h).thenGrant
    · refine .setChannel s c _ fun b => ⟨b.occupancy, fun hn => ?_, b.size, fun q hq => ?_⟩
      · refine b.room fun e => hn ?_
        unfold ChannelReg.hold
        dsimp only
        rw [e]
        simp
      · cases hq; exact h

theorem consumed_occupancy (x : ChannelReg) (c : RingIndex)
    (h : (c - x.consumer).toNat ≤ x.occupancy) :
    ({ x with consumer := c } : ChannelReg).occupancy ≤ x.occupancy := by
  unfold ChannelReg.occupancy at h ⊢
  dsimp only at h ⊢
  have e : x.producer - c = (x.producer - x.consumer) - (c - x.consumer) :=
    (sub_sub_sub_cancel_right _ _ _).symm
  rw [e, BitVec.toNat_sub_of_le (BitVec.le_def.2 h)]
  exact Nat.sub_le _ _

theorem Keeps.afterConsumed (s : State) (c : Channel) : Keeps s (s.afterConsumed c) := by
  unfold State.afterConsumed
  dsimp only
  have h1 : Keeps s (s.setChannel c (s.channel c).resume) := by
    refine .setChannel s c _ fun b => ?_
    unfold ChannelReg.resume
    split
    · exact ⟨b.occupancy, b.room, b.size, b.held⟩
    · exact b
  generalize s.setChannel c (s.channel c).resume = u at h1
  split
  · rename_i r hr
    split
    · exact (h1.trans (.applyRing u c r fun b => b.held r hr)).trans (.raise _ _ _)
    · exact h1
  · exact h1.trans (.requestWrite _ c)

theorem Keeps.logConsumed (s : State) (c : Channel) (n : Nat) : Keeps s (s.logConsumed c n).1 := by
  unfold State.logConsumed
  split
  · exact .refl s
  · split
    · exact .refl s
    · split
      · exact .refl s
      · rename_i h
        refine Keeps.thenGrant (Keeps.trans (.setChannel s c _ fun b => ?_) (.afterConsumed _ c))
        have hc := consumed_occupancy (s.channel c) (BitVec.ofNat 17 n) (Nat.le_of_not_lt h)
        exact ⟨Nat.le_trans hc b.occupancy, fun hn => Nat.lt_of_le_of_lt hc (b.room hn), b.size,
          b.held⟩

theorem Keeps.logBlockSet (s : State) (c : Channel) (n : Nat) : Keeps s (s.logBlockSet c n).1 := by
  unfold State.logBlockSet
  split
  · exact .setChannel s c _ fun b => ⟨b.occupancy, b.room, b.size, b.held⟩
  · exact .refl s

theorem Keeps.setWatch (s : State) (w : WatchId) (x : Watch) : Keeps s (s.setWatch w x) :=
  ⟨id, .refl s, fun hs => ⟨hs.announces, hs.triggers, hs.results, hs.suspects, hs.defects, hs.faults⟩, id⟩

theorem Keeps.watchSet (s : State) (w : WatchId) (a : WatchArgs) : Keeps s (s.watchSet w a).1 := by
  unfold State.watchSet
  split
  · exact .setWatch s w _
  · exact .refl s

theorem Keeps.watchRead (s : State) (w : WatchId) : Keeps s (s.watchRead w).1 := by
  unfold State.watchRead
  dsimp only
  split
  · exact .setWatch s w _
  · exact .refl s

theorem Keeps.watchClear (s : State) (w : WatchId) : Keeps s (s.watchClear w).1 := by
  unfold State.watchClear
  split
  · split
    · exact .setWatch s w _
    · exact .refl s
  · exact .refl s

/-! ### Resets and creation -/

theorem wf_abandonWrite (draw : Nat) : ∀ (bytes : List Byte) (m : List Host.Cell) (a : Nat),
    Memory.wf m = true → Memory.wf (abandonWrite draw m a bytes) = true
  | [], _, _, h => h
  | v :: vs, m, a, h => by
    unfold abandonWrite
    refine wf_abandonWrite draw vs _ _ ?_
    split
    · exact Memory.wf_write a v h
    · exact h

theorem reset_capacity : State.reset.Capacity where
  announces l := by cases l <;> exact Nat.zero_le 4
  triggers n := by cases n <;> exact Nat.zero_le 8
  results n := by cases n <;> exact Nat.zero_le 64
  suspects := Nat.zero_le _
  defects := Nat.zero_le _
  faults := Nat.zero_le _

theorem reset_board (i : Slot) : State.reset.board i = none := by
  simp [State.board, State.reset]

theorem reset_bounded : ChannelReg.reset.Bounded :=
  ⟨Nat.zero_le _, fun h => absurd rfl h, Nat.zero_le _, fun _ h => nomatch h⟩

theorem Keeps.powerOn (s : State) : Keeps s s.powerOn := by
  unfold State.powerOn
  split
  · refine ⟨wf_abandonWrite _ _ _ _, fun i x h => ?_, fun _ => ?_, fun _ c => ?_⟩
    · have : State.reset.board i = some x := h
      rw [reset_board] at this
      exact nomatch this
    · exact ⟨reset_capacity.announces, reset_capacity.triggers, reset_capacity.results,
        reset_capacity.suspects, reset_capacity.defects, reset_capacity.faults⟩
    · cases c <;> exact reset_bounded
  · refine ⟨id, fun i x h => ?_, fun _ => ?_, fun _ c => ?_⟩
    · have : State.reset.board i = some x := h
      rw [reset_board] at this
      exact nomatch this
    · exact ⟨reset_capacity.announces, reset_capacity.triggers, reset_capacity.results,
        reset_capacity.suspects, reset_capacity.defects, reset_capacity.faults⟩
    · cases c <;> exact reset_bounded

theorem LaneState.trackReset_announces (x : LaneState) : x.trackReset.announces = [] := by
  unfold LaneState.trackReset
  dsimp only
  split <;> rfl

theorem ChannelReg.trackReset_bounded (x : ChannelReg) (b : x.Bounded) : x.trackReset.Bounded := by
  refine ⟨b.occupancy, fun h => b.room fun e => h ?_, b.size, b.held⟩
  unfold ChannelReg.trackReset
  dsimp only
  rw [e]

theorem Keeps.trackEmptied (s : State) : Keeps s s.trackEmptied := by
  refine ⟨id, fun i x h => ?_, fun hs => ?_, fun hs c => ?_⟩
  · have : (none : Option Record) = some x := by
      rw [← h]; simp [State.board, State.trackEmptied]
    exact nomatch this
  · refine ⟨fun l => ?_, hs.triggers, hs.results, Nat.zero_le _, Nat.zero_le _, hs.faults⟩
    have : (s.trackEmptied.lane l).announces = [] := by
      cases l <;> exact LaneState.trackReset_announces _
    rw [this]
    exact Nat.zero_le 4
  · cases c
    · exact ChannelReg.trackReset_bounded _ (hs .defect)
    · exact ChannelReg.trackReset_bounded _ (hs .summary)

theorem Keeps.emptyLink (s : State) (n : HeadId) : Keeps s (s.emptyLink n) :=
  .setLink s n { s.link n with triggers := [], results := [] } (fun _ => Nat.zero_le 8)
    (fun _ => Nat.zero_le 64)

theorem Keeps.trackReset (s : State) : Keeps s s.trackReset := by
  unfold State.trackReset
  dsimp only
  have h : Keeps s (HeadId.all.foldl State.emptyLink s.trackEmptied) :=
    (Keeps.trackEmptied s).trans (.foldl _ (fun u n _ => .emptyLink u n) _)
  generalize HeadId.all.foldl State.emptyLink s.trackEmptied = u at h
  split
  · exact (h.trans (.raise _ _ _)).trans (.isolationEffect _)
  · exact h.trans (.isolationEffect _)

end Sys2Proof.Machine
end

