-- ==== Sys2Proof/Laws/Settled.lean ====
section
/-! SUPPORT. An idle arbiter has nothing waiting (R148): a command that requests nothing leaves it so, and one
that does is followed by its grant. Also the frame of events with their grants. -/

namespace Sys2Proof.Machine

open Sys2Proof

/-! ### The grants of an event leave nothing waiting on an idle arbiter -/

theorem waitingPort_none_iff (s : State) : s.waitingPort = none ↔ ∀ p, s.portOp p = none := by
  unfold State.waitingPort
  rw [List.findSome?_eq_none_iff]
  refine ⟨fun h p => ?_, fun h p _ => by rw [h p]; rfl⟩
  have hm : p ∈ portOrder s.arbiter.lastPort := by
    cases p with
    | sta =>
      cases s.arbiter.lastPort with
      | sta => decide
      | hl n => cases n <;> decide
    | hl m =>
      cases s.arbiter.lastPort with
      | sta => cases m <;> decide
      | hl n => cases m <;> cases n <;> decide
  simpa using h p hm

theorem waitingChannel_none_iff (s : State) : s.waitingChannel = none ↔ ∀ c, s.waits c = false := by
  unfold State.waitingChannel
  constructor
  · intro h
    split at h
    · intro c; cases c <;> assumption
    · cases h
    · cases h
    · split at h <;> cases h
  · intro h
    rw [h .defect, h .summary]

/-- The two conditions of R148, part by part. -/
theorem grantDue_iff_parts (s : State) : s.grantDue = true ↔
    s.arbiter.op = none ∧
      (s.cache.fill ≠ none ∨ (∃ p, s.portOp p ≠ none) ∨ ∃ c, s.waits c = true) := by
  rw [grantDue_iff, Ne, Ne, Ne, waitingPort_none_iff, waitingChannel_none_iff]
  simp

theorem startOp_notDue (s : State) (o : MemOp) : (s.startOp o).grantDue = false := by
  simp [State.grantDue, State.startOp]

/-- A grant that is not given up leaves the conditions unmet. -/
theorem grantOnce_notDue (s u : State) (h : s.grantOnce = (u, false)) : u.grantDue = false := by
  unfold State.grantOnce at h
  split at h
  · rename_i ho
    cases h
    simp [State.grantDue, Option.isNone_eq_false_iff.2 ho]
  · split at h
    · cases h; exact startOp_notDue _ _
    · rename_i hf
      split at h
      · unfold State.grantPort at h
        dsimp only at h
        split at h
        · cases h
        · cases h; exact startOp_notDue _ _
      · rename_i hp
        split at h
        · unfold State.grantChannel at h
          dsimp only at h
          split at h
          · cases h
          · split at h
            · cases h; exact startOp_notDue _ _
            · cases h
        · rename_i hc
          cases h
          simp [State.grantDue, State.requests, hf, hp, hc]

theorem grantUpTo_notDue : ∀ (k : Nat) (s : State), s.waiters < k →
    (State.grantUpTo k s).grantDue = false
  | 0, _, h => absurd h (Nat.not_lt_zero _)
  | k + 1, s, h => by
    rw [State.grantUpTo]
    rcases hg : s.grantOnce with ⟨u, _ | _⟩
    · exact grantOnce_notDue s u hg
    · exact grantUpTo_notDue k u (by have := waiters_lt_of_givenUp s u hg; omega)

theorem grant_notDue (s : State) : s.grant.grantDue = false :=
  grantUpTo_notDue 8 s (by have := waiters_le s; omega)

/-- An event with the grant that follows it leaves the conditions unmet. -/
theorem thenGrant_notDue {s : State} (t : State) (h : s.grantDue = false) :
    (s.thenGrant t).grantDue = false := by
  unfold State.thenGrant
  rw [h]
  cases ht : t.grantDue
  · exact ht
  · exact grant_notDue t

/-! ### A port's request -/

/-- A port whose request is alone in waiting is the one the round robin finds (R149). -/
theorem waitingPort_only {s : State} {p : MemPort} {o : MemOp} (h : s.portOp p = some o)
    (k : ∀ q, q ≠ p → s.portOp q = none) : s.waitingPort = some (p, o) := by
  unfold State.waitingPort
  cases hp : (portOrder s.arbiter.lastPort).findSome? fun q => (s.portOp q).map fun o => (q, o) with
  | none =>
    rw [(waitingPort_none_iff s).1 hp p] at h
    cases h
  | some x =>
    obtain ⟨q, -, hq⟩ := List.exists_of_findSome?_eq_some hp
    by_cases e : q = p
    · subst e; rw [h] at hq; exact hq.symm
    · rw [k q e] at hq; cases hq

theorem portOp_setPending_ne {s : State} {p q : MemPort} (h : q ≠ p) (x : Option PendingReq) :
    (s.setPending p.port x).portOp q = s.portOp q := by
  unfold State.portOp
  rw [State.setPending, State.setPort_port, if_neg (by cases p <;> cases q <;> simp_all [MemPort.port])]

/-- A request asked of an arbiter that is in use, or has others waiting, waits (R148). -/
theorem askMemory_waits {s : State} (p : MemPort) (x : PendingReq)
    (h : s.arbiter.op ≠ none ∨ s.grantDue = true) :
    s.askMemory p.port x = (s.setPending p.port (some x), ⟨.pending, []⟩) := by
  unfold State.askMemory
  refine congrArg (·, _) (thenGrant_of_not fun k => ?_)
  exact h.elim (fun e => absurd ((grantDue_iff_parts _).1 k).1 e) id

/-- A request that is alone at an idle arbiter is granted at once (R148). -/
theorem askMemory_granted {s : State} {p : MemPort} {x : PendingReq} {o : MemOp}
    (hop : (s.setPending p.port (some x)).portOp p = some o) (ho : s.arbiter.op = none)
    (h : s.grantDue = false)
    (hw : ¬(o.kind = .progWrite ∧ s.inUse o.address o.count = true)) :
    s.askMemory p.port x = ({ s.setPending p.port (some x) with
      arbiter := { s.arbiter with op := some o, lastPort := p } }, ⟨.pending, []⟩) := by
  have hn := grantDue_iff_parts s
  rw [h] at hn
  have hq : ∀ q, s.portOp q = none := fun q => Classical.byContradiction fun k =>
    absurd (hn.2 ⟨ho, .inr (.inl ⟨q, k⟩)⟩) Bool.false_ne_true
  have hf : s.cache.fill = none := Classical.byContradiction fun k =>
    absurd (hn.2 ⟨ho, .inl k⟩) Bool.false_ne_true
  have hd : (s.setPending p.port (some x)).grantDue = true :=
    (grantDue_iff_parts _).2 ⟨ho, .inr (.inl ⟨p, by rw [hop]; exact Option.some_ne_none o⟩)⟩
  have hp := waitingPort_only hop fun q e => (portOp_setPending_ne e (some x)).trans (hq q)
  have hg : (s.setPending p.port (some x)).grantPort p o = ({ s.setPending p.port (some x) with
      arbiter := { s.arbiter with op := some o, lastPort := p } }, false) :=
    if_neg hw
  refine congrArg (·, _) ((thenGrant_due hd h).trans (grant_of_made _ _ ?_))
  unfold State.grantOnce
  rw [if_neg (by show ¬ s.arbiter.op.isSome = true; rw [ho]; exact Bool.false_ne_true),
    show (s.setPending p.port (some x)).cache.fill = none from hf, hp]
  exact hg

/-! ### What asks for nothing -/

/-- From `s` to `t` nothing comes to wait for a grant, and an operation in flight stays. -/
structure AsksNothing (s t : State) : Prop where
  op : t.arbiter.op = s.arbiter.op
  fill : t.cache.fill = s.cache.fill
  ports : ∀ p, t.portOp p ≠ none → s.portOp p ≠ none
  channels : ∀ c, t.waits c = true → s.waits c = true

theorem AsksNothing.notDue {s t : State} (h : AsksNothing s t) (k : s.grantDue = false) :
    t.grantDue = false := by
  rw [Bool.eq_false_iff] at k ⊢
  intro ht
  apply k
  rw [grantDue_iff_parts] at ht ⊢
  obtain ⟨h1, h2⟩ := ht
  refine ⟨h.op ▸ h1, ?_⟩
  rcases h2 with h2 | ⟨p, h2⟩ | ⟨c, h2⟩
  · exact .inl (h.fill ▸ h2)
  · exact .inr (.inl ⟨p, h.ports p h2⟩)
  · exact .inr (.inr ⟨c, h.channels c h2⟩)

theorem AsksNothing.same {s t : State} (h1 : t.arbiter = s.arbiter) (h2 : t.cache.fill = s.cache.fill)
    (h3 : t.ports = s.ports) (h4 : t.channels = s.channels) : AsksNothing s t where
  op := by rw [h1]
  fill := h2
  ports p := by simp only [State.portOp, State.port, h3]; exact id
  channels c := by simp only [State.waits, State.channel, h4]; exact id

theorem AsksNothing.refl (s : State) : AsksNothing s s := .same rfl rfl rfl rfl

/-- An event that asks for nothing is followed by no grant (R148). -/
theorem AsksNothing.thenGrant {s t : State} (h : AsksNothing s t) : s.thenGrant t = t :=
  thenGrant_of_not fun k => Classical.byContradiction fun e => by
    rw [h.notDue (Bool.eq_false_iff.2 e)] at k; cases k

theorem AsksNothing.trans {s t u : State} (h : AsksNothing s t) (k : AsksNothing t u) :
    AsksNothing s u :=
  ⟨k.op.trans h.op, k.fill.trans h.fill, fun p hp => h.ports p (k.ports p hp),
    fun c hc => h.channels c (k.channels c hc)⟩

theorem AsksNothing.foldl {α : Type} {f : State → α → State} (xs : List α)
    (h : ∀ s x, AsksNothing s (f s x)) (s : State) : AsksNothing s (xs.foldl f s) := by
  induction xs generalizing s with
  | nil => exact .refl s
  | cons x xs ih => exact (h s x).trans (ih _)

/-- A port's response slot asks for nothing. -/
theorem AsksNothing.setSlot (s : State) (p : Port) (x : Response) :
    AsksNothing s (s.setPort p { s.port p with slot := x }) where
  op := rfl
  fill := rfl
  ports m := by
    have h : ((s.setPort p { s.port p with slot := x }).port m.port).pending =
        (s.port m.port).pending := by
      simp only [State.setPort_port]
      split
      · rename_i e; rw [e]
      · rfl
    simp only [State.portOp, h]; exact id
  channels _ := id

theorem AsksNothing.respond (s : State) (p : Port) (q : Request) (r : Reply) :
    AsksNothing s (s.respond p q r) := .setSlot s p _

theorem AsksNothing.setPending (s : State) (p : Port) (x : Option PendingReq)
    (h : x = none ∨ x = some .cacheIsolate) : AsksNothing s (s.setPending p x) where
  op := rfl
  fill := rfl
  ports m := by
    have e : ((s.setPending p x).port m.port).pending =
        if m.port = p then x else (s.port m.port).pending := by
      simp only [State.setPending, State.setPort_port]
      split <;> rfl
    simp only [State.portOp, e]
    by_cases hm : m.port = p
    · simp only [if_pos hm]
      rcases h with rfl | rfl <;> exact fun k => absurd rfl k
    · simp only [if_neg hm]; exact id
  channels _ := id

theorem AsksNothing.setChannel (s : State) (c : Channel) (x : ChannelReg)
    (h : ∀ k, x.write = some (.waiting k) → (s.channel c).write = some (.waiting k)) :
    AsksNothing s (s.setChannel c x) where
  op := rfl
  fill := rfl
  ports _ := id
  channels d := by
    by_cases e : d = c
    · subst e
      simp only [State.waits, State.setChannel_channel, if_true]
      cases hw : x.write with
      | none => exact fun k => absurd k (by simp)
      | some w =>
        cases w with
        | waiting k => rw [h k hw]; exact id
        | inFlight _ _ _ _ => exact fun k => absurd k (by simp)
    · simp only [State.waits, State.setChannel_channel, if_neg e]; exact id

theorem AsksNothing.raise (s : State) (p : Port) (f : AlertFlag) : AsksNothing s (s.raise p f) :=
  .same rfl rfl rfl rfl

theorem AsksNothing.setLink (s : State) (n : HeadId) (x : Link) : AsksNothing s (s.setLink n x) := by
  unfold State.setLink
  split <;> exact .same rfl rfl rfl rfl

theorem AsksNothing.isolationEffect (s : State) : AsksNothing s s.isolationEffect := by
  unfold State.isolationEffect
  split
  · unfold State.endPending
    refine AsksNothing.trans (t := { s with cache := { s.cache with isolation := .isolated } })
      (.same rfl rfl rfl rfl) ?_
    exact (AsksNothing.setPending _ _ _ (.inl rfl)).trans (.respond _ _ _ _)
  · exact .refl s

theorem AsksNothing.trackEmptied (s : State) : AsksNothing s s.trackEmptied where
  op := rfl
  fill := rfl
  ports _ := id
  channels c := by
    have h : (s.trackEmptied.channel c) = (s.channel c).trackReset := by cases c <;> rfl
    simp only [State.waits, h, ChannelReg.trackReset]
    cases (s.channel c).write with
    | none => exact id
    | some w => cases w <;> exact fun k => absurd k (by simp)

theorem AsksNothing.trackReset (s : State) : AsksNothing s s.trackReset := by
  unfold State.trackReset
  dsimp only
  have h1 : AsksNothing s (HeadId.all.foldl State.emptyLink s.trackEmptied) :=
    (AsksNothing.trackEmptied s).trans (.foldl _ (fun u n => .setLink u n _) _)
  generalize HeadId.all.foldl State.emptyLink s.trackEmptied = u at h1 ⊢
  refine AsksNothing.trans ?_ (.isolationEffect _)
  split
  · exact h1.trans (.raise _ _ _)
  · exact h1

/-- A request whose effect leaves the conditions unmet does so with its response. -/
theorem serve_notDue {s : State} (p : Port) (q : Request) (act : State → State × Reply)
    (hs : s.grantDue = false) (h : (act s).1.grantDue = false) : (s.serve p q act).grantDue = false := by
  unfold State.serve
  split
  · exact hs
  · split
    · exact (AsksNothing.respond _ p q _).notDue h
    · exact (AsksNothing.respond s p q _).notDue hs

theorem onObject_notDue {α β : Type} {s : State} (obj : Option α) (args : Option β)
    (act : α → β → State → State × Reply) (hs : s.grantDue = false)
    (h : ∀ x a, (act x a s).1.grantDue = false) : (onObject obj args act s).1.grantDue = false := by
  unfold Machine.onObject
  split
  · exact hs
  · exact hs
  · exact h _ _

theorem onArgs_notDue {β : Type} {s : State} (args : Option β) (act : β → State → State × Reply)
    (hs : s.grantDue = false) (h : ∀ a, (act a s).1.grantDue = false) :
    (onArgs args act s).1.grantDue = false := by
  unfold Machine.onArgs
  split
  · exact hs
  · exact h _

theorem onHead_notDue {β : Type} {s : State} (p : Port) (args : Option β)
    (act : HeadId → β → State → State × Reply) (hs : s.grantDue = false)
    (h : ∀ n a, (act n a s).1.grantDue = false) : (onHead p args act s).1.grantDue = false := by
  unfold Machine.onHead
  split
  · exact onArgs_notDue _ _ hs (h _)
  · exact hs

/-! ### The frame of events with their grants -/

theorem Frame.butGrants {A : Slot → Prop} {s t : State} (h : Frame A s t) : FrameButGrants A s t :=
  { h with
    arbiter := fun _ => h.arbiter
    ports := fun p => .inl (by simp only [State.port, h.ports])
    channels := fun c => .inl (h.channels c) }

theorem FrameButGrants.refl (A : Slot → Prop) (s : State) : FrameButGrants A s s :=
  (Tracks.refl A s).frame.butGrants

theorem FrameButGrants.trans {A : Slot → Prop} {s t u : State} (h : FrameButGrants A s t)
    (k : FrameButGrants A t u) : FrameButGrants A s u where
  boards j hj := (k.boards j hj).trans (h.boards j hj)
  tagCounter := k.tagCounter.trans h.tagCounter
  mem := k.mem.trans h.mem
  regions := k.regions.trans h.regions
  cache := k.cache.trans h.cache
  merge := k.merge.trans h.merge
  arbiter hs := by
    have e := h.arbiter hs
    exact (k.arbiter (e ▸ hs)).trans e
  watches := k.watches.trans h.watches
  ports p := by
    rcases k.ports p with e | e
    · exact e ▸ h.ports p
    · exact .inr e
  mail := k.mail.trans h.mail
  pending := k.pending.trans h.pending
  counter l := (k.counter l).trans (h.counter l)
  announces l := (k.announces l).trans (h.announces l)
  announceThreshold l := (k.announceThreshold l).trans (h.announceThreshold l)
  results n := (k.results n).trans (h.results n)
  threshold n := (k.threshold n).trans (h.threshold n)
  channels c := by
    rcases k.channels c with e | e <;> rcases h.channels c with f | f
    · exact .inl (e.trans f)
    · exact .inr (e.trans f)
    · exact .inr (by rw [e, f])
    · exact .inr (by rw [e, f])
  mask p := (k.mask p).trans (h.mask p)
  enable p := (k.enable p).trans (h.enable p)
  softSources p := (k.softSources p).trans (h.softSources p)
  reported := k.reported.trans h.reported

/-- A change of the idle arbiter only. -/
theorem FrameButGrants.setArbiter (A : Slot → Prop) {s : State} (h : s.arbiter.op = none) (x : Arbiter) :
    FrameButGrants A s { s with arbiter := x } :=
  { FrameButGrants.refl A s with arbiter := fun k => absurd h k }

theorem FrameButGrants.setChannel (A : Slot → Prop) (s : State) (c : Channel) (x : ChannelReg)
    (h : x.fixed = (s.channel c).fixed ∨ x.fixed = { (s.channel c).fixed with state := .faulted }) :
    FrameButGrants A s (s.setChannel c x) :=
  { FrameButGrants.refl A s with
    channels := fun d => by
      simp only [State.setChannel_channel]
      split
      · rename_i e; rw [e]; exact h
      · exact .inl rfl }

theorem FrameButGrants.grantOnce (A : Slot → Prop) (s : State) : FrameButGrants A s s.grantOnce.1 := by
  unfold State.grantOnce
  split
  · exact .refl A s
  · rename_i ho
    have ho : s.arbiter.op = none := by simpa using ho
    split
    · exact .setArbiter A ho _
    · split
      · rename_i p o _
        unfold State.grantPort
        dsimp only
        split
        · refine (FrameButGrants.setArbiter A ho { s.arbiter with lastPort := p }).trans ?_
          refine { FrameButGrants.refl A _ with ports := fun q => ?_ }
          simp only [State.endPending, State.setPending, State.respond, State.setPort_port]
          split
          · exact .inr rfl
          · exact .inl rfl
        · exact .setArbiter A ho _
      · split
        · rename_i c _
          unfold State.grantChannel
          dsimp only
          have h1 : FrameButGrants A s { s with arbiter := { s.arbiter with lastChannel := c } } :=
            .setArbiter A ho _
          have ho1 : ({ s with arbiter := { s.arbiter with lastChannel := c } } : State).arbiter.op =
            none := ho
          generalize ({ s with arbiter := { s.arbiter with lastChannel := c } } : State) = u
            at h1 ho1 ⊢
          split
          · exact h1.trans (.setChannel A u c _ (.inl rfl))
          · split
            · rename_i r i _ _
              refine h1.trans (FrameButGrants.trans (t := u.setChannel c { u.channel c with
                write := some (.inFlight (u.channel c).producer (u.channel c).seq r (some i)) })
                (.setChannel A u c _ (.inl rfl)) ?_)
              exact FrameButGrants.setArbiter A (s := u.setChannel c { u.channel c with
                write := some (.inFlight (u.channel c).producer (u.channel c).seq r (some i)) }) ho1 _
            · refine h1.trans ((FrameButGrants.setChannel A u c
                { u.channel c with state := .faulted, write := none } (.inr rfl)).trans ?_)
              exact ((Tracks.recordFault _ _).trans (.raise _ _ _)).frame.butGrants
        · exact .refl A s

theorem FrameButGrants.grantUpTo (A : Slot → Prop) :
    ∀ (k : Nat) (s : State), FrameButGrants A s (State.grantUpTo k s)
  | 0, s => .refl A s
  | k + 1, s => by
    have h := FrameButGrants.grantOnce A s
    unfold State.grantUpTo
    split
    · rename_i s1 e
      rw [e] at h
      exact h.trans (FrameButGrants.grantUpTo A k s1)
    · rename_i s1 e
      rw [e] at h
      exact h

theorem FrameButGrants.thenGrant {A : Slot → Prop} {s t : State} (h : Frame A s t) :
    FrameButGrants A s (s.thenGrant t) := by
  unfold State.thenGrant
  split
  · exact h.butGrants.trans (.grantUpTo A 8 t)
  · exact h.butGrants

theorem FrameButGrants.handOverAny (s : State) (e : ScheduledEvent) :
    FrameButGrants (fun _ => True) s (s.handOverAny e) := by
  refine .thenGrant ?_
  split
  · exact (Tracks.takeEvent (A := fun _ => True) trivial s _ _ fun r t u =>
      .lengthLimitAct trivial r t u).frame
  all_goals exact (Tracks.handOver s e).frame

theorem FrameButGrants.takeDue (s : State) (ls : List Lane) :
    FrameButGrants (fun _ => True) s (s.takeDue ls) := by
  unfold State.takeDue State.handOverAll
  split
  · exact .refl _ s
  · refine (Tracks.drawn (A := fun _ => True) s).frame.butGrants.trans ?_
    generalize orderBy _ _ = es
    generalize s.drawn = u
    induction es generalizing u with
    | nil => exact .refl _ u
    | cons e es ih => exact (FrameButGrants.handOverAny u e).trans (ih _)

/-! ### Events and requests, one by one -/

theorem handOverAny_notDue {s : State} (e : ScheduledEvent) (h : s.grantDue = false) :
    (s.handOverAny e).grantDue = false := thenGrant_notDue _ h

theorem foldHandOver_notDue (es : List ScheduledEvent) : ∀ {s : State}, s.grantDue = false →
    (es.foldl State.handOverAny s).grantDue = false := by
  induction es with
  | nil => exact id
  | cons e es ih => exact fun h => ih (handOverAny_notDue e h)

theorem takeDue_notDue {s : State} (ls : List Lane) (h : s.grantDue = false) :
    (s.takeDue ls).grantDue = false := by
  unfold State.takeDue State.handOverAll
  split
  · exact h
  · exact foldHandOver_notDue _ ((AsksNothing.same rfl rfl rfl rfl : AsksNothing s s.drawn).notDue h)

theorem exitDuesFirst_notDue {s : State} (l : Lane) (h : s.grantDue = false) :
    (s.exitDuesFirst l).grantDue = false := by
  unfold State.exitDuesFirst
  generalize (s.lane l).order = xs
  induction xs generalizing s with
  | nil => exact h
  | cons x xs ih => exact ih (handOverAny_notDue _ h)

theorem exitLeading_notDue {s : State} (l : Lane) (h : s.grantDue = false) :
    (s.exitLeading l).grantDue = false := by
  have := exitDuesFirst_notDue l h
  unfold State.exitLeading
  split
  · split
    · exact thenGrant_notDue _ this
    · exact this
  · exact h

/-- A state with the fields a request leaves alone. -/
theorem notDue_same {s t : State} (h : s.grantDue = false) (h1 : t.arbiter = s.arbiter)
    (h2 : t.cache.fill = s.cache.fill) (h3 : t.ports = s.ports) (h4 : t.channels = s.channels) :
    t.grantDue = false := (AsksNothing.same h1 h2 h3 h4).notDue h

/-- No command leaves a request waiting on an idle arbiter where there was none (R148). -/
theorem exec_notDue (c : Instr) (s : State) (hs : s.grantDue = false) :
    ∃ t, exec c s = .next t ∧ t.grantDue = false := by
  have same {u : State} (h1 : u.arbiter = s.arbiter) (h2 : u.cache.fill = s.cache.fill)
      (h3 : u.ports = s.ports) (h4 : u.channels = s.channels) : u.grantDue = false :=
    notDue_same hs h1 h2 h3 h4
  have obj {α β : Type} (p : Port) (q : Request) (o : Option α) (args : Option β)
      (act : α → β → State → State × Reply) (h : ∀ x a, (act x a s).1.grantDue = false) :
      (s.serve p q (onObject o args act)).grantDue = false :=
    serve_notDue p q _ hs (onObject_notDue o args act hs h)
  have arg {β : Type} (p : Port) (q : Request) (args : Option β)
      (act : β → State → State × Reply) (h : ∀ a, (act a s).1.grantDue = false) :
      (s.serve p q (onArgs args act)).grantDue = false :=
    serve_notDue p q _ hs (onArgs_notDue args act hs h)
  have hd {β : Type} (p : Port) (q : Request) (args : Option β)
      (act : HeadId → β → State → State × Reply) (h : ∀ n a, (act n a s).1.grantDue = false) :
      (s.serve p q (onHead p args act)).grantDue = false :=
    serve_notDue p q _ hs (onHead_notDue p args act hs h)
  have link (n : HeadId) (x : Link) : (s.setLink n x).grantDue = false :=
    (AsksNothing.setLink s n x).notDue hs
  cases c with
  | powerOnReset =>
    refine ⟨_, rfl, ?_⟩
    have hr : State.reset.grantDue = false := by decide
    unfold State.powerOn
    split <;> exact notDue_same hr rfl rfl rfl rfl
  | beltStep l =>
    exact ⟨_, rfl, notDue_same (takeDue_notDue [l] hs) rfl rfl rfl rfl⟩
  | entryLeadingEdge _ => exact ⟨_, rfl, thenGrant_notDue _ hs⟩
  | entryTrailingEdge _ => exact ⟨_, rfl, thenGrant_notDue _ hs⟩
  | exitLeadingEdge l => exact ⟨_, rfl, exitLeading_notDue l hs⟩
  | exitTrailingEdge l =>
    refine ⟨_, rfl, ?_⟩
    unfold State.exitTrailing
    split
    · exact same rfl rfl rfl rfl
    · exact hs
  | lengthLimit _ => exact ⟨_, rfl, thenGrant_notDue _ hs⟩
  | headOpen _ _ => exact ⟨_, rfl, thenGrant_notDue _ hs⟩
  | headLimit _ _ => exact ⟨_, rfl, thenGrant_notDue _ hs⟩
  | deadline _ => exact ⟨_, rfl, thenGrant_notDue _ hs⟩
  | exitDue _ => exact ⟨_, rfl, thenGrant_notDue _ hs⟩
  | mergeTakeItem => exact ⟨_, rfl, thenGrant_notDue _ hs⟩
  | memoryGrant => exact ⟨_, rfl, grant_notDue s⟩
  | cacheFillEnd =>
    refine ⟨_, rfl, ?_⟩
    unfold State.cacheFillEnd
    split
    · split
      · exact grant_notDue _
      · exact hs
    · exact hs
  | progReadEnd =>
    refine ⟨_, rfl, ?_⟩
    unfold State.progReadEnd
    split
    · exact grant_notDue _
    · exact hs
  | progWriteEnd =>
    refine ⟨_, rfl, ?_⟩
    unfold State.progWriteEnd
    split
    · exact grant_notDue _
    · exact hs
  | moveWriteEnd =>
    refine ⟨_, rfl, ?_⟩
    unfold State.moveWriteEnd
    split
    · split
      · exact grant_notDue _
      · exact hs
    · exact hs
  | frameRejected _ _ =>
    refine ⟨_, rfl, ?_⟩
    unfold State.frameRejected
    split
    · exact hs
    · split
      · exact hs
      · exact (AsksNothing.setSlot s _ _).notDue hs
  | pendingTransaction _ => exact ⟨_, rfl, hs⟩
  | nop _ => exact ⟨_, rfl, hs⟩
  | boardRead _ _ _ => exact ⟨_, rfl, obj _ _ _ _ _ fun _ _ => hs⟩
  | faultRead _ _ => exact ⟨_, rfl, arg _ _ _ _ fun _ => same rfl rfl rfl rfl⟩
  | alertRead _ _ => exact ⟨_, rfl, arg _ _ _ _ fun _ => same rfl rfl rfl rfl⟩
  | alertClear _ _ =>
    refine ⟨_, rfl, arg _ _ _ _ fun _ => ?_⟩
    unfold State.alertClear
    split <;> exact same rfl rfl rfl rfl
  | alertMaskSet _ _ =>
    refine ⟨_, rfl, arg _ _ _ _ fun _ => ?_⟩
    unfold State.alertMaskSet
    split <;> exact same rfl rfl rfl rfl
  | softAlert _ _ _ => exact ⟨_, rfl, obj _ _ _ _ _ fun _ _ => same rfl rfl rfl rfl⟩
  | mailPut _ _ _ =>
    refine ⟨_, rfl, obj _ _ _ _ _ fun _ _ => ?_⟩
    unfold State.mailPut
    split
    · exact hs
    · split <;> exact same rfl rfl rfl rfl
  | mailTake _ _ _ =>
    refine ⟨_, rfl, obj _ _ _ _ _ fun _ _ => ?_⟩
    unfold State.mailTake
    split <;> exact same rfl rfl rfl rfl
  | announce _ _ _ =>
    refine ⟨_, rfl, obj _ _ _ _ _ fun _ _ => ?_⟩
    unfold State.announce
    split
    · exact hs
    · split <;> exact same rfl rfl rfl rfl
  | lanePurge _ _ _ =>
    exact ⟨_, rfl, obj _ _ _ _ _ fun l _ =>
      show (s.purgeAfterDue l).grantDue = false from thenGrant_notDue _ (takeDue_notDue [l] hs)⟩
  | counterRead _ _ _ => exact ⟨_, rfl, obj _ _ _ _ _ fun _ _ => hs⟩
  | dispRead _ _ _ =>
    refine ⟨_, rfl, obj _ _ _ _ _ fun _ _ => ?_⟩
    unfold State.dispRead
    split <;> exact hs
  | progRead _ _ =>
    refine ⟨_, rfl, arg _ _ _ _ fun _ => ?_⟩
    unfold State.progRead
    split
    · split
      · exact hs
      · exact thenGrant_notDue _ hs
    · exact hs
  | triggerTake _ _ =>
    refine ⟨_, rfl, hd _ _ _ _ fun _ _ => ?_⟩
    unfold State.triggerTake State.markTaken State.modBoard
    split
    · exact hs
    · dsimp only
      split
      · split <;> exact same rfl rfl rfl rfl
      · exact same rfl rfl rfl rfl
  | resultPut _ _ =>
    refine ⟨_, rfl, hd _ _ _ _ fun n _ => ?_⟩
    unfold State.resultPut
    split
    · exact hs
    · split
      · exact hs
      · exact link n _
  | trackReset _ _ =>
    exact ⟨_, rfl, arg _ _ _ _ fun _ =>
      (AsksNothing.trackReset _).notDue (takeDue_notDue Lane.all hs)⟩
  | announceThresholdSet _ _ _ =>
    refine ⟨_, rfl, obj _ _ _ _ _ fun _ _ => ?_⟩
    unfold State.announceThresholdSet
    split <;> exact same rfl rfl rfl rfl
  | counterSet _ _ _ =>
    refine ⟨_, rfl, obj _ _ _ _ _ fun _ _ => ?_⟩
    unfold State.counterSet
    split
    · exact hs
    · split <;> exact same rfl rfl rfl rfl
  | tunnelSet _ _ _ =>
    refine ⟨_, rfl, obj _ _ _ _ _ fun _ _ => ?_⟩
    unfold State.tunnelSet
    split
    · exact hs
    · split <;> exact same rfl rfl rfl rfl
  | tunnelRead _ _ _ => exact ⟨_, rfl, obj _ _ _ _ _ fun _ _ => hs⟩
  | directorySet _ _ _ =>
    refine ⟨_, rfl, obj _ _ _ _ _ fun _ _ => ?_⟩
    unfold State.directorySet
    split
    · split <;> exact same rfl rfl rfl rfl
    · exact hs
  | directoryRead _ _ _ => exact ⟨_, rfl, obj _ _ _ _ _ fun _ _ => hs⟩
  | regionSet _ _ _ => exact ⟨_, rfl, obj _ _ _ _ _ fun _ _ => same rfl rfl rfl rfl⟩
  | regionRead _ _ => exact ⟨_, rfl, arg _ _ _ _ fun _ => hs⟩
  | progWrite _ _ =>
    refine ⟨_, rfl, arg _ _ _ _ fun _ => ?_⟩
    unfold State.progWrite
    split
    · split
      · split
        · exact hs
        · exact thenGrant_notDue _ hs
      · exact hs
    · exact hs
  | cacheIsolate p _ =>
    refine ⟨_, rfl, arg _ _ _ _ fun _ => ?_⟩
    unfold State.cacheIsolate
    split
    · exact hs
    · split
      · exact same rfl rfl rfl rfl
      · exact (AsksNothing.setPending _ p _ (.inr rfl)).notDue
          (notDue_same (t := s.setIsolation .isolating) hs rfl rfl rfl rfl)
    · exact hs
  | cacheTagRead _ _ _ => exact ⟨_, rfl, obj _ _ _ _ _ fun _ _ => hs⟩
  | cacheInvalidate _ _ _ =>
    refine ⟨_, rfl, obj _ _ _ _ _ fun _ _ => ?_⟩
    unfold State.cacheInvalidate
    split
    · split <;> exact same rfl rfl rfl rfl
    · exact hs
  | cacheRelease _ _ =>
    refine ⟨_, rfl, arg _ _ _ _ fun _ => ?_⟩
    unfold State.cacheRelease
    split <;> exact same rfl rfl rfl rfl
  | resultHoldSet _ _ _ =>
    refine ⟨_, rfl, obj _ _ _ _ _ fun n _ => ?_⟩
    unfold State.resultHoldSet
    split
    · exact link n _
    · exact hs
  | headFlush _ _ _ =>
    exact ⟨_, rfl, obj _ _ _ _ _ fun n _ => by
      dsimp only; exact thenGrant_notDue (s.headFlush n) hs⟩
  | headLinkRead _ _ _ => exact ⟨_, rfl, obj _ _ _ _ _ fun _ _ => hs⟩
  | mergeStatusRead _ _ => exact ⟨_, rfl, arg _ _ _ _ fun _ => hs⟩
  | ringSet _ _ _ =>
    refine ⟨_, rfl, obj _ _ _ _ _ fun c _ => ?_⟩
    unfold State.ringSet
    split
    · exact hs
    · split
      · exact thenGrant_notDue _ hs
      · refine (AsksNothing.setChannel s c _ fun k hk => ?_).notDue hs
        simp only [ChannelReg.hold] at hk
        split at hk
        · exact hk
        · cases hk
  | logConsumed _ _ _ =>
    refine ⟨_, rfl, obj _ _ _ _ _ fun _ _ => ?_⟩
    unfold State.logConsumed
    split
    · exact hs
    · split
      · exact hs
      · split
        · exact hs
        · exact thenGrant_notDue _ hs
  | logBlockSet _ _ _ =>
    refine ⟨_, rfl, obj _ _ _ _ _ fun c n => ?_⟩
    unfold State.logBlockSet
    split
    · exact (AsksNothing.setChannel s c { s.channel c with blockSetting := n } fun _ hk => hk).notDue hs
    · exact hs
  | channelRead _ _ _ => exact ⟨_, rfl, obj _ _ _ _ _ fun _ _ => hs⟩
  | watchSet _ _ _ =>
    refine ⟨_, rfl, obj _ _ _ _ _ fun _ _ => ?_⟩
    unfold State.watchSet
    split <;> exact same rfl rfl rfl rfl
  | watchRead _ _ _ =>
    refine ⟨_, rfl, obj _ _ _ _ _ fun _ _ => ?_⟩
    unfold State.watchRead
    dsimp only
    split <;> exact same rfl rfl rfl rfl
  | watchClear _ _ _ =>
    refine ⟨_, rfl, obj _ _ _ _ _ fun _ _ => ?_⟩
    unfold State.watchClear
    split
    · split <;> exact same rfl rfl rfl rfl
    · exact hs
  | faultPop _ _ =>
    refine ⟨_, rfl, arg _ _ _ _ fun _ => ?_⟩
    unfold State.faultPop
    split
    · split <;> exact same rfl rfl rfl rfl
    · split <;> exact same rfl rfl rfl rfl

end Sys2Proof.Machine
end

