-- ==== Sys2Proof/Laws/Step.lean ====
section
/-! SUPPORT. What one command can do: every command but an entry leading edge, which creates a record,
keeps what `Keeps` says. -/

namespace Sys2Proof.Machine

open Sys2Proof

/-- A command answers a next state; it keeps what `Keeps` says unless it is an entry leading edge. -/
theorem exec_next_keeps (c : Instr) (s : State) (hc : ∀ l, c ≠ .entryLeadingEdge l) :
    ∃ t, exec c s = .next t ∧ Keeps s t := by
  cases c with
  | powerOnReset =>
    exact ⟨_, rfl, (Keeps.takeDue s Lane.all).trans (.powerOn _)⟩
  | beltStep _ =>
    exact ⟨_, rfl, .beltStep s _⟩
  | entryLeadingEdge l => exact absurd rfl (hc l)
  | entryTrailingEdge _ =>
    exact ⟨_, rfl, (Keeps.entryTrailing s _).thenGrant⟩
  | exitLeadingEdge _ =>
    exact ⟨_, rfl, .exitLeading s _⟩
  | exitTrailingEdge _ =>
    exact ⟨_, rfl, (Tracks.exitTrailing (A := fun _ => True) s _).keeps⟩
  | lengthLimit _ =>
    exact ⟨_, rfl, (Tracks.takeEvent (A := fun _ => True) trivial s _ _ fun r t u => .lengthLimitAct trivial r t u).keeps.thenGrant⟩
  | headOpen _ _ =>
    exact ⟨_, rfl, (Tracks.takeEvent (A := fun _ => True) trivial s _ _ fun r t u => .headOpenAct trivial _ r t u).keeps.thenGrant⟩
  | headLimit _ _ =>
    exact ⟨_, rfl, (Tracks.takeEvent (A := fun _ => True) trivial s _ _ fun r t u => .headLimitAct trivial _ r t u).keeps.thenGrant⟩
  | deadline _ =>
    exact ⟨_, rfl, (Tracks.takeEvent (A := fun _ => True) trivial s _ _ fun r t u => .deadlineAct trivial r t u).keeps.thenGrant⟩
  | exitDue _ =>
    exact ⟨_, rfl, (Tracks.takeEvent (A := fun _ => True) trivial s _ _ fun r t u => .exitDueAct r t u fun _ _ => trivial).keeps.thenGrant⟩
  | mergeTakeItem =>
    exact ⟨_, rfl, (Keeps.mergeTake s).thenGrant⟩
  | memoryGrant =>
    exact ⟨_, rfl, .grant s⟩
  | cacheFillEnd =>
    exact ⟨_, rfl, .cacheFillEnd s⟩
  | progReadEnd =>
    exact ⟨_, rfl, .progReadEnd s⟩
  | progWriteEnd =>
    exact ⟨_, rfl, .progWriteEnd s⟩
  | moveWriteEnd =>
    exact ⟨_, rfl, .moveWriteEnd s⟩
  | frameRejected _ _ =>
    exact ⟨_, rfl, .frameRejected s _ _⟩
  | pendingTransaction _ =>
    exact ⟨_, rfl, .refl s⟩
  | nop _ =>
    exact ⟨_, rfl, .refl s⟩
  | boardRead _ _ _ =>
    exact ⟨_, rfl, .serve s _ _ _ (.onObject _ _ _ s fun _ _ => .refl s)⟩
  | faultRead _ _ =>
    exact ⟨_, rfl, .serve s _ _ _ (.onArgs _ _ s fun _ => .faultRead _ _)⟩
  | alertRead _ _ =>
    exact ⟨_, rfl, .serve s _ _ _ (.onArgs _ _ s fun _ => .setAlert _ _ _)⟩
  | alertClear _ _ =>
    exact ⟨_, rfl, .serve s _ _ _ (.onArgs _ _ s fun _ => .alertClear _ _ _)⟩
  | alertMaskSet _ _ =>
    exact ⟨_, rfl, .serve s _ _ _ (.onArgs _ _ s fun _ => .alertMaskSet _ _ _)⟩
  | softAlert _ _ _ =>
    exact ⟨_, rfl, .serve s _ _ _ (.onObject _ _ _ s fun _ _ => .softAlert _ _ _)⟩
  | mailPut _ _ _ =>
    exact ⟨_, rfl, .serve s _ _ _ (.onObject _ _ _ s fun _ _ => .mailPut _ _ _ _)⟩
  | mailTake _ _ _ =>
    exact ⟨_, rfl, .serve s _ _ _ (.onObject _ _ _ s fun _ _ => .mailTake _ _ _)⟩
  | announce _ _ _ =>
    exact ⟨_, rfl, .serve s _ _ _ (.onObject _ _ _ s fun _ _ => .announce _ _ _)⟩
  | lanePurge _ _ _ =>
    exact ⟨_, rfl, .serve s _ _ _ (.onObject _ _ _ s fun l _ =>
      (Keeps.takeDue s [l]).trans (Keeps.lanePurge _ l).thenGrant)⟩
  | counterRead _ _ _ =>
    exact ⟨_, rfl, .serve s _ _ _ (.onObject _ _ _ s fun _ _ => .refl s)⟩
  | dispRead _ _ _ =>
    exact ⟨_, rfl, .serve s _ _ _ (.onObject _ _ _ s fun _ _ => .dispRead _ _)⟩
  | progRead _ _ =>
    exact ⟨_, rfl, .serve s _ _ _ (.onArgs _ _ s fun _ => .progRead _ _ _)⟩
  | triggerTake _ _ =>
    exact ⟨_, rfl, .serve s _ _ _ (.onHead _ _ _ s fun _ _ => .triggerTake _ _)⟩
  | resultPut _ _ =>
    exact ⟨_, rfl, .serve s _ _ _ (.onHead _ _ _ s fun _ _ => .resultPut _ _ _)⟩
  | trackReset _ _ =>
    exact ⟨_, rfl, .serve s _ _ _ (.onArgs _ _ s fun _ =>
      (Keeps.takeDue s Lane.all).trans (.trackReset _))⟩
  | announceThresholdSet _ _ _ =>
    exact ⟨_, rfl, .serve s _ _ _ (.onObject _ _ _ s fun _ _ => .announceThresholdSet _ _ _)⟩
  | counterSet _ _ _ =>
    exact ⟨_, rfl, .serve s _ _ _ (.onObject _ _ _ s fun _ _ => .counterSet _ _ _)⟩
  | tunnelSet _ _ _ =>
    exact ⟨_, rfl, .serve s _ _ _ (.onObject _ _ _ s fun _ _ => .tunnelSet _ _ _)⟩
  | tunnelRead _ _ _ =>
    exact ⟨_, rfl, .serve s _ _ _ (.onObject _ _ _ s fun _ _ => .refl s)⟩
  | directorySet _ _ _ =>
    exact ⟨_, rfl, .serve s _ _ _ (.onObject _ _ _ s fun _ _ => .directorySet _ _ _)⟩
  | directoryRead _ _ _ =>
    exact ⟨_, rfl, .serve s _ _ _ (.onObject _ _ _ s fun _ _ => .refl s)⟩
  | regionSet _ _ _ =>
    exact ⟨_, rfl, .serve s _ _ _ (.onObject _ _ _ s fun _ _ => .regionSet _ _ _)⟩
  | regionRead _ _ =>
    exact ⟨_, rfl, .serve s _ _ _ (.onArgs _ _ s fun _ => .refl s)⟩
  | progWrite _ _ =>
    exact ⟨_, rfl, .serve s _ _ _ (.onArgs _ _ s fun _ => .progWrite _ _ _)⟩
  | cacheIsolate _ _ =>
    exact ⟨_, rfl, .serve s _ _ _ (.onArgs _ _ s fun _ => .cacheIsolate _ _)⟩
  | cacheTagRead _ _ _ =>
    exact ⟨_, rfl, .serve s _ _ _ (.onObject _ _ _ s fun _ _ => .refl s)⟩
  | cacheInvalidate _ _ _ =>
    exact ⟨_, rfl, .serve s _ _ _ (.onObject _ _ _ s fun _ _ => .cacheInvalidate _ _)⟩
  | cacheRelease _ _ =>
    exact ⟨_, rfl, .serve s _ _ _ (.onArgs _ _ s fun _ => .cacheRelease _)⟩
  | resultHoldSet _ _ _ =>
    exact ⟨_, rfl, .serve s _ _ _ (.onObject _ _ _ s fun _ _ => .resultHoldSet _ _ _)⟩
  | headFlush _ _ _ =>
    exact ⟨_, rfl, .serve s _ _ _ (.onObject _ _ _ s fun n _ => by
      dsimp only; exact (Keeps.headFlush s n).thenGrant)⟩
  | headLinkRead _ _ _ =>
    exact ⟨_, rfl, .serve s _ _ _ (.onObject _ _ _ s fun _ _ => .refl s)⟩
  | mergeStatusRead _ _ =>
    exact ⟨_, rfl, .serve s _ _ _ (.onArgs _ _ s fun _ => .refl s)⟩
  | ringSet _ _ _ =>
    exact ⟨_, rfl, .serve s _ _ _ (.onObject _ _ _ s fun _ _ => .ringSet _ _ _)⟩
  | logConsumed _ _ _ =>
    exact ⟨_, rfl, .serve s _ _ _ (.onObject _ _ _ s fun _ _ => .logConsumed _ _ _)⟩
  | logBlockSet _ _ _ =>
    exact ⟨_, rfl, .serve s _ _ _ (.onObject _ _ _ s fun _ _ => .logBlockSet _ _ _)⟩
  | channelRead _ _ _ =>
    exact ⟨_, rfl, .serve s _ _ _ (.onObject _ _ _ s fun _ _ => .refl s)⟩
  | watchSet _ _ _ =>
    exact ⟨_, rfl, .serve s _ _ _ (.onObject _ _ _ s fun _ _ => .watchSet _ _ _)⟩
  | watchRead _ _ _ =>
    exact ⟨_, rfl, .serve s _ _ _ (.onObject _ _ _ s fun _ _ => .watchRead _ _)⟩
  | watchClear _ _ _ =>
    exact ⟨_, rfl, .serve s _ _ _ (.onObject _ _ _ s fun _ _ => .watchClear _ _)⟩
  | faultPop _ _ =>
    exact ⟨_, rfl, .serve s _ _ _ (.onArgs _ _ s fun _ => .faultPop _)⟩

theorem exec_keeps (c : Instr) (s t : State) (hc : ∀ l, c ≠ .entryLeadingEdge l)
    (h : exec c s = .next t) : Keeps s t := by
  obtain ⟨u, hu, k⟩ := exec_next_keeps c s hc
  rw [hu] at h
  exact Host.Outcome.next.inj h ▸ k

end Sys2Proof.Machine
end

