-- ==== Sys2Proof/WellFormed.lean ====
section
/-! DEFINITION. Which commands some transaction can carry: each number of a request fits the bytes R190
gives it, each list fits its count byte and the frame's 240 payload bytes, a set names each member
once in list order, and a FRAME_REJECTED carries bytes that fail the checks of R186. Machine/ does
not lean on this: a meaning acts on every operand. -/

namespace Sys2Proof

def fitsBytes (k n : Nat) : Bool := decide (n < 256 ^ k)

/-- `xs` is a subset of `all`, each member once, in the order of `all`. -/
def isSubset {α : Type} [BEq α] (all xs : List α) : Bool :=
  xs == all.filter fun x => xs.contains x

def PerHead.every {α : Type} (x : PerHead α) (ok : α → Bool) : Bool :=
  ok x.v0 && ok x.v1 && ok x.v2 && ok x.v3

def TunnelArgs.fits (a : TunnelArgs) : Bool :=
  isSubset HeadId.all a.map.headServes && a.map.headOpenOffset.every (fitsBytes 3) &&
    a.map.headSpan.every (fitsBytes 3) && fitsBytes 3 a.map.gateOffset &&
    fitsBytes 3 a.map.decisionMargin && fitsBytes 3 a.map.exitTolerance &&
    fitsBytes 3 a.map.minLength && fitsBytes 3 a.map.maxLength &&
    a.map.defaultRecipe.isNone && fitsBytes 1 a.defaultRecipe

def DirEntry.fits (e : DirEntry) : Bool :=
  e.listBase.every (fitsBytes 3) && e.listLength.every (fitsBytes 2) &&
    fitsBytes 1 e.reworkLimit && fitsBytes 1 e.marginalLimit

def RawItem.fits : RawItem → Bool
  | .result _ joint grade cls _ => fitsBytes 2 joint && fitsBytes 1 grade && cls.all (fitsBytes 1)
  | .done _ => true
  | .abort _ _ => true

/-- The bytes a RESULT_PUT item takes in the payload. -/
def RawItem.size : RawItem → Nat
  | .result _ _ _ cls _ => if cls.isSome then 9 else 8
  | .done _ => 2
  | .abort _ _ => 3

def WatchArgs.fits (w : WatchArgs) : Bool :=
  w.recipe.all (fitsBytes 1) && w.joint.all (fitsBytes 2) && w.cls.all (fitsBytes 1) &&
    w.criticality.all (fitsBytes 1)

/-- Well-formed commands. -/
def Instr.wellFormed : Instr → Bool
  | .frameRejected _ bytes => !bytes.isEmpty && !Decode.frameOk bytes
  | .alertClear p args => args.all fun fs => isSubset (Decode.flagsOf p) fs
  | .alertMaskSet p args => args.all fun a => isSubset (Decode.flagsOf p) a.flags
  | .mailPut _ _ args => args.all fun m => decide (m.length < Config.maxPayload)
  | .announce _ _ args => args.all fun a => fitsBytes 1 a.recipe
  | .progRead _ args => args.all fun a => fitsBytes 3 a.address && fitsBytes 1 a.count
  | .resultPut _ args => args.all fun xs =>
      xs.all RawItem.fits && decide (1 + (xs.map RawItem.size).sum ≤ Config.maxPayload)
  | .announceThresholdSet _ _ args => args.all (fitsBytes 1)
  | .counterSet _ _ args => args.all (fitsBytes 3)
  | .tunnelSet _ _ args => args.all TunnelArgs.fits
  | .directorySet _ _ args => args.all DirEntry.fits
  | .progWrite _ args => args.all fun a =>
      fitsBytes 3 a.address && decide (4 + a.bytes.length ≤ Config.maxPayload)
  | .resultHoldSet _ _ args => args.all (fitsBytes 1)
  | .ringSet _ _ args => args.all fun a => fitsBytes 3 a.base && fitsBytes 3 a.size
  | .logConsumed _ _ args => args.all (fitsBytes 3)
  | .logBlockSet _ _ args => args.all (fitsBytes 1)
  | .watchSet _ _ args => args.all WatchArgs.fits
  | .powerOnReset | .beltStep _ | .entryLeadingEdge _ | .entryTrailingEdge _
  | .exitLeadingEdge _ | .exitTrailingEdge _ | .lengthLimit _ | .headOpen _ _ | .headLimit _ _
  | .deadline _ | .exitDue _ | .mergeTakeItem | .memoryGrant | .cacheFillEnd | .progReadEnd
  | .progWriteEnd | .moveWriteEnd | .pendingTransaction _ | .nop _ | .boardRead _ _ _
  | .faultRead _ _ | .alertRead _ _ | .softAlert _ _ _ | .mailTake _ _ _ | .lanePurge _ _ _
  | .counterRead _ _ _ | .dispRead _ _ _ | .triggerTake _ _ | .trackReset _ _
  | .tunnelRead _ _ _ | .directoryRead _ _ _ | .regionSet _ _ _ | .regionRead _ _
  | .cacheIsolate _ _ | .cacheTagRead _ _ _ | .cacheInvalidate _ _ _ | .cacheRelease _ _
  | .headFlush _ _ _ | .headLinkRead _ _ _ | .mergeStatusRead _ _ | .channelRead _ _ _
  | .watchRead _ _ _ | .watchClear _ _ _ | .faultPop _ _ => true

end Sys2Proof
end

