-- ==== Sys2Proof/Tests/Slice0.lean ====
section
/-! SUPPORT. Small checks of the model by the kernel: ill-formed commands are refused by the well-formedness
check, frames of bytes become the commands they carry, commands do on small states what the rules
say, and for each statement of Certificates a state and operands that meet its hypotheses. -/

namespace Sys2Proof.Tests

open Sys2Proof Sys2Proof.Machine

set_option Elab.async false

/-! ### Small states -/

/-- What `f` reads of the state a command answers with. -/
def after {α : Type} (c : Instr) (s : State) (f : State → α) : Option α :=
  match exec c s with
  | .next t => some (f t)
  | _ => none

def map1 : TunnelMap :=
  ⟨true, [.h0, .h1], ⟨10, 20, 0, 0⟩, PerHead.const 100, 1000, 100, 20, 5, 200, none⟩

def entry1 : DirEntry := ⟨true, ⟨0, 64, 128, 192⟩, ⟨2, 2, 0, 0⟩, 3, 2⟩

def head1 (x : HeadStatus) : HeadRec := ⟨x, 0, none, 0⟩

/-- A board on lane A with recipe 0 and tag 1, head 0 in status `x` and head 1 in status `y`. -/
def live (st : RecState) (x y : HeadStatus) (armed : List Armed) : Record where
  state := st
  tag := 1#8
  lane := .A
  recipe := some 0
  serial := none
  flags := []
  entryPos := 0#24
  length := some 50
  heads := ⟨head1 x, head1 y, head1 .notRequired, head1 .notRequired⟩
  counts := ⟨0, 0, 0, 0, 0, 0⟩
  outstanding := 0
  verdict := none
  exitFate := none
  exitPos := none
  armed := armed

/-- Lane A enabled with its counter at `c`, and recipe 0 in the directory. -/
def running (c : Nat) : State :=
  { State.reset with
    lanes := ⟨{ LaneState.reset with map := map1, counter := BitVec.ofNat 24 c }, LaneState.reset⟩
    directory := (Vector.replicate 16 DirState.reset).set 0 ⟨entry1, 0, none⟩ }

/-- `running` with the board `r` in slot 0, the lane order's only one. -/
def withLive (c : Nat) (r : Record) : State :=
  { running c with
    slots := (Vector.replicate 24 none).set 0 (some r)
    lanes := ⟨{ LaneState.reset with
      map := map1, counter := BitVec.ofNat 24 c, order := [0] }, LaneState.reset⟩
    directory := (Vector.replicate 16 DirState.reset).set 0 ⟨entry1, 1, none⟩ }

/-- Head 0 reports on a board in INSPECTING, with the item `x` in its result queue. -/
def reporting (x : Item) (h : HeadStatus) : State :=
  { withLive 60 (live .inspecting h .complete []) with
    links := ⟨⟨[], [x], 8⟩, Link.reset, Link.reset, Link.reset⟩ }

def fault1 : FaultRec := { cause := .overlength, source := .boardTable, detail := 0 }

def defect1 : DefectRec :=
  ⟨1#8, .A, some 0, none, 0#24, 7#12, .void, .critical, false, .h0, .defect, none, 9#16, none⟩

def channel1 : ChannelReg :=
  ⟨.running, ⟨1048576, 16, .high⟩, 0#17, 0#17, 16, 16, 0, 0#16, none, none⟩

/-- The 8 bytes of the head entry: joint 7, rule `rule` (ANY 0), partner 0, MAJOR, with their check byte (R195). -/
def entryBytes (rule : Nat) : List Byte :=
  let b := [7#8, 0#8, BitVec.ofNat 8 (16 + rule), 0#8, 0#8, 0#8, 0#8]
  b ++ [Decode.crc8 b]

theorem open_reset (p : Port) : State.reset.open_ p := by
  cases p with
  | hl n => cases n <;> rfl
  | _ => rfl

/-! ### Well-formedness refuses ill-formed commands -/

theorem test_wf_frame_rejected_needs_bytes :
    (Instr.frameRejected .sta []).wellFormed = false := by decide +kernel

theorem test_wf_frame_rejected_needs_a_bad_frame :
    (Instr.frameRejected .sta [1#8, 0#8, 0#8, Decode.crc8 [1#8, 0#8, 0#8]]).wellFormed = false := by
  decide +kernel

theorem test_wf_alert_clear_names_own_flags :
    (Instr.alertClear .lnc (some [.watchHit])).wellFormed = false := by decide +kernel

theorem test_wf_alert_mask_in_list_order :
    (Instr.alertMaskSet .lnc (some ⟨[.mailDown, .soft], true⟩)).wellFormed = false := by decide +kernel

theorem test_wf_mail_fits_a_frame :
    (Instr.mailPut .sta 1#8 (some (List.replicate 240 0#8))).wellFormed = false := by decide +kernel

theorem test_wf_announce_recipe_is_one_byte :
    (Instr.announce .sta 0#8 (some ⟨256, none⟩)).wellFormed = false := by decide +kernel

theorem test_wf_prog_read_address_is_three_bytes :
    (Instr.progRead .sta (some ⟨16777216, 1⟩)).wellFormed = false ∧
      (Instr.progRead .sta (some ⟨0, 256⟩)).wellFormed = false := by decide +kernel

theorem test_wf_result_put_fits :
    (Instr.resultPut (.hl .h0) (some [.result 0#8 65536 0 none 0#16])).wellFormed = false ∧
      (Instr.resultPut (.hl .h0) (some [.result 0#8 0 256 none 0#16])).wellFormed = false ∧
      (Instr.resultPut (.hl .h0) (some [.result 0#8 0 1 (some 256) 0#16])).wellFormed = false ∧
      (Instr.resultPut (.hl .h0) (some (List.replicate 120 (.done 0#8)))).wellFormed = false := by
  decide +kernel

theorem test_wf_one_byte_numbers :
    (Instr.announceThresholdSet .sta 0#8 (some 256)).wellFormed = false ∧
      (Instr.resultHoldSet .sta 0#8 (some 256)).wellFormed = false ∧
      (Instr.logBlockSet .sta 0#8 (some 256)).wellFormed = false := by decide +kernel

theorem test_wf_three_byte_numbers :
    (Instr.counterSet .sta 0#8 (some 16777216)).wellFormed = false ∧
      (Instr.logConsumed .sta 0#8 (some 16777216)).wellFormed = false ∧
      (Instr.ringSet .sta 0#8 (some ⟨16777216, 0, none⟩)).wellFormed = false ∧
      (Instr.ringSet .sta 0#8 (some ⟨0, 16777216, none⟩)).wellFormed = false := by decide +kernel

theorem test_wf_tunnel_set :
    (Instr.tunnelSet .sta 0#8 (some ⟨{ map1 with headServes := [.h1, .h0] }, 0⟩)).wellFormed = false ∧
      (Instr.tunnelSet .sta 0#8 (some ⟨{ map1 with gateOffset := 16777216 }, 0⟩)).wellFormed =
        false ∧
      (Instr.tunnelSet .sta 0#8 (some ⟨{ map1 with defaultRecipe := some 0 }, 0⟩)).wellFormed =
        false ∧
      (Instr.tunnelSet .sta 0#8 (some ⟨map1, 256⟩)).wellFormed = false := by decide +kernel

theorem test_wf_directory_set :
    (Instr.directorySet .sta 0#8 (some { entry1 with listLength := ⟨65536, 0, 0, 0⟩ })).wellFormed =
        false ∧
      (Instr.directorySet .sta 0#8 (some { entry1 with reworkLimit := 256 })).wellFormed = false := by
  decide +kernel

theorem test_wf_prog_write :
    (Instr.progWrite .sta (some ⟨16777216, []⟩)).wellFormed = false ∧
      (Instr.progWrite .sta (some ⟨0, List.replicate 237 0#8⟩)).wellFormed = false := by decide +kernel

theorem test_wf_watch_set :
    (Instr.watchSet .sta 0#8 (some ⟨true, some 256, none, none, none⟩)).wellFormed = false ∧
      (Instr.watchSet .sta 0#8 (some ⟨true, none, some 65536, none, none⟩)).wellFormed = false := by
  decide +kernel

theorem test_wf_accepts :
    (Instr.tunnelSet .sta 0#8 (some ⟨map1, 16⟩)).wellFormed = true ∧
      (Instr.directorySet .sta 0#8 (some entry1)).wellFormed = true ∧
      (Instr.resultPut (.hl .h0) (some [.done 1#8])).wellFormed = true := by decide +kernel

/-! ### Bytes to commands -/

/-- The customary check string of this CRC-8 form, "123456789" (log entry 35). -/
theorem test_crc8_check_value :
    Decode.crc8 [0x31#8, 0x32#8, 0x33#8, 0x34#8, 0x35#8, 0x36#8, 0x37#8, 0x38#8, 0x39#8] = 0xB4#8 := by
  decide +kernel

/-- The frame of a request: code, object, length, payload, check byte. -/
def frameOf (code obj : Nat) (pl : List Byte) : List Byte :=
  let b := [BitVec.ofNat 8 code, BitVec.ofNat 8 obj, BitVec.ofNat 8 pl.length] ++ pl
  b ++ [Decode.crc8 b]

theorem test_frame_announce :
    Decode.transaction false .lnc (frameOf 10 1 [3#8, 1#8, 1#8, 2#8, 0#8, 0#8, 0#8, 0#8]) =
      some (.announce .lnc 1#8 (some ⟨3, some 0x201#48⟩)) := by decide +kernel

theorem test_frame_ring_set :
    Decode.transaction false .sta (frameOf 35 0 [0#8, 0#8, 16#8, 16#8, 0#8, 0#8, 1#8]) =
      some (.ringSet .sta 0#8 (some ⟨1048576, 16, some .low⟩)) := by decide +kernel

theorem test_frame_result_put :
    Decode.transaction false (.hl .h2) (frameOf 16 0
      [3#8, 0#8, 9#8, 7#8, 0#8, 2#8, 1#8, 3#8, 5#8, 0#8, 1#8, 9#8, 2#8, 9#8, 77#8]) =
      some (.resultPut (.hl .h2) (some
        [.result 9#8 7 2 (some 3) 5#16, .done 9#8, .abort 9#8 77#8])) := by decide +kernel

theorem test_frame_prog_write :
    Decode.transaction false .sta (frameOf 26 0 [64#8, 1#8, 0#8, 2#8, 0xAA#8, 0xBB#8]) =
      some (.progWrite .sta (some ⟨320, [0xAA#8, 0xBB#8]⟩)) := by decide +kernel

theorem test_frame_bytes_after_the_check_are_ignored :
    Decode.transaction false .gtc (frameOf 13 1 [] ++ [0xFF#8, 0x01#8]) =
      some (.dispRead .gtc 1#8 (some ())) := by decide +kernel

theorem test_frame_payload_too_long :
    Decode.transaction false .sta (frameOf 19 0 [1#8, 2#8, 3#8, 4#8]) =
      some (.counterSet .sta 0#8 none) := by decide +kernel

theorem test_frame_bad_check_byte :
    Decode.transaction false .sta [1#8, 0#8, 0#8, 0#8] =
      some (.frameRejected .sta [1#8, 0#8, 0#8, 0#8]) := by decide +kernel

theorem test_frame_unknown_code :
    Decode.transaction false .sta (frameOf 43 0 []) =
      some (.frameRejected .sta (frameOf 43 0 [])) := by decide +kernel

theorem test_transaction_while_pending :
    Decode.transaction true .sta (frameOf 2 0 []) = some (.pendingTransaction .sta) ∧
      Decode.transaction false .sta [] = none := by decide +kernel

/-! ### Commands on small states -/

theorem test_step_takes_the_front :
    (match step { State.reset with pending := [.beltStep .A, .beltStep .B] } with
      | .next t => some ((t.lane .A).counter, (t.lane .B).counter, t.pending)
      | _ => none) = some (1#24, 0#24, [.beltStep .B]) := by decide +kernel

theorem test_power_on_reset :
    after .powerOnReset (withLive 60 (live .inspecting .taken .complete [])) (fun t =>
      (t.board 0, (t.lane .A).counter, (t.channel .defect).blockInUse)) = some (none, 0#24, 16) := by
  decide +kernel

theorem test_belt_step_wraps :
    after (.beltStep .A) (running 16777215) (fun t => (t.lane .A).counter) = some 0#24 := by
  decide +kernel

theorem test_entry_leading_edge_makes_a_board :
    after (.entryLeadingEdge .A) { running 7 with
        lanes := ⟨{ (running 7).lanes.a with announces := [⟨0, some 5#48⟩] }, LaneState.reset⟩ }
      (fun t => ((t.board 0).map fun r => (r.tag, r.serial, r.headStatus .h0), t.tagCounter,
        (t.dir 0).useCount)) = some (some (1#8, some 5#48, .waiting), 1#8, 1) := by decide +kernel

theorem test_entry_trailing_edge_short_board :
    after (.entryTrailingEdge .A) { withLive 3 (live .entering .waiting .waiting []) with
        lanes := ⟨{ (withLive 3 (live .entering .waiting .waiting [])).lanes.a with
          entry := .covered }, LaneState.reset⟩ }
      (fun t => (t.board 0, (t.dir 0).useCount, t.faults.queue.map (·.fault.cause))) =
      some (none, 0, [.sensorGlitch]) := by decide +kernel

theorem test_exit_leading_edge_matches :
    after (.exitLeadingEdge .A) { withLive 1000 (live .inspecting .taken .complete []) with
        channels := ⟨ChannelReg.reset, channel1⟩ }
      (fun t => ((t.board 0).map fun r => (r.state, r.exitFate, r.exitPos), t.summaryReady)) =
      some (some (.leaving, some .matched, some 1000#24), [0]) := by decide +kernel

theorem test_exit_trailing_edge_ignored :
    after (.exitTrailingEdge .A) (running 0) (fun t => (t.lane .A).exit) = some .ready := by
  decide +kernel

theorem test_length_limit :
    after (.lengthLimit 0) (withLive 200 (live .entering .complete .complete [⟨.lengthLimit, 200#24⟩]))
      (fun t => ((t.board 0).map fun r => (r.length, r.verdict), (t.lane .A).entry)) =
      some (some (some 200, some .unverified), .untracked) := by decide +kernel

theorem test_head_open_places_a_trigger :
    after (.headOpen 0 .h1) (withLive 20 (live .inspecting .complete .waiting [⟨.headOpen .h1, 20#24⟩]))
      (fun t => (t.link .h1).triggers.map fun q => (q.tag, q.listBase, q.listLength)) =
      some [(1#8, 64, 2)] := by decide +kernel

theorem test_head_limit_is_late_and_closes :
    after (.headLimit 0 .h0) (withLive 200 (live .inspecting .taken .complete [⟨.headLimit .h0, 200#24⟩]))
      (fun t => (t.board 0).map fun r => (r.state, r.headStatus .h0, r.counts.unseen, r.verdict)) =
      some (some (.decided, .late, 4, some .unverified)) := by decide +kernel

theorem test_deadline_closes :
    after (.deadline 0) (withLive 900 (live .inspecting .reporting .waiting [⟨.deadline, 900#24⟩]))
      (fun t => (t.board 0).map fun r => (r.state, r.headStatus .h1)) =
      some (some (.decided, .late)) := by decide +kernel

theorem test_exit_due_is_missing :
    after (.exitDue 0) (withLive 1020 (live .decided .complete .complete [⟨.exitDue, 1020#24⟩]))
      (fun t => (t.board 0, (t.lane .A).order, t.faults.queue.map fun q => (q.fault.cause, q.fault.detail))) =
      some (none, [], [(.missingAtExit, 0)]) := by decide +kernel

theorem test_merge_take_done_closes :
    after .mergeTakeItem (reporting (.done 1#8) .reporting) (fun t =>
      ((t.board 0).map fun r => (r.headStatus .h0, r.state), (t.link .h0).results, t.merge.lastServed)) =
      some (some (.complete, .decided), [], .h0) := by decide +kernel

theorem test_merge_take_result_misses :
    after .mergeTakeItem (reporting (.result 1#8 7#12 .defect (some .void) 9#16) .taken) (fun t =>
      (t.cache.fill, t.cache.waiting, t.merge.item.isSome, t.arbiter.op)) =
      some (some ⟨0, 0, false⟩, some 0, true, some ⟨.cache, .fill, 0, 64⟩) := by decide +kernel

theorem test_memory_grant_of_a_port :
    after .memoryGrant { State.reset with
        ports := State.reset.ports.set .sta ⟨⟨.pending, 14#8, []⟩, some (.progRead 64 4)⟩ }
      (fun t => (t.arbiter.op, t.arbiter.lastPort)) =
      some (some ⟨.port .sta, .progRead, 64, 4⟩, .sta) := by decide +kernel

/-- Head reads allowed everywhere. -/
def headReads : State := { State.reset with regions := Vector.replicate 16 ⟨false, true, false⟩ }

/-- R148: of two reads made together the one taken first is granted at once; the other waits for its end. -/
theorem test_request_taken_first_is_granted_first :
    let asked := after (.progRead (.hl .h0) (some ⟨64, 4⟩)) headReads fun t =>
      after (.progRead .sta (some ⟨128, 2⟩)) t id
    let seen (u : State) := (u.arbiter.op, u.arbiter.lastPort, (u.port .sta).pending)
    asked.join.map seen =
      some (some ⟨.port (.hl .h0), .progRead, 64, 4⟩, .hl .h0, some (.progRead 128 2)) ∧
    (asked.join.bind fun u => after .memoryGrant u seen) = asked.join.map seen ∧
    (asked.join.bind fun u => after .progReadEnd u seen) =
      some (some ⟨.port .sta, .progRead, 128, 2⟩, .sta, some (.progRead 128 2)) := by decide +kernel

/-- R148: the write an exit edge requests of an idle arbiter is granted with it. -/
theorem test_exit_edge_grants_its_summary :
    after (.exitLeadingEdge .A) { withLive 1000 { live .decided .complete .complete [] with
          verdict := some .pass } with
        regions := Vector.replicate 16 ⟨false, false, true⟩
        channels := ⟨ChannelReg.reset, channel1⟩ }
      (fun t => (t.summaryReady, t.arbiter.op, (t.channel .summary).inFlight, t.arbiter.lastChannel)) =
      some ([0], some ⟨.channel .summary, .moveWrite, 1048576, 32⟩, true, .summary) := by decide +kernel

/-- A fill of line 0 for the walk of a RESULT item in flight. -/
def filling (rule : Nat) : State :=
  { reporting (.done 1#8) .reporting with
    links := PerHead.const Link.reset
    mem := Memory.writeBytes [] 0 (entryBytes rule)
    merge := ⟨some ⟨.h0, 0, 1#8, 7#12, .defect, some .void, 9#16, []⟩, .h0⟩
    cache := { Cache.reset with fill := some ⟨0, 0, false⟩, waiting := some 0 }
    arbiter := ⟨some ⟨.cache, .fill, 0, 64⟩, .hl .h3, .summary⟩ }

theorem test_cache_fill_end_resolves :
    after .cacheFillEnd (filling 0) (fun t => ((t.board 0).map fun r =>
      (r.counts.defects, (r.heads.get .h0).cursor, (r.heads.get .h0).lastPassed), (t.line 0).valid,
        t.merge.item)) = some (some (1, 1, some 7#12), true, none) := by decide +kernel

theorem test_cache_fill_end_program_check :
    after .cacheFillEnd (filling 3) (fun t => ((t.board 0).map fun r => r.headStatus .h0,
      t.faults.queue.map (·.fault.cause))) = some (some .faulted, [.programCheck]) := by decide +kernel

theorem test_prog_read_end :
    after .progReadEnd { State.reset with
        mem := [(65, 9#8)]
        arbiter := { State.reset.arbiter with op := some ⟨.port .sta, .progRead, 64, 2⟩ }
        ports := State.reset.ports.set .sta ⟨⟨.pending, 14#8, []⟩, some (.progRead 64 2)⟩ }
      (fun t => (t.port .sta).slot) = some ⟨.done, 14#8, [2#8, 0#8, 9#8]⟩ := by decide +kernel

def writing : State :=
  { State.reset with
    arbiter := { State.reset.arbiter with op := some ⟨.port .sta, .progWrite, 64, 2⟩ }
    ports := State.reset.ports.set .sta ⟨⟨.pending, 26#8, []⟩, some (.progWrite 64 [5#8, 0#8])⟩ }

theorem test_prog_write_end :
    after .progWriteEnd writing (fun t => (t.mem, (t.port .sta).slot.status)) =
      some ([(64, 5#8)], .done) := by decide +kernel

/-- The DEFECT channel's write of `defect1` in flight, at ring place 0, with watch 0 set for VOID. -/
def moving (board : Option Slot) : State :=
  { withLive 60 { live .inspecting .reporting .complete [] with outstanding := 1 } with
    defects := [⟨0, defect1⟩]
    regions := Vector.replicate 16 ⟨true, false, true⟩
    channels := ⟨{ channel1 with write := some (.inFlight 0#17 0#16 (.defect defect1) board) },
      ChannelReg.reset⟩
    watches := ⟨{ Watch.reset with enable := true, cls := some .void }, Watch.reset⟩
    arbiter := ⟨some ⟨.channel .defect, .moveWrite, 1048576, 32⟩, .hl .h3, .defect⟩ }

theorem test_move_write_end :
    after .moveWriteEnd (moving (some 0)) (fun t => ((t.channel .defect).producer, t.defects,
      (t.board 0).map (·.outstanding), (t.watch .w0).status, Memory.read t.mem 1048578)) =
      some (1#17, [], some 0, some ⟨0#16, 1#8, 7#12⟩, 1#8) := by decide +kernel

theorem test_frame_rejected :
    after (.frameRejected .lnc [200#8]) State.reset (fun t => (t.port .lnc).slot) =
      some ⟨.badFrame, 200#8, []⟩ := by decide +kernel

theorem test_board_read_free :
    after (.boardRead .gtc 23#8 (some ())) State.reset (fun t => (t.port .gtc).slot) =
      some ⟨.done, 2#8, [23#8, 0#8]⟩ := by decide +kernel

theorem test_fault_read_then_pop :
    after (.faultRead .sta (some ())) { State.reset with faults := ⟨[⟨fault1, []⟩], [], []⟩ } (fun t =>
      after (.faultPop .sta (some ())) t fun u => ((u.port .sta).slot.status, u.faults.queue)) =
      some (some (.done, [])) := by decide +kernel

theorem test_soft_alert_then_clear :
    after (.softAlert .lnc 2#8 (some ())) State.reset (fun t =>
      after (.alertRead .gtc (some ())) t fun u =>
        after (.alertClear .gtc (some [.soft])) u fun v =>
          decide ((t.alert .gtc).softSources = [.lnc] ∧ (v.alert .gtc).latched = [] ∧
            (v.port .gtc).slot.payload = [1#8, 0#8])) = some (some (some true)) := by decide +kernel

theorem test_alert_mask_set :
    after (.alertMaskSet .lnc (some ⟨[.announceLowA], true⟩)) State.reset (fun t => t.alertLine .lnc) =
      some true := by decide +kernel

theorem test_mail_put_then_take :
    after (.mailPut (.hl .h0) 0#8 (some [1#8, 2#8])) State.reset (fun t =>
      after (.mailTake .sta 3#8 (some ())) t fun u => (u.port .sta).slot) =
      some (some ⟨.done, 9#8, [2#8, 1#8, 2#8, 0#8]⟩) := by decide +kernel

theorem test_announce :
    after (.announce .lnc 1#8 (some ⟨3, none⟩)) State.reset (fun t =>
      ((t.lane .B).announces, (t.port .lnc).slot.status)) = some ([⟨3, none⟩], .done) := by decide +kernel

theorem test_lane_purge :
    after (.lanePurge .sta 0#8 (some ())) (withLive 60 (live .inspecting .taken .complete []))
      (fun t => (t.board 0, (t.lane .A).order)) = some (none, []) := by decide +kernel

/-- A DECIDED board whose EXIT_DUE a step has just made due. -/
def leavingLate : State :=
  withLive 1020 (live .decided .complete .complete [⟨.exitDue, 1020#24⟩])

/-- `leavingLate` with the SUMMARY channel RUNNING and move writes allowed everywhere. -/
def loggedLate : State :=
  { leavingLate with
    regions := Vector.replicate 16 ⟨false, false, true⟩
    channels := ⟨ChannelReg.reset, channel1⟩ }

/-- R41: the due EXIT_DUE acts before a power-on reset, which abandons the summary write granted with it. -/
theorem test_power_on_reset_abandons_a_due_write :
    loggedLate.writeInFlight = none ∧
    (loggedLate.takeDue Lane.all).writeInFlight.map (fun w => (w.1, w.2.length)) =
      some (1048576, 32) ∧
    after .powerOnReset loggedLate (fun t => (t.board 0, t.arbiter.op, t.draws)) =
      some (none, none, 2) := by decide +kernel

theorem test_lane_purge_takes_due_events :
    after (.lanePurge .sta 0#8 (some ())) leavingLate (fun t =>
      (t.board 0, (t.lane .A).order, t.faults.queue.map (·.fault.cause))) =
      some (none, [], [.missingAtExit]) := by decide +kernel

theorem test_counter_set_then_read :
    after (.counterSet .sta 1#8 (some 0x010203)) State.reset (fun t =>
      after (.counterRead .sta 1#8 (some ())) t fun u => (u.port .sta).slot.payload) =
      some (some [3#8, 2#8, 1#8, 0#8, 0#8]) := by decide +kernel

theorem test_disp_read :
    after (.dispRead .gtc 0#8 (some ())) (withLive 60
      { live .decided .complete .complete [] with verdict := some .scrap }) (fun t =>
        ((t.port .gtc).slot, t.disposition .A)) =
      some (⟨.done, 13#8, [1#8, 0#8, 3#8, 0#8, 0#8, 0#8, 0#8]⟩, ⟨true, true, true, 1#4⟩) := by
  decide +kernel

theorem test_prog_read_needs_head_read :
    after (.progRead (.hl .h0) (some ⟨0, 4⟩)) State.reset (fun t => (t.port (.hl .h0)).slot.status) =
      some .notPermitted := by decide +kernel

theorem test_trigger_take :
    after (.triggerTake (.hl .h0) (some ())) { withLive 60 (live .inspecting .triggered .complete []) with
        links := ⟨⟨[⟨1#8, .A, 0, none, 0#24, 0, 2⟩], [], 8⟩, Link.reset, Link.reset, Link.reset⟩ }
      (fun t => ((t.board 0).map fun r => r.headStatus .h0, (t.port (.hl .h0)).slot.payload)) =
      some (some .taken, [1#8, 0#8, 0#8, 0#8, 0#8, 0#8, 0#8, 0#8, 0#8, 0#8, 2#8, 0#8, 0#8]) := by
  decide +kernel

theorem test_result_put_partly :
    after (.resultPut (.hl .h0) (some [.done 1#8, .done 2#8])) { State.reset with
        links := ⟨⟨[], List.replicate 63 (.done 9#8), 8⟩, Link.reset, Link.reset, Link.reset⟩ }
      (fun t => (t.port (.hl .h0)).slot) = some ⟨.full, 16#8, [1#8, 0#8, 0#8]⟩ := by decide +kernel

theorem test_track_reset :
    after (.trackReset .sta (some ())) (withLive 60 (live .inspecting .taken .complete [])) (fun t =>
      (t.board 0, (t.lane .A).counter, (t.dir 0).useCount)) = some (none, 60#24, 0) := by decide +kernel

theorem test_track_reset_takes_due_events :
    after (.trackReset .sta (some ())) leavingLate (fun t =>
      (t.board 0, t.faults.queue.map (·.fault.cause))) = some (none, [.missingAtExit]) := by
  decide +kernel

theorem test_tunnel_set_then_read :
    after (.tunnelSet .sta 0#8 (some ⟨map1, 16⟩)) State.reset (fun t =>
      after (.tunnelRead .sta 0#8 (some ())) t fun u =>
        (decide ((t.lane .A).map = map1), (u.port .sta).slot.payload.length)) =
      some (some (true, 43)) := by decide +kernel

theorem test_directory_set_is_held :
    after (.directorySet .sta 0#8 (some { entry1 with reworkLimit := 9 }))
      (withLive 60 (live .inspecting .taken .complete [])) (fun t =>
        ((t.dir 0).entry.reworkLimit, (t.dir 0).held.map (·.reworkLimit), (t.port .sta).slot.status)) =
      some (3, some 9, .held) := by decide +kernel

theorem test_directory_read :
    after (.directoryRead .sta 0#8 (some ())) (running 0) (fun t => (t.port .sta).slot.payload) =
      some [0#8, 0#8, 0#8, 0#8, 64#8, 0#8, 0#8, 128#8, 0#8, 0#8, 192#8, 0#8, 0#8,
        2#8, 0#8, 2#8, 0#8, 0#8, 0#8, 0#8, 0#8, 3#8, 2#8, 0#8, 0#8] := by decide +kernel

theorem test_region_set_then_read :
    after (.regionSet .sta 0#8 (some ⟨false, true, false⟩)) State.reset (fun t =>
      after (.regionRead .sta (some ())) t fun u =>
        ((u.port .sta).slot.payload.length, (u.port .sta).slot.payload.take 6)) =
      some (some (48, [1#8, 0#8, 1#8, 0#8, 1#8, 1#8])) := by decide +kernel

theorem test_prog_write_in_use :
    after (.progWrite .sta (some ⟨15, [0#8]⟩)) (withLive 60 (live .inspecting .taken .complete []))
      (fun t => (t.port .sta).slot.status) = some .inUse ∧
    after (.progWrite .sta (some ⟨16, [0#8]⟩)) (withLive 60 (live .inspecting .taken .complete []))
      (fun t => (t.port .sta).pending) = some (some (.progWrite 16 [0#8])) := by decide +kernel

theorem test_cache_isolate_then_release :
    after (.cacheIsolate .sta (some ())) State.reset (fun t =>
      after (.cacheRelease .sta (some ())) t fun u => (t.cache.isolation, u.cache.isolation)) =
      some (some (.isolated, .normal)) := by decide +kernel

theorem test_cache_tag_read :
    after (.cacheTagRead .sta 127#8 (some ())) State.reset (fun t => (t.port .sta).slot) =
      some ⟨.done, 28#8, [0#8, 0#8, 1#8, 0#8]⟩ := by decide +kernel

theorem test_cache_invalidate_needs_isolation :
    after (.cacheInvalidate .sta 0#8 (some ())) State.reset (fun t => (t.port .sta).slot.status) =
      some .badState ∧
    after (.cacheInvalidate .sta 128#8 (some ())) State.reset (fun t => (t.port .sta).slot.status) =
      some .badObject := by decide +kernel

theorem test_result_hold_set_releases :
    after (.resultHoldSet .sta 0#8 (some 1)) { State.reset with
        links := ⟨⟨[], List.replicate 60 (.done 9#8), 8⟩, Link.reset, Link.reset, Link.reset⟩ }
      (fun t => ((t.link .h0).holdOn, (t.alert (.hl .h0)).latched)) =
      some (false, [.queueReleased]) := by decide +kernel

theorem test_head_link_read :
    after (.headLinkRead .sta 3#8 (some ())) State.reset (fun t => (t.port .sta).slot.payload) =
      some [0#8, 0#8, 64#8, 8#8, 1#8, 1#8] := by decide +kernel

theorem test_merge_status_read :
    after (.mergeStatusRead .sta (some ())) State.reset (fun t => (t.port .sta).slot.payload) =
      some [0#8, 3#8, 0#8, 0#8, 0#8, 0#8] := by decide +kernel

theorem test_ring_set :
    after (.ringSet .sta 0#8 (some ⟨1048576, 16, some .high⟩)) { State.reset with
        regions := Vector.replicate 16 ⟨true, false, true⟩ } (fun t => t.channel .defect) =
      some channel1 := by decide +kernel

theorem test_ring_set_size_must_be_a_power :
    after (.ringSet .sta 0#8 (some ⟨1048576, 24, some .high⟩)) State.reset
      (fun t => (t.port .sta).slot.status) = some .badValue := by decide +kernel

theorem test_log_consumed :
    after (.logConsumed .sta 0#8 (some 2)) { State.reset with
        channels := ⟨{ channel1 with producer := 3#17 }, ChannelReg.reset⟩ }
      (fun t => (t.channel .defect).occupancy) = some 1 := by decide +kernel

theorem test_log_block_set :
    after (.logBlockSet .sta 1#8 (some 0)) State.reset (fun t => (t.port .sta).slot.status) =
      some .badValue := by decide +kernel

theorem test_channel_read :
    after (.channelRead .sta 1#8 (some ())) State.reset (fun t => (t.port .sta).slot) =
      some ⟨.done, 38#8, [0#8, 0#8, 0#8, 0#8, 0#8, 0#8, 0#8, 1#8, 0#8, 0#8, 0#8, 0#8, 0#8, 0#8, 0#8,
        0#8, 0#8, 16#8, 16#8, 0#8, 0#8, 0#8, 0#8, 0#8, 0#8]⟩ := by decide +kernel

/-- The optional write (presence, then waiting 0 or in flight 1 with its ring index) and the source length. -/
theorem test_channel_read_write :
    encWrite none = [0#8] ∧ encWrite (some (.waiting 5#17)) = [1#8, 0#8] ∧
    encWrite (some (.inFlight 0x10203#17 0#16 (.defect defect1) none)) = [1#8, 1#8, 3#8, 2#8, 1#8] ∧
    after (.channelRead .sta 0#8 (some ())) (moving (some 0)) (fun t =>
      (t.port .sta).slot.payload.drop 22) =
      some [0#8, 1#8, 1#8, 0#8, 0#8, 0#8, 1#8, 0#8] := by decide +kernel

theorem test_watch_set_read_clear :
    after (.watchRead .sta 0#8 (some ())) { State.reset with
        watches := ⟨{ Watch.reset with status := some ⟨5#16, 1#8, 7#12⟩ }, Watch.reset⟩ } (fun t =>
      after (.watchClear .sta 0#8 (some ())) t fun u => ((t.watch .w0).seen, (u.watch .w0).status)) =
      some (some (true, none)) := by decide +kernel

theorem test_watch_set :
    after (.watchSet .sta 1#8 (some ⟨true, some 15, some 4095, some 8, none⟩)) State.reset
      (fun t => t.watch .w1) =
      some ⟨true, some 15, some 4095#12, some .other, none, none, false, false⟩ := by decide +kernel

theorem test_pending_transaction_and_nop :
    after (.pendingTransaction .sta) State.reset (fun t => (t.port .sta).slot.status) = some .empty ∧
    after (.nop .gtc) State.reset (fun t => (t.port .gtc).slot.status) = some .empty := by
  decide +kernel

/-! ### A state and operands for every statement's hypotheses -/

theorem noExitDue_of_order (s : State) (l : Lane)
    (h : ∀ i ∈ (s.lane l).order, (match s.board i with
      | some r => match r.targetOf .exitDue with
        | some t => !due (s.lane r.lane).counter t
        | none => true
      | none => true) = true) : s.noExitDue l := by
  intro i hi r t hb ht
  have := h i hi
  simpa [hb, ht] using this

theorem test_witness_NothingThereChangesNothing :
    State.reset.pending = [] ∧
    (∀ (k : EventKind) r t, State.reset.board 0 = some r → r.targetOf k = some t →
      due (State.reset.lane r.lane).counter t = false) ∧
    ∀ r t, (withLive 60 (live .inspecting .taken .complete [⟨.deadline, 61#24⟩])).board 0 = some r →
      r.targetOf .deadline = some t →
      due ((withLive 60 (live .inspecting .taken .complete [⟨.deadline, 61#24⟩])).lane r.lane).counter t =
        false := by
  refine ⟨rfl, ?_, ?_⟩
  · intro k r t h
    have : State.reset.board 0 = none := by decide +kernel
    rw [this] at h; cases h
  · intro r t h ht
    have hb : (withLive 60 (live .inspecting .taken .complete [⟨.deadline, 61#24⟩])).board 0 =
        some (live .inspecting .taken .complete [⟨.deadline, 61#24⟩]) := by decide +kernel
    rw [hb] at h; cases h
    have hk : (live .inspecting .taken .complete [⟨.deadline, 61#24⟩]).targetOf .deadline =
        some 61#24 := by decide +kernel
    rw [hk] at ht; cases ht
    decide +kernel

theorem test_witness_PowerOnResetGivesResetValues :
    writing.memoryWf = true ∧ (writing.takeDue [.A, .B]).writeInFlight = some (64, [5#8, 0#8]) ∧
    loggedLate.memoryWf = true ∧ (loggedLate.takeDue [.A, .B]).writeInFlight.isSome = true := by
  decide +kernel

theorem test_witness_TrackResetEmptiesTracking : State.reset.open_ .sta := open_reset .sta

/-- The station port with a request pending. -/
def pendingSta : State :=
  { State.reset with
    ports := State.reset.ports.set .sta ⟨⟨.pending, 27#8, []⟩, some .cacheIsolate⟩ }

theorem test_witness_TransactionsWithoutARequest :
    (pendingSta.port .sta).pending ≠ none ∧
      (Instr.boardRead .sta 0#8 (some ())).asks = some (.sta, 2) ∧
      Decode.frameOk [1#8] = false ∧ State.reset.open_ .sta :=
  ⟨by decide +kernel, rfl, by decide +kernel, open_reset .sta⟩

theorem test_witness_RefusalsChangeOnlyTheResponse :
    ((Instr.faultPop .lnc (some ())).asks = some (.lnc, 42) ∧ mayAsk .lnc 42 = false ∧
      State.reset.open_ .lnc) ∧
    ((Instr.boardRead .sta 24#8 (some ())).asks = some (.sta, 2) ∧ mayAsk .sta 2 = true ∧
      (Instr.boardRead .sta 24#8 (some ())).objectInRange = false ∧ State.reset.open_ .sta) ∧
    ((Instr.boardRead .sta 23#8 none).asks = some (.sta, 2) ∧ mayAsk .sta 2 = true ∧
      (Instr.boardRead .sta 23#8 none).objectInRange = true ∧
      (Instr.boardRead .sta 23#8 none).payloadSuits = false) :=
  ⟨⟨rfl, by decide +kernel, open_reset .lnc⟩,
    ⟨rfl, by decide +kernel, by decide +kernel, open_reset .sta⟩, by decide +kernel⟩

def faultsN (n : Nat) : State :=
  { State.reset with faults := ⟨List.replicate n ⟨fault1, []⟩, [], []⟩ }

theorem test_witness_FaultJoinsQueueOrOverflow :
    (faultsN 7).faults.queue.length < 8 ∧ 8 ≤ (faultsN 8).faults.queue.length := by decide +kernel

/-- Recipe 0 used by `n` boards with an update held. -/
def heldEntry (n : Nat) : State :=
  { State.reset with
    directory := (Vector.replicate 16 DirState.reset).set 0 ⟨entry1, n, some entry1⟩ }

/-- Lane A with a held map and the lane order `o`. -/
def heldMapOn (o : List Slot) : State :=
  { State.reset with
    lanes := ⟨{ LaneState.reset with heldMap := some map1, order := o }, LaneState.reset⟩ }

theorem test_witness_HeldUpdatesAreApplied :
    ((heldEntry 1).dir 0).held = some entry1 ∧ ((heldEntry 1).dir 0).useCount = 1 ∧
    ((heldEntry 2).dir 0).useCount ≠ 1 ∧ ((running 0).dir 0).held = none ∧
    ((heldMapOn []).lane .A).heldMap = some map1 ∧ ((heldMapOn []).lane .A).order = [] ∧
    ((heldMapOn [0]).lane .A).order ≠ [] ∧ (State.reset.lane .A).heldMap = none := by decide +kernel

/-- A board with `n` records in the Defect Pool and `k` suspects of another board. -/
def pools (n k : Nat) (r : Record) : State :=
  { withLive 60 r with
    channels := ⟨channel1, channel1⟩
    defects := List.replicate n ⟨1, defect1⟩
    suspects := List.replicate k ⟨1, 5#12, .h0, .marginal, some .cold, some 1#16, .minor⟩ }

def board1 : Record := live .inspecting .reporting .waiting []

theorem test_witness_RecordsReachTheMoveEngine :
    (withLive 60 board1).board 0 = some board1 ∧
    ((withLive 60 board1).channel .defect).state = .disabled ∧
    ((pools 383 0 board1).channel .defect).state ≠ .disabled ∧
    (pools 383 0 board1).defects.length < 384 ∧ 384 ≤ (pools 384 0 board1).defects.length ∧
    (pools 384 0 board1).board 0 = some board1 := by decide +kernel

theorem test_witness_ReportResolvedAlone_PairResolvedByFirstRow :
    (pools 0 0 board1).board 0 = some board1 := by decide +kernel

/-- A suspect of `board1` at joint 7. -/
def suspected : State :=
  { pools 0 0 board1 with
    suspects := [⟨0, 7#12, .h1, .marginal, some .cold, some 1#16, .minor⟩] }

/-- `board1` whose head 1 passed joint 9. -/
def passed9 : Record := { board1 with
  heads := ⟨head1 .reporting, ⟨.reporting, 1, some 9#12, 0⟩, head1 .notRequired, head1 .notRequired⟩ }

theorem test_witness_PassedEntryGoesThroughItsRule :
    (⟨7#12, .any, .h0, .major⟩ : HeadEntry).rule = .any ∧
    (⟨7#12, .confirm, .h0, .major⟩ : HeadEntry).partner =
      (⟨.h0, .defect, some .void, none, .major⟩ : Report).head ∧
    (⟨7#12, .advisory, .h0, .major⟩ : HeadEntry).rule = .advisory ∧
    (⟨7#12, .confirm, .h1, .major⟩ : HeadEntry).partner ≠
      (⟨.h0, .good, none, none, .major⟩ : Report).head ∧
    suspected.suspectAt 0 7#12 = some ⟨0, 7#12, .h1, .marginal, some .cold, some 1#16, .minor⟩ ∧
    (pools 0 191 board1).suspectAt 0 7#12 = none ∧ (pools 0 192 board1).suspectAt 0 7#12 = none ∧
    (pools 0 0 passed9).suspectAt 0 9#12 = none ∧ (passed9.heads.get .h1).lastPassed = some 9#12 ∧
    (board1.heads.get .h1).lastPassed = none ∧ (board1.headStatus .h1).isFinal = false ∧
    ((live .inspecting .reporting .late []).headStatus .h1).isFinal = true ∧
    (pools 0 191 board1).suspects.length < 192 ∧ 192 ≤ (pools 0 192 board1).suspects.length ∧
    (pools 0 192 board1).board 0 = some board1 ∧ (pools 0 0 passed9).board 0 = some passed9 := by
  decide +kernel

/-- `board1` with DEFECT suspects at joints 7 and 5, the DEFECT channel running, `n` records in its pool. -/
def closing (n : Nat) : State :=
  { pools n 0 board1 with
    suspects := [⟨0, 7#12, .h1, .defect, some .cold, some 1#16, .minor⟩,
      ⟨0, 5#12, .h1, .defect, none, none, .critical⟩] }

theorem test_close_pools_its_defect_suspects :
    (((closing 0).close 0).defects.map (·.record.joint), ((closing 0).close 0).faults.queue.length) =
      ([5#12, 7#12], 0) ∧
    (((closing 383).close 0).defects.length, ((closing 383).close 0).faults.queue.map fun q =>
      (q.fault.cause, q.fault.source, q.fault.joint)) =
      (384, [(.defectPoolFull, .verdictUnit, some 7#12)]) := by decide +kernel

theorem test_witness_CloseFixesTheVerdict_pools :
    (withLive 60 board1).board 0 = some board1 ∧
    ((withLive 60 board1).channel .defect).state = .disabled ∧
    ∀ n ∈ [0, 383, 384], (closing n).board 0 = some board1 ∧
      ((closing n).channel .defect).state ≠ .disabled := by decide +kernel

theorem test_witness_CloseFixesTheVerdict :
    (withLive 60 board1).board 0 = some board1 ∧ (board1.headStatus .h0).isFinal = false ∧
    (live .decided .complete .complete []).state ≠ .inspecting ∧
    (withLive 60 (live .inspecting .complete .late [])).board 0 =
      some (live .inspecting .complete .late []) ∧
    ∀ n, ((live .inspecting .complete .late []).headStatus n).isFinal = true := by
  refine ⟨by decide +kernel, by decide +kernel, by decide +kernel, by decide +kernel, ?_⟩
  intro n; cases n <;> decide +kernel

theorem test_witness_VerdictIsTheFirstRowThatHolds :
    BoardFlag.noRecipe ∈ ({ board1 with flags := [.noRecipe] } : Record).flags := by decide +kernel

theorem test_witness_NextTagIsTheFirstFreeOne : State.reset.board 23 = none := by decide +kernel

/-- Lane A with recipe 0 announced. -/
def announced : State :=
  { running 7 with
    lanes := ⟨{ (running 7).lanes.a with announces := [⟨0, some 5#48⟩] }, LaneState.reset⟩ }

theorem test_witness_NewRecordFields :
    (announced.lane .A).announces = ⟨0, some 5#48⟩ :: [] ∧ (State.reset.lane .A).announces = [] ∧
    BoardFlag.noRecipe ∈ (State.reset.newRecord .A).flags ∧
    BoardFlag.noRecipe ∉ (announced.newRecord .A).flags ∧
    (announced.newRecord .A).recipe = some 0 := by decide +kernel

theorem test_witness_EntryEdgeCreatesARecord :
    (announced.lane .A).map.enable = true ∧ (announced.lane .A).entry = .ready ∧
    announced.board 0 = none ∧ (∀ j : Slot, j < 0 → announced.board j ≠ none) ∧
    (announced.newRecord .A).recipe = some 0 ∧
    BoardFlag.noRecipe ∉ (announced.newRecord .A).flags ∧
    ((withLive 60 board1).lane .A).map.enable = true ∧ ((withLive 60 board1).lane .A).entry = .ready ∧
    (withLive 60 board1).board 1 = none ∧
    (∀ j : Slot, j < 1 → (withLive 60 board1).board j ≠ none) ∧
    BoardFlag.noRecipe ∈ ((withLive 60 board1).newRecord .A).flags := by decide +kernel

/-- Lane A in entry state `e` and exit state `x`, with the board `r` in slot 0. -/
def sensing (c : Nat) (r : Record) (e : EntryState) (x : ExitState) : State :=
  { withLive c r with
    lanes := ⟨{ (withLive c r).lanes.a with entry := e, exit := x }, LaneState.reset⟩ }

theorem test_witness_EntryEdgeThatCreatesNothing :
    (∀ i, ({ running 0 with slots := Vector.replicate 24 (some board1) } : State).board i ≠ none) ∧
    ((running 0).lane .A).map.enable = true ∧ ((running 0).lane .A).entry = .ready ∧
    (State.reset.lane .A).map.enable = false ∧
    ((sensing 0 board1 .untracked .ready).lane .A).entry = .untracked ∧
    ((sensing 0 board1 .untracked .ready).lane .A).entry ≠ .ready ∧
    ((sensing 0 board1 .untracked .ready).lane .A).map.enable = true := by decide +kernel

def entering1 (armed : List Armed) : Record :=
  { live .entering .waiting .complete armed with length := none }

theorem test_witness_ShortBoardIsWithdrawn :
    let s := sensing 4 (entering1 []) .covered .ready
    (s.lane .A).map.enable = true ∧ (s.lane .A).entry = .covered ∧
    (s.lane .A).order.getLast? = some 0 ∧ s.board 0 = some (entering1 []) ∧
    (entering1 []).state = .entering ∧
    ((s.lane .A).counter - (entering1 []).entryPos).toNat < (s.lane .A).map.minLength := by
  decide +kernel

theorem test_witness_LongEnoughBoardIsAccepted :
    let s := sensing 5 (entering1 []) .covered .ready
    (s.lane .A).map.enable = true ∧ (s.lane .A).entry = .covered ∧
    (s.lane .A).order.getLast? = some 0 ∧ s.board 0 = some (entering1 []) ∧
    (entering1 []).lane = .A ∧ (entering1 []).state = .entering ∧
    (s.lane .A).map.minLength ≤ ((s.lane .A).counter - (entering1 []).entryPos).toNat := by
  decide +kernel

theorem test_witness_EventsDueTogetherGoOneByOne :
    (withLive 60 board1).dueOf 0 (fun _ => true) = [] ∧ (withLive 60 board1).dueEvents .A = [] ∧
    (withLive 900 (live .inspecting .taken .complete [⟨.deadline, 900#24⟩])).dueOf 0 (fun _ => true) =
      [⟨0, .deadline⟩] ∧
    (withLive 900 (live .inspecting .taken .complete [⟨.deadline, 900#24⟩])).dueEvents .A =
      [⟨0, .deadline⟩] := by decide +kernel

theorem test_witness_LengthLimitMakesOverlength :
    let r := entering1 [⟨.lengthLimit, 200#24⟩]
    (withLive 200 r).board 0 = some r ∧ r.targetOf .lengthLimit = some 200#24 ∧
    due ((withLive 200 r).lane r.lane).counter 200#24 = true ∧ r.state = .entering := by decide +kernel

/-- Head 1's trigger queue with `n` triggers, its HEAD_OPEN due at 20. -/
def opening (n : Nat) : State :=
  { withLive 20 (live .inspecting .complete .waiting [⟨.headOpen .h1, 20#24⟩]) with
    links := ⟨Link.reset, ⟨List.replicate n ⟨9#8, .B, 0, none, 0#24, 0, 1⟩, [], 8⟩, Link.reset,
      Link.reset⟩ }

theorem test_witness_HeadOpenPlacesOrOverruns :
    let r := live .inspecting .complete .waiting [⟨.headOpen .h1, 20#24⟩]
    (opening 7).board 0 = some r ∧ (opening 8).board 0 = some r ∧
    r.targetOf (.headOpen .h1) = some 20#24 ∧ due ((opening 7).lane r.lane).counter 20#24 = true ∧
    due ((opening 8).lane r.lane).counter 20#24 = true ∧ r.headStatus .h1 = .waiting ∧
    r.recipe = some 0 ∧ (opening 7).entryOf r = some entry1 ∧ (opening 8).entryOf r = some entry1 ∧
    ((opening 7).link .h1).triggers.length < 8 ∧
    ((opening 8).link .h1).triggers =
      ⟨9#8, .B, 0, none, 0#24, 0, 1⟩ :: List.replicate 7 ⟨9#8, .B, 0, none, 0#24, 0, 1⟩ ∧
    8 ≤ ((opening 8).link .h1).triggers.length := by decide +kernel

theorem test_witness_HeadLimitAndDeadline :
    (∀ x ∈ [HeadStatus.triggered, .taken, .reporting],
      let r := live .inspecting x .complete [⟨.headLimit .h0, 200#24⟩]
      (withLive 200 r).board 0 = some r ∧ r.targetOf (.headLimit .h0) = some 200#24 ∧
      due ((withLive 200 r).lane r.lane).counter 200#24 = true ∧ r.headStatus .h0 = x) ∧
    ∀ st ∈ [RecState.entering, .inspecting],
      let r := live st .taken .complete [⟨.deadline, 900#24⟩]
      (withLive 900 r).board 0 = some r ∧ r.targetOf .deadline = some 900#24 ∧
      due ((withLive 900 r).lane r.lane).counter 900#24 = true ∧ r.state = st := by decide +kernel

theorem test_witness_ExitDueMakesTheFrontMissing :
    ∀ st ∈ [RecState.inspecting, .decided],
      let r := live st .taken .complete [⟨.exitDue, 1020#24⟩]
      (withLive 1020 r).board 0 = some r ∧ ((withLive 1020 r).lane r.lane).order = 0 :: [] ∧
      r.targetOf .exitDue = some 1020#24 ∧
      due ((withLive 1020 r).lane r.lane).counter 1020#24 = true := by decide +kernel

/-- Two boards on lane A, slot 1 ahead of slot 0, whose EXIT_DUE is due. -/
def behind : State :=
  { withLive 1020 (live .inspecting .taken .complete [⟨.exitDue, 1020#24⟩]) with
    slots := ((Vector.replicate 24 none).set 0
      (some (live .inspecting .taken .complete [⟨.exitDue, 1020#24⟩]))).set 1
      (some { live .decided .complete .complete [] with tag := 2#8, verdict := some .pass })
    lanes := ⟨{ (running 1020).lanes.a with order := [1, 0] }, LaneState.reset⟩ }

theorem test_witness_ExitDueMakesTheFrontMissing_not_the_front :
    let r := live .inspecting .taken .complete [⟨.exitDue, 1020#24⟩]
    behind.board 0 = some r ∧ (behind.lane r.lane).order = [1] ++ 0 :: [] ∧ (0 : Slot) ∉ [(1 : Slot)] ∧
    r.targetOf .exitDue = some 1020#24 ∧ due (behind.lane r.lane).counter 1020#24 = true := by
  decide +kernel

theorem test_exit_due_behind_takes_the_record_ahead_first :
    after (.exitDue 0) behind (fun t => (t.board 0, t.board 1,
      t.faults.queue.map fun q => (q.fault.slot, q.fault.cause))) =
      some (none, none, [(some 1, .missingAtExit), (some 0, .missingAtExit)]) := by decide +kernel

/-- An exit edge while the front record's EXIT_DUE is due: the record goes missing, the edge is unexpected. -/
theorem test_witness_ExitEdgeMatchesTheFront_with_one_due :
    (leavingLate.lane .A).map.enable = true ∧ (leavingLate.lane .A).exit = .ready ∧
    after (.exitLeadingEdge .A) leavingLate (fun t => t.faults.queue.map (·.fault.cause)) =
      some [.missingAtExit, .unexpectedAtExit] := by decide +kernel

theorem test_witness_ExitEdgeMatchesTheFront :
    (sensing 980 board1 .ready .ready).noExitDue .A ∧
    ((sensing 980 board1 .ready .ready).lane .A).map.enable = true ∧
    ((sensing 980 board1 .ready .ready).lane .A).exit = .ready ∧
    ((sensing 980 board1 .ready .ready).lane .A).order = 0 :: [] ∧
    (sensing 980 board1 .ready .ready).board 0 = some board1 ∧
    earlier ((sensing 980 board1 .ready .ready).lane .A).counter (board1.entryPos + BitVec.ofNat 24 1000 -
      BitVec.ofNat 24 20) = false :=
  ⟨noExitDue_of_order _ _ (by decide +kernel), by decide +kernel⟩

theorem test_witness_ExitEdgeThatMatchesNothing :
    (((running 0).lane .A).map.enable = true ∧ ((running 0).lane .A).exit = .ready ∧
      ((running 0).lane .A).order = []) ∧
    ((sensing 979 board1 .ready .ready).noExitDue .A ∧
      ((sensing 979 board1 .ready .ready).lane .A).order = 0 :: [] ∧
      (sensing 979 board1 .ready .ready).board 0 = some board1 ∧
      earlier ((sensing 979 board1 .ready .ready).lane .A).counter (board1.entryPos +
        BitVec.ofNat 24 1000 - BitVec.ofNat 24 20) = true) ∧
    ((sensing 0 board1 .ready .occupied).lane .A).exit = .occupied ∧
    ((sensing 0 board1 .ready .occupied).lane .A).map.enable = true ∧
    (State.reset.lane .A).map.enable = false :=
  ⟨by decide +kernel, ⟨noExitDue_of_order _ _ (by decide +kernel), by decide +kernel⟩,
    by decide +kernel⟩

theorem test_witness_MergeTakesDoneAndAbort :
    ∀ x ∈ [Item.done 1#8, Item.abort 1#8 77#8], ∀ h ∈ [HeadStatus.taken, .reporting],
      (reporting x h).merge.item = none ∧ (reporting x h).cache.isolation = .normal ∧
      (roundRobin (reporting x h).merge.lastServed).find? (reporting x h).eligible = some .h0 ∧
      ((reporting x h).link .h0).results = x :: [] ∧
      (reporting x h).slotOfTag (Item.tag x) = some 0 ∧
      (reporting x h).board 0 = some (live .inspecting h .complete []) := by decide +kernel

/-- Head 0 of the board passed joint 9. -/
def passing9 : Record := { board1 with
  heads := ⟨⟨.reporting, 1, some 9#12, 0⟩, head1 .waiting, head1 .notRequired, head1 .notRequired⟩ }

def result7 : Item := .result 1#8 7#12 .defect (some .void) 9#16

/-- The board `r` with the item `x` in head 0's result queue. -/
def queued (x : Item) (r : Record) : State :=
  { withLive 60 r with links := ⟨⟨[], [x], 8⟩, Link.reset, Link.reset, Link.reset⟩ }

theorem test_witness_MergeDropsWhatItCannotApply :
    (filling 0).merge.item ≠ none ∧
    ({ State.reset with cache := { Cache.reset with isolation := .isolated } } : State).cache.isolation ≠
      .normal ∧
    (∀ n, State.reset.eligible n = false) ∧
    (queued (.done 2#8) board1).slotOfTag (Item.tag (.done 2#8)) = none ∧
    (roundRobin (queued (.done 2#8) board1).merge.lastServed).find? (queued (.done 2#8) board1).eligible =
      some .h0 ∧
    ((∀ h ∈ [HeadStatus.waiting, .triggered],
      (reporting result7 h).slotOfTag (Item.tag result7) = some 0 ∧
      (roundRobin .h3).find? (reporting result7 h).eligible = some .h0 ∧
      (live .inspecting h .complete []).headStatus .h0 = h) ∧
    (reporting result7 .late).board 0 = some (live .inspecting .late .complete []) ∧
    ((live .inspecting .late .complete []).headStatus .h0).isFinal = true) ∧
    (queued result7 passing9).board 0 = some passing9 ∧
    (roundRobin .h3).find? (queued result7 passing9).eligible = some .h0 ∧
    (passing9.heads.get .h0).lastPassed = some 9#12 ∧ 7#12 ≤ 9#12 ∧
    passing9.headStatus .h0 = .reporting := by
  refine ⟨by decide +kernel, by decide +kernel, ?_, by decide +kernel⟩
  intro n; cases n <;> decide +kernel

/-- `queued` with the cache line of the list's first entry filled with an ANY entry of joint 7. -/
def cachedList : State :=
  { queued result7 board1 with
    cache := { Cache.reset with
      lines := Cache.reset.lines.set 0 ⟨0, true, entryBytes 0 ++ List.replicate 56 0#8⟩ } }

theorem test_witness_ResultWalksTheList :
    (∀ s ∈ [queued result7 board1, cachedList],
      s.merge.item = none ∧ s.cache.isolation = .normal ∧
      (roundRobin s.merge.lastServed).find? s.eligible = some .h0 ∧
      (s.link .h0).results = result7 :: [] ∧ s.slotOfTag 1#8 = some 0 ∧ s.board 0 = some board1 ∧
      board1.headStatus .h0 = .reporting ∧ (board1.heads.get .h0).lastPassed = none ∧
      s.entryOf board1 = some entry1 ∧
      (board1.heads.get .h0).cursor < entry1.listLength.get .h0 ∧ s.cache.fill = none ∧
      s.arbiter.op = none ∧ s.grantDue = false) ∧
    ((queued result7 board1).line (cacheIndex 0)).valid = false ∧
    (cachedList.line (cacheIndex 0)).valid = true ∧ (cachedList.line (cacheIndex 0)).tag = 0 ∧
    HeadEntry.ofBytes (((cachedList.line (cacheIndex 0)).bytes.drop 0).take 8) =
      some ⟨7#12, .any, .h0, .major⟩ := by decide +kernel

/-- The RESULT item for joint `j` in flight on slot 0. -/
def flying (j : Nat) (tag : Tag) : InFlight :=
  ⟨.h0, 0, tag, BitVec.ofNat 12 j, .defect, some .void, 9#16, []⟩

/-- The item for joint 7 that has skipped an entry of joint 5. -/
def skipping : InFlight := { flying 7 1#8 with walk := [⟨0, ⟨5#12, .any, .h0, .major⟩⟩] }

/-- A walk inside its list, at its last entry, and at its end. -/
theorem test_witness_ResultWalksTheList_walk :
    (∀ h ∈ [HeadStatus.taken, .reporting], ∀ q,
      (reporting q h).board (flying 7 1#8).slot = some (live .inspecting h .complete []) ∧
      (reporting q h).entryOf (live .inspecting h .complete []) = some entry1 ∧
      ((live .inspecting h .complete []).heads.get .h0).cursor + skipping.walk.length <
        entry1.listLength.get .h0 ∧
      entry1.listLength.get .h0 ≤ ((live .inspecting h .complete []).heads.get .h0).cursor +
        (skipping.walk ++ skipping.walk).length) ∧
    (∀ last, (board1.heads.get .h0).lastPassed = some last → last < 7#12) ∧
    (filling 0).board (flying 7 1#8).slot = some (live .inspecting .reporting .complete []) ∧
    (filling 0).cache.fill ≠ none := by
  refine ⟨?_, ?_, by decide +kernel, by decide +kernel⟩
  · intro h _ q
    refine ⟨rfl, rfl, ?_, ?_⟩ <;> exact of_decide_eq_true rfl
  · intro last h; cases h

theorem test_witness_SuppliedEntryIsExaminedAndJudged :
    HeadEntry.ofBytes [] = none ∧
    HeadEntry.ofBytes (entryBytes 0) = some ⟨7#12, .any, .h0, .major⟩ ∧
    (flying 10 1#8).previous passing9 = some 9#12 ∧ (flying 7 1#8).previous board1 = none ∧
    State.reset.board (flying 7 1#8).slot = none ∧
    (withLive 60 board1).board (flying 7 2#8).slot = some board1 ∧ board1.tag ≠ (flying 7 2#8).tag ∧
    board1.tag = (flying 7 1#8).tag ∧
    ((live .inspecting .late .complete []).headStatus (flying 7 1#8).head).isFinal = true ∧
    (board1.headStatus (flying 7 1#8).head).isFinal = false ∧
    (flying 8 1#8).judge board1 (entryBytes 0) = .skipped ⟨7#12, .any, .h0, .major⟩ ∧
    (flying 7 1#8).judge board1 (entryBytes 0) = .matched ⟨7#12, .any, .h0, .major⟩ ∧
    (flying 6 1#8).judge board1 (entryBytes 0) = .stops .notInProgram ∧
    (withLive 60 board1).board skipping.slot = some board1 ∧ skipping.walk ≠ [] := by decide +kernel

/-- The finish of an item that skipped an entry: NOT_MEASURED for it, the cursor past it, the head's end. -/
theorem test_finish_after_a_skip :
    ∀ e ∈ [(WalkEnd.notInProgram, HeadStatus.reporting, Cause.notInProgram),
        (.programCheck, .faulted, .programCheck)],
      ((((withLive 60 board1).finish skipping none e.1).board 0).map fun r =>
        (r.counts.unseen, (r.heads.get .h0).cursor, (r.heads.get .h0).lastPassed, r.headStatus .h0)) =
          some (1, 1, some 5#12, e.2.1) ∧
      ((withLive 60 board1).finish skipping none e.1).faults.queue.map (fun q =>
        (q.fault.cause, q.fault.detail)) = [(e.2.2, 1)] := by decide +kernel

/-- The station's PROG_WRITE waits, for one byte at `a`. -/
def writeWaits (a : Nat) : State :=
  { withLive 60 board1 with
    ports := State.reset.ports.set .sta ⟨⟨.pending, 26#8, []⟩, some (.progWrite a [1#8])⟩ }

theorem test_witness_GrantGoesToFillThenPorts :
    writing.arbiter.op ≠ none ∧
    (∃ f, ({ State.reset with cache := { Cache.reset with fill := some ⟨3, 0, false⟩ } } : State).cache.fill =
      some f) ∧
    (∀ a ∈ [15, 16], (writeWaits a).arbiter.op = none ∧ (writeWaits a).cache.fill = none ∧
      (portOrder (writeWaits a).arbiter.lastPort).findSome? (fun q =>
        ((writeWaits a).portOp q).map fun o => (q, o)) =
          some (.sta, ⟨.port .sta, .progWrite, a, 1⟩)) ∧
    (writeWaits 15).inUse 15 1 = true ∧ (writeWaits 16).inUse 16 1 = false := by
  refine ⟨by decide +kernel, ⟨_, rfl⟩, by decide +kernel⟩

theorem test_witness_GrantGoesToFillThenPorts_due :
    (writeWaits 16).grantDue = true ∧ State.reset.grantDue = false ∧ writing.grantDue = false := by
  decide +kernel

/-- The DEFECT channel's write waits, with the move write permission `m` everywhere. -/
def moveWaits (m : Bool) : State :=
  { pools 1 0 board1 with
    regions := Vector.replicate 16 ⟨true, false, m⟩
    channels := ⟨{ channel1 with write := some (.waiting 0#17) }, ChannelReg.reset⟩ }

theorem test_witness_GrantGoesToOneChannel :
    ∀ m ∈ [true, false],
      (moveWaits m).arbiter.op = none ∧ (moveWaits m).cache.fill = none ∧
      (∀ p ∈ MemPort.all, (moveWaits m).portOp p = none) ∧
      (moveWaits m).waitingChannel = some .defect ∧
      (moveWaits m).sourceRecord .defect = some (.defect defect1, 1) ∧
      ((moveWaits m).regionAt 1048576).moveWrite = m ∧
      (moveWaits m).waits (Channel.other .defect) = false := by decide +kernel

/-- `moveWaits` with the SUMMARY channel waiting as well, at LOW priority, for slot 0. -/
def bothWait (m : Bool) : State :=
  { moveWaits m with
    summaryReady := [0]
    channels := ⟨{ channel1 with write := some (.waiting 0#17) },
      { channel1 with ring := ⟨2097152, 16, .low⟩, write := some (.waiting 0#17) }⟩ }

theorem test_witness_GrantGoesToOneChannel_both_wait :
    (bothWait false).defects = ⟨1, defect1⟩ :: [] ∧ (bothWait false).summaryReady = 0 :: [] ∧
    (bothWait false).board 0 = some board1 ∧ (bothWait false).arbiter.op = none ∧
    (bothWait false).cache.fill = none ∧ (∀ p ∈ MemPort.all, (bothWait false).portOp p = none) ∧
    (bothWait false).waitingChannel = some .defect ∧
    (bothWait false).sourceRecord .defect = some (.defect defect1, 1) ∧
    ((bothWait false).regionAt 1048576).moveWrite = false ∧
    (bothWait false).waits (Channel.other .defect) = true := by decide +kernel

/-- Both writes refused within one grant: both channels are FAULTED. -/
theorem test_grant_refused_goes_on :
    after .memoryGrant (bothWait false) (fun t => ((t.channel .defect).state,
      (t.channel .summary).state, t.faults.queue.map (·.fault.cause), t.arbiter.lastChannel)) =
      some (.faulted, .faulted, [.accessViolation, .accessViolation], .summary) := by decide +kernel

/-- A write given up IN_USE and a channel's write waiting: the next grant within the event is the channel's. -/
theorem test_grant_given_up_goes_on :
    after .memoryGrant { bothWait true with ports := (writeWaits 15).ports } (fun t =>
      ((t.port .sta).slot.status, t.arbiter.lastPort, t.arbiter.op.map (·.requester))) =
      some (.inUse, .sta, some (.channel .defect)) := by decide +kernel

theorem test_witness_WriteEndsInMemoryAndCache :
    State.reset.memoryWf = true ∧ State.reset.cached 0 = false ∧ cachedList.cached 0 = true ∧
    ¬(4 % 8 = 0 ∧ [1#8].length % 8 = 0) ∧ cachedList.cached 4 = true ∧ 8 % 8 = 0 ∧
    (entryBytes 0).length % 8 = 0 ∧ (1 : LineId) ≠ cacheIndex 0 := by decide +kernel

/-- `filling` at its end: the waiting request finds its line, or finds none. -/
def resuming (valid : Bool) : State :=
  { filling 0 with
    cache := { Cache.reset with
      waiting := some 0
      lines := Cache.reset.lines.set 0 ⟨0, valid, entryBytes 0 ++ List.replicate 56 0#8⟩ } }

theorem test_witness_OperationEndsAndTheNextIsGranted :
    (filling 0).arbiter.op = some ⟨.cache, .fill, 0, 64⟩ ∧ (filling 0).cache.fill = some ⟨0, 0, false⟩ ∧
    State.reset.cache.waiting = none ∧
    (∀ v ∈ [true, false], (resuming v).cache.waiting = some 0 ∧ (resuming v).cache.fill = none ∧
      (resuming v).cached 0 = v) ∧
    (resuming true).merge.item = some ⟨.h0, 0, 1#8, 7#12, .defect, some .void, 9#16, []⟩ ∧
    ({ State.reset with arbiter := ⟨some ⟨.port .sta, .progRead, 64, 2⟩, .hl .h3, .summary⟩ } :
      State).arbiter.op = some ⟨.port .sta, .progRead, 64, 2⟩ ∧
    writing.arbiter.op = some ⟨.port .sta, .progWrite, 64, 2⟩ ∧
    (writing.port (MemPort.port .sta)).pending = some (.progWrite 64 [5#8, 0#8]) := by decide +kernel

/-- The end of the DEFECT channel's write for a LEAVING board with nothing else outstanding. -/
def lastDefect : State :=
  { moving (some 0) with
    slots := (Vector.replicate 24 none).set 0
      (some { live .leaving .complete .complete [] with outstanding := 1 })
    channels := ⟨(moving (some 0)).channels.defect, channel1⟩ }

def summary1 : LogRecord := .summary (Record.summary board1)

/-- The SUMMARY channel's write of `summary1` in flight. -/
def summing : State :=
  { withLive 60 board1 with
    summaryReady := [0]
    channels := ⟨ChannelReg.reset, { channel1 with write := some (.inFlight 0#17 0#16 summary1 (some 0)) }⟩
    arbiter := ⟨some ⟨.channel .summary, .moveWrite, 1048576, 32⟩, .hl .h3, .summary⟩ }

theorem test_witness_MoveWriteEndCompletesTheRecord :
    (∀ b ∈ [some 0, none], ((moving b).channel .defect).write =
      some (.inFlight 0#17 0#16 (.defect defect1) b) ∧
      (moving b).arbiter.op = some ⟨.channel .defect, .moveWrite, 1048576, 32⟩) ∧
    (moving (some 0)).board 0 = some { live .inspecting .reporting .complete [] with outstanding := 1 } ∧
    lastDefect.board 0 = some { live .leaving .complete .complete [] with outstanding := 1 } ∧
    (lastDefect.channel .defect).write = some (.inFlight 0#17 0#16 (.defect defect1) (some 0)) ∧
    (lastDefect.channel .summary).state ≠ .disabled ∧
    (summing.channel .summary).write = some (.inFlight 0#17 0#16 summary1 (some 0)) ∧
    summing.board 0 = some board1 := by decide +kernel

/-- A board that left at its exit edge. -/
def matched1 : Record :=
  { board1 with verdict := some .scrap, exitFate := some .matched, exitPos := some 1000#24 }

theorem test_witness_MoveWriteEndCompletesTheRecord_layouts :
    defect1.recipe = some 0 ∧ (Record.summary matched1).verdict = some .scrap ∧
    (Record.summary matched1).exitFate = some .matched ∧
    (Record.summary matched1).exitPos = some 1000#24 ∧
    (Record.summary { matched1 with exitFate := some .purged }).exitFate ≠ some .matched := by
  decide +kernel

/-- R197's example: head 0 COMPLETE, heads 1 and 3 NOT_REQUIRED, head 2 LATE give 545. -/
theorem test_head_status_number :
    headStatusNumber ⟨(.complete, 0), (.notRequired, 0), (.late, 0), (.notRequired, 0)⟩ = 545 := by
  decide +kernel

theorem test_witness_MoveWriteEndCompletesTheRecord_no_defect :
    ∀ d, summary1 ≠ .defect d := by
  intro d h; cases h

theorem test_witness_BoardAndFaultReads :
    State.reset.open_ .gtc ∧ (23#8).toNat = (23 : Slot).val ∧ State.reset.board 23 = none ∧
    (withLive 60 board1).open_ .gtc ∧ (0#8).toNat = (0 : Slot).val ∧
    (withLive 60 board1).board 0 = some board1 ∧ State.reset.faults.queue = [] ∧
    (faultsN 1).open_ .sta ∧ (faultsN 1).faults.queue = ⟨fault1, []⟩ :: [] :=
  ⟨open_reset .gtc, by decide +kernel, by decide +kernel, open_reset .gtc, by decide +kernel,
    by decide +kernel, by decide +kernel, open_reset .sta, by decide +kernel⟩

/-- One fault record with the readers `ps`, and the reported set `cs`. -/
def reported (qs : List QueuedFault) (cs : List Cause) : State :=
  { State.reset with faults := ⟨qs, cs, cs⟩ }

theorem test_witness_FaultPopRemovesWhatWasRead :
    (.gtc : Port) ≠ .sta ∧ State.reset.open_ .gtc ∧
    (reported [⟨fault1, [.sta]⟩] []).open_ .sta ∧
    (reported [⟨fault1, [.sta]⟩] []).faults.queue = ⟨fault1, [.sta]⟩ :: [] ∧
    Port.sta ∈ [Port.sta] ∧ Port.sta ∉ [Port.gtc] ∧
    (reported [⟨fault1, [.gtc]⟩] []).faults.queue = ⟨fault1, [.gtc]⟩ :: [] ∧
    (reported [] [.overlength]).faults.queue = [] ∧
    (reported [] [.overlength]).faults.reported ≠ [] ∧ State.reset.faults.reported = [] :=
  ⟨by decide +kernel, open_reset .gtc, open_reset .sta, by decide +kernel⟩

theorem test_witness_AlertsAreReadThenCleared :
    State.reset.open_ .lnc ∧ (∃ f ∈ [AlertFlag.watchHit], f ∉ Decode.flagsOf .lnc) ∧
    ∀ f ∈ [AlertFlag.soft], f ∈ Decode.flagsOf .lnc :=
  ⟨open_reset .lnc, ⟨.watchHit, by decide +kernel⟩, by decide +kernel⟩

theorem test_witness_AlertMaskSetOnOwnPort :
    State.reset.open_ .lnc ∧
    (∃ f ∈ (⟨[.watchHit], true⟩ : MaskArgs).flags, f ∉ Decode.flagsOf .lnc) ∧
    ∀ f ∈ (⟨[.soft, .mailDown], true⟩ : MaskArgs).flags, f ∈ Decode.flagsOf .lnc :=
  ⟨open_reset .lnc, ⟨.watchHit, by decide +kernel⟩, by decide +kernel⟩

theorem test_witness_SoftAlertRaisesOnTheTarget :
    State.reset.open_ .lnc ∧ 7 ≤ (7#8).toNat ∧ Port.all[(6#8).toNat]? = some (.hl .h3) ∧
    Port.all[(0#8).toNat]? = some .sta := ⟨open_reset .lnc, by decide +kernel⟩

/-- A message in each slot of the pair of LNC. -/
def mailed : State :=
  { State.reset with mail := State.reset.mail.set .lnc ⟨some [1#8], some [2#8]⟩ }

theorem test_witness_MailIsPutAndTaken :
    State.reset.open_ .sta ∧ State.reset.open_ .lnc ∧ mailed.open_ .sta ∧
    Port.all[(1#8).toNat]? = some (Outer.port .lnc) ∧
    Port.all[(6#8).toNat]? = some (Outer.port (.hl .h3)) ∧ (.lnc : Port) = Outer.port .lnc ∧
    ([] : List Byte).length < 1 ∧ 16 < (List.replicate 17 0#8).length ∧
    1 ≤ [0#8].length ∧ (List.replicate 16 0#8).length ≤ 16 ∧
    (mailed.mailPair .lnc).down ≠ none ∧ (mailed.mailPair .lnc).up = some [2#8] ∧
    (State.reset.mailPair .lnc).down = none ∧ (State.reset.mailPair .lnc).up = none :=
  ⟨open_reset .sta, open_reset .lnc, open_reset .sta, by decide +kernel⟩

/-- Lane A with `n` announcements. -/
def announcing (n : Nat) : State :=
  { State.reset with
    lanes := ⟨{ LaneState.reset with announces := List.replicate n ⟨0, none⟩ }, LaneState.reset⟩ }

theorem test_witness_LaneRequests :
    State.reset.open_ .sta ∧ State.reset.open_ .lnc ∧ (withLive 60 board1).open_ .sta ∧
    Lane.all[(0#8).toNat]? = some .A ∧ Lane.all[(1#8).toNat]? = some .B ∧
    16 ≤ (⟨16, none⟩ : AnnounceArgs).recipe ∧ (⟨15, none⟩ : AnnounceArgs).recipe < 16 ∧
    ((announcing 4).lane .A).announces.length = 4 ∧ ((announcing 3).lane .A).announces.length < 4 ∧
    16777215 < 16777216 ∧ ((withLive 60 board1).lane .A).order ≠ [] ∧
    (State.reset.lane .A).order = [] :=
  ⟨open_reset .sta, open_reset .lnc, open_reset .sta, by decide +kernel⟩

theorem test_witness_LaneRequests_not_busy :
    ¬((State.reset.lane .A).order ≠ [] ∨ ∃ i r, State.reset.board i = some r ∧ r.lane = .A ∧
      r.state = .entering) := by
  rintro (h | ⟨i, r, h, _⟩)
  · exact h rfl
  · have : ∀ i, State.reset.board i = none := by decide +kernel
    rw [this i] at h; cases h

theorem test_witness_AnnounceThresholdGovernsItsFlag :
    State.reset.open_ .sta ∧ 2 ≤ (2#8).toNat ∧ Lane.all[(1#8).toNat]? = some .B ∧ 3 < 4 ∧ 3 ≤ 3 :=
  ⟨open_reset .sta, by decide +kernel⟩

/-- A board in DECIDED with its verdict. -/
def decided1 : Record := { live .decided .complete .complete [] with verdict := some .scrap }

theorem test_witness_RaisedFlagIsSetAndUnseen :
    (State.reset.lane .A).order = [] ∧ State.reset.presentation .A = none ∧
    ((withLive 60 decided1).lane .A).order = 0 :: [] ∧ (withLive 60 decided1).board 0 = some decided1 ∧
    decided1.state = .decided ∧ decided1.verdict = some .scrap ∧
    (withLive 60 decided1).presentation .A = some (1#8, .scrap) ∧
    ((withLive 60 board1).lane .A).order = 0 :: [] ∧ (withLive 60 board1).board 0 = some board1 ∧
    board1.state ≠ .decided := by decide +kernel

theorem test_witness_ReadRequestsReport :
    (∀ p, State.reset.open_ p) ∧ (withLive 60 decided1).open_ .gtc ∧
    Lane.all[(1#8).toNat]? = some .B ∧ State.reset.presentation .A = none ∧
    ((withLive 60 decided1).lane .A).order = 0 :: [] ∧
    (withLive 60 decided1).board 0 = some decided1 ∧ decided1.state = .decided ∧
    decided1.verdict = some .scrap ∧ (15#8).toNat = (15 : RecipeId).val ∧
    (127#8).toNat = (127 : LineId).val ∧ HeadId.all[(3#8).toNat]? = some .h3 ∧
    Channel.all[(1#8).toNat]? = some .summary :=
  ⟨open_reset, open_reset .gtc, by decide +kernel⟩

theorem test_witness_MapAndEntryAppliedOrHeld_passes :
    (⟨map1, 16⟩ : TunnelArgs).Passes ∧ entry1.Passes := by
  refine ⟨⟨by decide, ?_, by decide, by decide, by decide, ?_, by decide, ?_⟩,
    ⟨?_, ?_, ?_, by decide⟩⟩
  · intro n; cases n <;> decide
  · intro _ n hn; cases n <;> revert hn <;> decide
  · intro _ n hn; cases n <;> revert hn <;> decide
  · intro n; cases n <;> decide
  · intro n; cases n <;> decide
  · intro n; cases n <;> decide

theorem test_witness_MapAndEntryAppliedOrHeld :
    State.reset.open_ .sta ∧ (withLive 60 board1).open_ .sta ∧
    ¬(⟨map1, 17⟩ : TunnelArgs).Passes ∧ ¬({ entry1 with reworkLimit := 256 } : DirEntry).Passes ∧
    (State.reset.lane .A).order = [] ∧ ((withLive 60 board1).lane .A).order ≠ [] ∧
    (State.reset.dir 0).useCount = 0 ∧ 0 < ((withLive 60 board1).dir 0).useCount := by
  refine ⟨open_reset .sta, open_reset .sta, ?_, ?_, by decide +kernel⟩
  · intro h; exact absurd h.defaultRecipe (by decide)
  · intro h; exact absurd h.limits (by decide)

theorem test_witness_ProgramMemoryRequests :
    (∀ p, State.reset.open_ p) ∧ (15#8).toNat = (15 : RegionId).val ∧
    ¬(60 % 64 + 5 ≤ 64) ∧ (16777152 ≤ 16777215 ∧ 1 ≤ 64 ∧ 64 ≤ 64 ∧ 16777152 % 64 + 64 ≤ 64) ∧
    (State.reset.regionAt 16777152).headRead = false ∧
    (({ State.reset with regions := Vector.replicate 16 ⟨false, true, false⟩ } : State).regionAt 0).headRead =
      true ∧
    (({ State.reset with regions := Vector.replicate 16 ⟨false, true, false⟩ } : State).regionAt
      0).stationWrite = false ∧
    ((withLive 60 board1).regionAt 15).stationWrite = true :=
  ⟨open_reset, by decide +kernel⟩

theorem test_witness_ProgramMemoryRequests_used :
    (∃ (k : RecipeId) (h : HeadId) (b : Nat), ((withLive 60 board1).dir k).entry.valid = true ∧
      0 < ((withLive 60 board1).dir k).useCount ∧ 15 ≤ b ∧ b < 16 ∧
      ((withLive 60 board1).dir k).entry.listBase.get h ≤ b ∧
      b < ((withLive 60 board1).dir k).entry.listBase.get h +
        8 * ((withLive 60 board1).dir k).entry.listLength.get h) ∧
    ¬∃ (k : RecipeId) (h : HeadId) (b : Nat), (State.reset.dir k).entry.valid = true ∧
      0 < (State.reset.dir k).useCount ∧ 15 ≤ b ∧ b < 16 ∧
      (State.reset.dir k).entry.listBase.get h ≤ b ∧
      b < (State.reset.dir k).entry.listBase.get h + 8 * (State.reset.dir k).entry.listLength.get h := by
  refine ⟨⟨0, .h0, 15, by decide +kernel⟩, ?_⟩
  rintro ⟨k, h, b, hv, _⟩
  have : ∀ k, (State.reset.dir k).entry.valid = false := by decide +kernel
  rw [this k] at hv; cases hv

/-- An idle arbiter with nothing waiting; one with an operation in flight, its STA port not pending; and one with
a request waiting. -/
theorem test_witness_ProgramMemoryRequests_idle :
    (∀ s ∈ [headReads, withLive 60 board1], s.arbiter.op = none ∧ s.cache.fill = none ∧
      (∀ c, s.waits c = false) ∧ (MemPort.hl .h0).port = .hl .h0 ∧ MemPort.sta.port = .sta) ∧
    (∀ q, headReads.portOp q = none) ∧ (∀ q, (withLive 60 board1).portOp q = none) ∧
    (∀ p, headReads.open_ p) ∧ ({ headReads with arbiter := writing.arbiter } : State).arbiter.op ≠ none ∧
    (moveWaits true).waits .defect = true := by
  refine ⟨?_, fun q => ?_, fun q => ?_, fun p => open_reset p, by decide +kernel⟩
  · intro s hs
    rcases List.mem_pair.1 hs with rfl | rfl <;>
      exact ⟨rfl, rfl, fun c => by cases c <;> rfl, rfl, rfl⟩
  · cases q with
    | sta => rfl
    | hl n => cases n <;> rfl
  · cases q with
    | sta => rfl
    | hl n => cases n <;> rfl

/-- The cache in isolation state `x`. -/
def isolation (x : Isolation) : State :=
  { State.reset with cache := { Cache.reset with isolation := x } }

theorem test_witness_IsolationAndInvalidation :
    (∀ x, (isolation x).open_ .sta) ∧ (filling 0).open_ .sta ∧
    (isolation .isolated).cache.isolation = .isolated ∧ State.reset.cache.isolation = .normal ∧
    State.reset.merge.item = none ∧ State.reset.cache.fill = none ∧ (filling 0).merge.item ≠ none ∧
    (filling 0).cache.isolation = .normal ∧ (127#8).toNat = (127 : LineId).val ∧
    (127#8).toNat < 128 ∧ (255#8).toNat = 255 :=
  ⟨fun _ => rfl, open_reset .sta, by decide +kernel⟩

theorem test_witness_CacheReleaseEndsIsolation :
    (.lnc : Port) ≠ .sta ∧ State.reset.open_ .lnc ∧ (∀ x, (isolation x).open_ .sta) ∧
    (isolation .isolated).cache.isolation = .isolated ∧ (isolation .isolated).merge.item = none ∧
    State.reset.cache.isolation = .normal ∧ (pendingSta.port .sta).pending = some .cacheIsolate :=
  ⟨by decide +kernel, open_reset .lnc, fun _ => rfl, by decide +kernel⟩

/-- Head 0's trigger queue with the trigger of `board1`. -/
def triggered1 : State :=
  { withLive 60 board1 with
    links := ⟨⟨[⟨1#8, .A, 0, none, 0#24, 0, 2⟩], [], 8⟩, Link.reset, Link.reset, Link.reset⟩ }

theorem test_witness_HeadRequests :
    State.reset.open_ (.hl .h0) ∧ (State.reset.link .h0).triggers = [] ∧
    triggered1.open_ (.hl .h0) ∧
    (triggered1.link .h0).triggers = ⟨1#8, .A, 0, none, 0#24, 0, 2⟩ :: [] ∧
    triggered1.slotOfTag 1#8 = some 0 ∧ triggered1.board 0 = some board1 ∧
    ([] : List RawItem).length < 1 ∧ 8 < (List.replicate 9 (RawItem.done 1#8)).length ∧
    1 ≤ [RawItem.done 1#8].length ∧ (List.replicate 8 (RawItem.done 1#8)).length ≤ 8 ∧
    HeadId.all[(3#8).toNat]? = some .h3 ∧ 0 < 1 ∧ 63 < 64 ∧ 63 ≤ 63 :=
  ⟨open_reset _, by decide +kernel, open_reset _, by decide +kernel⟩

theorem test_witness_HeadRequests_items :
    (∃ x ∈ [RawItem.result 1#8 4096 0 none 0#16], ∀ y, ¬x.standsFor y) ∧
    List.Forall₂ RawItem.standsFor [.result 1#8 4095 2 (some 8) 9#16, .done 1#8, .abort 1#8 3#8]
      [.result 1#8 4095#12 .defect (some .other) 9#16, .done 1#8, .abort 1#8 3#8] := by
  refine ⟨⟨_, List.mem_singleton.mpr rfl, ?_⟩, ?_⟩
  · intro y h
    cases y with
    | result u k g d w => have := k.isLt; simp only [RawItem.standsFor] at h; omega
    | done u => exact h
    | abort u z => exact h
  · refine .cons ?_ (.cons rfl (.cons ⟨rfl, rfl⟩ .nil))
    simp only [RawItem.standsFor]; decide

theorem test_witness_HeadFlushEmptiesTheLink :
    State.reset.open_ .sta ∧ HeadId.all[(0#8).toNat]? = some .h0 := ⟨open_reset .sta, by decide⟩

/-- The DEFECT channel with an occupancy of 3. -/
def occupied3 (held : Option Ring) : State :=
  { State.reset with
    channels := ⟨{ channel1 with producer := 3#17, held := held }, ChannelReg.reset⟩
    regions := Vector.replicate 16 ⟨true, false, true⟩ }

theorem test_witness_RingIsAppliedOrHeld :
    State.reset.open_ .sta ∧ (∀ h, (occupied3 h).open_ .sta) ∧
    Channel.all[(0#8).toNat]? = some .defect ∧
    (16 = 2 ^ 4 ∧ 65536 = 2 ^ 16) ∧ 1048576 % 64 = 0 ∧ 1048576 + 32 * 16 ≤ 16777216 ∧
    (State.reset.channel .defect).state = .disabled ∧
    ((occupied3 none).channel .defect).state = .running ∧
    ((occupied3 none).channel .defect).occupancy = 3 ∧
    (∀ k : RegionId, (occupied3 none).regions[k].moveWrite = true) ∧
    (∀ k : RegionId, State.reset.regions[k].moveWrite = false) :=
  ⟨open_reset .sta, fun _ => rfl, by decide +kernel⟩

theorem test_witness_RingIsAppliedOrHeld_drop :
    State.reset.board 0 = none ∧
    lastDefect.board 0 = some { live .leaving .complete .complete [] with outstanding := 1 } ∧
    (moving (some 0)).board 0 = some { live .inspecting .reporting .complete [] with outstanding := 1 } := by
  decide +kernel

/-- A ring of size 0 drops the Defect Pool: the LEAVING board's only outstanding defect goes, and with the
SUMMARY channel running the board is ready for its summary. -/
theorem test_ring_of_size_zero_drops_the_pool :
    after (.ringSet .sta 0#8 (some ⟨0, 0, none⟩)) { lastDefect with
        channels := ⟨channel1, channel1⟩ }
      (fun t => (t.defects, (t.board 0).map (·.outstanding), t.summaryReady,
        (t.channel .defect).state)) = some ([], some 0, [0], .disabled) := by decide +kernel

theorem test_witness_LogIsConsumedInBounds :
    State.reset.open_ .sta ∧ (∀ h, (occupied3 h).open_ .sta) ∧
    Channel.all[(1#8).toNat]? = some .summary ∧ 131071 < 131072 ∧ 131071 ≤ 131071 ∧
    (State.reset.channel .summary).state = .disabled ∧
    ((occupied3 none).channel .defect).state ≠ .disabled ∧
    ((occupied3 none).channel .defect).occupancy <
      (BitVec.ofNat 17 4 - ((occupied3 none).channel .defect).consumer).toNat ∧
    (BitVec.ofNat 17 3 - ((occupied3 none).channel .defect).consumer).toNat ≤
      ((occupied3 none).channel .defect).occupancy ∧
    ((occupied3 (some ⟨0, 0, .low⟩)).channel .defect).held = some ⟨0, 0, .low⟩ ∧
    (((occupied3 none).channel .defect).producer - BitVec.ofNat 17 3).toNat = 0 ∧
    (((occupied3 none).channel .defect).producer - BitVec.ofNat 17 2).toNat ≠ 0 ∧
    ((occupied3 none).channel .defect).held = none ∧
    ((occupied3 none).channel .defect).inFlight = false ∧ 0 < 1 ∧ 255 < 256 ∧ 255 ≤ 255 :=
  ⟨open_reset .sta, fun _ => rfl, by decide +kernel⟩

/-- Watch 0 with a status, read or not. -/
def watched (seen : Bool) : State :=
  { State.reset with
    watches := ⟨{ Watch.reset with status := some ⟨5#16, 1#8, 7#12⟩, seen := seen }, Watch.reset⟩ }

theorem test_witness_WatchesAreSetReadAndCleared :
    (∀ b, (watched b).open_ .sta) ∧ 2 ≤ (2#8).toNat ∧ WatchId.all[(1#8).toNat]? = some .w1 ∧
    ((watched true).watch .w1).status = none ∧ ((watched true).watch .w0).status ≠ none ∧
    ((watched true).watch .w0).seen = true ∧ ((watched false).watch .w0).seen = false ∧
    ((⟨true, some 15, some 4095, some 8, some 2⟩ : WatchArgs).recipe.all fun v => decide (v < 16)) =
      true ∧ ¬(16 < 16) :=
  ⟨fun _ => rfl, by decide +kernel⟩

theorem test_witness_StepKeeps :
    State.reset.memoryWf = true ∧ State.reset.DistinctTags ∧ State.reset.Capacity ∧
    State.reset.RingsBounded ∧ State.reset.grantDue = false ∧ step State.reset = .next State.reset ∧
    ∀ l cs, State.reset.pending ≠ .entryLeadingEdge l :: cs := by
  refine ⟨by decide +kernel, ?_, ?_, ?_, by decide +kernel, rfl, ?_⟩
  · intro i j r x h
    have : ∀ i, State.reset.board i = none := by decide +kernel
    rw [this i] at h; cases h
  · constructor
    · intro l; cases l <;> decide
    · intro n; cases n <;> decide
    · intro n; cases n <;> decide
    · decide
    · decide
    · decide
  · intro c
    cases c <;> exact ⟨by decide, fun h => absurd rfl h, by decide, fun r h => nomatch h⟩
  · intro l cs h; exact nomatch h

theorem test_witness_BoardIdentityNeverChanges :
    (withLive 60 board1).board 0 = some board1 ∧ (withLive 60 board1).pending = [] ∧
    step (withLive 60 board1) = .next (withLive 60 board1) := ⟨by decide +kernel, rfl, rfl⟩

end Sys2Proof.Tests
end

section
/-! Proofs of the statements about the board table (01_the_board_table.md). -/

namespace Sys2Proof.Machine

open Sys2Proof

/-! ### What one step is -/

/-- A step idles, or runs the command at the front of the queue with the queue's rest. -/
theorem step_cases {s t : State} (h : step s = .next t) :
    t = s ∨ ∃ c cs, s.pending = c :: cs ∧ exec c { s with pending := cs } = .next t := by
  unfold step at h
  split at h
  · exact .inl (Host.Outcome.next.inj h).symm
  · rename_i c cs hp
    exact .inr ⟨c, cs, hp, h⟩

theorem exec_distinct {c : Instr} {s t : State} (h : exec c s = .next t) (hs : s.DistinctTags) :
    t.DistinctTags := by
  by_cases hc : ∃ l, c = .entryLeadingEdge l
  · obtain ⟨l, rfl⟩ := hc
    have ht : s.thenGrant (s.entryLeading l) = t := Host.Outcome.next.inj h
    exact ht ▸ (keeps_thenGrant s _).follows.distinct (entryLeading_distinct s l hs)
  · exact (exec_keeps c s t (fun l e => hc ⟨l, e⟩) h).follows.distinct hs

/-- Settles O59: an entry edge gives its board a tag no live record carries, and every other command keeps
the identity of each board. -/
theorem stepKeepsTagsDistinct : Obligations.StepKeepsTagsDistinct := by
  intro s t h hs
  rcases step_cases h with rfl | ⟨c, cs, -, he⟩
  · exact hs
  · exact exec_distinct he hs

/-- Settles O60: every command but an entry leading edge keeps the identity of each board it leaves live. -/
theorem boardIdentityNeverChanges : Obligations.BoardIdentityNeverChanges := by
  intro s t hne h
  rcases step_cases h with rfl | ⟨c, cs, hp, he⟩
  · exact Follows.refl t
  · have hc : ∀ l, c ≠ .entryLeadingEdge l := by
      rintro l rfl
      exact hne l cs hp
    exact (exec_keeps c _ t hc he).follows

/-! ### The state after reset -/

/-- Settles O4. -/
theorem resetMeetsWhatStepsKeep : Obligations.ResetMeetsWhatStepsKeep := by
  refine ⟨rfl, reset_capacity, ?distinct, ?rings, ?grant⟩
  case distinct =>
    intro i j r x hr
    rw [reset_board] at hr
    exact nomatch hr
  case rings => intro c; cases c <;> exact reset_bounded
  case grant => rfl

/-! ### The next tag and the new record -/

/-- The search stops at the first candidate that no live record carries. -/
theorem nextTag_eq {s : State} {k : Nat} (hk : k < 24)
    (hfree : s.slotOfTag (s.tagCounter + BitVec.ofNat 8 (k + 1)) = none)
    (htaken : ∀ m, m < k → s.slotOfTag (s.tagCounter + BitVec.ofNat 8 (m + 1)) ≠ none) :
    s.nextTag = s.tagCounter + BitVec.ofNat 8 (k + 1) := by
  have hfind : (List.range 24).find? ((fun t => (s.slotOfTag t).isNone) ∘
      fun k => s.tagCounter + BitVec.ofNat 8 (k + 1)) = some k := by
    rw [List.find?_range_eq_some]
    refine ⟨by simp [hfree], List.mem_range.2 hk, fun m hm => ?_⟩
    simpa [Option.isSome_iff_ne_none] using htaken m hm
  unfold State.nextTag
  rw [List.find?_map, hfind]
  rfl

/-- Settles O17: the least `k` whose candidate is free is the one the search finds. -/
theorem nextTagIsTheFirstFreeOne : Obligations.NextTagIsTheFirstFreeOne := by
  intro s i hi
  classical
  obtain ⟨hk, hfree⟩ := Nat.find_spec (free_candidate hi)
  have hleast (m : Nat) (hm : m < Nat.find (free_candidate hi)) :
      s.slotOfTag (s.tagCounter + BitVec.ofNat 8 (m + 1)) ≠ none :=
    fun e => Nat.find_min (free_candidate hi) hm ⟨hm.trans hk, e⟩
  refine ⟨_, hk, nextTag_eq hk hfree hleast,
    (slotOfTag_eq_none s s.nextTag).1 (nextTag_fresh hi), fun m hm => ?_⟩
  obtain ⟨j, hj⟩ := Option.ne_none_iff_exists'.1 (hleast m hm)
  obtain ⟨r, hr, ht⟩ := board_of_slotOfTag hj
  exact ⟨j, r, hr, ht⟩

@[simp] theorem newRecord_heads (s : State) (l : Lane) (n : HeadId) :
    (s.newRecord l).heads.get n =
      initialHead (s.lane l).map (s.resolve (s.lane l).nextRecipe) n := by
  cases n <;> rfl

@[simp] theorem newRecord_headStatus (s : State) (l : Lane) (n : HeadId) :
    (s.newRecord l).headStatus n =
      initialStatus (s.lane l).map (s.resolve (s.lane l).nextRecipe) n := by
  cases n <;> rfl

/-- UNANNOUNCED marks a board that no announcement waited for (R10). -/
theorem unannounced_mem_newRecord (s : State) (l : Lane) :
    .unannounced ∈ (s.newRecord l).flags ↔ (s.lane l).announces = [] := by
  cases h : (s.lane l).announces <;> simp [State.newRecord, h]

/-- NO_RECIPE marks a board whose recipe has no entry in force (R11). -/
theorem noRecipe_mem_newRecord (s : State) (l : Lane) :
    .noRecipe ∈ (s.newRecord l).flags ↔ s.resolve (s.lane l).nextRecipe = none := by
  cases h : (s.lane l).announces <;> simp [State.newRecord, h]

theorem newRecord_flag {s : State} {l : Lane} {f : BoardFlag} (h : f ∈ (s.newRecord l).flags) :
    f = .unannounced ∨ f = .noRecipe := by
  simp only [State.newRecord, List.mem_append, List.mem_ite_nil_right, List.mem_singleton] at h
  exact h.imp And.right And.right

/-- The entry in force is that of a valid recipe (R11). -/
theorem resolve_eq_none {s : State} {recipe : Option RecipeId} :
    s.resolve recipe = none ↔ ∀ k, recipe = some k → (s.dir k).entry.valid = false := by
  cases recipe <;> simp [State.resolve]

theorem resolve_eq_some_entry {s : State} {k : RecipeId} (h : s.resolve (some k) ≠ none) :
    s.resolve (some k) = some (s.dir k).entry := by
  simp only [State.resolve, Option.bind_some] at h ⊢
  split
  · rfl
  · rename_i hv; exact absurd (if_neg hv) h

/-- The statuses of the heads of a new board, by the entry in force (R11). -/
theorem initialStatus_some (m : TunnelMap) (d : DirEntry) (n : HeadId) :
    initialStatus m (some d) n =
      if d.listLength.get n = 0 then .notRequired
      else if n ∈ m.headServes then .waiting else .absent := by
  simp [initialStatus]

theorem HeadId.mem_all (n : HeadId) : n ∈ HeadId.all := by cases n <;> decide

/-- The armed events of a new board (R13). -/
theorem mem_initialArmed (m : TunnelMap) (d : Option DirEntry) (p : Pos) (e : Armed) :
    e ∈ initialArmed m d p ↔
      e = ⟨.lengthLimit, p + BitVec.ofNat 24 m.maxLength⟩ ∨
      e = ⟨.deadline, p + BitVec.ofNat 24 m.gateOffset - BitVec.ofNat 24 m.decisionMargin⟩ ∨
      e = ⟨.exitDue, p + BitVec.ofNat 24 m.gateOffset + BitVec.ofNat 24 m.exitTolerance⟩ ∨
      ∃ n, initialStatus m d n = .waiting ∧
        e = ⟨.headOpen n, p + BitVec.ofNat 24 (m.headOpenOffset.get n)⟩ := by
  simp only [initialArmed, pos, List.mem_append, List.mem_map, List.mem_filter,
    HeadId.mem_all, true_and, decide_eq_true_eq, List.mem_cons, List.not_mem_nil, or_false,
    eq_comm (b := e)]
  exact or_assoc.trans (or_congr_right (or_comm.trans or_assoc))

/-- Settles O18: the fields are those written by `State.newRecord`; the flags, statuses and armed events are
what the lemmas above say. -/
theorem newRecordFields : Obligations.NewRecordFields := by
  intro s l
  dsimp only
  refine ⟨rfl, rfl, rfl, rfl, rfl, rfl, rfl, rfl, rfl, rfl, ?announced, ?unannounced,
    fun f => newRecord_flag, ?noRecipe, ?heads, ?armed⟩
  case announced =>
    intro a rest h
    rw [unannounced_mem_newRecord]
    simp [State.newRecord, LaneState.nextRecipe, h]
  case unannounced =>
    intro h
    rw [unannounced_mem_newRecord]
    simp [State.newRecord, LaneState.nextRecipe, h]
  case noRecipe => exact (noRecipe_mem_newRecord s l).trans resolve_eq_none
  case heads =>
    intro n
    rw [newRecord_heads, newRecord_headStatus, noRecipe_mem_newRecord]
    refine ⟨rfl, rfl, rfl, fun h => by rw [h]; rfl, fun k hk hn => ?_⟩
    replace hk : (s.lane l).nextRecipe = some k := hk
    rw [hk] at hn ⊢
    rw [resolve_eq_some_entry hn, initialStatus_some]
  case armed =>
    intro e
    simp only [newRecord_headStatus]
    exact mem_initialArmed _ _ _ e

/-! ### The entry leading edge -/

/-- The slot taken is the lowest FREE one (R10). -/
theorem freeSlot_eq_some {s : State} {i : Slot} (hi : s.board i = none)
    (hlow : ∀ j, j < i → s.board j ≠ none) : s.freeSlot = some i := by
  unfold State.freeSlot Slot.all
  rw [List.find?_eq_some_iff_getElem]
  refine ⟨by simp [hi], i.val, by simp, by simp, fun j hj => ?_⟩
  simpa [Option.isSome_iff_ne_none] using hlow ⟨j, hj.trans i.isLt⟩ hj

theorem freeSlot_eq_none {s : State} (h : ∀ i, s.board i ≠ none) : s.freeSlot = none := by
  unfold State.freeSlot
  rw [List.find?_eq_none]
  intro i _
  simpa [Option.isSome_iff_ne_none] using h i

/-- An entry edge that is acted on with a FREE slot creates the record there (R10). -/
theorem entryLeading_creates {s : State} {l : Lane} {i : Slot} (hen : (s.lane l).map.enable = true)
    (hrd : (s.lane l).entry = .ready) (hi : s.freeSlot = some i) :
    s.entryLeading l = ((s.created l i).countUse (s.newRecord l)).dueAtArming i fun _ => true := by
  unfold State.entryLeading
  rw [if_pos ⟨hen, hrd⟩, hi]
  rfl

theorem countUse_noRecipe {s : State} {r : Record} (h : .noRecipe ∈ r.flags) :
    s.countUse r = s := by
  unfold State.countUse
  rw [if_pos (by simpa [Record.has] using h)]

theorem countUse_counted {s : State} {r : Record} {k : RecipeId} (h : .noRecipe ∉ r.flags)
    (hk : r.recipe = some k) :
    s.countUse r = s.setDir k { s.dir k with useCount := (s.dir k).useCount + 1 } := by
  unfold State.countUse
  rw [if_neg (by simpa [Record.has] using h), hk]

/-- The state in which a record has been created in slot `i` and not yet counted, as O19 writes it. -/
theorem created_eq (s : State) (l : Lane) (i : Slot) :
    s.created l i = { s with
      slots := s.slots.set i (some (s.newRecord l))
      tagCounter := s.nextTag
      lanes := s.lanes.set l { s.lane l with
        order := (s.lane l).order ++ [i]
        announces := (s.lane l).announces.drop 1
        entry := .covered } } := by
  rw [List.drop_one]
  rfl

/-- Settles O19: the edge finds slot `i`, creates the record there and counts it where it has a recipe. -/
theorem entryEdgeCreatesARecord : Obligations.EntryEdgeCreatesARecord := by
  intro s l i hen hrd hi hlow
  have hexec : exec (.entryLeadingEdge l) s = .next (s.thenGrant
      (((s.created l i).countUse (s.newRecord l)).dueAtArming i fun _ => true)) := by
    rw [← entryLeading_creates hen hrd (freeSlot_eq_some hi hlow)]
    rfl
  rw [created_eq] at hexec
  refine ⟨fun k hk hn => ?counted, fun hn => ?uncounted⟩
  case counted =>
    rw [hexec, countUse_counted hn hk]
    rfl
  case uncounted => rw [hexec, countUse_noRecipe hn]

/-- A fault recorded asks the arbiter for nothing. -/
theorem AsksNothing.recordFault (s : State) (f : FaultRec) : AsksNothing s (s.recordFault f) := by
  unfold State.recordFault
  split <;> exact .same rfl rfl rfl rfl

theorem AsksNothing.setLane (s : State) (l : Lane) (x : LaneState) : AsksNothing s (s.setLane l x) :=
  .same rfl rfl rfl rfl

theorem leavingCount_eq (s : State) : s.leavingCount = (List.finRange 24).countP fun i =>
    decide ((s.board i).map (·.state) = some .leaving) := by
  unfold State.leavingCount Slot.all
  congr 1
  funext i
  cases s.board i <;> simp

/-- An entry edge that is acted on with every slot live is an overrun, which asks for nothing (R14). -/
theorem thenGrant_entryOverrun {s : State} {l : Lane} (hen : (s.lane l).map.enable = true)
    (hrd : (s.lane l).entry = .ready) (hfull : ∀ i, s.board i ≠ none) :
    s.thenGrant (s.entryLeading l) = s.entryOverrun l := by
  have h : s.entryLeading l = s.entryOverrun l := by
    unfold State.entryLeading
    rw [if_pos ⟨hen, hrd⟩, freeSlot_eq_none hfull]
  rw [h]
  exact ((AsksNothing.setLane s l _).trans (.recordFault _ _)).thenGrant

/-- Settles O20: the branches of the two entry edges that create and withdraw nothing. -/
theorem entryEdgeThatCreatesNothing : Obligations.EntryEdgeThatCreatesNothing := by
  intro s l
  refine ⟨fun hen hrd hfull => ?overrun, fun h => ?ignored, fun h => ?idle, fun hen hun => ?ends⟩
  case overrun =>
    show Host.Outcome.next (s.thenGrant (s.entryLeading l)) = _
    rw [thenGrant_entryOverrun hen hrd hfull, ← leavingCount_eq]
    rfl
  case ignored =>
    have hs : s.entryLeading l = s := by
      unfold State.entryLeading
      exact if_neg fun ⟨hen, hrd⟩ => h.elim (fun e => absurd hen (by simp [e])) (absurd hrd)
    show Host.Outcome.next (s.thenGrant (s.entryLeading l)) = _
    rw [hs, thenGrant_self]
  case idle =>
    have hs : s.entryTrailing l = s := by
      unfold State.entryTrailing
      rcases h with h | h <;> simp [h]
    show Host.Outcome.next (s.thenGrant (s.entryTrailing l)) = _
    rw [hs, thenGrant_self]
  case ends =>
    have hs : s.entryTrailing l = s.setEntry l .ready := by
      unfold State.entryTrailing
      rw [if_pos hen, hun]
    show Host.Outcome.next (s.thenGrant (s.entryTrailing l)) = _
    rw [hs, State.setEntry, (AsksNothing.setLane s l _).thenGrant]
    rfl

/-! ### The entry trailing edge -/

theorem covering_eq {s : State} {l : Lane} {i : Slot} {r : Record}
    (hlast : (s.lane l).order.getLast? = some i) (hr : s.board i = some r)
    (hst : r.state = .entering) : s.covering l = some (i, r) := by
  unfold State.covering
  simp [hlast, hr, hst]

theorem entryTrailing_covered {s : State} {l : Lane} {i : Slot} {r : Record}
    (hen : (s.lane l).map.enable = true) (hcov : (s.lane l).entry = .covered)
    (hc : s.covering l = some (i, r)) :
    s.entryTrailing l =
      if ((s.lane l).counter - r.entryPos).toNat < (s.lane l).map.minLength then
        s.withdraw l i r ((s.lane l).counter - r.entryPos).toNat
      else s.accept l i ((s.lane l).counter - r.entryPos).toNat := by
  unfold State.entryTrailing
  rw [if_pos hen, hcov]
  dsimp only
  rw [hc]

theorem dropTriggers_eq (s : State) (t : Tag) :
    s.dropTriggers t = { s with
      links := ⟨(s.link .h0).without t, (s.link .h1).without t, (s.link .h2).without t,
        (s.link .h3).without t⟩ } := rfl

/-- The announcement of a withdrawn record goes back unless the board was unannounced or the queue is full
(R16). -/
theorem reannounce_eq (x : LaneState) (r : Record) :
    x.reannounce r = { x with
      announces := match r.recipe with
        | some k =>
          if .unannounced ∉ r.flags ∧ x.announces.length < 4 then ⟨k, r.serial⟩ :: x.announces
          else x.announces
        | none => x.announces } := by
  unfold LaneState.reannounce
  cases r.recipe with
  | none => rfl
  | some k =>
    dsimp only
    by_cases hu : .unannounced ∈ r.flags
    · rw [if_pos (.inl (by simpa [Record.has] using hu)), if_neg fun h => h.1 hu]
    · by_cases hl : x.announces.length < 4
      · rw [if_pos (c := _ ∧ _) ⟨hu, hl⟩, if_neg]
        simpa [Record.has, hu, Config.announceCapacity] using hl
      · rw [if_neg (c := _ ∧ _) fun h => hl h.2, if_pos (.inr (Nat.le_of_not_lt hl))]

/-- What a withdrawal leaves, its recipe let go last: letting go touches nothing else it writes. -/
theorem withdraw_eq (s : State) (l : Lane) (i : Slot) (r : Record) (n : Nat) :
    s.withdraw l i r n = State.applyHeldMap
      (State.recordFault
        (State.release
          { s with
            slots := s.slots.set i none
            links := ⟨(s.link .h0).without r.tag, (s.link .h1).without r.tag,
              (s.link .h2).without r.tag, (s.link .h3).without r.tag⟩
            lanes := s.lanes.set l { (s.lane l).reannounce r with
              order := setErase i ((s.lane l).reannounce r).order
              entry := .ready } } r)
        { cause := .sensorGlitch, source := .boardTable, lane := some l, tag := some r.tag,
          slot := some i, position := some (s.lane l).counter, detail := holdAt16 n }) l := by
  have hfirst := release_only s r s.slots s.tagCounter s.lanes
    ⟨(s.link .h0).without r.tag, (s.link .h1).without r.tag, (s.link .h2).without r.tag,
      (s.link .h3).without r.tag⟩
  have hlast := release_only s r (s.slots.set i none) s.tagCounter
    (s.lanes.set l { (s.lane l).reannounce r with
      order := setErase i ((s.lane l).reannounce r).order, entry := .ready })
    ⟨(s.link .h0).without r.tag, (s.link .h1).without r.tag, (s.link .h2).without r.tag,
      (s.link .h3).without r.tag⟩
  unfold State.withdraw
  rw [dropTriggers_eq, hfirst, hlast]
  rfl

theorem AsksNothing.release (s : State) (r : Record) : AsksNothing s (s.release r) := by
  obtain ⟨d, a, h⟩ := release_parts s r
  rw [h]
  exact .same rfl rfl rfl rfl

theorem AsksNothing.applyHeldMap (s : State) (l : Lane) : AsksNothing s (s.applyHeldMap l) := by
  unfold State.applyHeldMap
  split
  · split
    · exact .same rfl rfl rfl rfl
    · exact .refl s
  · exact .refl s

theorem AsksNothing.withdraw (s : State) (l : Lane) (i : Slot) (r : Record) (n : Nat) :
    AsksNothing s (s.withdraw l i r n) := by
  rw [withdraw_eq]
  refine AsksNothing.trans ?_ (.applyHeldMap _ l)
  refine AsksNothing.trans ?_ (.recordFault _ _)
  refine AsksNothing.trans ?_ (.release _ r)
  exact .same rfl rfl rfl rfl

/-- Settles O21: the covering record is too short, and its withdrawal asks the arbiter for nothing. -/
theorem shortBoardIsWithdrawn : Obligations.ShortBoardIsWithdrawn := by
  intro s l i r hen hcov hlast hr hst hshort
  have htrail := entryTrailing_covered hen hcov (covering_eq hlast hr hst)
  rw [if_pos hshort] at htrail
  show Host.Outcome.next (s.thenGrant (s.entryTrailing l)) = _
  rw [htrail, (AsksNothing.withdraw s l i r _).thenGrant, withdraw_eq, reannounce_eq]
  rfl

/-- Settles O22: the record takes its length and its lane is READY before the close check. -/
theorem longEnoughBoardIsAccepted : Obligations.LongEnoughBoardIsAccepted := by
  intro s l i r hen hcov hlast hr hl hst hlong
  have htrail := entryTrailing_covered hen hcov (covering_eq hlast hr hst)
  rw [if_neg (Nat.not_lt.2 hlong), State.accept, acceptLength_eq hr, hl] at htrail
  show Host.Outcome.next (s.thenGrant (s.entryTrailing l)) = _
  rw [htrail]
  rfl

/-! ### LENGTH_LIMIT -/

/-- Taking a length disarms LENGTH_LIMIT, so disarming it before changes nothing. -/
theorem disarm_accepted (r : Record) (m : TunnelMap) (n : Nat) :
    (r.disarm .lengthLimit).accepted m n = r.accepted m n := by
  simp only [Record.accepted, Record.disarm, List.filter_filter, Bool.and_self]
  rfl

theorem board_setBoard_self (s : State) (i : Slot) (r : Option Record) :
    (s.setBoard i r).board i = r := by simp

/-- Settles O24: the event is taken, and its owner accepts the board at max_length. -/
theorem lengthLimitMakesOverlength : Obligations.LengthLimitMakesOverlength := by
  intro s i r t hr ht hdue hst
  show Host.Outcome.next (s.thenGrant (s.takeEvent i .lengthLimit (lengthLimitAct i))) = _
  rw [takeEvent_due _ hr ht hdue, lengthLimitAct, if_pos (by exact hst),
    acceptLength_eq (board_setBoard_self _ _ _), disarm_accepted, setBoard_setBoard,
    modBoard_some (board_setBoard_self _ _ _), setBoard_setBoard]
  rfl

/-! ### Requests about a board or a lane -/

section Serving

variable {α β : Type} {s : State} {p : Port} {q : Request} {obj : Option α} {x : α}
  {act : α → β → State → State × Reply}

/-- A permitted request on an open port whose object and payload pass: its effect, then its response. -/
theorem serve_onObject (h : s.open_ p) (hp : permitted p q = true) (ho : obj = some x) (a : β) :
    s.serve p q (onObject obj (some a) act) =
      (act x a s).1.answers p (act x a s).2.status (Request.all.idxOf q + 1)
        (act x a s).2.payload := by
  rw [ho]
  exact serve_answers s p q _ h hp

/-- Such a request whose own checks refuse it changes only the response. -/
theorem serve_refuses {a : β} {st : Status} (h : s.open_ p) (hp : permitted p q = true)
    (ho : obj = some x) (hr : act x a s = refuse st s) :
    s.serve p q (onObject obj (some a) act) = s.answers p st (Request.all.idxOf q + 1) [] := by
  rw [serve_onObject h hp ho, hr]
  rfl

/-- Such a request that takes effect answers DONE over the state `t` it leaves. -/
theorem serve_does {a : β} {t : State} {pl : List Byte} (h : s.open_ p)
    (hp : permitted p q = true) (ho : obj = some x) (hr : act x a s = (t, ⟨.done, pl⟩)) :
    s.serve p q (onObject obj (some a) act) = t.answers p .done (Request.all.idxOf q + 1) pl := by
  rw [serve_onObject h hp ho, hr]

end Serving

theorem finOf_of_lt {n x : Nat} (h : x < n) : finOf n x = some ⟨x, h⟩ := dif_pos h

/-- ANNOUNCE (R7), by its payload's recipe and the room in the queue. -/
theorem announce_badValue {s : State} {l : Lane} {a : AnnounceArgs} (h : 16 ≤ a.recipe) :
    s.announce l a = refuse .badValue s := by
  rw [State.announce, (finOf_none 16 a.recipe).2 h]

theorem announce_full {s : State} {l : Lane} {a : AnnounceArgs} (h : a.recipe < 16)
    (hl : (s.lane l).announces.length = 4) : s.announce l a = refuse .full s := by
  rw [State.announce, finOf_of_lt h]
  exact if_neg (by simp [hl, Config.announceCapacity])

theorem announce_joins {s : State} {l : Lane} {a : AnnounceArgs} (h : a.recipe < 16)
    (hl : (s.lane l).announces.length < 4) :
    s.announce l a = (s.setLane l { s.lane l with
      announces := (s.lane l).announces ++ [⟨Fin.ofNat 16 a.recipe, a.serial⟩] },
      ⟨.done, []⟩) := by
  have hk : Fin.ofNat 16 a.recipe = ⟨a.recipe, h⟩ := Fin.ext (Nat.mod_eq_of_lt h)
  rw [State.announce, finOf_of_lt h, hk]
  exact if_pos hl

theorem entering_iff (s : State) (l : Lane) : s.entering l = true ↔
    ∃ i r, s.board i = some r ∧ r.lane = l ∧ r.state = .entering := by
  simp [State.entering, Slot.all, Option.any_eq_true]

/-- COUNTER_SET (R29), by its value and the boards of the lane. -/
theorem counterSet_badValue {s : State} {l : Lane} {n : Nat} (h : 16777215 < n) :
    s.counterSet l n = refuse .badValue s := by
  rw [State.counterSet, if_pos h]

theorem counterSet_badState {s : State} {l : Lane} {n : Nat} (h : n ≤ 16777215)
    (hb : (s.lane l).order ≠ [] ∨ s.entering l = true) :
    s.counterSet l n = refuse .badState s := by
  rw [State.counterSet, if_neg (Nat.not_lt.2 h), if_pos hb]

theorem counterSet_sets {s : State} {l : Lane} {n : Nat} (h : n ≤ 16777215)
    (hb : ¬((s.lane l).order ≠ [] ∨ s.entering l = true)) :
    s.counterSet l n = (s.setLane l { s.lane l with counter := pos n }, ⟨.done, []⟩) := by
  rw [State.counterSet, if_neg (Nat.not_lt.2 h), if_neg hb]

theorem permitted_lane {p : Port} (h : p = .sta ∨ p = .lnc) :
    permitted p .announce = true ∧ permitted p .lanePurge = true := by
  rcases h with rfl | rfl <;> exact ⟨rfl, rfl⟩

/-- Settles O45: each request passes its port and object checks, and its own checks choose its answer. -/
theorem laneRequests : Obligations.LaneRequests := by
  intro s p o l hopen ho
  refine ⟨fun hp a => ?announce, fun hp => ?purge, fun hp n => ?counter⟩
  case announce =>
    have hperm := (permitted_lane hp).1
    exact ⟨fun h => congrArg _ (serve_refuses hopen hperm ho (announce_badValue h)),
      fun h hl => congrArg _ (serve_refuses hopen hperm ho (announce_full h hl)),
      fun h hl => congrArg _ (serve_does hopen hperm ho (announce_joins h hl))⟩
  case purge => exact congrArg _ (serve_does hopen (permitted_lane hp).2 ho rfl)
  case counter =>
    subst hp
    dsimp only
    rw [← entering_iff]
    exact ⟨fun h => congrArg _ (serve_refuses hopen rfl ho (counterSet_badValue h)),
      fun h hb => congrArg _ (serve_refuses hopen rfl ho (counterSet_badState h hb)),
      fun h hb => congrArg _ (serve_does hopen rfl ho (counterSet_sets h hb))⟩

/-! ### BOARD_READ and FAULT_READ -/

theorem slot_ofObject {o : Byte} {i : Slot} (h : o.toNat = i.val) : Slot.ofObject o = some i := by
  rw [Slot.ofObject, h, finOf_val]

theorem boardPayload_free {s : State} {i : Slot} (h : s.board i = none) :
    s.boardPayload i = [BitVec.ofNat 8 i.val, 0#8] := by
  rw [State.boardPayload, h]
  rfl

theorem boardPayload_live {s : State} {i : Slot} {r : Record} (h : s.board i = some r) :
    s.boardPayload i = encRecord i (s.suspects.filter fun x => decide (x.slot = i)).length
      (s.lane r.lane).counter r := by
  rw [State.boardPayload, h, State.suspectCount, List.countP_eq_length_filter]

/-- A read marks the oldest record as read by its port, and by STA replaces the reported set (R174). -/
theorem readBy_empty {f : FaultUnit} (p : Port) (h : f.queue = []) :
    f.readBy p = { f with reported := if p = .sta then f.overflow else f.reported } := by
  simp [FaultUnit.readBy, h]

theorem readBy_oldest {f : FaultUnit} (p : Port) {x : QueuedFault} {xs : List QueuedFault}
    (h : f.queue = x :: xs) :
    f.readBy p = ⟨⟨x.fault, setInsert Port.all p x.readers⟩ :: xs, f.overflow,
      if p = .sta then f.overflow else f.reported⟩ := by
  simp [FaultUnit.readBy, h]

theorem mem_setInsert_port (p y : Port) (ps : List Port) :
    y ∈ setInsert Port.all p ps ↔ y = p ∨ y ∈ ps := by
  have hall : y ∈ Port.all := by cases y with
    | hl n => cases n <;> decide
    | _ => decide
  simp [setInsert, hall]

theorem exec_faultRead {s : State} {p : Port} (h : s.open_ p) :
    exec (.faultRead p (some ())) s = .next (State.answers { s with faults := s.faults.readBy p } p
      (s.faultRead p).2.status 3 (s.faultRead p).2.payload) :=
  congrArg _ (serve_answers s p .faultRead _ h rfl)

/-- FAULT_READ with no record queued reports the overflow set, or that there is nothing (R174). -/
theorem faultRead_empty {s : State} (p : Port) (h : s.faults.queue = []) :
    (s.faultRead p).2 = ⟨if s.faults.overflow = [] then .empty else .done,
      if s.faults.overflow = [] then [] else [0#8, 1#8, 0#8] ++ encSet Cause.all s.faults.overflow⟩ := by
  unfold State.faultRead
  by_cases ho : s.faults.overflow = []
  · simp [h, ho]
  · simp [h, ho, State.faultPayload, encOpt, encBool, onOffCode, le]

/-- FAULT_READ with a record queued reports the oldest, and whether the port has read it (R174). -/
theorem faultRead_oldest {s : State} (p : Port) {x : QueuedFault} {xs : List QueuedFault}
    (h : s.faults.queue = x :: xs) :
    (s.faultRead p).2 = ⟨.done, [1#8] ++ encFault x.fault ++ [if p ∈ x.readers then 0#8 else 1#8] ++
      [BitVec.ofNat 8 (xs.length + 1)] ++ encSet Cause.all s.faults.overflow⟩ := by
  unfold State.faultRead
  by_cases hp : p ∈ x.readers <;>
    simp [h, hp, State.faultPayload, encOpt, encBool, onOffCode, le]

/-- Settles O39. -/
theorem boardAndFaultReads : Obligations.BoardAndFaultReads := by
  refine ⟨fun s p o i hopen ho => ?board, fun s p hopen => ?fault⟩
  case board =>
    have hread : exec (.boardRead p o (some ())) s =
        .next (s.answers p .done 2 (s.boardPayload i)) :=
      congrArg _ (serve_does hopen rfl (slot_ofObject ho) rfl)
    refine ⟨fun hfree => ?_, fun r hr => ?_⟩
    · rw [hread, boardPayload_free hfree, ← ho, BitVec.ofNat_toNat, BitVec.setWidth_eq]
    · rw [hread, boardPayload_live hr]
  case fault =>
    refine ⟨fun hq => ?_, fun x xs hq => ⟨_, fun y => mem_setInsert_port p y x.readers, ?_⟩⟩
    · rw [exec_faultRead hopen, faultRead_empty p hq, readBy_empty p hq]
    · rw [exec_faultRead hopen, faultRead_oldest p hq, readBy_oldest p hq]

/-! ### POWER_ON_RESET -/

/-- Each byte of memory after an abandoned write is the byte before, or the write's (R51). -/
theorem read_abandonWrite (draw : Nat) : ∀ (bytes : List Byte) {m : List Host.Cell} (a x : Nat),
    Memory.wf m = true →
    Memory.read (abandonWrite draw m a bytes) x = Memory.read m x ∨
      a ≤ x ∧ bytes[x - a]? = some (Memory.read (abandonWrite draw m a bytes) x)
  | [], _, _, _, _ => .inl rfl
  | v :: vs, m, a, x, hm => by
    have hfirst : ∀ m', m' = (if Config.abandonedByteNew draw a then Memory.write m a v else m) →
        Memory.wf m' = true ∧ (Memory.read m' x = Memory.read m x ∨ x = a ∧ Memory.read m' x = v) := by
      rintro _ rfl
      split
      · refine ⟨Memory.wf_write a v hm, ?_⟩
        rw [Memory.read_write (k := 0) v x hm]
        by_cases hx : x = a <;> simp [hx]
      · exact ⟨hm, .inl rfl⟩
    rw [abandonWrite]
    generalize (if Config.abandonedByteNew draw a then Memory.write m a v else m) = m' at hfirst ⊢
    obtain ⟨hm', hold⟩ := hfirst m' rfl
    rcases read_abandonWrite draw vs (a + 1) x hm' with hrest | ⟨hle, hrest⟩
    · rw [hrest]
      rcases hold with hold | ⟨rfl, hnew⟩
      · exact .inl hold
      · exact .inr ⟨Nat.le_refl x, by simp [hnew]⟩
    · refine .inr ⟨by omega, ?_⟩
      rw [show x - a = x - (a + 1) + 1 by omega, List.getElem?_cons_succ]
      exact hrest

/-- Power-on gives the reset state but for memory, the model's count of free values and the queue of
commands; a byte of memory changes only to that of a write in flight (R23, R51). -/
theorem powerOn_eq (s : State) : ∃ m d,
    s.powerOn = { State.reset with mem := m, draws := d, pending := s.pending } ∧
    (Memory.wf s.mem = true → ∀ x, Memory.read m x = Memory.read s.mem x ∨
      ∃ a bytes, s.writeInFlight = some (a, bytes) ∧ a ≤ x ∧
        bytes[x - a]? = some (Memory.read m x)) := by
  unfold State.powerOn
  cases hw : s.writeInFlight with
  | none => exact ⟨_, _, rfl, fun _ _ => .inl rfl⟩
  | some w =>
    obtain ⟨a, bytes⟩ := w
    exact ⟨_, _, rfl, fun hm x => (read_abandonWrite s.draws bytes a x hm).imp_right
      fun ⟨hle, hb⟩ => ⟨a, bytes, rfl, hle, hb⟩⟩

theorem reset_dir (k : RecipeId) : State.reset.dir k = DirState.reset := by
  simp [State.dir, State.reset]

theorem reset_region (k : RegionId) : State.reset.regions[k] = Region.reset := by
  simp [State.reset]

theorem reset_line (k : LineId) : State.reset.line k = CacheLine.reset := by
  simp [State.line, State.reset, Cache.reset]

/-- Settles O3: what `powerOn_eq` leaves of the state after the due events is `State.reset`. -/
theorem powerOnResetGivesResetValues : Obligations.PowerOnResetGivesResetValues := by
  intro s0
  have hframe := FrameButGrants.takeDue s0 [.A, .B]
  obtain ⟨m, d, hreset, hmem⟩ := powerOn_eq (s0.takeDue [.A, .B])
  refine ⟨hframe, _, congrArg Host.Outcome.next hreset, reset_board, rfl,
    fun l => by cases l <;> rfl, reset_dir, reset_region,
    fun k => congrArg CacheLine.valid (reset_line k), rfl, rfl, rfl, PerHead.get_const _, rfl, rfl,
    rfl, rfl, fun c => by cases c <;> rfl, fun w => by cases w <;> rfl, rfl, rfl,
    PerPort.get_const _, PerPort.get_const _, PerOuter.get_const _, hframe.pending,
    fun hwf => ?memory⟩
  case memory =>
    rw [← hframe.mem]
    exact hmem (by rw [hframe.mem]; exact hwf)

/-! ### TRACK_RESET -/

/-- A Head Link with both queues empty and its threshold kept (R75). -/
def Link.emptied (k : Link) : Link := { k with triggers := [], results := [] }

/-- An empty result queue has all 64 slots free (R87). -/
theorem emptied_holdOn (k : Link) : k.emptied.holdOn = decide (64 ≤ k.threshold) := rfl

/-- The masks, enables and soft-source sets of `t` are those of `s`. -/
def SameAlertSettings (s t : State) : Prop :=
  ∀ p, (t.alert p).mask = (s.alert p).mask ∧ (t.alert p).enable = (s.alert p).enable ∧
    (t.alert p).softSources = (s.alert p).softSources

theorem SameAlertSettings.refl (s : State) : SameAlertSettings s s := fun _ => ⟨rfl, rfl, rfl⟩

theorem SameAlertSettings.trans {s t u : State} (h : SameAlertSettings s t)
    (k : SameAlertSettings t u) : SameAlertSettings s u := by
  intro p
  obtain ⟨hm, he, hs⟩ := h p
  obtain ⟨km, ke, ks⟩ := k p
  exact ⟨km.trans hm, ke.trans he, ks.trans hs⟩

theorem SameAlertSettings.raise (s : State) (p : Port) (f : AlertFlag) :
    SameAlertSettings s (s.raise p f) := by
  have h := (Tracks.raise (A := fun _ => True) s p f).frame
  exact fun q => ⟨h.mask q, h.enable q, h.softSources q⟩

/-- Raising a flag on port `p` sets that flag there and none elsewhere (R178). -/
theorem mem_latched_raise (s : State) (p q : Port) (f g : AlertFlag) :
    g ∈ ((s.raise p f).alert q).latched ↔ g ∈ (s.alert q).latched ∨ q = p ∧ g = f := by
  by_cases h : q = p
  · subst h
    rw [mem_raised]
    simp [or_comm]
  · simp [State.raise, h]

/-- Emptying the links `ns` changes links and flags only; QUEUE_RELEASED is raised for each of them whose
hold state goes from ON to OFF (R75, R87). -/
structure LinksEmptied (ns : List HeadId) (s t : State) : Prop where
  rest : ∃ k a, t = { s with links := k, alerts := a }
  link : ∀ n, t.link n = if n ∈ ns then (s.link n).emptied else s.link n
  settings : SameAlertSettings s t
  latched : ∀ p f, f ∈ (t.alert p).latched ↔ f ∈ (s.alert p).latched ∨
    ∃ n ∈ ns, p = .hl n ∧ f = .queueReleased ∧ (s.link n).holdOn = true ∧ (s.link n).threshold < 64

theorem LinksEmptied.nil (s : State) : LinksEmptied [] s s :=
  ⟨⟨_, _, rfl⟩, fun _ => by simp, .refl s, fun _ _ => by simp⟩

theorem LinksEmptied.one (s : State) (n : HeadId) : LinksEmptied [n] s (s.emptyLink n) := by
  have hoff : ((s.link n).holdOn && !(s.link n).emptied.holdOn) = true ↔
      (s.link n).holdOn = true ∧ (s.link n).threshold < 64 := by
    simp [emptied_holdOn]
  show LinksEmptied [n] s (s.setLink n (s.link n).emptied)
  unfold State.setLink
  split
  · rename_i h
    refine ⟨⟨_, _, rfl⟩, fun m => ?_, .raise (s.setRawLink n _) _ _, fun p f => ?_⟩
    · simp only [State.raise, State.setAlert_link, State.setRawLink_link, List.mem_singleton]
      split <;> simp_all
    · rw [mem_latched_raise]
      simp [hoff.1 h]
  · rename_i h
    refine ⟨⟨_, _, rfl⟩, fun m => ?_, .refl s, fun p f => ?_⟩
    · simp only [State.setRawLink_link, List.mem_singleton]
      split <;> simp_all
    · simp [mt hoff.2 h]

theorem LinksEmptied.cons {n : HeadId} {ns : List HeadId} {s t u : State} (hn : n ∉ ns)
    (h : LinksEmptied [n] s t) (k : LinksEmptied ns t u) : LinksEmptied (n :: ns) s u where
  rest := by
    obtain ⟨a, b, rfl⟩ := h.rest
    obtain ⟨c, d, rfl⟩ := k.rest
    exact ⟨c, d, rfl⟩
  link m := by
    rw [k.link, h.link]
    by_cases hm : m = n
    · simp [hm, hn]
    · simp [hm]
  settings := h.settings.trans k.settings
  latched p f := by
    have hlink : ∀ m ∈ ns, t.link m = s.link m := fun m hm => by
      rw [h.link, if_neg]
      rintro (_ | ⟨_, ⟨⟩⟩)
      exact hn hm
    rw [k.latched, h.latched, or_assoc]
    refine or_congr_right ?_
    simp only [List.mem_cons, List.not_mem_nil, or_false, or_and_right, exists_or]
    refine or_congr_right (exists_congr fun m => and_congr_right fun hm => ?_)
    rw [hlink m hm]

theorem linksEmptied_fold : ∀ {ns : List HeadId} (s : State), ns.Nodup →
    LinksEmptied ns s (ns.foldl State.emptyLink s)
  | [], s, _ => .nil s
  | n :: ns, s, h => by
    obtain ⟨hn, hns⟩ := List.nodup_cons.1 h
    exact (LinksEmptied.one s n).cons hn (linksEmptied_fold _ hns)

/-- Isolation taking effect changes the isolation state and the STA port only; with the engine idle it does
so where no fill is in flight (R70). -/
theorem isolationEffect_idle {s : State} (h : s.merge.item = none) : ∃ po,
    s.isolationEffect = { s with
      cache := { s.cache with
        isolation := if s.cache.isolation = .isolating ∧ s.cache.fill = none then .isolated
          else s.cache.isolation }
      ports := po } ∧ ∀ p, p ≠ .sta → po.get p = s.port p := by
  unfold State.isolationEffect
  by_cases hi : s.cache.isolation = .isolating ∧ s.cache.fill = none
  · rw [if_pos ⟨hi.1, h, hi.2⟩, if_pos hi]
    refine ⟨_, rfl, fun p hp => ?_⟩
    simp [State.setPending, State.setPort, State.port, hp]
  · rw [if_neg fun ⟨hiso, _, hfill⟩ => hi ⟨hiso, hfill⟩, if_neg hi]
    exact ⟨_, rfl, fun _ _ => rfl⟩

theorem holdsUpdate_iff (s : State) : s.holdsUpdate = true ↔
    (∃ l, (s.lane l).heldMap ≠ none) ∨ ∃ k, (s.dir k).held ≠ none := by
  have hlane : (∃ l, (s.lane l).heldMap ≠ none) ↔
      (s.lane .A).heldMap ≠ none ∨ (s.lane .B).heldMap ≠ none :=
    ⟨fun ⟨l, h⟩ => by cases l <;> simp [h], fun h => h.elim (fun h => ⟨_, h⟩) fun h => ⟨_, h⟩⟩
  rw [hlane]
  simp [State.holdsUpdate, RecipeId.all, Option.isSome_iff_ne_none]

/-- HELD_APPLIED is raised on STA where an update was applied (R47). -/
def State.raiseApplied (s : State) (applied : Bool) : State :=
  if applied then s.raise .sta .heldApplied else s

theorem raiseApplied_eq (s : State) (b : Bool) :
    s.raiseApplied b = { s with alerts := (s.raiseApplied b).alerts } := by
  cases b <;> rfl

theorem raiseApplied_settings (s : State) (b : Bool) : SameAlertSettings s (s.raiseApplied b) := by
  cases b
  · exact .refl s
  · exact .raise s _ _

theorem mem_latched_raiseApplied (s : State) (b : Bool) (p : Port) (f : AlertFlag) :
    f ∈ ((s.raiseApplied b).alert p).latched ↔
      f ∈ (s.alert p).latched ∨ p = .sta ∧ f = .heldApplied ∧ b = true := by
  cases b
  · simp [State.raiseApplied]
  · simpa [State.raiseApplied] using mem_latched_raise s .sta p .heldApplied f

/-- What a TRACK_RESET leaves, beside what `State.trackEmptied` empties: the links emptied, the flags raised
and isolation ended, in that order. -/
structure TrackResetFrom (s t : State) : Prop where
  rest : ∃ k a po, t = { s.trackEmptied with
    links := k, alerts := a, ports := po
    cache := { s.cache with
      waiting := none
      isolation := if s.cache.isolation = .isolating ∧ s.cache.fill = none then .isolated
        else s.cache.isolation } }
  link : ∀ n, t.link n = (s.link n).emptied
  port : ∀ p, p ≠ .sta → t.port p = s.port p
  settings : SameAlertSettings s t
  latched : ∀ p f, f ∈ (t.alert p).latched ↔ f ∈ (s.alert p).latched ∨
    (p = .sta ∧ f = .heldApplied ∧
      ((∃ l, (s.lane l).heldMap ≠ none) ∨ ∃ k, (s.dir k).held ≠ none)) ∨
    ∃ n, p = .hl n ∧ f = .queueReleased ∧ (s.link n).holdOn = true ∧ (s.link n).threshold < 64

theorem trackReset_from (s : State) : TrackResetFrom s s.trackReset := by
  have hlinks := linksEmptied_fold (ns := HeadId.all) s.trackEmptied (by decide)
  show TrackResetFrom s
    (((HeadId.all.foldl State.emptyLink s.trackEmptied).raiseApplied s.holdsUpdate).isolationEffect)
  generalize HeadId.all.foldl State.emptyLink s.trackEmptied = u at hlinks ⊢
  have hraise := raiseApplied_eq u s.holdsUpdate
  have hset := raiseApplied_settings u s.holdsUpdate
  have hlat := mem_latched_raiseApplied u s.holdsUpdate
  generalize u.raiseApplied s.holdsUpdate = v at hraise hset hlat ⊢
  obtain ⟨k, a, hu⟩ := hlinks.rest
  obtain ⟨po, hiso, hpo⟩ := isolationEffect_idle (s := v) (by rw [hraise, hu]; rfl)
  have hvlink : v.links = u.links := by rw [hraise]
  have halert (p : Port) : v.isolationEffect.alert p = v.alert p := by rw [hiso]; rfl
  refine ⟨⟨k, v.alerts, po, ?rest⟩, fun n => ?link, fun p hp => ?port, fun p => ?settings,
    fun p f => ?latched⟩
  case rest => rw [hiso, hraise, hu]; rfl
  case link =>
    have h := hlinks.link n
    rw [if_pos (HeadId.mem_all n)] at h
    rw [hiso]
    show v.links.get n = _
    rw [hvlink]
    exact h
  case port =>
    rw [hiso]
    refine (hpo p hp).trans ?_
    rw [hraise, hu]
    rfl
  case settings =>
    rw [halert]
    exact (SameAlertSettings.trans hlinks.settings hset) p
  case latched =>
    rw [halert, hlat, hlinks.latched, holdsUpdate_iff, or_assoc]
    simp only [HeadId.mem_all, true_and]
    exact or_congr_right or_comm

theorem laneTrackReset_eq (x : LaneState) : x.trackReset = { x with
    order := [], announces := [], entry := .ready, exit := .ready
    map := x.heldMap.getD x.map, heldMap := none } := by
  unfold LaneState.trackReset
  cases x.heldMap <;> rfl

theorem dirTrackReset_eq (d : DirState) : d.trackReset = ⟨d.held.getD d.entry, 0, none⟩ := by
  unfold DirState.trackReset
  cases d.held <;> rfl

theorem channelTrackReset_eq (x : ChannelReg) : x.trackReset = { x with
    write := match x.write with
      | some (.inFlight i n r _) => some (.inFlight i n r none)
      | _ => none } := by
  unfold ChannelReg.trackReset
  rcases x.write with _ | (_ | _) <;> rfl

theorem trackEmptied_lane (s : State) (l : Lane) :
    s.trackEmptied.lane l = (s.lane l).trackReset := by
  cases l <;> rfl

theorem trackEmptied_channel (s : State) (c : Channel) :
    s.trackEmptied.channel c = (s.channel c).trackReset := by
  cases c <;> rfl

theorem trackEmptied_dir (s : State) (k : RecipeId) :
    s.trackEmptied.dir k = (s.dir k).trackReset := by
  simp [State.dir, State.trackEmptied]

theorem trackEmptied_board (s : State) (i : Slot) : s.trackEmptied.board i = none := by
  simp [State.board, State.trackEmptied]

/-- TRACK_RESET on an open STA port: the due events, the reset, and the answer DONE. -/
theorem exec_trackReset {s : State} (h : s.open_ .sta) :
    exec (.trackReset .sta (some ())) s =
      .next ((s.takeDue [.A, .B]).trackReset.answers .sta .done 17 []) :=
  congrArg Host.Outcome.next (serve_answers s .sta .trackReset _ h rfl)

/-- Settles O5: what `TrackResetFrom` says of the state after the due events, with the answer in STA's slot. -/
theorem trackResetEmptiesTracking : Obligations.TrackResetEmptiesTracking := by
  intro s0 hopen
  have hframe := FrameButGrants.takeDue s0 [.A, .B]
  have hexec := exec_trackReset hopen
  have hfrom := trackReset_from (s0.takeDue [.A, .B])
  generalize s0.takeDue [.A, .B] = s at hframe hexec hfrom ⊢
  generalize s.trackReset = t at hexec hfrom
  obtain ⟨k, a, po, rfl⟩ := hfrom.rest
  refine ⟨hframe, _, hexec, trackEmptied_board s, rfl,
    fun l => (trackEmptied_lane s l).trans (laneTrackReset_eq _),
    fun r => (trackEmptied_dir s r).trans (dirTrackReset_eq _), hfrom.link, rfl, rfl, rfl, rfl, rfl,
    fun c => (trackEmptied_channel s c).trans (channelTrackReset_eq _), rfl, rfl, rfl, rfl, rfl, rfl,
    rfl, rfl, ?answer, fun p hp => ?others, hfrom.settings, hfrom.latched⟩
  case answer => simp [State.answers, State.port]
  case others =>
    refine Eq.trans ?_ (hfrom.port p hp)
    simp [State.answers, State.port, hp]

/-! ### The announce-low threshold -/

theorem announceThresholdSet_badValue {s : State} {l : Lane} {n : Nat} (h : 3 < n) :
    s.announceThresholdSet l n = refuse .badValue s := if_neg (Nat.not_le.2 h)

theorem announceThresholdSet_sets {s : State} {l : Lane} {n : Nat} (h : n ≤ 3) :
    s.announceThresholdSet l n =
      (s.setLane l { s.lane l with announceThreshold := n }, ⟨.done, []⟩) := if_pos h

/-- TRACK_RESET keeps every announce-low threshold (R8, R22). -/
theorem trackReset_announceThreshold (s : State) (l : Lane) :
    (s.trackReset.lane l).announceThreshold = (s.lane l).announceThreshold := by
  obtain ⟨k, a, po, h⟩ := (trackReset_from s).rest
  rw [h]
  show (s.trackEmptied.lane l).announceThreshold = _
  rw [trackEmptied_lane, laneTrackReset_eq]

/-- Settles O46. -/
theorem announceThresholdGovernsItsFlag : Obligations.AnnounceThresholdGovernsItsFlag := by
  refine ⟨fun l => by cases l <;> rfl, rfl, rfl, fun s hopen => ⟨_, exec_trackReset hopen, ?kept⟩,
    fun s o n hopen => ⟨fun ho => ?badObject, fun l ho => ⟨fun h => ?badValue, fun h => ?sets, ?flag⟩⟩⟩
  case kept =>
    exact fun l => (trackReset_announceThreshold _ l).trans
      ((FrameButGrants.takeDue s [.A, .B]).announceThreshold l)
  case badObject =>
    show Host.Outcome.next (s.serve .sta .announceThresholdSet
      (onObject (Lane.ofObject o) (some n) fun l n u => u.announceThresholdSet l n)) = _
    rw [(Lane.ofObject_none o).2 ho]
    exact congrArg _ (serve_badObject s .sta .announceThresholdSet _ _ hopen rfl)
  case badValue => exact congrArg _ (serve_refuses hopen rfl ho (announceThresholdSet_badValue h))
  case sets => exact congrArg _ (serve_does hopen rfl ho (announceThresholdSet_sets h))
  case flag => cases l <;> exact decide_eq_true_iff

end Sys2Proof.Machine
end

section
/-! Proofs of the statements about belt positions and the lane schedule
(02_belt_positions_and_the_lane_schedule.md). -/

namespace Sys2Proof.Machine

open Sys2Proof

/-! ### An event and its command -/

/-- What the owner of an event does once the event has left the schedule (R37). -/
def ScheduledEvent.act (e : ScheduledEvent) : Record → Pos → State → State :=
  match e.kind with
  | .lengthLimit => lengthLimitAct e.slot
  | .headOpen n => headOpenAct e.slot n
  | .headLimit n => headLimitAct e.slot n
  | .deadline => deadlineAct e.slot
  | .exitDue => exitDueAct e.slot

/-- Any event is handed over alike: it is taken, its owner acts, and the grant follows. -/
theorem handOverAny_eq (s : State) (e : ScheduledEvent) :
    s.handOverAny e = s.thenGrant (s.takeEvent e.slot e.kind e.act) := by
  obtain ⟨i, k⟩ := e
  cases k <;> rfl

/-- The command of an event hands that event over. -/
theorem exec_command (s : State) (e : ScheduledEvent) :
    exec e.command s = .next (s.handOverAny e) := by
  obtain ⟨i, k⟩ := e
  cases k <;> rfl

/-- An event that is not armed or not due is not there to be handed over (log entry 7). -/
theorem exec_command_nothing {s : State} {e : ScheduledEvent}
    (h : ∀ r t, s.board e.slot = some r → r.targetOf e.kind = some t →
      due (s.lane r.lane).counter t = false) :
    exec e.command s = .next s := by
  rw [exec_command, handOverAny_eq, takeEvent_none _ h, thenGrant_self]

theorem step_empty {s : State} (h : s.pending = []) : step s = .next s := by
  unfold step
  rw [h]

/-- Settles O2: each of the five commands is the command of an event that is not there. -/
theorem nothingThereChangesNothing : Obligations.NothingThereChangesNothing := by
  refine ⟨fun s => step_empty, fun s i k h => ?_⟩
  have hnothing := exec_command_nothing (e := ⟨i, k⟩) h
  cases k <;> exact hnothing

/-! ### Events that are due together -/

/-- At arming LENGTH_LIMIT is never handed over (R36). -/
theorem handOver_lengthLimit (s : State) {e : ScheduledEvent} (h : e.kind = .lengthLimit) :
    s.handOver e = s := by
  unfold State.handOver
  rw [h]

theorem handOverAny_handOver (s : State) {e : ScheduledEvent} (h : e.kind ≠ .lengthLimit) :
    s.handOverAny e = s.thenGrant (s.handOver e) := by
  obtain ⟨i, k⟩ := e
  cases k with
  | lengthLimit => exact absurd rfl h
  | _ => rfl

theorem handOverAll_nil (s : State) (one : State → ScheduledEvent → State) :
    s.handOverAll one [] = s := rfl

/-- Events due together are handed over one after another in an order of theirs, which takes one free
value (R38; log entry 3). -/
theorem handOverAll_perm (s : State) (one : State → ScheduledEvent → State)
    (es : List ScheduledEvent) : ∃ xs : List ScheduledEvent, xs.Perm es ∧
      (xs ≠ [] → s.handOverAll one es = xs.foldl one { s with draws := s.draws + 1 }) := by
  refine ⟨orderBy (fun e => Config.eventRank s.draws e.key) es, orderBy_perm _ _, fun h => ?_⟩
  cases es with
  | nil => exact absurd rfl h
  | cons e es => rfl

/-- The events due on a lane are the armed ones of its order's records whose targets are due (R37). -/
theorem mem_dueEvents {s : State} {l : Lane} {i : Slot} {k : EventKind} :
    ⟨i, k⟩ ∈ s.dueEvents l ↔ i ∈ (s.lane l).order ∧ ∃ r e, s.board i = some r ∧ e ∈ r.armed ∧
      e.kind = k ∧ due (s.lane l).counter e.target = true := by
  unfold State.dueEvents
  rw [List.mem_flatMap]
  constructor
  · rintro ⟨j, hj, hmem⟩
    cases hr : s.board j with
    | none => simp [hr] at hmem
    | some r =>
      simp only [hr, List.mem_map, List.mem_filter, ScheduledEvent.mk.injEq] at hmem
      obtain ⟨e, ⟨he, hdue⟩, rfl, hk⟩ := hmem
      exact ⟨hj, r, e, hr, he, hk, hdue⟩
  · rintro ⟨hi, r, e, hr, he, rfl, hdue⟩
    refine ⟨i, hi, ?_⟩
    simp only [hr, List.mem_map, List.mem_filter]
    exact ⟨e, ⟨he, hdue⟩, rfl⟩

/-- A target is due from itself on for 2^23 counts, modulo 2^24 (R26). -/
theorem due_iff (c t : Pos) :
    due c t = true ↔ (c.toNat + 2 ^ 24 - t.toNat) % 2 ^ 24 < 2 ^ 23 := by
  have hsub : (c - t).toNat = (c.toNat + 2 ^ 24 - t.toNat) % 2 ^ 24 := by
    have := t.isLt
    rw [BitVec.toNat_sub]
    congr 1
    omega
  rw [due, decide_eq_true_iff, hsub]

/-- Lane `l`'s belt counter a step on (R25). -/
def State.counted (s : State) (l : Lane) : State :=
  s.setLane l { s.lane l with counter := (s.lane l).counter + 1#24 }

theorem beltStep_eq (s : State) (l : Lane) : s.beltStep l = (s.takeDue [l]).counted l := rfl

@[simp] theorem counted_lane (s : State) (l m : Lane) : (s.counted l).lane m =
    if m = l then { s.lane l with counter := (s.lane l).counter + 1#24 } else s.lane m := by
  simp [State.counted]

/-- Events leave a counter as it is, so a step after them counts as one before them. -/
theorem FrameButGrants.counted {A : Slot → Prop} {s t : State} (h : FrameButGrants A s t)
    (l : Lane) : FrameButGrants A (s.counted l) (t.counted l) :=
  { h with
    counter := fun m => by
      rw [counted_lane, counted_lane]
      split
      · exact congrArg (· + 1#24) (h.counter l)
      · exact h.counter m
    announces := fun m => by
      rw [counted_lane, counted_lane]
      split
      · exact h.announces l
      · exact h.announces m
    announceThreshold := fun m => by
      rw [counted_lane, counted_lane]
      split
      · exact h.announceThreshold l
      · exact h.announceThreshold m }

/-- Settles O23. -/
theorem eventsDueTogetherGoOneByOne : Obligations.EventsDueTogetherGoOneByOne := by
  refine ⟨fun s i newly => ⟨fun h => ?_, handOverAll_perm s _ _⟩,
    fun s l => ⟨congrArg Host.Outcome.next (beltStep_eq s l),
      (FrameButGrants.takeDue s [l]).counted l⟩,
    fun s ls => ⟨takeDue_none s ls, handOverAll_perm s _ _⟩,
    fun s l i k => mem_dueEvents,
    fun s e => ⟨exec_command s e, handOver_lengthLimit s, handOverAny_handOver s⟩, due_iff⟩
  rw [State.dueAtArming, h, handOverAll_nil]

/-! ### Held updates -/

/-- A use dropped from a recipe whose held entry comes into force by it (R46, R47). -/
theorem dropUse_applies {s : State} {k : RecipeId} {e : DirEntry} (he : (s.dir k).held = some e)
    (hu : (s.dir k).useCount = 1) :
    s.dropUse k = (s.setDir k ⟨e, 0, none⟩).raise .sta .heldApplied := by
  unfold State.dropUse
  simp [he, hu, DirState.applied]

/-- A use dropped that applies nothing: none is held, or other uses stay (R47). -/
theorem dropUse_counts {s : State} {k : RecipeId}
    (h : (s.dir k).held = none ∨ (s.dir k).useCount ≠ 1) :
    s.dropUse k = s.setDir k { s.dir k with useCount := (s.dir k).useCount - 1 } := by
  unfold State.dropUse
  dsimp only
  split
  · rename_i e he
    exact if_neg (h.resolve_left (by simp [he]))
  · rfl

/-- An empty lane order puts the held map in force (R33). -/
theorem applyHeldMap_applies {s : State} {l : Lane} {m : TunnelMap}
    (hm : (s.lane l).heldMap = some m) (ho : (s.lane l).order = []) :
    s.applyHeldMap l = (s.setLane l ((s.lane l).applied m)).raise .sta .heldApplied := by
  simp [State.applyHeldMap, hm, ho]

theorem applyHeldMap_none {s : State} {l : Lane}
    (h : (s.lane l).heldMap = none ∨ (s.lane l).order ≠ []) : s.applyHeldMap l = s := by
  unfold State.applyHeldMap
  cases hm : (s.lane l).heldMap with
  | none => rfl
  | some m => exact if_neg (by simpa [hm] using h)

/-- Settles O10. -/
theorem heldUpdatesAreApplied : Obligations.HeldUpdatesAreApplied := by
  refine ⟨fun s k => ?use, fun s l => ⟨fun m => applyHeldMap_applies, applyHeldMap_none⟩⟩
  case use =>
    by_cases h : (s.dir k).held = none ∨ (s.dir k).useCount ≠ 1
    · rw [dropUse_counts h]
      refine ⟨_, rfl, rfl, fun e he hu => ?_, fun _ => ⟨rfl, rfl, rfl⟩⟩
      exact absurd h (by simp [he, hu])
    · obtain ⟨hheld, hu⟩ := not_or.1 h
      obtain ⟨e, he⟩ := Option.ne_none_iff_exists'.1 hheld
      rw [dropUse_applies he (not_not.1 hu)]
      refine ⟨_, rfl, by rw [not_not.1 hu], fun x hx _ => ?_, fun hn => absurd hn h⟩
      cases he.symm.trans hx
      exact ⟨rfl, rfl, rfl⟩

/-! ### TUNNEL_SET and DIRECTORY_SET -/

theorem finOf_eq {n x : Nat} {k : Fin n} (h : x = k.val) : finOf n x = some k := by
  rw [h, finOf_val]

end Sys2Proof.Machine

namespace Sys2Proof

open Machine

/-- The map a TUNNEL_SET asks for, its default recipe read from its number with NONE 16 (R190). -/
def TunnelArgs.asked (a : TunnelArgs) : TunnelMap :=
  { a.map with defaultRecipe :=
    if a.defaultRecipe = 16 then none else some (Fin.ofNat 16 a.defaultRecipe) }

/-- A default recipe of R31 is NONE or one of the 16. -/
theorem defaultRecipe_read {n : Nat} (h : n ≤ 16) :
    (if n = 16 then some none else (finOf 16 n).map some) =
      some (if n = 16 then none else some (Fin.ofNat 16 n)) := by
  by_cases hn : n = 16
  · rw [if_pos hn, if_pos hn]
  · have hlt : n < 16 := by omega
    have hk : finOf 16 n = some (Fin.ofNat 16 n) := finOf_eq (Nat.mod_eq_of_lt hlt).symm
    rw [if_neg hn, if_neg hn, hk]
    rfl

/-- A map that passes R31 is kept as asked. -/
theorem TunnelArgs.check_of_passes {a : TunnelArgs} (h : a.Passes) : a.check = some a.asked := by
  unfold TunnelArgs.check
  dsimp only
  rw [defaultRecipe_read h.defaultRecipe]
  refine if_pos ?_
  simp only [Bool.and_eq_true, Bool.or_eq_true, Bool.not_eq_true', List.all_eq_true,
    decide_eq_true_eq]
  obtain ⟨hgate, hmargin, htol, hmin, hmax⟩ := h.counts
  refine ⟨⟨⟨⟨⟨⟨fun n _ => h.offsets n, hgate⟩, hmargin⟩, htol⟩, hmin⟩, hmax⟩, ?_⟩
  cases hen : a.map.enable with
  | false => exact .inl rfl
  | true =>
    exact .inr ⟨⟨⟨⟨h.lengths hen, h.margin hen⟩, h.windows hen⟩, h.exit hen⟩, h.limits hen⟩

/-- A map that is kept passes R31. -/
theorem TunnelArgs.passes_of_check {a : TunnelArgs} {m : TunnelMap} (h : a.check = some m) :
    a.Passes := by
  unfold TunnelArgs.check at h
  dsimp only at h
  split at h
  · exact nomatch h
  · rename_i d hd
    obtain ⟨hc, -⟩ := Option.ite_none_right_eq_some.1 h
    simp only [Bool.and_eq_true, Bool.or_eq_true, Bool.not_eq_true', List.all_eq_true,
      decide_eq_true_eq] at hc
    obtain ⟨⟨⟨⟨⟨⟨hoffsets, hgate⟩, hmargin⟩, htol⟩, hmin⟩, hmax⟩, hon⟩ := hc
    have henabled (hen : a.map.enable = true) := hon.resolve_left (by simp [hen])
    refine ⟨?recipe, fun n => hoffsets n (HeadId.mem_all n), ⟨hgate, hmargin, htol, hmin, hmax⟩,
      fun hen => ?lengths, fun hen => ?margin, fun hen => ?windows, fun hen => ?exit,
      fun hen => ?limits⟩
    case recipe =>
      by_contra hlt
      rw [if_neg (by omega), (finOf_none 16 _).2 (by omega)] at hd
      exact nomatch hd
    all_goals obtain ⟨⟨⟨⟨hlengths, hdecide⟩, hwindows⟩, hexit⟩, hlimits⟩ := henabled hen
    case lengths => exact hlengths
    case margin => exact hdecide
    case windows => exact hwindows
    case exit => exact hexit
    case limits => exact hlimits

theorem TunnelArgs.check_of_not_passes {a : TunnelArgs} (h : ¬a.Passes) : a.check = none :=
  Option.eq_none_iff_forall_ne_some.2 fun _ e => h (passes_of_check e)

/-- The checks of DIRECTORY_SET are those of R45. -/
theorem DirEntry.check_iff (e : DirEntry) : e.check = true ↔ e.Passes := by
  simp only [DirEntry.check, Bool.and_eq_true, List.all_eq_true, decide_eq_true_eq]
  constructor
  · rintro ⟨⟨hheads, hrework⟩, hmarginal⟩
    have hhead (n : HeadId) := hheads n (HeadId.mem_all n)
    refine ⟨fun n => ?_, fun n => ?_, fun n => ?_, hrework, hmarginal⟩
    all_goals obtain ⟨⟨⟨haligned, hbase⟩, hlength⟩, hend⟩ := hhead n
    · exact ⟨haligned, hbase⟩
    · exact hlength
    · exact hend
  · rintro ⟨hbases, hlengths, hends, hrework, hmarginal⟩
    exact ⟨⟨fun n _ => ⟨⟨hbases n, hlengths n⟩, hends n⟩, hrework⟩, hmarginal⟩

end Sys2Proof

namespace Sys2Proof.Machine

open Sys2Proof

/-- TUNNEL_SET (R31, R32), by its checks and the lane order. -/
theorem tunnelSet_badValue {s : State} {l : Lane} {a : TunnelArgs} (h : ¬a.Passes) :
    s.tunnelSet l a = refuse .badValue s := by
  rw [State.tunnelSet, a.check_of_not_passes h]

theorem tunnelSet_applies {s : State} {l : Lane} {a : TunnelArgs} (h : a.Passes)
    (ho : (s.lane l).order = []) :
    s.tunnelSet l a = (s.setLane l ((s.lane l).applied a.asked), ⟨.done, []⟩) := by
  rw [State.tunnelSet, a.check_of_passes h]
  exact if_pos ho

theorem tunnelSet_holds {s : State} {l : Lane} {a : TunnelArgs} (h : a.Passes)
    (ho : (s.lane l).order ≠ []) :
    s.tunnelSet l a = (s.setLane l { s.lane l with heldMap := some a.asked }, ⟨.held, []⟩) := by
  rw [State.tunnelSet, a.check_of_passes h]
  exact if_neg ho

/-- DIRECTORY_SET (R45, R46), by its checks and the recipe's use count. -/
theorem directorySet_badValue {s : State} {k : RecipeId} {e : DirEntry} (h : ¬e.Passes) :
    s.directorySet k e = refuse .badValue s := if_neg (mt e.check_iff.1 h)

theorem directorySet_applies {s : State} {k : RecipeId} {e : DirEntry} (h : e.Passes)
    (hu : (s.dir k).useCount = 0) :
    s.directorySet k e = (s.setDir k ⟨e, 0, none⟩, ⟨.done, []⟩) := by
  rw [State.directorySet, if_pos (e.check_iff.2 h), if_pos hu, DirState.applied, hu]

theorem directorySet_holds {s : State} {k : RecipeId} {e : DirEntry} (h : e.Passes)
    (hu : 0 < (s.dir k).useCount) :
    s.directorySet k e = (s.setDir k { s.dir k with held := some e }, ⟨.held, []⟩) := by
  rw [State.directorySet, if_pos (e.check_iff.2 h), if_neg (Nat.pos_iff_ne_zero.1 hu)]

/-- A request that takes effect by keeping an update answers HELD over the state `t` it leaves. -/
theorem serve_keeps {α β : Type} {s t : State} {p : Port} {q : Request} {obj : Option α} {x : α}
    {act : α → β → State → State × Reply} {a : β} (h : s.open_ p) (hp : permitted p q = true)
    (ho : obj = some x) (hr : act x a s = (t, ⟨.held, []⟩)) :
    s.serve p q (onObject obj (some a) act) = t.answers p .held (Request.all.idxOf q + 1) [] := by
  rw [serve_onObject h hp ho, hr]

/-- Settles O48. -/
theorem mapAndEntryAppliedOrHeld : Obligations.MapAndEntryAppliedOrHeld := by
  intro s o hopen
  refine ⟨fun l a ho => ⟨fun h => ?_, fun h => ⟨fun horder => ?_, fun horder => ?_⟩⟩,
    fun k e hk => ⟨fun h => ?_, fun h hu => ?_, fun h hu => ?_⟩⟩
  · exact congrArg _ (serve_refuses hopen rfl ho (tunnelSet_badValue h))
  · exact congrArg _ (serve_does hopen rfl ho (tunnelSet_applies h horder))
  · exact congrArg _ (serve_keeps hopen rfl ho (tunnelSet_holds h horder))
  · exact congrArg _ (serve_refuses hopen rfl (finOf_eq hk) (directorySet_badValue h))
  · exact congrArg _ (serve_does hopen rfl (finOf_eq hk) (directorySet_applies h hu))
  · exact congrArg _ (serve_keeps hopen rfl (finOf_eq hk) (directorySet_holds h hu))

end Sys2Proof.Machine

namespace Sys2Proof

/-! ### Fields of a read request's payload (R190) -/

theorem le_one (n : Nat) : le 1 n = [BitVec.ofNat 8 n] := rfl

theorem le_one_toNat (b : Byte) : le 1 b.toNat = [b] := by
  rw [le_one, BitVec.ofNat_toNat, BitVec.setWidth_eq]

theorem encBool_eq (b : Bool) : encBool b = [if b then 0#8 else 1#8] := by cases b <;> rfl

end Sys2Proof

namespace Sys2Proof.Machine

open Sys2Proof

/-! ### The read requests -/

theorem permitted_counterRead {p : Port} (h : p = .sta ∨ p = .lnc) :
    permitted p .counterRead = true := decide_eq_true h

theorem permitted_dispRead {p : Port} (h : p = .sta ∨ p = .gtc) :
    permitted p .dispRead = true := decide_eq_true h

/-- What is presented is the tag and verdict of the record shown (R134). -/
theorem presentation_eq (s : State) (l : Lane) :
    s.presentation l = (s.shown l).map fun x => (x.1.tag, x.2) := by
  unfold State.presentation State.shown
  cases (s.lane l).order with
  | nil => rfl
  | cons i rest =>
    dsimp only
    cases s.board i with
    | none => rfl
    | some r =>
      dsimp only
      by_cases hst : r.state = .decided
      · rw [if_pos hst, if_pos hst, Option.map_map]
        rfl
      · rw [if_neg hst, if_neg hst]
        rfl

/-- DISP_READ (R136), by the lane's presentation. -/
theorem dispRead_empty {s : State} {l : Lane} (h : s.presentation l = none) :
    s.dispRead l = refuse .empty s := by
  rw [presentation_eq, Option.map_eq_none_iff] at h
  rw [State.dispRead, h]

theorem shown_eq {s : State} {l : Lane} {i : Slot} {rest : List Slot} {r : Record} {v : Verdict}
    (ho : (s.lane l).order = i :: rest) (hr : s.board i = some r) (hst : r.state = .decided)
    (hv : r.verdict = some v) : s.shown l = some (r, v) := by
  simp [State.shown, ho, hr, hst, hv]

theorem dispRead_shown {s : State} {l : Lane} {r : Record} {v : Verdict}
    (h : s.shown l = some (r, v)) :
    s.dispRead l = (s, ⟨.done, [r.tag] ++ encOpt (fun x => le 6 x.toNat) r.serial ++
      [BitVec.ofNat 8 v.code] ++ le 2 r.counts.defects ++ encSet BoardFlag.all r.flags⟩) := by
  rw [State.dispRead, h]
  dsimp only
  rw [dispPayload, le_one_toNat]
  rfl

/-- COUNTER_READ (R28) on an open port that may ask. -/
theorem exec_counterRead {s : State} {p : Port} {o : Byte} {l : Lane} (hopen : s.open_ p)
    (hp : p = .sta ∨ p = .lnc) (ho : Lane.all[o.toNat]? = some l) :
    exec (.counterRead p o (some ())) s = .next (s.answers p .done 12 (s.counterPayload l)) :=
  congrArg _ (serve_does hopen (permitted_counterRead hp) ho rfl)

theorem counterPayload_eq (s : State) (l : Lane) : s.counterPayload l =
    le 3 (s.lane l).counter.toNat ++ [BitVec.ofNat 8 (s.lane l).entry.code] ++
      [BitVec.ofNat 8 (s.lane l).order.length] := rfl

theorem regionPayload_eq (s : State) : s.regionPayload =
    (List.finRange 16).flatMap fun k => [if s.regions[k].stationWrite then 0#8 else 1#8,
      if s.regions[k].headRead then 0#8 else 1#8, if s.regions[k].moveWrite then 0#8 else 1#8] := by
  simp only [State.regionPayload, RegionId.all, encRegion, encBool_eq, List.cons_append,
    List.nil_append]

/-- CACHE_TAG_READ (R72) on the open station port. -/
theorem exec_cacheTagRead {s : State} {o : Byte} {k : LineId} (hopen : s.open_ .sta)
    (hk : o.toNat = k.val) :
    exec (.cacheTagRead .sta o (some ())) s = .next (s.answers .sta .done 28 (s.tagPayload k)) :=
  congrArg _ (serve_does hopen rfl (finOf_eq hk) rfl)

theorem tagPayload_eq (s : State) (k : LineId) : s.tagPayload k =
    le 2 (s.line k).tag ++ [if (s.line k).valid then 0#8 else 1#8] ++
      [BitVec.ofNat 8 s.cache.isolation.code] := by
  rw [State.tagPayload, encBool_eq, le_one]

/-- HEAD_LINK_READ (R94) on the open station port. -/
theorem exec_headLinkRead {s : State} {o : Byte} {n : HeadId} (hopen : s.open_ .sta)
    (hn : HeadId.all[o.toNat]? = some n) :
    exec (.headLinkRead .sta o (some ())) s = .next (s.answers .sta .done 33 (s.linkPayload n)) :=
  congrArg _ (serve_does hopen rfl hn rfl)

/-- The item in flight is head `n`'s. -/
theorem inFlightFrom_eq (x : Option InFlight) (n : HeadId) :
    (x.any fun y => decide (y.head = n)) = decide (x.map (·.head) = some n) := by
  cases x <;> simp

theorem linkPayload_eq (s : State) (n : HeadId) : s.linkPayload n =
    le 1 (s.link n).triggers.length ++
      (s.link n).triggers.flatMap (fun t => [t.tag, BitVec.ofNat 8 (Lane.code t.lane)]) ++
      [BitVec.ofNat 8 (s.link n).results.length, BitVec.ofNat 8 (64 - (s.link n).results.length),
        BitVec.ofNat 8 (s.link n).threshold, if (s.link n).holdOn then 0#8 else 1#8,
        if s.merge.item.map (·.head) = some n then 0#8 else 1#8] := by
  simp only [State.linkPayload, encList, BitVec.ofNat_toNat, BitVec.setWidth_eq, le_one, encBool_eq,
    inFlightFrom_eq, Link.freeSlots, Config.resultCapacity, decide_eq_true_eq, List.append_assoc,
    List.cons_append, List.nil_append]

/-- Settles O47: each request passes its port and object checks and answers with its payload. -/
theorem readRequestsReport : Obligations.ReadRequestsReport := by
  intro s o
  refine ⟨fun p l hp hopen ho => ?counter, fun p l hp hopen ho => ⟨fun h => ?nothing,
    fun i rest r v horder hr hst hv => ?shown⟩, fun hopen => ⟨fun l ho => ?tunnel,
    fun k hk => ?entry, ?region, fun k hk => ?line, fun n hn => ?link, ?merge,
    fun c hc => ?channel⟩⟩
  case counter =>
    rw [exec_counterRead hopen hp ho, counterPayload_eq]
    cases (s.lane l).entry <;> rfl
  case nothing =>
    exact congrArg _ (serve_refuses hopen (permitted_dispRead hp) ho (dispRead_empty h))
  case shown =>
    exact congrArg _ (serve_does hopen (permitted_dispRead hp) ho
      (dispRead_shown (shown_eq horder hr hst hv)))
  case tunnel => exact congrArg _ (serve_does hopen rfl ho rfl)
  case entry => exact congrArg _ (serve_does hopen rfl (finOf_eq hk) rfl)
  case region =>
    rw [← regionPayload_eq]
    exact congrArg _ (serve_answers s .sta .regionRead _ hopen rfl)
  case line =>
    rw [exec_cacheTagRead hopen hk, tagPayload_eq]
    cases s.cache.isolation <;> rfl
  case link =>
    rw [exec_headLinkRead hopen hn, linkPayload_eq]
    congr 5
    funext t
    cases t.lane <;> rfl
  case merge => exact congrArg _ (serve_answers s .sta .mergeStatusRead _ hopen rfl)
  case channel => cases c <;> exact congrArg _ (serve_does hopen rfl hc rfl)

end Sys2Proof.Machine
end

section
/-! Proofs of the statements about recipes and program memory (03_recipes_and_program_memory.md). -/

namespace Sys2Proof.Machine

open Sys2Proof

/-! ### Canonical program memory -/

theorem exec_memoryWf {c : Instr} {s t : State} (h : exec c s = .next t)
    (hs : s.memoryWf = true) : t.memoryWf = true := by
  by_cases hc : ∃ l, c = .entryLeadingEdge l
  · obtain ⟨l, rfl⟩ := hc
    have ht : s.thenGrant (s.entryLeading l) = t := Host.Outcome.next.inj h
    exact ht ▸ (keeps_thenGrant s _).mem (entryLeading_mem s l hs)
  · exact (exec_keeps c s t (fun l e => hc ⟨l, e⟩) h).mem hs

/-- Settles O57: an entry edge writes no memory, and every other command keeps it canonical. -/
theorem stepKeepsMemoryCanonical : Obligations.StepKeepsMemoryCanonical := by
  intro s t h hs
  rcases step_cases h with rfl | ⟨c, cs, -, he⟩
  · exact hs
  · exact exec_memoryWf he hs

/-! ### The grant -/

theorem thenGrant_eq (s t : State) :
    s.thenGrant t = if t.grantDue = true ∧ s.grantDue = false then t.grant else t := by
  simp only [State.thenGrant, Bool.and_eq_true, Bool.not_eq_true']

/-- With an operation in flight nothing is granted (R148). -/
theorem grant_busy {s : State} (h : s.arbiter.op ≠ none) : s.grant = s := by
  refine grant_of_made s s ?_
  rw [State.grantOnce, if_pos (Option.isSome_iff_ne_none.2 h)]

/-- An idle arbiter grants a fill first (R149). -/
theorem grant_fill {s : State} {f : Fill} (ho : s.arbiter.op = none) (hf : s.cache.fill = some f) :
    s.grant = s.startOp f.op := by
  refine grant_of_made s _ ?_
  rw [State.grantOnce, if_neg (by simp [ho]), hf]

/-- With no fill requested an idle arbiter turns to the first port that waits (R149). -/
theorem grantOnce_port {s : State} {p : MemPort} {o : MemOp} (ho : s.arbiter.op = none)
    (hf : s.cache.fill = none) (hp : s.waitingPort = some (p, o)) :
    s.grantOnce = s.grantPort p o := by
  rw [State.grantOnce, if_neg (by simp [ho]), hf, hp]

/-- The end of a pending request writes its port only (R187). -/
theorem endPending_eq (s : State) (p : Port) (q : Request) (r : Reply) :
    s.endPending p q r =
      { s with ports := s.ports.set p ⟨⟨r.status, q.code, r.payload⟩, none⟩ } := by
  simp [State.endPending, State.setPending, State.respond, State.setPort, State.port]

theorem grantPort_made {s : State} {o : MemOp} (p : MemPort)
    (h : o.kind ≠ .progWrite ∨ s.inUse o.address o.count = false) :
    s.grantPort p o = ({ s with arbiter := { s.arbiter with op := some o, lastPort := p } },
      false) := by
  refine if_neg fun ⟨hk, hu⟩ => ?_
  rcases h with h | h
  · exact h hk
  · exact Bool.false_ne_true (h.symm.trans hu)

/-- What a write given up at its IN_USE re-check leaves (R55). -/
def State.writeGivenUp (s : State) (p : MemPort) : State :=
  { s with
    arbiter := { s.arbiter with lastPort := p }
    ports := s.ports.set p.port ⟨⟨.inUse, 26#8, []⟩, none⟩ }

theorem grantPort_givenUp {s : State} {o : MemOp} (p : MemPort) (hk : o.kind = .progWrite)
    (hu : s.inUse o.address o.count = true) : s.grantPort p o = (s.writeGivenUp p, true) := by
  refine (if_pos ⟨hk, hu⟩).trans ?_
  rw [endPending_eq]
  rfl

theorem slots_eq_of_board {s t : State} (h : ∀ i, t.board i = s.board i) : t.slots = s.slots :=
  Vector.ext fun i hi => h ⟨i, hi⟩

/-- Grants change no board. -/
theorem grant_slots (s : State) : s.grant.slots = s.slots :=
  slots_eq_of_board fun i => (FrameButGrants.grantUpTo (fun _ => False) 8 s).boards i id

/-- The grants that follow a write given up leave its port as the refusal left it. -/
theorem grant_writeGivenUp_port (s : State) (p : MemPort) :
    (s.writeGivenUp p).grant.port p.port = ⟨⟨.inUse, 26#8, []⟩, none⟩ := by
  have hport : (s.writeGivenUp p).port p.port = ⟨⟨.inUse, 26#8, []⟩, none⟩ := by
    simp [State.port, State.writeGivenUp]
  exact ((FrameButGrants.grantUpTo (fun _ => False) 8 (s.writeGivenUp p)).ports p.port).elim
    (·.trans hport) id

/-- Settles O34. -/
theorem grantGoesToFillThenPorts : Obligations.GrantGoesToFillThenPorts := by
  refine ⟨thenGrant_eq, grantDue_iff_parts, fun s => ⟨rfl, grant_notDue s, fun h => ?busy,
    fun f ho hf => ?fill, fun p o ho hf hp => ⟨fun h => ?made, fun hk hu => ?givenUp⟩⟩⟩
  case busy => exact congrArg Host.Outcome.next (grant_busy h)
  case fill => exact congrArg Host.Outcome.next (grant_fill ho hf)
  case made =>
    exact congrArg Host.Outcome.next
      (grant_of_made s _ ((grantOnce_port ho hf hp).trans (grantPort_made p h)))
  case givenUp =>
    have hgrant : s.grant = (s.writeGivenUp p).grant :=
      grant_of_givenUp s _ ((grantOnce_port ho hf hp).trans (grantPort_givenUp p hk hu))
    have hframe := FrameButGrants.grantUpTo (fun _ => False) 8 (s.writeGivenUp p)
    exact ⟨congrArg Host.Outcome.next hgrant, _, congrArg Host.Outcome.next hgrant,
      grant_writeGivenUp_port s p, hframe.mem, grant_slots _, hframe.cache⟩

/-! ### The end of a write -/

/-- The line of `a` after a write of `bytes` from `a` (R66, R67). -/
def State.writtenLine (s : State) (a : Nat) (bytes : List Byte) : CacheLine :=
  if s.cached a = true then
    if a % 8 = 0 ∧ bytes.length % 8 = 0 then (s.line (cacheIndex a)).patch (a % 64) bytes
    else { s.line (cacheIndex a) with valid := false }
  else s.line (cacheIndex a)

/-- A fill in flight after a write that ends at `a` (R68). -/
def Fill.spoiledBy (a : Nat) (f : Fill) : Fill :=
  if f.index = cacheIndex a ∧ f.tag = cacheTag a then { f with spoiled := true } else f

theorem setLine_self (s : State) (i : LineId) : s.setLine i (s.line i) = s := by
  simp [State.setLine, State.line]

theorem updateLine_eq (s : State) (a : Nat) (bytes : List Byte) :
    s.updateLine a bytes = s.setLine (cacheIndex a) (s.writtenLine a bytes) := by
  unfold State.updateLine State.writtenLine
  split
  · split <;> rfl
  · exact (setLine_self s _).symm

theorem spoil_eq (s : State) (a : Nat) :
    s.spoil a = { s with cache := { s.cache with fill := s.cache.fill.map (Fill.spoiledBy a) } } := by
  have hkept (h : s.cache.fill.map (Fill.spoiledBy a) = s.cache.fill) :
      s = { s with cache := { s.cache with fill := s.cache.fill.map (Fill.spoiledBy a) } } := by
    rw [h]
  unfold State.spoil
  split
  · rename_i f hf
    split
    · rename_i hm
      rw [hf, Option.map_some, Fill.spoiledBy, if_pos hm]
    · rename_i hm
      exact hkept (by rw [hf, Option.map_some, Fill.spoiledBy, if_neg hm])
  · rename_i hf
    exact hkept (by rw [hf]; rfl)

/-- The end of a write changes memory, the line of its address and the fill in flight only. -/
theorem writeEnds_eq (s : State) (a : Nat) (bytes : List Byte) :
    s.writeEnds a bytes = { s with
      mem := Memory.writeBytes s.mem a bytes
      cache := { s.cache with
        lines := s.cache.lines.set (cacheIndex a) (s.writtenLine a bytes)
        fill := s.cache.fill.map (Fill.spoiledBy a) } } := by
  rw [State.writeEnds, updateLine_eq, spoil_eq]
  rfl

theorem writeEnds_line (s : State) (a : Nat) (bytes : List Byte) (k : LineId) :
    (s.writeEnds a bytes).line k =
      if k = cacheIndex a then s.writtenLine a bytes else s.line k := by
  rw [writeEnds_eq]
  exact State.setLine_line s (cacheIndex a) _ k

/-- A read of memory after a write's end (R51). -/
theorem read_writeEnds {s : State} {a : Nat} {bytes : List Byte} (h : s.memoryWf = true) (x : Nat) :
    Memory.read (s.writeEnds a bytes).mem x =
      if a ≤ x ∧ x < a + bytes.length then bytes.getD (x - a) 0#8 else Memory.read s.mem x := by
  rw [writeEnds_eq]
  refine (Memory.read_writeBytes bytes a x h).trans ?_
  by_cases hx : a ≤ x ∧ x < a + bytes.length
  · rw [dif_pos hx, if_pos hx, List.getD_eq_getElem]
  · rw [dif_neg hx, if_neg hx]

/-- Settles O36. -/
theorem writeEndsInMemoryAndCache : Obligations.WriteEndsInMemoryAndCache := by
  intro s a bytes
  have hline := (writeEnds_line s a bytes (cacheIndex a)).trans (if_pos rfl)
  refine ⟨read_writeEnds, fun k hk => (writeEnds_line s a bytes k).trans (if_neg hk),
    fun hc => ?absent, fun hc hal => ?dropped, fun hc ha hb => ?patched, ?fill, ?rest⟩
  case absent => rw [hline, State.writtenLine, if_neg (by simp [hc])]
  case dropped => rw [hline, State.writtenLine, if_pos hc, if_neg hal]
  case patched =>
    rw [hline, State.writtenLine, if_pos hc, if_pos ⟨ha, hb⟩]
    rfl
  case fill =>
    rw [writeEnds_eq]
    rfl
  case rest => exact ⟨_, _, writeEnds_eq s a bytes, rfl, rfl⟩

/-! ### The ends of the operations -/

/-- The line a fill ends with is written unless a write has spoiled it (R64, R68). -/
theorem fillLine_eq (s : State) (f : Fill) :
    s.fillLine f = { s with cache := { s.cache with
      lines := if f.spoiled then s.cache.lines
        else s.cache.lines.set f.index ⟨f.tag, true, Memory.readBytes s.mem f.address 64⟩ } } := by
  unfold State.fillLine
  split <;> rfl

theorem exec_cacheFillEnd {s : State} {o : MemOp} {f : Fill} (ho : s.arbiter.op = some o)
    (hk : o.kind = .fill) (hf : s.cache.fill = some f) :
    exec .cacheFillEnd s = .next (s.endOp.fillEnds f).grant := by
  show Host.Outcome.next s.cacheFillEnd = _
  rw [State.cacheFillEnd, ho, hf]
  exact congrArg _ (if_pos hk)

/-- An entry request that misses with no fill in flight asks for its line and waits (R62, R63). -/
theorem cacheRequest_miss {s : State} {a : Nat} (hf : s.cache.fill = none)
    (hc : s.cached a = false) :
    s.cacheRequest a = ({ s with cache := { s.cache with
      lines := s.cache.lines.set (cacheIndex a) { s.line (cacheIndex a) with valid := false }
      fill := some ⟨cacheIndex a, cacheTag a, false⟩
      waiting := some a } }, none) := by
  rw [State.cacheRequest, hf]
  exact if_neg (by simp [hc])

theorem cacheRequest_supplies {s : State} {a : Nat} (hf : s.cache.fill = none)
    (hc : s.cached a = true) :
    s.cacheRequest a = (s, some ((s.line (cacheIndex a)).entryAt a)) := by
  rw [State.cacheRequest, hf]
  exact if_pos hc

theorem resume_nothing {s : State} (h : s.cache.waiting = none) : s.resume = s := by
  rw [State.resume, h]

/-- The request that waited misses again and waits on a new fill (R64). -/
theorem resume_miss {s : State} {a : Nat} (hw : s.cache.waiting = some a)
    (hf : s.cache.fill = none) (hc : s.cached a = false) :
    s.resume = { s with cache := { s.cache with
      lines := s.cache.lines.set (cacheIndex a) { s.line (cacheIndex a) with valid := false }
      fill := some ⟨cacheIndex a, a / 8192, false⟩ } } := by
  have hreq := cacheRequest_miss (s := { s with cache := { s.cache with waiting := none } }) hf hc
  rw [State.resume, hw]
  dsimp only
  rw [hreq, ← hw]
  rfl

/-- The request that waited is supplied, and the walk of the item in flight goes on (R64, R98). -/
theorem resume_hit {s : State} {a : Nat} {x : InFlight} (hw : s.cache.waiting = some a)
    (hf : s.cache.fill = none) (hc : s.cached a = true) (hx : s.merge.item = some x) :
    s.resume =
      match State.supply { s with cache := { s.cache with waiting := none } } x
        ((s.line (cacheIndex a)).entryAt a) with
      | (u, none) => u
      | (u, some y) => u.walk y := by
  have hreq :=
    cacheRequest_supplies (s := { s with cache := { s.cache with waiting := none } }) hf hc
  rw [State.resume, hw]
  dsimp only
  rw [hreq]
  dsimp only
  rw [hx]
  rfl

/-- A list of bytes is coded by its count and its bytes (R190; log entry 13). -/
theorem encList_bytes (xs : List Byte) : encList (fun b => [b]) xs = le 1 xs.length ++ xs := by
  simp [encList]

theorem exec_progReadEnd {s : State} {p : MemPort} {a n : Nat}
    (h : s.arbiter.op = some ⟨.port p, .progRead, a, n⟩) :
    exec .progReadEnd s = .next (s.endOp.endPending p.port .progRead
      ⟨.done, encList (fun b => [b]) (Memory.readBytes s.mem a n)⟩).grant := by
  show Host.Outcome.next s.progReadEnd = _
  rw [State.progReadEnd, h]

theorem exec_progWriteEnd {s : State} {p : MemPort} {a n : Nat} {bytes : List Byte}
    (h : s.arbiter.op = some ⟨.port p, .progWrite, a, n⟩)
    (hb : (s.port p.port).pending = some (.progWrite a bytes)) :
    exec .progWriteEnd s = .next
      ((s.endOp.writeEnds a bytes).endPending p.port .progWrite ⟨.done, []⟩).grant := by
  show Host.Outcome.next s.progWriteEnd = _
  rw [State.progWriteEnd, h]
  dsimp only
  rw [State.writeBytesOf, hb]

/-- Settles O37. -/
theorem operationEndsAndTheNextIsGranted : Obligations.OperationEndsAndTheNextIsGranted := by
  refine ⟨fun s o f ho hk hf => ?fill, fun s => ⟨resume_nothing, fun a => resume_miss,
    fun a x => resume_hit⟩, fun s p a n h => ?read, fun s p a n bytes h hb => ?write⟩
  case fill =>
    rw [exec_cacheFillEnd ho hk hf, State.fillEnds, fillLine_eq]
    rfl
  case read =>
    rw [exec_progReadEnd h, endPending_eq, encList_bytes, Memory.readBytes_length]
    rfl
  case write =>
    rw [exec_progWriteEnd h hb, endPending_eq, writeEnds_eq, writeEnds_eq]
    rfl

/-! ### REGION_SET, PROG_READ and PROG_WRITE -/

/-- No operation is in flight and nothing waits: a request taken is granted at once (R148). -/
def State.Unasked (s : State) : Prop :=
  s.arbiter.op = none ∧ s.cache.fill = none ∧ (∀ q, s.portOp q = none) ∧ ∀ c, s.waits c = false

theorem unasked_iff (s : State) : s.Unasked ↔ s.arbiter.op = none ∧ s.grantDue = false := by
  rw [← Bool.not_eq_true, grantDue_iff_parts]
  simp only [State.Unasked, not_and, not_or, not_exists, not_not, Bool.not_eq_true]
  exact and_congr_right fun ho => ⟨fun h _ => h, fun h => h ho⟩

theorem serve_onArgs {β : Type} {s : State} {p : Port} {q : Request}
    {act : β → State → State × Reply} (h : s.open_ p) (hp : permitted p q = true) (a : β) :
    s.serve p q (onArgs (some a) act) =
      (act a s).1.answers p (act a s).2.status (Request.all.idxOf q + 1) (act a s).2.payload :=
  serve_answers s p q _ h hp

section Asking

variable {β : Type} {s : State} {q : Request} {act : β → State → State × Reply} {a : β}

/-- A request without an object that its own checks refuse changes only the response. -/
theorem serve_onArgs_refuses {p : Port} {st : Status} (h : s.open_ p) (hp : permitted p q = true)
    (hr : act a s = refuse st s) :
    s.serve p q (onArgs (some a) act) = s.answers p st (Request.all.idxOf q + 1) [] := by
  rw [serve_onArgs h hp, hr]
  rfl

/-- A request for the arbiter that finds it in use, or others waiting, makes its port pending (R148). -/
theorem serve_asks_waits {p : MemPort} {x : PendingReq} (h : s.open_ p.port)
    (hp : permitted p.port q = true) (hr : act a s = s.askMemory p.port x) (hn : ¬s.Unasked) :
    s.serve p.port q (onArgs (some a) act) =
      { s with ports := s.ports.set p.port ⟨⟨.pending, q.code, []⟩, some x⟩ } := by
  have hwait : s.arbiter.op ≠ none ∨ s.grantDue = true := by
    rw [unasked_iff, not_and_or, Bool.not_eq_false] at hn
    exact hn
  rw [serve_onArgs h hp, hr, askMemory_waits p x hwait]
  simp [State.answers, State.setPending, State.setPort, Request.code]

/-- A request for the arbiter that is alone is pending and in flight at once (R148). -/
theorem serve_asks_granted {p : MemPort} {x : PendingReq} {o : MemOp} (h : s.open_ p.port)
    (hp : permitted p.port q = true) (hr : act a s = s.askMemory p.port x) (hn : s.Unasked)
    (ho : (s.setPending p.port (some x)).portOp p = some o)
    (hw : ¬(o.kind = .progWrite ∧ s.inUse o.address o.count = true)) :
    s.serve p.port q (onArgs (some a) act) = { s with
      ports := s.ports.set p.port ⟨⟨.pending, q.code, []⟩, some x⟩
      arbiter := { s.arbiter with op := some o, lastPort := p } } := by
  obtain ⟨hop, hdue⟩ := (unasked_iff s).1 hn
  rw [serve_onArgs h hp, hr, askMemory_granted ho hop hdue hw]
  simp [State.answers, State.setPending, State.setPort, Request.code]

end Asking

theorem portOp_setPending_progRead (s : State) (p : MemPort) (a n : Nat) :
    (s.setPending p.port (some (.progRead a n))).portOp p = some ⟨.port p, .progRead, a, n⟩ := by
  simp [State.portOp, State.setPending]

theorem portOp_setPending_progWrite (s : State) (p : MemPort) (a : Nat) (bytes : List Byte) :
    (s.setPending p.port (some (.progWrite a bytes))).portOp p =
      some ⟨.port p, .progWrite, a, bytes.length⟩ := by
  simp [State.portOp, State.setPending]

/-- The address checks of R54 and R56. -/
theorem burstOk_iff (a n : Nat) :
    burstOk a n = true ↔ a ≤ 16777215 ∧ 1 ≤ n ∧ n ≤ 64 ∧ a % 64 + n ≤ 64 := by
  simp only [burstOk, Bool.and_eq_true, decide_eq_true_eq, and_assoc]

theorem listCovers_iff (a n base len : Nat) : listCovers a n base len = true ↔
    ∃ b, a ≤ b ∧ b < a + n ∧ base ≤ b ∧ b < base + 8 * len := by
  simp only [listCovers, Bool.and_eq_true, decide_eq_true_eq]
  constructor
  · rintro ⟨-, hlt⟩
    exact ⟨max a base, by omega, by omega, by omega, by omega⟩
  · rintro ⟨b, hab, hbn, hbase, hlen⟩
    omega

/-- A byte of the `n` from `a` lies inside a list in use (R54). -/
theorem inUse_iff (s : State) (a n : Nat) : s.inUse a n = true ↔
    ∃ (k : RecipeId) (h : HeadId) (b : Nat), (s.dir k).entry.valid = true ∧
      0 < (s.dir k).useCount ∧ a ≤ b ∧ b < a + n ∧ (s.dir k).entry.listBase.get h ≤ b ∧
      b < (s.dir k).entry.listBase.get h + 8 * (s.dir k).entry.listLength.get h := by
  simp only [State.inUse, RecipeId.all, List.any_eq_true, List.mem_finRange, HeadId.mem_all,
    true_and, Bool.and_eq_true, decide_eq_true_eq, listCovers_iff, exists_and_left, and_assoc]

/-- PROG_READ (R56), by its checks. -/
theorem progRead_badValue {s : State} {p : Port} {a : ReadArgs}
    (h : ¬burstOk a.address a.count = true) : s.progRead p a = refuse .badValue s := if_neg h

theorem progRead_notPermitted {s : State} {p : Port} {a : ReadArgs}
    (h : burstOk a.address a.count = true) (hp : p ≠ .sta)
    (hr : (s.regionAt a.address).headRead = false) :
    s.progRead p a = refuse .notPermitted s := by
  rw [State.progRead, if_pos h, if_pos (by simp [hp, hr])]

theorem progRead_asks {s : State} {p : Port} {a : ReadArgs}
    (h : burstOk a.address a.count = true)
    (hp : p = .sta ∨ (s.regionAt a.address).headRead = true) :
    s.progRead p a = s.askMemory p (.progRead a.address a.count) := by
  rw [State.progRead, if_pos h, if_neg]
  rcases hp with hp | hp <;> simp [hp]

/-- PROG_WRITE (R54), by its checks in their order. -/
theorem progWrite_badValue {s : State} {p : Port} {a : WriteArgs}
    (h : ¬burstOk a.address a.bytes.length = true) : s.progWrite p a = refuse .badValue s :=
  if_neg h

theorem progWrite_notPermitted {s : State} {p : Port} {a : WriteArgs}
    (h : burstOk a.address a.bytes.length = true)
    (hr : (s.regionAt a.address).stationWrite = false) :
    s.progWrite p a = refuse .notPermitted s := by
  rw [State.progWrite, if_pos h, if_neg (by simp [hr])]

theorem progWrite_inUse {s : State} {p : Port} {a : WriteArgs}
    (h : burstOk a.address a.bytes.length = true)
    (hr : (s.regionAt a.address).stationWrite = true)
    (hu : s.inUse a.address a.bytes.length = true) : s.progWrite p a = refuse .inUse s := by
  rw [State.progWrite, if_pos h, if_pos hr, if_pos hu]

theorem progWrite_asks {s : State} {p : Port} {a : WriteArgs}
    (h : burstOk a.address a.bytes.length = true)
    (hr : (s.regionAt a.address).stationWrite = true)
    (hu : ¬s.inUse a.address a.bytes.length = true) :
    s.progWrite p a = s.askMemory p (.progWrite a.address a.bytes) := by
  rw [State.progWrite, if_pos h, if_pos hr, if_neg hu]

theorem exists_memPort {p : Port} (h : p = .sta ∨ ∃ n, p = .hl n) : ∃ q : MemPort, q.port = p := by
  rcases h with rfl | ⟨n, rfl⟩
  · exact ⟨.sta, rfl⟩
  · exact ⟨.hl n, rfl⟩

theorem permitted_progRead (q : MemPort) : permitted q.port .progRead = true := by
  cases q <;> rfl

/-- Settles O49: each request passes its port's check, and its own checks choose its answer. -/
theorem programMemoryRequests : Obligations.ProgramMemoryRequests := by
  refine ⟨fun s o k a hopen hk => ?region, fun s p a hopen hp => ?read, fun s a hopen => ?write⟩
  case region => exact congrArg _ (serve_does hopen rfl (finOf_eq hk) rfl)
  case read =>
    obtain ⟨q, rfl⟩ := exists_memPort hp
    have hperm := permitted_progRead q
    dsimp only
    rw [← burstOk_iff]
    refine ⟨fun hf => ?_, fun hf hne hr => ?_, fun hf hr => ⟨fun hn => ?_, fun hn r hport => ?_⟩⟩
    · exact congrArg _ (serve_onArgs_refuses hopen hperm (progRead_badValue hf))
    · exact congrArg _ (serve_onArgs_refuses hopen hperm (progRead_notPermitted hf hne hr))
    · exact congrArg _ (serve_asks_waits hopen hperm (progRead_asks hf hr) hn)
    · rw [← hport] at hopen hperm hr ⊢
      exact congrArg _ (serve_asks_granted hopen hperm (progRead_asks hf hr) hn
        (portOp_setPending_progRead s r _ _) fun h => nomatch h.1)
  case write =>
    dsimp only
    rw [← burstOk_iff, ← inUse_iff]
    refine ⟨fun hf => ?_, fun hf hr => ?_, fun hf hr hu => ?_,
      fun hf hr hu => ⟨fun hn => ?_, fun hn => ?_⟩⟩
    · exact congrArg _ (serve_onArgs_refuses hopen rfl (progWrite_badValue hf))
    · exact congrArg _ (serve_onArgs_refuses hopen rfl (progWrite_notPermitted hf hr))
    · exact congrArg _ (serve_onArgs_refuses hopen rfl (progWrite_inUse hf hr hu))
    · exact congrArg _ (serve_asks_waits (p := .sta) hopen rfl (progWrite_asks hf hr hu) hn)
    · exact congrArg _ (serve_asks_granted (p := .sta) hopen rfl (progWrite_asks hf hr hu) hn
        (portOp_setPending_progWrite s .sta _ _) fun h => hu h.2)

end Sys2Proof.Machine
end

section
/-! Proofs of the statements about the Program Cache (04_the_program_cache.md). -/

namespace Sys2Proof.Machine

open Sys2Proof

/-! ### Isolation -/

/-- A request without an object that takes effect answers DONE over the state `t` it leaves. -/
theorem serve_onArgs_does {β : Type} {s t : State} {p : Port} {q : Request}
    {act : β → State → State × Reply} {a : β} {pl : List Byte} (h : s.open_ p)
    (hp : permitted p q = true) (hr : act a s = (t, ⟨.done, pl⟩)) :
    s.serve p q (onArgs (some a) act) = t.answers p .done (Request.all.idxOf q + 1) pl := by
  rw [serve_onArgs h hp, hr]

theorem cacheIsolate_isolated {s : State} {p : Port} (h : s.cache.isolation = .isolated) :
    s.cacheIsolate p = (s, ⟨.done, []⟩) := by
  rw [State.cacheIsolate, h]

theorem cacheIsolate_atOnce {s : State} {p : Port} (h : s.cache.isolation = .normal)
    (hitem : s.merge.item = none) (hfill : s.cache.fill = none) :
    s.cacheIsolate p = (s.setIsolation .isolated, ⟨.done, []⟩) := by
  rw [State.cacheIsolate, h]
  exact if_pos ⟨hitem, hfill⟩

theorem cacheIsolate_waits {s : State} {p : Port} (h : s.cache.isolation = .normal)
    (hbusy : s.merge.item ≠ none ∨ s.cache.fill ≠ none) :
    s.cacheIsolate p =
      ((s.setIsolation .isolating).setPending p (some .cacheIsolate), ⟨.pending, []⟩) := by
  rw [State.cacheIsolate, h]
  exact if_neg (not_and_or.2 hbusy)

theorem cacheInvalidate_badState {s : State} {x : Option LineId}
    (h : s.cache.isolation ≠ .isolated) : s.cacheInvalidate x = refuse .badState s := if_neg h

theorem cacheInvalidate_one {s : State} {k : LineId} (h : s.cache.isolation = .isolated) :
    s.cacheInvalidate (some k) = (s.invalidate k, ⟨.done, []⟩) := if_pos h

theorem cacheInvalidate_all {s : State} (h : s.cache.isolation = .isolated) :
    s.cacheInvalidate none = (s.invalidateAll, ⟨.done, []⟩) := if_pos h

theorem invalidateAll_line (s : State) (k : LineId) :
    s.invalidateAll.line k = { s.line k with valid := false } := by
  simp [State.line, State.invalidateAll]

/-- The object of CACHE_INVALIDATE that names one line (R190). -/
theorem lineOrAll_line {o : Byte} {k : LineId} (h : o.toNat = k.val) :
    lineOrAll o = some (some k) := by
  have hne : o ≠ 255#8 := by
    rintro rfl
    exact absurd (show 255 = k.val from h) (by omega)
  rw [lineOrAll, if_neg hne, Line.ofObject, finOf_eq h]
  rfl

/-- Settles O50. -/
theorem isolationAndInvalidation : Obligations.IsolationAndInvalidation := by
  intro s hopen
  refine ⟨fun h => ?again, fun h hitem hfill => ?atOnce, fun h hbusy => ?waits,
    fun h o ho => ?refused, fun h o k hk => ?one, fun h => ?all⟩
  case again => exact congrArg _ (serve_onArgs_does hopen rfl (cacheIsolate_isolated h))
  case atOnce =>
    exact congrArg _ (serve_onArgs_does hopen rfl (cacheIsolate_atOnce h hitem hfill))
  case waits =>
    refine congrArg Host.Outcome.next ((serve_onArgs hopen rfl ()).trans ?_)
    rw [cacheIsolate_waits h hbusy]
    simp [State.answers, State.setPending, State.setPort, State.setIsolation]
    rfl
  case refused =>
    have hobj : ∃ x, lineOrAll o = some x :=
      Option.ne_none_iff_exists'.1 fun hn => (lineOrAll_none o).1 hn ho
    obtain ⟨x, hx⟩ := hobj
    exact congrArg _ (serve_refuses hopen rfl hx (cacheInvalidate_badState (by simp [h])))
  case one => exact congrArg _ (serve_does hopen rfl (lineOrAll_line hk) (cacheInvalidate_one h))
  case all =>
    exact ⟨s.invalidateAll.answers .sta .done 29 [],
      congrArg Host.Outcome.next (serve_does hopen rfl rfl (cacheInvalidate_all h)),
      invalidateAll_line s, rfl⟩

theorem cacheRelease_releases {s : State} (h : s.cache.isolation = .isolated) :
    s.cacheRelease = (s.setIsolation .normal, ⟨.done, []⟩) := if_pos h

theorem cacheRelease_badState {s : State} (h : s.cache.isolation ≠ .isolated) :
    s.cacheRelease = refuse .badState s := if_neg h

theorem mayAsk_cacheRelease_false {p : Port} (h : p ≠ .sta) : mayAsk p 30 = false := by
  cases p with
  | sta => exact absurd rfl h
  | _ => rfl

theorem mayTake_iff (s : State) :
    s.mayTake = true ↔ s.merge.item = none ∧ s.cache.isolation = .normal := by
  simp [State.mayTake]

theorem powerOn_isolation (s : State) : s.powerOn.cache.isolation = .normal := by
  obtain ⟨m, d, h, -⟩ := powerOn_eq s
  rw [h]
  rfl

/-- TRACK_RESET lets a pending isolation take effect and leaves the state ISOLATED as it is (R22, R70). -/
theorem trackReset_isolated {s : State} (h : s.cache.isolation = .isolated) :
    s.trackReset.cache.isolation = .isolated := by
  obtain ⟨k, a, po, ht⟩ := (trackReset_from s).rest
  rw [ht]
  simp [h]

/-- Settles O51. -/
theorem cacheReleaseEndsIsolation : Obligations.CacheReleaseEndsIsolation := by
  intro s
  refine ⟨fun p hp hopen => ?notPermitted, fun hopen h => ⟨?releases, fun hitem => ?takes⟩,
    fun hopen h => ?refused, fun hpend => ?notTaken, ⟨_, rfl, powerOn_isolation _⟩,
    fun hopen h => ⟨_, exec_trackReset hopen, ?stays⟩⟩
  case notPermitted =>
    exact congrArg _ (serve_notPermitted s p .cacheRelease _ hopen (mayAsk_cacheRelease_false hp))
  case releases => exact congrArg _ (serve_onArgs_does hopen rfl (cacheRelease_releases h))
  case takes => exact (mayTake_iff _).2 ⟨hitem, rfl⟩
  case refused =>
    exact congrArg _ (serve_onArgs_refuses hopen rfl (cacheRelease_badState (by simp [h])))
  case notTaken =>
    exact congrArg Host.Outcome.next (serve_pending s .sta .cacheRelease _ (by simp [hpend]))
  case stays =>
    have hcache := (FrameButGrants.takeDue s [.A, .B]).cache
    exact trackReset_isolated (by rw [hcache]; exact h)

/-! ### A RESULT is taken -/

/-- The oldest item of head `n`'s result queue is taken, and `rest` is left (R96). -/
def State.taken (s : State) (n : HeadId) (rest : List Item) : State :=
  let s1 := s.setLink n { s.link n with results := rest }
  { s1 with merge := { s1.merge with lastServed := n } }

theorem taken_only (s : State) (n : HeadId) (rest : List Item) : ∃ k a, s.taken n rest =
    { s with links := k, alerts := a, merge := { s.merge with lastServed := n } } := by
  obtain ⟨a, h⟩ := setLink_only s n { s.link n with results := rest }
  refine ⟨s.links.set n { s.link n with results := rest }, a, ?_⟩
  rw [State.taken, h]

theorem taken_slots (s : State) (n : HeadId) (rest : List Item) :
    (s.taken n rest).slots = s.slots := by
  obtain ⟨k, a, h⟩ := taken_only s n rest
  rw [h]

theorem taken_directory (s : State) (n : HeadId) (rest : List Item) :
    (s.taken n rest).directory = s.directory := by
  obtain ⟨k, a, h⟩ := taken_only s n rest
  rw [h]

@[simp] theorem taken_cache (s : State) (n : HeadId) (rest : List Item) :
    (s.taken n rest).cache = s.cache := by
  obtain ⟨k, a, h⟩ := taken_only s n rest
  rw [h]

@[simp] theorem taken_arbiter (s : State) (n : HeadId) (rest : List Item) :
    (s.taken n rest).arbiter = s.arbiter := by
  obtain ⟨k, a, h⟩ := taken_only s n rest
  rw [h]

@[simp] theorem taken_board (s : State) (n : HeadId) (rest : List Item) (i : Slot) :
    (s.taken n rest).board i = s.board i := by
  rw [State.board, taken_slots]
  rfl

@[simp] theorem taken_line (s : State) (n : HeadId) (rest : List Item) (k : LineId) :
    (s.taken n rest).line k = s.line k := by
  rw [State.line, taken_cache]
  rfl

@[simp] theorem taken_slotOfTag (s : State) (n : HeadId) (rest : List Item) (t : Tag) :
    (s.taken n rest).slotOfTag t = s.slotOfTag t := by
  simp [State.slotOfTag]

@[simp] theorem taken_entryOf (s : State) (n : HeadId) (rest : List Item) (r : Record) :
    (s.taken n rest).entryOf r = s.entryOf r := by
  simp [State.entryOf, State.dir, taken_directory]

/-- The head has taken its trigger and is not final, so an item for it is applied (R88). -/
def Record.HeadOpen (r : Record) (n : HeadId) : Prop :=
  r.headStatus n = .taken ∨ r.headStatus n = .reporting

theorem Record.HeadOpen.not_final {r : Record} {n : HeadId} (h : r.HeadOpen n) :
    (r.headStatus n).isFinal = false := by
  rcases h with h | h <;> rw [h] <;> rfl

theorem tag_of_slotOfTag {s : State} {t : Tag} {i : Slot} {r : Record}
    (h : s.slotOfTag t = some i) (hr : s.board i = some r) : r.tag = t := by
  obtain ⟨x, hx, htag⟩ := board_of_slotOfTag h
  rwa [Option.some.inj (hr.symm.trans hx)]

/-- An item of a live record whose head is TAKEN or REPORTING is applied (R88). -/
theorem settle_applies {s : State} {n : HeadId} {x : Item} {i : Slot} {r : Record}
    (htag : s.slotOfTag (Item.tag x) = some i) (hr : s.board i = some r)
    (hn : r.HeadOpen n) : s.settle n x = s.applyItem n i r x := by
  rw [State.settle, htag]
  dsimp only
  rw [hr]
  dsimp only
  rcases hn with hn | hn <;> rw [hn]

/-- A RESULT above last_passed walks its list (R100, R101). -/
theorem applyItem_result_walks {s : State} {n : HeadId} {i : Slot} {r : Record} {t : Tag}
    {joint : JointId} {grade : Grade} {cls : Option DefectClass} {value : Value}
    (habove : ∀ last, (r.heads.get n).lastPassed = some last → last < joint) :
    s.applyItem n i r (.result t joint grade cls value) =
      s.walk ⟨n, i, t, joint, grade, cls, value, []⟩ := by
  rw [State.applyItem]
  split
  · rename_i last hlast
    exact if_neg (BitVec.not_le.2 (habove last hlast))
  · rfl

/-! ### One step of a walk -/

section Walking

variable {s : State} {x : InFlight} {r : Record} {e : DirEntry}

theorem nextEntry_inside (hr : s.board x.slot = some r) (he : s.entryOf r = some e)
    (h : x.cursor r < e.listLength.get x.head) :
    s.nextEntry x = some (e.listBase.get x.head + 8 * x.cursor r) := by
  rw [State.nextEntry, hr]
  dsimp only
  rw [he]
  exact if_pos h

theorem nextEntry_atEnd (hr : s.board x.slot = some r) (he : s.entryOf r = some e)
    (h : e.listLength.get x.head ≤ x.cursor r) : s.nextEntry x = none := by
  rw [State.nextEntry, hr]
  dsimp only
  rw [he]
  exact if_neg (Nat.not_lt.2 h)

theorem walk_ends (h : s.nextEntry x = none) : s.walk x = s.finish x none .notInProgram := by
  rw [walk_eq, h]

/-- A walk whose request is kept waiting is in flight (R98). -/
theorem walk_waits {u : State} {a : Nat} (h : s.nextEntry x = some a)
    (hreq : s.cacheRequest a = (u, none)) :
    s.walk x = { u with merge := { u.merge with item := some x } } := by
  rw [walk_eq, h]
  dsimp only
  rw [hreq]

/-- A walk goes on from an entry supplied and skipped (R101). -/
theorem walk_supplied {u : State} {a : Nat} {raw : List Byte} (h : s.nextEntry x = some a)
    (hreq : s.cacheRequest a = (u, some raw)) :
    s.walk x = match u.supply x raw with
      | (v, none) => v
      | (v, some y) => v.walk y := by
  have hstep := walk_eq s x
  rw [h] at hstep
  dsimp only at hstep
  rw [hreq] at hstep
  exact hstep

/-- A fill in flight keeps every other entry request waiting (R63). -/
theorem cacheRequest_filling {a : Nat} (h : s.cache.fill ≠ none) :
    s.cacheRequest a = ({ s with cache := { s.cache with waiting := some a } }, none) := by
  obtain ⟨f, hf⟩ := Option.ne_none_iff_exists'.1 h
  rw [State.cacheRequest, hf]

theorem cached_eq_true {a : Nat} (hv : (s.line (cacheIndex a)).valid = true)
    (ht : (s.line (cacheIndex a)).tag = a / 8192) : s.cached a = true := by
  simp [State.cached, cacheTag, hv, ht]

theorem cached_eq_false {a : Nat} (h : (s.line (cacheIndex a)).valid = false ∨
    (s.line (cacheIndex a)).tag ≠ a / 8192) : s.cached a = false := by
  rcases h with h | h <;> simp [State.cached, cacheTag, h]

/-- What a walk leaves that misses at `a` with no fill in flight: the line off, a fill requested, the request
waiting and the item in flight (R62, R63, R98). -/
def State.missed (s : State) (x : InFlight) (a : Nat) : State :=
  { s with
    merge := { s.merge with item := some x }
    cache := { s.cache with
      lines := s.cache.lines.set (cacheIndex a) { s.line (cacheIndex a) with valid := false }
      fill := some ⟨cacheIndex a, a / 8192, false⟩
      waiting := some a } }

theorem walk_misses {a : Nat} (h : s.nextEntry x = some a) (hf : s.cache.fill = none)
    (hc : s.cached a = false) : s.walk x = s.missed x a :=
  walk_waits h (cacheRequest_miss hf hc)

/-- The fill of a miss is the operation in flight at once where the arbiter is idle (R148; log entry 9). -/
theorem thenGrant_missed (s u : State) (x : InFlight) (a : Nat) (h : u.arbiter = s.arbiter) :
    s.thenGrant (u.missed x a) = { u.missed x a with
      arbiter := if s.arbiter.op = none ∧ s.grantDue = false then
          { s.arbiter with
            op := some ⟨.cache, .fill, a / 8192 * 8192 + (cacheIndex a).val * 64, 64⟩ }
        else s.arbiter } := by
  have harb : (u.missed x a).arbiter = s.arbiter := h
  by_cases hop : s.arbiter.op = none
  · have hdue : (u.missed x a).grantDue = true :=
      (grantDue_iff _).2 ⟨by rw [harb]; exact hop, .inl (Option.some_ne_none _)⟩
    cases hs : s.grantDue with
    | false =>
      rw [if_pos ⟨hop, rfl⟩, thenGrant_due hdue hs,
        grant_fill (by rw [harb]; exact hop) rfl, State.startOp, harb]
      rfl
    | true =>
      rw [if_neg (by simp), thenGrant_of_not fun _ => hs, ← harb]
  · rw [if_neg fun h => hop h.1, thenGrant_busy (by rw [harb]; exact hop), ← harb]

/-! ### An entry that names the joint -/

/-- An entry in order that names the item's joint matches (R101). -/
theorem judge_matched {raw : List Byte} {y : HeadEntry} (hraw : HeadEntry.ofBytes raw = some y)
    (horder : ∀ q, x.previous r = some q → q < y.joint) (hj : y.joint = x.joint) :
    x.judge r raw = .matched y := by
  have hprev : (x.previous r).any (fun p => decide (y.joint ≤ p)) = false := by
    rw [Option.any_eq_false]
    exact fun q hq => decide_eq_false (BitVec.not_le.2 (horder q hq))
  rw [InFlight.judge, hraw]
  dsimp only
  rw [if_neg (by simp [hprev]), if_neg (by simp [hj]), if_pos hj]

theorem supply_matched {raw : List Byte} {y : HeadEntry} (hr : s.board x.slot = some r)
    (htag : r.tag = x.tag) (hn : (r.headStatus x.head).isFinal = false)
    (hj : x.judge r raw = .matched y) : s.supply x raw = (s.finish x (some y) .matched, none) := by
  rw [State.supply, hr]
  dsimp only
  rw [if_neg (not_not.2 htag), if_neg (by simp [hn]), hj]

theorem setStatus_self (r : Record) (n : HeadId) : r.setStatus n (r.headStatus n) = r := by
  show { r with heads := r.heads.set n (r.heads.get n) } = r
  rw [PerHead.set_get]

/-- A head that is TAKEN or REPORTING is REPORTING (R107, step 1). -/
theorem reporting_of_open {n : HeadId} (h : r.HeadOpen n) :
    r.reporting n = r.setStatus n .reporting := by
  rcases h with h | h
  · exact if_pos h
  · rw [Record.reporting, if_neg (by simp [h]), ← h, setStatus_self]

theorem idle_of_frame {A : Slot → Prop} {u : State} (h : Frame A s u) :
    u.idle = { u with merge := ⟨none, s.merge.lastServed⟩ } := by
  rw [State.idle, h.merge]

theorem applyRules_any {i : Slot} {y : HeadEntry} {p : Report} (h : y.rule = .any) :
    s.applyRules i [(y, p)] = s.resolveAlone .mergeEngine i y.joint p := by
  simp [State.applyRules, State.applyRule, h]

/-- What an item leaves that is matched by its first entry, `y` of rule ANY: its report is resolved alone, and
cursor and last_passed move on (R107, R109). -/
def State.firstAny (s : State) (x : InFlight) (r : Record) (y : HeadEntry) : State :=
  let done := (s.setBoard x.slot (some (r.setStatus x.head .reporting))).resolveAlone .mergeEngine
    x.slot y.joint (x.hit y)
  { State.recordFaults (done.1.modBoard x.slot fun z => z.modHead x.head fun h =>
      { h with cursor := h.cursor + 1, lastPassed := some y.joint }) done.2 with
    merge := ⟨none, s.merge.lastServed⟩ }

theorem finish_firstAny {y : HeadEntry} (hr : s.board x.slot = some r) (hwalk : x.walk = [])
    (hn : r.HeadOpen x.head) (hrule : y.rule = .any) :
    s.finish x (some y) .matched = s.firstAny x r y := by
  have hpassed : x.passed (some y) = [(y, x.hit y)] := by simp [InFlight.passed, hwalk]
  have hset : Tracks (fun _ => True) s
      (s.setBoard x.slot (some (r.setStatus x.head .reporting))) :=
    .setBoard trivial s _ fun z hz => ⟨r, hr, by cases hz; exact ⟨rfl, rfl, rfl, rfl, rfl⟩⟩
  have halone := hset.trans (.resolveAlone (i := x.slot) trivial _ .mergeEngine y.joint (x.hit y))
  rw [State.finish, hr]
  dsimp only
  rw [hpassed, modBoard_some hr, reporting_of_open hn, applyRules_any hrule]
  refine idle_of_frame (halone.trans (Tracks.trans ?_ (.recordFaults _ _))).frame
  exact .modBoard trivial _ _ fun z => ⟨rfl, rfl, rfl, rfl, rfl⟩

/-- The walk of an item whose first entry is cached, names its joint and has the rule ANY (R101, R107). -/
theorem walk_firstAny {a : Nat} {y : HeadEntry} (hnext : s.nextEntry x = some a)
    (hf : s.cache.fill = none) (hc : s.cached a = true) (hr : s.board x.slot = some r)
    (htag : r.tag = x.tag) (hn : r.HeadOpen x.head) (hwalk : x.walk = [])
    (hraw : HeadEntry.ofBytes ((s.line (cacheIndex a)).entryAt a) = some y)
    (habove : ∀ last, (r.heads.get x.head).lastPassed = some last → last < y.joint)
    (hj : y.joint = x.joint) (hrule : y.rule = .any) : s.walk x = s.firstAny x r y := by
  have horder : ∀ q, x.previous r = some q → q < y.joint := by
    rw [InFlight.previous, hwalk]
    exact habove
  rw [walk_supplied hnext (cacheRequest_supplies hf hc),
    supply_matched hr htag hn.not_final (judge_matched hraw horder hj)]
  exact finish_firstAny hr hwalk hn hrule

end Walking

section Taking

variable {s : State} {n : HeadId} {t : Tag} {joint : JointId} {grade : Grade}
  {cls : Option DefectClass} {value : Value} {rest : List Item} {i : Slot} {r : Record}

/-- A RESULT taken for a head that is TAKEN or REPORTING starts its walk, and the grant follows (R88, R98). -/
theorem exec_mergeTakeItem_walks (hitem : s.merge.item = none) (hiso : s.cache.isolation = .normal)
    (hfind : (roundRobin s.merge.lastServed).find? s.eligible = some n)
    (hres : (s.link n).results = .result t joint grade cls value :: rest)
    (htag : s.slotOfTag t = some i) (hr : s.board i = some r) (hn : r.HeadOpen n)
    (habove : ∀ last, (r.heads.get n).lastPassed = some last → last < joint) :
    exec .mergeTakeItem s = .next (s.thenGrant
      ((s.taken n rest).walk ⟨n, i, t, joint, grade, cls, value, []⟩)) := by
  have htake : s.mergeTake = (s.taken n rest).settle n (.result t joint grade cls value) :=
    mergeTake_eq hitem hiso hfind hres
  show Host.Outcome.next (s.thenGrant s.mergeTake) = _
  rw [htake, settle_applies ((taken_slotOfTag s n rest t).trans htag)
    ((taken_board s n rest i).trans hr) hn,
    applyItem_result_walks habove]

end Taking

/-- Settles O32: the branches of `walk_eq`, and a first entry that is missed or matched. -/
theorem resultWalksTheList : Obligations.ResultWalksTheList := by
  refine ⟨fun s n t joint grade cls value rest i r hitem hiso hfind hres htag hr hn habove =>
      exec_mergeTakeItem_walks hitem hiso hfind hres htag hr hn habove,
    fun s x r e hr he => ⟨fun h => ?atEnd, fun h hf => ?waits, fun h hf =>
      ⟨fun hmiss => ?misses, fun hv ht => ?supplied⟩⟩,
    fun s n t joint grade cls value rest i r e hitem hiso hfind hres htag hr hn habove he hin hf =>
      ?first⟩
  case atEnd => exact walk_ends (nextEntry_atEnd hr he h)
  case waits => exact walk_waits (nextEntry_inside hr he h) (cacheRequest_filling hf)
  case misses => exact walk_misses (nextEntry_inside hr he h) hf (cached_eq_false hmiss)
  case supplied =>
    exact walk_supplied (nextEntry_inside hr he h) (cacheRequest_supplies hf (cached_eq_true hv ht))
  case first =>
    have hexec := exec_mergeTakeItem_walks hitem hiso hfind hres htag hr hn habove
    have hboard := (taken_board s n rest i).trans hr
    have hfill : (s.taken n rest).cache.fill = none := by rw [taken_cache, hf]
    have hnext : (s.taken n rest).nextEntry ⟨n, i, t, joint, grade, cls, value, []⟩ =
        some (e.listBase.get n + 8 * (r.heads.get n).cursor) :=
      nextEntry_inside hboard ((taken_entryOf s n rest r).trans he) hin
    refine ⟨fun hmiss => ?miss, fun entry hv ht hraw hjoint hrule => ?hit⟩
    case miss =>
      have hcached := cached_eq_false (s := s.taken n rest) (by rw [taken_line]; exact hmiss)
      rw [hexec, walk_misses hnext hfill hcached,
        thenGrant_missed s _ _ _ (taken_arbiter s n rest), State.missed, taken_cache, taken_line]
      rfl
    case hit =>
      subst hjoint
      have hcached := cached_eq_true (s := s.taken n rest) (by rw [taken_line]; exact hv)
        (by rw [taken_line]; exact ht)
      have hwalk := walk_firstAny hnext hfill hcached hboard (tag_of_slotOfTag htag hr) hn rfl
        (by rw [taken_line]; exact hraw) habove rfl hrule
      rw [hexec, hwalk]
      rfl

end Sys2Proof.Machine
end

section
/-! Proofs of the statements about the Head Links (05_head_links.md). -/

namespace Sys2Proof.Machine

open Sys2Proof

/-! ### A head that becomes final, and the armed events of Head Links -/

section Final

variable {s : State} {i : Slot} {r : Record}

/-- A head that becomes final other than by close, status by status (R83). -/
theorem markFinal_complete (h : s.board i = some r) (n : HeadId) :
    s.markFinal i n .complete =
      s.setBoard i (some ((r.setStatus n .complete).disarm (.headLimit n))) :=
  modBoard_some h _

theorem markFinal_late (h : s.board i = some r) (n : HeadId) :
    s.markFinal i n .late =
      s.setBoard i (some (((r.setStatus n .late).disarm (.headLimit n)).addFlag .headLate)) :=
  modBoard_some h _

theorem markFinal_faulted (h : s.board i = some r) (n : HeadId) :
    s.markFinal i n .faulted =
      s.setBoard i (some (((r.setStatus n .faulted).disarm (.headLimit n)).addFlag .headFaulted)) :=
  modBoard_some h _

end Final

/-- The command of an event that is armed and due: the event leaves the schedule, its owner acts, and the
grant follows (R37, R148). -/
theorem exec_command_due {s : State} {e : ScheduledEvent} {r : Record} {t : Pos}
    (hr : s.board e.slot = some r) (ht : r.targetOf e.kind = some t)
    (hdue : due (s.lane r.lane).counter t = true) :
    exec e.command s = .next (s.thenGrant
      (e.act (r.disarm e.kind) t (s.setBoard e.slot (some (r.disarm e.kind))))) := by
  rw [exec_command, handOverAny_eq, takeEvent_due _ hr ht hdue]

/-! ### HEAD_OPEN -/

theorem setBoard_setRawLink (s : State) (i : Slot) (x : Option Record) (n : HeadId) (k : Link) :
    (s.setBoard i x).setRawLink n k = (s.setRawLink n k).setBoard i x := rfl

/-- A Head Link written and a board written ask the arbiter for nothing. -/
theorem AsksNothing.setRawLink (s : State) (n : HeadId) (x : Link) :
    AsksNothing s (s.setRawLink n x) := .same rfl rfl rfl rfl

theorem AsksNothing.setBoard (s : State) (i : Slot) (x : Option Record) :
    AsksNothing s (s.setBoard i x) := .same rfl rfl rfl rfl

section HeadOpen

variable {s : State} {i : Slot} {n : HeadId} {r : Record} {t : Pos}

/-- HEAD_OPEN of a WAITING head with room in the trigger queue: the trigger joins the tail, and the head is
TRIGGERED (R76, R77). -/
theorem headOpenAct_places {k : RecipeId} {e : DirEntry} (hr : s.board i = some r)
    (hw : r.headStatus n = .waiting) (hk : r.recipe = some k) (he : s.entryOf r = some e)
    (hroom : (s.link n).triggers.length < 8) :
    headOpenAct i n r t s = (s.setRawLink n
      { s.link n with triggers := (s.link n).triggers ++ [r.triggerOf n k e] }).setBoard i
        (some (r.setStatus n .triggered)) := by
  have hplace : headOpenAct i n r t s = headOpenAct.place i n r s := by
    rw [headOpenAct, if_neg (not_not.2 hw)]
    cases hq : (s.link n).triggers with
    | nil => rfl
    | cons q rest => exact if_pos (hq ▸ hroom)
  rw [hplace, headOpenAct.place, hk, he]
  dsimp only
  exact modBoard_some (s := s.setRawLink n _) hr _

/-- The fault of a trigger overrun, `q` the oldest trigger of the full queue (R78). -/
def overrunFault (i : Slot) (n : HeadId) (r : Record) (t : Pos) (q : Trigger) : FaultRec :=
  { cause := .triggerOverrun, source := .headLink, lane := some r.lane, tag := some r.tag,
    slot := some i, head := some n, position := some t, detail := q.tag.toNat }

/-- HEAD_OPEN of a WAITING head with 8 triggers in the queue (R78). -/
theorem headOpenAct_overruns {q : Trigger} {rest : List Trigger} (hr : s.board i = some r)
    (hw : r.headStatus n = .waiting) (hq : (s.link n).triggers = q :: rest)
    (hfull : 8 ≤ (q :: rest).length) :
    headOpenAct i n r t s = State.closeCheck (State.recordFault
      (s.setBoard i (some (((r.setStatus n .faulted).disarm (.headLimit n)).addFlag .headFaulted)))
      (overrunFault i n r t q)) i := by
  rw [headOpenAct, if_neg (not_not.2 hw), hq, ← markFinal_faulted hr]
  exact if_neg (Nat.not_lt.2 hfull)

end HeadOpen

/-- Settles O25: a trigger placed asks the arbiter for nothing, and an overrun is followed by the grant. -/
theorem headOpenPlacesOrOverruns : Obligations.HeadOpenPlacesOrOverruns := by
  intro s i n r t k e hr ht hdue hw hk he
  have hboard := board_setBoard_self s i (some (r.disarm (.headOpen n)))
  have hexec : exec (.headOpen i n) s = .next (s.thenGrant (headOpenAct i n (r.disarm (.headOpen n)) t
      (s.setBoard i (some (r.disarm (.headOpen n)))))) :=
    exec_command_due (e := ⟨i, .headOpen n⟩) hr ht hdue
  refine ⟨fun hroom => hexec.trans (congrArg Host.Outcome.next ?places),
    fun q rest hq hfull => hexec.trans (congrArg Host.Outcome.next ?overruns)⟩
  case places =>
    rw [headOpenAct_places hboard hw hk he hroom, setBoard_setRawLink, setBoard_setBoard]
    exact ((AsksNothing.setRawLink s n _).trans (.setBoard _ i _)).thenGrant
  case overruns =>
    rw [headOpenAct_overruns hboard hw hq hfull, setBoard_setBoard]
    rfl

/-! ### HEAD_LIMIT and DEADLINE -/

/-- HEAD_LIMIT of a head with an open trigger: an untaken trigger is removed and the head is LATE (R84). -/
theorem headLimitAct_late {s : State} {i : Slot} {n : HeadId} {r : Record} {t : Pos}
    (hr : s.board i = some r)
    (hn : r.headStatus n = .triggered ∨ r.headStatus n = .taken ∨ r.headStatus n = .reporting) :
    headLimitAct i n r t s = State.closeCheck
      { s.setBoard i (some (((r.setStatus n .late).disarm (.headLimit n)).addFlag .headLate)) with
        links := if r.headStatus n = .triggered then s.links.set n ((s.link n).without r.tag)
          else s.links } i := by
  unfold headLimitAct
  rcases hn with hn | hn | hn <;> rw [hn]
  · dsimp only
    rw [markFinal_late (s := s.dropTrigger n r.tag) hr]
    rfl
  · exact congrArg (·.closeCheck i) (markFinal_late hr n)
  · exact congrArg (·.closeCheck i) (markFinal_late hr n)

/-- An event disarmed twice is disarmed once. -/
theorem disarm_disarm (r : Record) (k : EventKind) : (r.disarm k).disarm k = r.disarm k := by
  simp only [Record.disarm, List.filter_filter, Bool.and_self]

theorem closeIfOpen_closes {s : State} {i : Slot} {r : Record} (hr : s.board i = some r)
    (hst : r.state = .entering ∨ r.state = .inspecting) : s.closeIfOpen i = s.close i := by
  rw [State.closeIfOpen, hr]
  exact if_pos hst

/-- Settles O26: each of the two events is taken by its owner, which ends the head or closes the record. -/
theorem headLimitAndDeadline : Obligations.HeadLimitAndDeadline := by
  refine ⟨fun s i n r t hr ht hdue hn => ?limit, fun s i r t hr ht hdue hst => ?deadline⟩
  case limit =>
    refine (exec_command_due (e := ⟨i, .headLimit n⟩) hr ht hdue).trans ?_
    have hrecord : ((r.disarm (.headLimit n)).setStatus n .late).disarm (.headLimit n) =
        (r.disarm (.headLimit n)).setStatus n .late :=
      congrArg (·.setStatus n .late) (disarm_disarm r (.headLimit n))
    dsimp only [ScheduledEvent.act]
    rw [headLimitAct_late (board_setBoard_self s i (some (r.disarm (.headLimit n)))) hn, hrecord,
      setBoard_setBoard]
    rfl
  case deadline =>
    refine (exec_command_due (e := ⟨i, .deadline⟩) hr ht hdue).trans ?_
    dsimp only [ScheduledEvent.act]
    rw [deadlineAct, closeIfOpen_closes (board_setBoard_self _ _ _) (by exact hst)]
    rfl

/-! ### The result queues -/

/-- The final statuses (R82). -/
theorem isFinal_iff (x : HeadStatus) : x.isFinal = true ↔
    x = .complete ∨ x = .late ∨ x = .faulted ∨ x = .absent ∨ x = .notRequired := by
  cases x <;> decide

section Settling

variable {s : State} {n : HeadId} {x : Item} {i : Slot} {r : Record}

/-- An item whose tag no live record carries is stray (R88). -/
theorem settle_stray (htag : s.slotOfTag (Item.tag x) = none) :
    s.settle n x = s.recordFault (strayFault n (Item.tag x) (Item.joint x) (Item.kind x)) := by
  rw [State.settle, htag]

/-- An item for a head that has not taken its trigger is early (R88). -/
theorem settle_early (htag : s.slotOfTag (Item.tag x) = some i) (hr : s.board i = some r)
    (hn : r.headStatus n = .waiting ∨ r.headStatus n = .triggered) :
    s.settle n x = s.recordFault (earlyFault n i r x) := by
  rw [State.settle, htag]
  dsimp only
  rw [hr]
  dsimp only
  rcases hn with hn | hn <;> rw [hn]

/-- An item for a final head is discarded (R88). -/
theorem settle_final (htag : s.slotOfTag (Item.tag x) = some i) (hr : s.board i = some r)
    (hn : (r.headStatus n).isFinal = true) : s.settle n x = s.discard i n := by
  rw [State.settle, htag]
  dsimp only
  rw [hr]
  dsimp only
  rcases (isFinal_iff _).1 hn with hn | hn | hn | hn | hn <;> rw [hn]

/-- A RESULT at or below last_passed is out of sequence (R100). -/
theorem applyItem_result_below {t : Tag} {joint last : JointId} {grade : Grade}
    {cls : Option DefectClass} {value : Value} (hlast : (r.heads.get n).lastPassed = some last)
    (hle : joint ≤ last) :
    s.applyItem n i r (.result t joint grade cls value) =
      s.recordFault (sequenceFault n i r joint last) := by
  rw [State.applyItem, hlast]
  exact if_pos hle

/-- One more discarded item of a head, held at 65535 (R88). -/
theorem discard_eq (hr : s.board i = some r) : s.discard i n = s.setBoard i (some { r with
    heads := r.heads.set n { r.heads.get n with
      discarded := min ((r.heads.get n).discarded + 1) 65535 } }) := modBoard_some hr _

end Settling

/-! ### MERGE_TAKE_ITEM -/

theorem AsksNothing.taken (s : State) (n : HeadId) (rest : List Item) :
    AsksNothing s (s.taken n rest) :=
  (AsksNothing.setLink s n _).trans (.same rfl rfl rfl rfl)

/-- Nothing is taken where the engine is not idle, the cache not in NORMAL or no queue eligible (R96). -/
theorem mergeTake_nothing {s : State}
    (h : s.merge.item ≠ none ∨ s.cache.isolation ≠ .normal ∨ ∀ n, s.eligible n = false) :
    s.mergeTake = s := by
  unfold State.mergeTake
  by_cases hmay : s.mayTake = true
  · obtain ⟨hitem, hiso⟩ := (mayTake_iff s).1 hmay
    have hnone : ∀ n, s.eligible n = false := (h.resolve_left (not_not.2 hitem)).resolve_left
      (not_not.2 hiso)
    have hfind : (roundRobin s.merge.lastServed).find? s.eligible = none :=
      List.find?_eq_none.2 fun n _ => by simp [hnone n]
    rw [if_pos hmay, hfind]
  · exact if_neg hmay

section MergeTake

variable {s : State} {n : HeadId} {x : Item} {rest : List Item}

/-- The idle engine takes the item `x`, settles it, and the grant follows (R96, R148). -/
theorem exec_mergeTakeItem_settles (hitem : s.merge.item = none)
    (hiso : s.cache.isolation = .normal)
    (hfind : (roundRobin s.merge.lastServed).find? s.eligible = some n)
    (hres : (s.link n).results = x :: rest) :
    exec .mergeTakeItem s = .next (s.thenGrant ((s.taken n rest).settle n x)) :=
  congrArg (fun u => Host.Outcome.next (s.thenGrant u)) (mergeTake_eq hitem hiso hfind hres)

/-- Where settling the item asks the arbiter for nothing, no grant follows. -/
theorem exec_mergeTakeItem_quietly {u : State} (hitem : s.merge.item = none)
    (hiso : s.cache.isolation = .normal)
    (hfind : (roundRobin s.merge.lastServed).find? s.eligible = some n)
    (hres : (s.link n).results = x :: rest) (hsettle : (s.taken n rest).settle n x = u)
    (hquiet : AsksNothing (s.taken n rest) u) : exec .mergeTakeItem s = .next u := by
  rw [exec_mergeTakeItem_settles hitem hiso hfind hres, hsettle,
    ((AsksNothing.taken s n rest).trans hquiet).thenGrant]

end MergeTake

/-- Settles O30: DONE and ABORT are applied to the state with the item taken. -/
theorem mergeTakesDoneAndAbort : Obligations.MergeTakesDoneAndAbort := by
  intro s n x rest i r hitem hiso hfind hres htag hr hn
  have hboard := (taken_board s n rest i).trans hr
  have hexec := exec_mergeTakeItem_settles hitem hiso hfind hres
  rw [settle_applies ((taken_slotOfTag s n rest _).trans htag) hboard hn] at hexec
  refine ⟨fun t hx => ?done, fun t reason hx => ?abort⟩ <;> subst hx
  case done =>
    rw [hexec, State.applyItem, markFinal_complete hboard]
    rfl
  case abort =>
    rw [hexec, State.applyItem, markFinal_faulted hboard]
    rfl

/-- Settles O31: each item dropped is settled without a request for the arbiter. -/
theorem mergeDropsWhatItCannotApply : Obligations.MergeDropsWhatItCannotApply := by
  refine ⟨fun s h => ?nothing, fun s n x rest hitem hiso hfind hres =>
    ⟨fun htag => ?stray, fun i r htag hr => ?live⟩⟩
  case nothing =>
    show Host.Outcome.next (s.thenGrant s.mergeTake) = _
    rw [mergeTake_nothing h, thenGrant_self]
  case stray =>
    exact exec_mergeTakeItem_quietly hitem hiso hfind hres
      (settle_stray ((taken_slotOfTag s n rest _).trans htag)) (.recordFault _ _)
  case live =>
    have hlive := (taken_slotOfTag s n rest (Item.tag x)).trans htag
    have hboard := (taken_board s n rest i).trans hr
    refine ⟨fun hn => ?early, fun hn => ?final, fun t joint grade cls value last hx hn hlast hle =>
      ?sequence⟩
    case early =>
      exact exec_mergeTakeItem_quietly hitem hiso hfind hres (settle_early hlive hboard hn)
        (.recordFault _ _)
    case final =>
      exact exec_mergeTakeItem_quietly hitem hiso hfind hres
        ((settle_final hlive hboard hn).trans (discard_eq hboard)) (.setBoard _ i _)
    case sequence =>
      subst hx
      exact exec_mergeTakeItem_quietly hitem hiso hfind hres
        ((settle_applies hlive hboard hn).trans (applyItem_result_below hlast hle))
        (.recordFault _ _)

/-! ### An entry supplied to a walk -/

section Judging

variable {x : InFlight} {r : Record} {raw : List Byte} {e : HeadEntry}

/-- Entries judged, by the steps of R101; `judge_matched` is the one that names the joint. -/
theorem judge_programCheck (hraw : HeadEntry.ofBytes raw = none) :
    x.judge r raw = .stops .programCheck := by
  rw [InFlight.judge, hraw]

theorem judge_programOrder {q : JointId} (hraw : HeadEntry.ofBytes raw = some e)
    (hq : x.previous r = some q) (hle : e.joint ≤ q) : x.judge r raw = .stops .programOrder := by
  rw [InFlight.judge, hraw]
  exact if_pos (by simp [hq, hle])

/-- An entry in order is judged by its joint and the item's. -/
theorem judge_ordered (hraw : HeadEntry.ofBytes raw = some e)
    (horder : ∀ q, x.previous r = some q → q < e.joint) :
    x.judge r raw = if e.joint < x.joint then .skipped e
      else if e.joint = x.joint then .matched e else .stops .notInProgram := by
  have hprev : (x.previous r).any (fun p => decide (e.joint ≤ p)) = false := by
    rw [Option.any_eq_false]
    exact fun q hq => decide_eq_false (BitVec.not_le.2 (horder q hq))
  rw [InFlight.judge, hraw]
  exact if_neg (by simp [hprev])

end Judging

theorem recordFault_idle (s : State) (f : FaultRec) :
    (s.recordFault f).idle = s.idle.recordFault f := by
  rw [State.recordFault, apply_ite State.idle]
  rfl

section Supplying

variable {s : State} {x : InFlight} {r : Record} {raw : List Byte}

/-- The item in flight is stray where its slot no longer holds its tag (R99, R88). -/
theorem supply_stray (h : ∀ r, s.board x.slot = some r → r.tag ≠ x.tag) :
    s.supply x raw = (s.idle.recordFault (strayFault x.head x.tag (some x.joint) 0), none) := by
  rw [← recordFault_idle, State.supply]
  cases hr : s.board x.slot with
  | none => rfl
  | some r => exact if_pos (h r hr)

/-- The item in flight is discarded where its head has become final (R99, R88). -/
theorem supply_final (hr : s.board x.slot = some r) (htag : r.tag = x.tag)
    (hn : (r.headStatus x.head).isFinal = true) :
    s.supply x raw = ((s.discard x.slot x.head).idle, none) := by
  rw [State.supply, hr]
  dsimp only
  rw [if_neg (not_not.2 htag), if_pos hn]

/-- An entry supplied for an item still in place leads to what it is judged to be (R101). -/
theorem supply_judged (hr : s.board x.slot = some r) (htag : r.tag = x.tag)
    (hn : (r.headStatus x.head).isFinal = false) :
    s.supply x raw = match x.judge r raw with
      | .skipped e => (s, some (x.extend r e))
      | .matched e => (s.finish x (some e) .matched, none)
      | .stops w => (s.finish x none w, none) := by
  rw [State.supply, hr]
  dsimp only
  rw [if_neg (not_not.2 htag)]
  exact if_neg (by simp [hn])

end Supplying

/-! ### The finish of an item -/

theorem passed_none (x : InFlight) :
    x.passed none = x.walk.map fun w => (w.entry, x.skip w.entry) := List.append_nil _

/-- The entries `ps` go through their rules with the head REPORTING, and its cursor and last_passed move past
them; with the faults of the rules (R107, steps 1 to 3). -/
def State.passEntries (s : State) (x : InFlight) (r : Record) (ps : List (HeadEntry × Report)) :
    State × List FaultRec :=
  let a := (s.setBoard x.slot (some (r.reporting x.head))).applyRules x.slot ps
  (a.1.modBoard x.slot fun y => y.modHead x.head fun h => h.advance ps, a.2)

/-- The finish of an item of a live record: its entries passed, the walk's end, then the faults (R107). -/
theorem finish_live {s : State} {x : InFlight} {r : Record} (hr : s.board x.slot = some r)
    (m : Option HeadEntry) (w : WalkEnd) :
    s.finish x m w =
      let p := s.passEntries x r (x.passed m)
      ((p.1.walkFault x w).recordFaults
        (w.fault x r ((r.heads.get x.head).cursor + (x.passed m).length) ++ p.2)).idle := by
  rw [State.finish, hr]
  dsimp only
  rw [modBoard_some hr]
  rfl

/-- Settles O33: the entry judged, the item supplied, the rules in turn, and the finish for each end of a
walk, with and without a matched entry. -/
theorem suppliedEntryIsExaminedAndJudged : Obligations.SuppliedEntryIsExaminedAndJudged := by
  refine ⟨fun x r raw => ⟨judge_programCheck, fun e hraw => ?judged⟩,
    fun s x raw => ⟨supply_stray, fun r hr htag => ?supplied⟩,
    fun s i => ⟨rfl, fun e p rest => rfl⟩, fun s x m r hr => ?finished⟩
  case judged =>
    refine ⟨fun ⟨q, hq, hle⟩ => judge_programOrder hraw hq hle, fun horder =>
      ⟨fun hlt => ?skipped, judge_matched hraw horder, fun hgt => ?above⟩⟩
    case skipped => rw [judge_ordered hraw horder, if_pos hlt]
    case above =>
      rw [judge_ordered hraw horder, if_neg (BitVec.not_lt.2 (BitVec.le_of_lt hgt)),
        if_neg (BitVec.ne_of_lt hgt).symm]
  case supplied =>
    refine ⟨fun hn => ?final, fun hn => ?inPlace⟩
    case final =>
      rw [supply_final hr htag hn, discard_eq hr]
      rfl
    case inPlace =>
      rw [supply_judged hr htag hn]
      exact ⟨fun e hj => by rw [hj]; rfl, fun e hj => by rw [hj], fun w hj => by rw [hj]⟩
  case finished =>
    simp only [finish_live hr]
    cases m with
    | none =>
      rw [passed_none]
      exact ⟨rfl, rfl, rfl, rfl⟩
    | some e => exact ⟨rfl, rfl, rfl, rfl⟩

/-! ### TRIGGER_TAKE -/

/-- A permitted request of a head port for its own Head Link: its effect, then its response. -/
theorem serve_onHead {β : Type} {s : State} {n : HeadId} {q : Request}
    {act : HeadId → β → State → State × Reply} (h : s.open_ (.hl n))
    (hp : permitted (.hl n) q = true) (a : β) :
    s.serve (.hl n) q (onHead (.hl n) (some a) act) =
      (act n a s).1.answers (.hl n) (act n a s).2.status (Request.all.idxOf q + 1)
        (act n a s).2.payload := serve_answers s (.hl n) q _ h hp

theorem setLink_eq (s : State) (n : HeadId) (x : Link) : s.setLink n x =
    if 64 - (s.link n).results.length ≤ (s.link n).threshold ∧
        ¬64 - x.results.length ≤ x.threshold then
      (s.setRawLink n x).raise (.hl n) .queueReleased
    else s.setRawLink n x :=
  if_congr (by simp [Link.holdOn, Link.freeSlots, Config.resultCapacity]) rfl rfl

theorem triggerTake_empty {s : State} {n : HeadId} (h : (s.link n).triggers = []) :
    s.triggerTake n = refuse .empty s := by
  rw [State.triggerTake, h]

/-- The oldest trigger leaves its queue, and its head is TAKEN (R79). -/
theorem triggerTake_takes {s : State} {n : HeadId} {q : Trigger} {rest : List Trigger} {i : Slot}
    {r : Record} (hq : (s.link n).triggers = q :: rest) (htag : s.slotOfTag q.tag = some i)
    (hr : s.board i = some r) :
    s.triggerTake n =
      ((s.setRawLink n { s.link n with triggers := rest }).setBoard i (some (r.setStatus n .taken)),
        ⟨.done, encTrigger q ++ le 1 rest.length⟩) := by
  have hlive : (s.setRawLink n { s.link n with triggers := rest }).slotOfTag q.tag = some i := htag
  rw [State.triggerTake, hq]
  dsimp only
  rw [State.markTaken, hlive]
  exact congrArg (·, _) (modBoard_some (s := s.setRawLink n _) hr _)

end Sys2Proof.Machine

namespace Sys2Proof

open Machine

/-- A trigger is coded field by field (R76, R190). -/
theorem encTrigger_eq (q : Trigger) :
    encTrigger q = [q.tag] ++ [BitVec.ofNat 8 q.lane.code] ++ [BitVec.ofNat 8 q.recipe.val] ++
      encOpt (fun x => le 6 x.toNat) q.serial ++ le 3 q.entryPos.toNat ++ le 3 q.listBase ++
      le 2 q.listLength := by
  rw [encTrigger, le_one_toNat]
  rfl

/-! ### The items of a RESULT_PUT (R85, R86) -/

/-- A code names the class that it is the code of (R190). -/
theorem DefectClass.all_get_iff (n : Nat) (c : DefectClass) :
    DefectClass.all[n]? = some c ↔ n = c.code := by
  constructor
  · intro h
    obtain ⟨hlt, hc⟩ := List.getElem?_eq_some_iff.1 h
    rw [← hc]
    exact (List.Nodup.idxOf_getElem (by decide) n hlt).symm
  · rintro rfl
    cases c <;> rfl

/-- The joint id whose number `n` is. -/
theorem joint_ofNat_iff {n : Nat} (h : n ≤ 4095) (k : JointId) :
    BitVec.ofNat 12 n = k ↔ n = k.toNat := by
  bv_omega

/-- The class of a RESULT of a grade, read from its code: absent for GOOD and present for the others (R86). -/
def Grade.readClass (h : Grade) (c : Option Nat) : Option (Option DefectClass) :=
  if h = .good then (if c = none then some none else none)
  else c.bind fun n => (DefectClass.all[n]?).map some

theorem Grade.readClass_iff (h : Grade) (c : Option Nat) (d : Option DefectClass) :
    h.readClass c = some d ↔ c = d.map DefectClass.code ∧ (d.isSome ↔ h ≠ .good) := by
  rw [readClass]
  by_cases hg : h = .good
  · cases d <;> simp [hg]
  · cases c <;> cases d <;> simp [hg, DefectClass.all_get_iff]

/-- The check of a RESULT: its joint id, its grade, and its class as the grade has it (R85, R86). -/
theorem RawItem.check_result (t : Tag) (j g : Nat) (c : Option Nat) (v : Value) :
    (RawItem.result t j g c v).check =
      if 4095 < j then none
      else (Grade.all[g]?).bind fun h => (h.readClass c).map fun d =>
        .result t (BitVec.ofNat 12 j) h d v := by
  unfold RawItem.check
  dsimp only
  split
  · rfl
  · cases Grade.all[g]? with
    | none => rfl
    | some h => cases h <;> cases c <;> simp [Grade.readClass, Function.comp_def]

theorem RawItem.check_result_iff (t : Tag) (j g : Nat) (c : Option Nat) (v : Value) (y : Item) :
    (RawItem.result t j g c v).check = some y ↔ (RawItem.result t j g c v).standsFor y := by
  rw [check_result]
  cases y with
  | done u => simp [standsFor, Option.bind_eq_some_iff]
  | abort u z => simp [standsFor, Option.bind_eq_some_iff]
  | result u k h d w =>
    by_cases hj : 4095 < j
    · have hne : j ≠ k.toNat := by omega
      simp [standsFor, hj, hne]
    · rw [if_neg hj]
      simp only [standsFor, Option.bind_eq_some_iff, Option.map_eq_some_iff, Grade.readClass_iff,
        Item.result.injEq, joint_ofNat_iff (Nat.not_lt.1 hj)]
      constructor
      · rintro ⟨_, hg, _, ⟨hc, hd⟩, rfl, hk, rfl, rfl, rfl⟩
        exact ⟨rfl, hk, hg, hc, rfl, hd⟩
      · rintro ⟨rfl, hk, hg, hc, rfl, hd⟩
        exact ⟨h, hg, d, ⟨hc, hd⟩, rfl, hk, rfl, rfl, rfl⟩

/-- The item checks pass an item for what it stands for (R86). -/
theorem RawItem.check_iff (x : RawItem) (y : Item) : x.check = some y ↔ x.standsFor y := by
  cases x with
  | result t j g c v => exact check_result_iff t j g c v y
  | done t => cases y <;> simp [RawItem.check, RawItem.standsFor]
  | abort t z => cases y <;> simp [RawItem.check, RawItem.standsFor]

theorem checkItems_iff (raw : List RawItem) (items : List Item) :
    checkItems raw = some items ↔ List.Forall₂ RawItem.standsFor raw items := by
  induction raw generalizing items with
  | nil => simp [checkItems, eq_comm]
  | cons x xs ih =>
    rw [checkItems, List.forall₂_cons_left_iff]
    simp only [← RawItem.check_iff, ← ih]
    cases x.check <;> cases checkItems xs <;> simp [eq_comm]

/-- One item that stands for none fails the whole request (R86). -/
theorem checkItems_none {raw : List RawItem} (h : ∃ x ∈ raw, ∀ y, ¬x.standsFor y) :
    checkItems raw = none := by
  obtain ⟨x, hx, hnone⟩ := h
  refine Option.eq_none_iff_forall_ne_some.2 fun items hitems => ?_
  obtain ⟨hlen, hstands⟩ := List.forall₂_iff_get.1 ((checkItems_iff raw items).1 hitems)
  obtain ⟨k, hk, rfl⟩ := List.getElem_of_mem hx
  exact hnone _ (hstands k hk (hlen ▸ hk))

end Sys2Proof

namespace Sys2Proof.Machine

open Sys2Proof

/-! ### RESULT_PUT and RESULT_HOLD_SET -/

theorem resultPut_badValue {s : State} {n : HeadId} {raw : List RawItem}
    (h : raw.length < 1 ∨ 8 < raw.length ∨ ∃ x ∈ raw, ∀ y, ¬x.standsFor y) :
    s.resultPut n raw = refuse .badValue s := by
  unfold State.resultPut
  by_cases hlen : raw.length < 1 ∨ Config.itemsPerPut < raw.length
  · exact if_pos hlen
  · have hitem := (or_assoc.2 h).resolve_left hlen
    rw [if_neg hlen, checkItems_none hitem]

/-- As many items as have room join the result queue (R86). -/
theorem resultPut_accepts {s : State} {n : HeadId} {raw : List RawItem} {items : List Item}
    (hlow : 1 ≤ raw.length) (hhigh : raw.length ≤ 8)
    (hitems : List.Forall₂ RawItem.standsFor raw items) :
    s.resultPut n raw =
      let taken := min items.length (s.link n).freeSlots
      let k := (s.link n).accept items
      (s.setLink n k, ⟨if taken = items.length then .done else .full,
        le 1 taken ++ le 1 k.freeSlots ++ encBool k.holdOn⟩) := by
  have hlen : ¬(raw.length < 1 ∨ Config.itemsPerPut < raw.length) :=
    not_or.2 ⟨Nat.not_lt.2 hlow, Nat.not_lt.2 hhigh⟩
  rw [State.resultPut, if_neg hlen, (checkItems_iff raw items).2 hitems]

/-- The hold state as RESULT_PUT answers it (R87, R190; log entry 14). -/
theorem encBool_holdOn (k : Link) :
    encBool k.holdOn = [if 64 - k.results.length ≤ k.threshold then 0#8 else 1#8] := by
  rw [encBool_eq]
  exact congrArg (fun b => [b]) (if_congr decide_eq_true_iff rfl rfl)

theorem resultHoldSet_badValue {s : State} {n : HeadId} {k : Nat} (h : k < 1 ∨ 63 < k) :
    s.resultHoldSet n k = refuse .badValue s := if_neg (by omega)

theorem resultHoldSet_sets {s : State} {n : HeadId} {k : Nat} (hlow : 1 ≤ k) (hhigh : k ≤ 63) :
    s.resultHoldSet n k = (s.setLink n { s.link n with threshold := k }, ⟨.done, []⟩) :=
  if_pos ⟨hlow, hhigh⟩

/-- Settles O52: each request passes its port's checks, and its own checks choose its answer. -/
theorem headRequests : Obligations.HeadRequests := by
  refine ⟨setLink_eq, fun s n hopen => ⟨fun hq => ?empty, fun q rest i r hq htag hr => ?takes⟩,
    fun s n raw hopen => ⟨fun h => ?unfit, fun items hlow hhigh hitems => ?accepts⟩,
    fun s o n k hopen ho => ⟨fun h => ?outside, fun hlow hhigh => ?sets⟩⟩
  case empty =>
    refine congrArg Host.Outcome.next ((serve_onHead hopen rfl ()).trans ?_)
    rw [triggerTake_empty hq]
    rfl
  case takes =>
    refine congrArg Host.Outcome.next ((serve_onHead hopen rfl ()).trans ?_)
    rw [triggerTake_takes hq htag hr, encTrigger_eq]
    rfl
  case unfit =>
    refine congrArg Host.Outcome.next ((serve_onHead hopen rfl raw).trans ?_)
    rw [resultPut_badValue h]
    rfl
  case accepts =>
    refine congrArg Host.Outcome.next ((serve_onHead hopen rfl raw).trans ?_)
    rw [resultPut_accepts hlow hhigh hitems]
    dsimp only
    rw [encBool_holdOn]
    rfl
  case outside => exact congrArg _ (serve_refuses hopen rfl ho (resultHoldSet_badValue h))
  case sets => exact congrArg _ (serve_does hopen rfl ho (resultHoldSet_sets hlow hhigh))

/-! ### HEAD_FLUSH -/

section Flushing

variable {s : State} {n : HeadId} {i : Slot} {r : Record}

theorem flushRecord_free (h : s.board i = none) : State.flushRecord n s i = s := by
  rw [State.flushRecord, h]

/-- A head with an open trigger is FAULTED by the flush, and the close check follows; other records stay
(R92). -/
theorem flushRecord_live (hr : s.board i = some r) :
    State.flushRecord n s i =
      if r.headStatus n = .triggered ∨ r.headStatus n = .taken ∨ r.headStatus n = .reporting then
        State.closeCheck (s.setBoard i (some
          (((r.setStatus n .faulted).disarm (.headLimit n)).addFlag .headFaulted))) i
      else s := by
  rw [← markFinal_faulted hr, State.flushRecord, hr]
  dsimp only
  cases r.headStatus n <;> simp

end Flushing

/-- Settles O53: the order is that of `State.headFlush`, and each slot in turn is flushed by its record. -/
theorem headFlushEmptiesTheLink : Obligations.HeadFlushEmptiesTheLink := by
  intro s o n hopen ho
  refine ⟨_, orderBy_perm (fun i : Slot => Config.flushRank s.draws i.val) Slot.all, ?_⟩
  refine (congrArg Host.Outcome.next (serve_does hopen rfl ho rfl)).trans ?_
  rw [State.headFlush]
  dsimp only
  congr 5
  funext u i
  cases hr : u.board i with
  | none => exact flushRecord_free hr
  | some r => exact flushRecord_live hr

end Sys2Proof.Machine
end

section
/-! Proofs of the statements about the joint merge (06_joint_merge.md), and about the records it hands to the
Move Engine. -/

namespace Sys2Proof.Machine

open Sys2Proof

/-! ### A channel's request to write -/

theorem wantsWrite_iff (s : State) (c : Channel) : s.wantsWrite c = true ↔
    (s.channel c).state = .running ∧ (s.channel c).write = none ∧ (s.channel c).held = none ∧
      (s.channel c).occupancy < (s.channel c).ring.size ∧ 0 < s.sourceLength c := by
  simp [State.wantsWrite, and_assoc]

theorem requestWrite_eq (s : State) (c : Channel) : s.requestWrite c =
    if (s.channel c).state = .running ∧ (s.channel c).write = none ∧ (s.channel c).held = none ∧
        (s.channel c).occupancy < (s.channel c).ring.size ∧ 0 < s.sourceLength c then
      s.setChannel c { s.channel c with write := some (.waiting (s.channel c).producer) }
    else s := if_congr (wantsWrite_iff s c) rfl rfl

/-! ### A record that becomes LEAVING -/

/-- The record `r` of slot `i` is LEAVING and has left its lane order (R140, R142). -/
def State.madeLeaving (s : State) (i : Slot) (r : Record) (fate : ExitFate) : State :=
  (s.setBoard i (some { r with exitFate := some fate, armed := [], state := .leaving })).setLane r.lane
    { s.lane r.lane with order := setErase i (s.lane r.lane).order }

/-- A slot made LEAVING and freed at once is FREE. -/
theorem madeLeaving_freed (s : State) (i : Slot) (r : Record) (fate : ExitFate) :
    (s.madeLeaving i r fate).setBoard i none = { s.madeLeaving i r fate with slots := s.slots.set i none } := by
  simp [State.madeLeaving, State.setBoard, State.setLane]

/-- A LEAVING record joins the summary-ready list, or is freed where the SUMMARY channel is DISABLED
(R144, R157). -/
theorem madeLeaving_joinSummary (s : State) (i : Slot) (r : Record) (fate : ExitFate) :
    (s.madeLeaving i r fate).joinSummary i =
      if (s.channel .summary).state = .disabled then
        { s.madeLeaving i r fate with slots := s.slots.set i none }
      else State.requestWrite
        { s.madeLeaving i r fate with summaryReady := s.summaryReady ++ [i] } .summary := by
  rw [← madeLeaving_freed]
  rfl

theorem makeLeaving_eq {s : State} {i : Slot} {r : Record} (hr : s.board i = some r)
    (fate : ExitFate) : s.makeLeaving i fate =
      if r.outstanding ≠ 0 then s.madeLeaving i r fate else (s.madeLeaving i r fate).joinSummary i := by
  rw [State.makeLeaving, hr, ite_not]
  rfl

/-! ### A new defect record -/

theorem has_iff (r : Record) (f : BoardFlag) : r.has f = true ↔ f ∈ r.flags := List.contains_iff_mem

section Pooling

variable {s : State} {i : Slot} {r : Record}

theorem addDefect_disabled (h : (s.channel .defect).state = .disabled) (src : Source) (d : DefectRec) :
    s.addDefect src i d = (s, []) := if_pos h

theorem addDefect_joins (hr : s.board i = some r) (h : (s.channel .defect).state ≠ .disabled)
    (hroom : s.defects.length < 384) (src : Source) (d : DefectRec) :
    s.addDefect src i d =
      (State.requestWrite { s.setBoard i (some { r with outstanding := r.outstanding + 1 }) with
        defects := s.defects ++ [⟨i, d⟩] } .defect, []) := by
  rw [State.addDefect, if_neg h, modBoard_some hr]
  exact if_pos hroom

theorem addDefect_drops (hr : s.board i = some r) (h : (s.channel .defect).state ≠ .disabled)
    (hfull : 384 ≤ s.defects.length) (src : Source) (d : DefectRec) :
    s.addDefect src i d =
      (s.setBoard i (some (r.addFlag .defectRecordsDropped)),
        if .defectRecordsDropped ∈ r.flags then []
        else [{ cause := .defectPoolFull, source := src, lane := some r.lane, tag := some r.tag,
                slot := some i, head := some d.firstHead, joint := some d.joint,
                detail := 384 }]) := by
  rw [State.addDefect, if_neg h, hr]
  refine (if_neg (Nat.not_lt.2 hfull)).trans (congrArg (_, ·) ?_)
  exact if_congr (has_iff r _) rfl rfl

end Pooling

/-- Settles O11: a channel's request, a LEAVING record by its outstanding defects and the SUMMARY channel, and a
defect record by the DEFECT channel and the room in its pool. -/
theorem recordsReachTheMoveEngine : Obligations.RecordsReachTheMoveEngine := by
  refine ⟨requestWrite_eq, fun s i r fate hr => ?leaving, fun s src i r d hr =>
    ⟨fun h => addDefect_disabled h src d, fun h hroom => addDefect_joins hr h hroom src d,
      fun h hfull => addDefect_drops hr h hfull src d⟩⟩
  case leaving =>
    rw [makeLeaving_eq hr, madeLeaving_joinSummary]
    rfl

/-! ### A report resolved alone -/

/-- A DEFECT resolved alone is counted, and its record goes to the Defect Pool (R112). -/
theorem resolveAlone_defect {s : State} {i : Slot} {r : Record} {p : Report} (hr : s.board i = some r)
    (hp : p.grade = .defect) (src : Source) (joint : JointId) : s.resolveAlone src i joint p =
      (s.setBoard i (some { r with counts := r.counts.addDefect p.criticality })).addDefect src i
        (r.defectOf joint false p) := by
  rw [State.resolveAlone, hp]
  dsimp only
  rw [hr, ← modCounts_some hr]

/-- Settles O12: one case for each grade. -/
theorem reportResolvedAlone : Obligations.ReportResolvedAlone := by
  intro s src i r joint p hr
  cases hp : p.grade with
  | good => rw [State.resolveAlone, hp]
  | marginal =>
    rw [State.resolveAlone, hp]
    exact congrArg (·, []) (modCounts_some hr _)
  | notMeasured =>
    rw [State.resolveAlone, hp]
    exact congrArg (·, []) (modCounts_some hr _)
  | defect => exact resolveAlone_defect hr hp src joint

/-! ### Two reports resolved as a pair -/

/-- The more severe of two criticalities (R114). -/
theorem Criticality.worse_eq (a b : Criticality) : Criticality.worse a b =
    if a = .critical ∨ b = .critical then .critical
    else if a = .major ∨ b = .major then .major
    else .minor := by
  cases a <;> cases b <;> rfl

/-- The defect record of a pair, field by field (R114). -/
theorem Record.pairOf_eq (r : Record) (joint : JointId) (a b : Report) : r.pairOf joint a b =
    { tag := r.tag, lane := r.lane, recipe := r.recipe, serial := r.serial,
      entryPos := r.entryPos, joint := joint,
      cls := (if a.grade = .defect then a.cls else b.cls).getD .other,
      criticality := Criticality.worse a.criticality b.criticality, advisory := false,
      firstHead := a.head, firstGrade := a.grade, second := some (b.head, b.grade),
      value := (if a.grade = .defect then a.value else b.value).getD 0#16,
      secondValue := some ((if a.grade = .defect then b.value else a.value).getD 0#16) } := by
  by_cases hdefect : a.grade = .defect
  · simp only [Record.pairOf, if_pos hdefect]
  · simp only [Record.pairOf, if_neg hdefect]

/-- A pair that gives a defect is counted by its more severe criticality, and its record goes to the Defect
Pool (R114). -/
theorem pairDefect_eq {s : State} {i : Slot} {r : Record} (hr : s.board i = some r) (joint : JointId)
    (a b : Report) : s.pairDefect i joint a b =
      (s.setBoard i (some { r with
        counts := r.counts.addDefect (Criticality.worse a.criticality b.criticality) })).addDefect
          .mergeEngine i (r.pairOf joint a b) := by
  rw [State.pairDefect, hr, ← modCounts_some hr]

/-- The first row that holds for two reports, as conditions on their grades (R113). -/
theorem resolvePair_eq (s : State) (i : Slot) (joint : JointId) (a b : Report) :
    s.resolvePair i joint a b =
      if a.grade = .good ∧ b.grade = .good then (s, [])
      else if a.grade = .good ∨ b.grade = .good then
        (s.modCounts i fun c => { c with cleared := c.cleared + 1 }, [])
      else if a.grade = .notMeasured ∧ b.grade = .notMeasured then
        (s.modCounts i fun c => { c with unseen := c.unseen + 2 }, [])
      else if a.grade = .notMeasured then s.resolveAlone .mergeEngine i joint b
      else if b.grade = .notMeasured then s.resolveAlone .mergeEngine i joint a
      else if a.grade = .defect ∨ b.grade = .defect then s.pairDefect i joint a b
      else (s.modCounts i fun c => { c with marginals := c.marginals + 1 }, []) := by
  unfold State.resolvePair
  cases a.grade <;> cases b.grade <;> rfl

/-- Settles O13: the rows of `resolvePair_eq`, with the counts and the record each of them writes. -/
theorem pairResolvedByFirstRow : Obligations.PairResolvedByFirstRow := by
  intro s i r joint a b hr
  rw [resolvePair_eq]
  simp only [modCounts_some hr, pairDefect_eq hr, Record.pairOf_eq, Criticality.worse_eq]
  rfl

/-! ### The rule of a passed entry -/

section Confirming

variable {s : State} {i : Slot} {r : Record} {e : HeadEntry} {p : Report}

/-- An ADVISORY entry counts and records a DEFECT report only (R110). -/
theorem resolveAdvisory_eq (hr : s.board i = some r) (joint : JointId) (p : Report) :
    s.resolveAdvisory i joint p =
      if p.grade = .defect then
        (s.setBoard i (some { r with counts := { r.counts with advisory := r.counts.advisory + 1 } })).addDefect
          .mergeEngine i (r.defectOf joint true p)
      else (s, []) := by
  rw [State.resolveAdvisory, hr, modCounts_some hr]
  cases p.grade <;> rfl

theorem applyRule_any (h : e.rule = .any) :
    s.applyRule i e p = s.resolveAlone .mergeEngine i e.joint p := by rw [State.applyRule, h]

theorem applyRule_advisory (h : e.rule = .advisory) :
    s.applyRule i e p = s.resolveAdvisory i e.joint p := by rw [State.applyRule, h]

theorem applyRule_confirm_self (h : e.rule = .confirm) (hself : e.partner = p.head) :
    s.applyRule i e p = s.resolveAlone .mergeEngine i e.joint p := by
  rw [State.applyRule, h]
  exact if_pos hself

theorem applyRule_confirm (h : e.rule = .confirm) (hother : e.partner ≠ p.head) :
    s.applyRule i e p = s.resolveConfirm i e p := by
  rw [State.applyRule, h]
  exact if_neg hother

theorem hasPassed_iff (h : HeadRec) (joint : JointId) :
    h.hasPassed joint = true ↔ ∃ q, h.lastPassed = some q ∧ joint ≤ q := by
  cases hq : h.lastPassed <;> simp [HeadRec.hasPassed, hq]

theorem not_hasPassed {h : HeadRec} {joint : JointId}
    (hbelow : ∀ q, h.lastPassed = some q → q < joint) : ¬h.hasPassed joint = true := by
  intro hpassed
  obtain ⟨q, hq, hle⟩ := (hasPassed_iff h joint).1 hpassed
  exact BitVec.not_lt.2 hle (hbelow q hq)

/-- A suspect held for the joint leaves the pool, and the two reports are a pair (R111). -/
theorem resolveConfirm_suspect {x : Suspect} (hx : s.suspectAt i e.joint = some x) :
    s.resolveConfirm i e p =
      State.resolvePair { s with suspects := setErase x s.suspects } i e.joint x.report p := by
  rw [State.resolveConfirm, hx]

/-- Without a suspect for the joint, the partner head decides (R111). -/
theorem resolveConfirm_noSuspect (hr : s.board i = some r) (hx : s.suspectAt i e.joint = none) :
    s.resolveConfirm i e p =
      if (r.heads.get e.partner).hasPassed e.joint then
        s.resolvePair i e.joint ⟨e.partner, .good, none, none, p.criticality⟩ p
      else if (r.headStatus e.partner).isFinal then s.resolveAlone .mergeEngine i e.joint p
      else if p.grade = .good then (s, [])
      else s.addSuspect i e.joint p := by
  rw [State.resolveConfirm, hx, hr]

/-- A report joins the Suspect Pool where it has room (R116). -/
theorem addSuspect_joins (hroom : s.suspects.length < 192) (joint : JointId) :
    s.addSuspect i joint p = ({ s with
      suspects := insertBy Suspect.key ⟨i, joint, p.head, p.grade, p.cls, p.value, p.criticality⟩
        s.suspects }, []) := if_pos hroom

/-- With the Suspect Pool full the report is resolved alone, and SUSPECT_OVERFLOW is set (R116). -/
theorem addSuspect_overflows (hr : s.board i = some r) (hfull : 192 ≤ s.suspects.length)
    (joint : JointId) : s.addSuspect i joint p =
      ((s.resolveAlone .mergeEngine i joint p).1.modBoard i fun x => x.addFlag .suspectOverflow,
        (s.resolveAlone .mergeEngine i joint p).2 ++
          if .suspectOverflow ∈ r.flags then []
          else [{ cause := .suspectPoolFull, source := .mergeEngine, lane := some r.lane,
                  tag := some r.tag, slot := some i, head := some p.head, joint := some joint,
                  detail := 192 }]) := by
  rw [State.addSuspect, hr]
  refine (if_neg (Nat.not_lt.2 hfull)).trans ?_
  simp only [has_iff]
  rfl

end Confirming

/-- Settles O14: the rule of the entry, and for CONFIRM the rows of R111 in order. -/
theorem passedEntryGoesThroughItsRule : Obligations.PassedEntryGoesThroughItsRule := by
  intro s i r e p hr
  refine ⟨?alone, fun h => ?advisory, fun h hother => ?confirm⟩
  case alone =>
    rintro (h | ⟨h, hself⟩)
    · exact applyRule_any h
    · exact applyRule_confirm_self h hself
  case advisory =>
    rw [applyRule_advisory h, resolveAdvisory_eq hr]
    rfl
  case confirm =>
    rw [applyRule_confirm h hother]
    refine ⟨fun x hx => resolveConfirm_suspect hx, fun hx => ?_⟩
    rw [resolveConfirm_noSuspect hr hx]
    refine ⟨fun hpassed => if_pos ((hasPassed_iff _ _).2 hpassed), fun hbelow => ?_⟩
    rw [if_neg (not_hasPassed hbelow)]
    refine ⟨fun hfinal => if_pos hfinal, fun hopen => ?_⟩
    rw [if_neg (Bool.eq_false_iff.1 hopen)]
    refine ⟨fun hgood => if_pos hgood, fun hgrade hroom => ?joins, fun hgrade hfull => ?overflows⟩
    case joins =>
      rw [if_neg hgrade, addSuspect_joins hroom]
      exact ⟨_, insertBy_perm _ _ _, rfl⟩
    case overflows =>
      rw [if_neg hgrade, addSuspect_overflows hr hfull]
      exact ⟨rfl, rfl⟩

end Sys2Proof.Machine
end

section
/-! Proofs of the statements about closing, disposition and exit (07_closing_disposition_and_exit.md). -/

namespace Sys2Proof.Machine

open Sys2Proof

/-! ### The verdict (R128) -/

/-- The rows of R128 with the entry `e` in force. -/
theorem verdictOf_some (e : DirEntry) (r : Record) : verdictOf (some e) r =
    if 1 ≤ r.counts.critical ∨ e.reworkLimit < r.counts.defects then .scrap
    else if 0 < r.counts.unseen ∨ .noRecipe ∈ r.flags ∨ .overlength ∈ r.flags then .unverified
    else if 1 ≤ r.counts.defects ∨
      (0 < e.marginalLimit ∧ e.marginalLimit ≤ r.counts.marginals) then .rework
    else .pass := by
  simp only [verdictOf, Option.any_some, decide_eq_true_eq, has_iff]

/-- Without an entry no limit applies, and NO_RECIPE keeps the rows below UNVERIFIED out. -/
theorem verdictOf_none {r : Record} (h : .noRecipe ∈ r.flags) :
    verdictOf none r = if 1 ≤ r.counts.critical then .scrap else .unverified := by
  simp only [verdictOf, Option.any_none, Bool.false_eq_true, or_false, has_iff, h, true_or, or_true,
    if_true]

/-- Settles O16: the rows with an entry in force, and without one. -/
theorem verdictIsTheFirstRowThatHolds : Obligations.VerdictIsTheFirstRowThatHolds :=
  fun r e => ⟨verdictOf_some e r, verdictOf_none⟩

/-! ### A close before its verdict (R126, R127) -/

/-- The entry in force for a record depends on the directory, its recipe and NO_RECIPE. -/
theorem entryOf_congr {s t : State} {r x : Record} (hd : t.directory = s.directory)
    (hf : x.has .noRecipe = r.has .noRecipe) (hr : x.recipe = r.recipe) :
    t.entryOf x = s.entryOf r := by
  simp only [State.entryOf, State.dir, hd, hf, hr]

theorem has_congr {r x : Record} {f : BoardFlag} (h : f ∈ x.flags ↔ f ∈ r.flags) :
    x.has f = r.has f := Bool.eq_iff_iff.2 (by rw [has_iff, has_iff, h])

/-- A head's end concerns HEAD_LATE and HEAD_ABSENT alone. -/
theorem Ended.flag_iff {ns : List HeadId} {r x : Record} (h : Ended ns r x) {f : BoardFlag}
    (hlate : f ≠ .headLate) (habsent : f ≠ .headAbsent) : f ∈ x.flags ↔ f ∈ r.flags := by
  simp [h.flags, hlate, habsent]

/-- With every head ended, a final status stays and any other is LATE (R126). -/
theorem Ended.head {r x : Record} (h : Ended HeadId.all r x) (n : HeadId) : x.heads.get n =
    { r.heads.get n with
      status := if (r.headStatus n).isFinal then r.headStatus n else .late } := by
  rw [h.heads n]
  cases hfinal : (r.headStatus n).isFinal with
  | true => exact if_neg fun k => nomatch k.2
  | false => exact if_pos ⟨HeadId.mem_all n, rfl⟩

/-- The ended heads keep their cursors, so the entries no head passed are those of the record (R126). -/
theorem Ended.unwalked_eq {r x : Record} (h : Ended HeadId.all r x) (s : State) :
    unwalked (s.entryOf r) x = s.unpassed r := by
  unfold unwalked State.unpassed
  cases s.entryOf r with
  | none => rfl
  | some d =>
    have hcursor (n : HeadId) : (x.heads.get n).cursor = (r.heads.get n).cursor := by rw [h.head]
    simp only [hcursor, HeadId.all, List.map_cons, List.map_nil, List.sum_cons, List.sum_nil]
    simp only [PerHead.get, Nat.add_zero, Nat.add_assoc]

/-- The heads ended and the entries they left unpassed counted: the close up to its suspects (R126). -/
def State.headsClosed (s : State) (i : Slot) : State := (s.endHeads i).countUnwalked i

theorem countUnwalked_only (s : State) (i : Slot) : OnlyBoardsAndLinks s (s.countUnwalked i) := by
  unfold State.countUnwalked
  split
  · exact ⟨_, _, rfl⟩
  · next hr =>
    rw [modCounts_some hr]
    exact ⟨_, _, rfl⟩

theorem headsClosed_only (s : State) (i : Slot) : OnlyBoardsAndLinks s (s.headsClosed i) :=
  (endHeads_only s i).trans (countUnwalked_only _ i)

/-- The record with `k` more entries unseen. -/
def Record.unseenMore (x : Record) (k : Nat) : Record :=
  { x with counts := { x.counts with unseen := x.counts.unseen + k } }

theorem headsClosed_board {s : State} {i : Slot} {r : Record} (hr : s.board i = some r) :
    ∃ x, Ended HeadId.all r x ∧ (s.headsClosed i).board i = some (x.unseenMore (s.unpassed r)) := by
  obtain ⟨x, hx, hended⟩ := endHeads_board hr
  refine ⟨x, hended, ?_⟩
  have hdir : (s.endHeads i).directory = s.directory := by
    obtain ⟨a, b, h⟩ := endHeads_only s i
    rw [h]
  have hentry : (s.endHeads i).entryOf x = s.entryOf r :=
    entryOf_congr hdir (has_congr (hended.flag_iff (by decide) (by decide))) (by rw [hended.rest])
  rw [State.headsClosed, State.countUnwalked, hx]
  dsimp only
  rw [modCounts_board hx, hentry, hended.unwalked_eq]
  rfl

theorem headsClosed_link {s : State} {i : Slot} {r : Record} (hr : s.board i = some r) (n : HeadId) :
    (s.headsClosed i).link n =
      if r.headStatus n = .triggered then
        { s.link n with triggers := (s.link n).triggers.filter fun q => decide (q.tag ≠ r.tag) }
      else s.link n := by
  obtain ⟨x, hx, -⟩ := endHeads_board hr
  rw [State.headsClosed, State.countUnwalked, hx]
  dsimp only
  rw [modCounts_some hx]
  exact endHeads_link hr n

/-- The state of a close as its verdict is fixed: heads ended, suspects resolved (R126, R127). -/
def State.resolved (s : State) (i : Slot) : State := (s.headsClosed i).resolveSuspects i

theorem close_eq {s : State} {i : Slot} {r : Record} (hr : s.board i = some r) :
    s.close i = (s.resolved i).fixVerdict i r.state := by
  rw [State.close, hr]
  rfl

theorem Tracks.resolved {A : Slot → Prop} {i : Slot} (hi : A i) (s : State) :
    Tracks A s (s.resolved i) :=
  ((Tracks.endHeads hi s).trans (.countUnwalked hi _)).trans (.resolveSuspects hi _)

theorem resolved_channelState (s : State) (i : Slot) (c : Channel) :
    ((s.resolved i).channel c).state = (s.channel c).state := by
  have hstate := congrArg ChannelReg.state ((Tracks.resolved (A := Eq i) rfl s).frame.channels c)
  exact hstate

theorem headsClosed_suspectsOf (s : State) (i : Slot) : (s.headsClosed i).suspectsOf i = s.suspectsOf i := by
  obtain ⟨a, b, h⟩ := headsClosed_only s i
  rw [h]
  rfl

/-- Resolving the suspects takes them from the pool and leaves lanes, links, directory and summaries. -/
theorem resolved_only (s : State) (i : Slot) :
    OnlyDefects { s.headsClosed i with suspects := s.suspects.filter fun y => decide (y.slot ≠ i) }
      (s.resolved i) := by
  have h := foldSuspects_only (i := i) ((s.headsClosed i).suspectsOf i) (s.headsClosed i)
  rw [suspects_of_others] at h
  have hsus : (s.headsClosed i).suspects = s.suspects := by
    obtain ⟨a, b, e⟩ := headsClosed_only s i
    rw [e]
  rw [hsus] at h
  exact h

/-- What the close of `r` in slot `i` makes of its record before the verdict. -/
structure ResolvedFrom (s : State) (i : Slot) (r y : Record) : Prop where
  rest : y = { r with
    heads := y.heads, counts := y.counts, outstanding := y.outstanding, flags := y.flags }
  heads : ∀ n, y.heads.get n =
    { r.heads.get n with
      status := if (r.headStatus n).isFinal then r.headStatus n else .late }
  counts : y.counts = { r.counts with
    defects := r.counts.defects + s.suspectsGraded i .defect
    critical := r.counts.critical + s.criticalSuspects i
    marginals := r.counts.marginals + s.suspectsGraded i .marginal
    unseen := r.counts.unseen + s.unpassed r + s.suspectsGraded i .notMeasured }
  flags : ∀ f, f ≠ .defectRecordsDropped → (f ∈ y.flags ↔ f ∈ r.flags ∨
    (f = .headLate ∧ ∃ n, (r.headStatus n).isFinal = false) ∨
    (f = .headAbsent ∧ BoardFlag.noRecipe ∉ r.flags ∧ ∃ n, r.headStatus n = .absent))

theorem ResolvedFrom.noRecipe {s : State} {i : Slot} {r y : Record} (h : ResolvedFrom s i r y) :
    y.has .noRecipe = r.has .noRecipe :=
  has_congr (by simp [h.flags .noRecipe (by decide)])

/-- The suspects of slot `i` that meet `p` are counted alike in the pool and in the order of the close. -/
theorem countP_suspectsOf (s : State) (i : Slot) (p : Suspect → Bool) :
    (s.suspectsOf i).countP p = s.suspects.countP fun x => decide (x.slot = i) && p x := by
  rw [(suspectsOf_perm s i).countP_eq, List.countP_filter]
  exact List.countP_congr fun x _ => by rw [Bool.and_comm]

theorem resolved_board {s : State} {i : Slot} {r : Record} (hr : s.board i = some r) :
    ∃ y, (s.resolved i).board i = some y ∧ ResolvedFrom s i r y := by
  obtain ⟨x, hended, hx⟩ := headsClosed_board hr
  obtain ⟨y, hy, hcounted⟩ := foldSuspects_board ((s.headsClosed i).suspectsOf i) hx
  have hcounts : x.counts = r.counts := by rw [hended.rest]
  refine ⟨y, hy, ?rest, fun n => ?heads, ?counts, fun f hf => ?flags⟩
  case rest =>
    obtain ⟨heads, flags, rfl⟩ : ∃ h f, x = { r with heads := h, flags := f } := ⟨_, _, hended.rest⟩
    rw [hcounted.rest]
    rfl
  case heads =>
    rw [hcounted.rest]
    exact hended.head n
  case counts =>
    rw [hcounted.rest]
    dsimp only
    rw [foldCounts, headsClosed_suspectsOf]
    simp only [countP_suspectsOf, Record.unseenMore, hcounts, State.suspectsGraded,
      State.criticalSuspects, Bool.and_assoc]
  case flags =>
    rw [hcounted.flags f hf]
    exact (hended.flags f).trans (by simp only [HeadId.mem_all, true_and])

/-- Up to the verdict a close moves the pools, and of the rest boards, links, channels, faults and alerts. -/
theorem resolved_parts (s : State) (i : Slot) : ∃ slots defects channels faults alerts,
    s.resolved i = { s with
      slots := slots, links := (s.headsClosed i).links
      suspects := s.suspects.filter fun y => decide (y.slot ≠ i)
      defects := defects, channels := channels, faults := faults, alerts := alerts } := by
  obtain ⟨slots, links, hclosed⟩ := headsClosed_only s i
  obtain ⟨a, b, c, d, e, hresolved⟩ := resolved_only s i
  refine ⟨a, b, c, d, e, ?_⟩
  rw [hresolved, hclosed]

/-- The defect records a close makes, in ascending joint id (R127). -/
def State.closeDefects (s : State) (i : Slot) (r : Record) : List DefectRec :=
  ((s.suspectsOf i).filter fun x => decide (x.grade = .defect)).map fun x =>
    r.defectOf x.joint false x.report

/-- The Defect Pool takes the defect records of a close (R119, R127). -/
theorem resolved_pooled {s : State} {i : Slot} {r y : Record} (hr : s.board i = some r)
    (hy : (s.resolved i).board i = some y) :
    PooledFrom s (s.resolved i) i r y (s.closeDefects i r) := by
  obtain ⟨x, hended, hx⟩ := headsClosed_board hr
  obtain ⟨slots, links, hclosed⟩ := headsClosed_only s i
  have hheads : PooledFrom s (s.headsClosed i) i r (x.unseenMore (s.unpassed r)) [] :=
    .nil (by rw [hclosed]) (by rw [hended.rest]; rfl) (by rw [hclosed])
      (hended.flag_iff (by decide) (by decide))
  have hrecord (j : JointId) (p : Report) :
      (x.unseenMore (s.unpassed r)).defectOf j false p = r.defectOf j false p := by
    rw [hended.rest]
    rfl
  have hsuspects : PooledFrom (s.headsClosed i) (s.resolved i) i (x.unseenMore (s.unpassed r)) y
      (s.closeDefects i r) := by
    rw [State.closeDefects, ← headsClosed_suspectsOf]
    simp only [← hrecord]
    exact foldSuspects_pooled _ hx hy
  exact hheads.trans hsuspects (by rw [hclosed]; rfl) (by rw [hended.rest]; rfl)
    (by rw [hended.rest]; rfl)

/-- The DEFECT suspects of a close, in its order. -/
theorem defectSuspects_perm (s : State) (i : Slot) :
    ((s.suspectsOf i).filter fun x => decide (x.grade = .defect)).Perm
      (s.suspects.filter fun y => decide (y.slot = i) && decide (y.grade = .defect)) := by
  refine ((suspectsOf_perm s i).filter _).trans (.of_eq ?_)
  rw [List.filter_filter]
  exact List.filter_congr fun x _ => Bool.and_comm _ _

theorem suspectsOf_ascending (s : State) (i : Slot) :
    (s.suspectsOf i).Pairwise fun a b => a.joint ≤ b.joint := orderBy_pairwise _ _

/-! ### The verdict of a close, and the close check (R125, R128, R129) -/

theorem ResolvedFrom.closed {s : State} {i : Slot} {r y : Record} (h : ResolvedFrom s i r y) :
    ClosedFrom s i r (y.decidedAs (verdictOf (s.entryOf r) y)) where
  board := by rw [h.rest]; exact ⟨rfl, rfl, rfl, rfl, rfl⟩
  state := rfl
  length := by rw [h.rest]; rfl
  exitFate := by rw [h.rest]; rfl
  exitPos := by rw [h.rest]; rfl
  heads := h.heads
  armed := by rw [h.rest]; rfl
  defects := congrArg Counts.defects h.counts
  critical := congrArg Counts.critical h.counts
  advisory := (congrArg Counts.advisory h.counts).trans rfl
  marginals := congrArg Counts.marginals h.counts
  unseen := congrArg Counts.unseen h.counts
  cleared := (congrArg Counts.cleared h.counts).trans rfl
  verdict := rfl
  flags := h.flags

/-- The lanes after the close of a record of lane `k` that was in state `b`: the sensor it covered as it was
ENTERING is UNTRACKED (R129). -/
def State.uncovered (s : State) (k : Lane) (b : RecState) : PerLane LaneState :=
  if b = .entering ∧ (s.lane k).entry = .covered then
    s.lanes.set k { s.lane k with entry := .untracked }
  else s.lanes

theorem uncovered_get (s : State) (k : Lane) (b : RecState) (l : Lane) : (s.uncovered k b).get l =
    if l = k ∧ b = .entering ∧ (s.lane l).entry = .covered then
      { s.lane l with entry := .untracked }
    else s.lane l := by
  unfold State.uncovered
  by_cases hl : l = k
  · subst hl
    by_cases hcovered : b = .entering ∧ (s.lane l).entry = .covered
    · rw [if_pos hcovered, if_pos ⟨rfl, hcovered⟩, PerLane.get_set, if_pos rfl]
    · rw [if_neg hcovered, if_neg fun k => hcovered k.2]
      rfl
  · rw [if_neg (c := l = k ∧ _) fun h => hl h.1]
    split
    · rw [PerLane.get_set, if_neg hl]
      rfl
    · rfl

/-- A close is its heads and suspects resolved, and then the verdict fixed over them. -/
theorem close_parts {s : State} {i : Slot} {r : Record} (hr : s.board i = some r) :
    ∃ y alerts, (s.resolved i).board i = some y ∧ ResolvedFrom s i r y ∧
      s.close i = { s.resolved i with
        slots := (s.resolved i).slots.set i (some (y.decidedAs (verdictOf (s.entryOf r) y)))
        lanes := s.uncovered r.lane r.state
        directory := (s.release r).directory
        alerts := alerts } := by
  obtain ⟨y, hy, hfrom⟩ := resolved_board hr
  obtain ⟨slots, defects, channels, faults, alerts, hparts⟩ := resolved_parts s i
  obtain ⟨d, a, hd, hfix⟩ := fixVerdict_parts hy r.state
  refine ⟨y, a, hy, hfrom, ?_⟩
  have hdirectory : (s.resolved i).directory = s.directory := by rw [hparts]
  have hlanes : (s.resolved i).lanes = s.lanes := by rw [hparts]
  have hentries (l : Lane) : (s.resolved i).lane l = s.lane l := congrArg (·.get l) hlanes
  have hrecipe : y.recipe = r.recipe := by rw [hfrom.rest]
  have hlane : y.lane = r.lane := by rw [hfrom.rest]
  have hrelease : d = (s.release r).directory :=
    hd.symm.trans (release_directory hdirectory hfrom.noRecipe hrecipe)
  have huncovered : (s.resolved i).uncovered y.lane r.state = s.uncovered r.lane r.state := by
    rw [State.uncovered, State.uncovered, hlane, hentries, hlanes]
  rw [close_eq hr, hfix, entryOf_congr hdirectory hfrom.noRecipe hrecipe, hrelease, ← huncovered]
  rfl

theorem allFinal_iff (r : Record) : r.allFinal = true ↔ ∀ n, (r.headStatus n).isFinal = true := by
  simp only [Record.allFinal, List.all_eq_true, HeadId.mem_all, true_implies]

theorem closeCheck_closes {s : State} {i : Slot} {r : Record} (hr : s.board i = some r)
    (hstate : r.state = .inspecting) (hfinal : ∀ n, (r.headStatus n).isFinal = true) :
    s.closeCheck i = s.close i := by
  rw [State.closeCheck, hr]
  exact if_pos ⟨hstate, (allFinal_iff r).2 hfinal⟩

theorem closeCheck_waits {s : State} {i : Slot} {r : Record} (hr : s.board i = some r)
    (h : r.state ≠ .inspecting ∨ ∃ n, (r.headStatus n).isFinal = false) : s.closeCheck i = s := by
  rw [State.closeCheck, hr]
  refine if_neg fun ⟨hstate, hfinal⟩ => ?_
  obtain ⟨n, hn⟩ := h.resolve_left fun k => k hstate
  exact Bool.false_ne_true (hn.symm.trans ((allFinal_iff r).1 hfinal n))

/-- Settles O15: the parts of a close, with the Defect Pool's share carried to its end, and the close check's
two cases. -/
theorem closeFixesTheVerdict : Obligations.CloseFixesTheVerdict := by
  refine ⟨fun s i r hr => ?close, fun s i r hr => ⟨closeCheck_closes hr, closeCheck_waits hr⟩⟩
  obtain ⟨y, alerts, hy, hfrom, hclose⟩ := close_parts hr
  obtain ⟨_, _, _, _, _, hparts⟩ := resolved_parts s i
  refine ⟨y.decidedAs (verdictOf (s.entryOf r) y), ?board, hfrom.closed,
    (Tracks.close (A := fun j => j = i) rfl s).frame, ?suspects, fun n => ?link, fun l => ?lane,
    ?directory, ?summary, _, defectSuspects_perm s i, (suspectsOf_ascending s i).filter _, ?pooled⟩
  case board => simp [hclose, State.board]
  case suspects => rw [hclose, hparts]
  case link =>
    rw [hclose, hparts]
    exact headsClosed_link hr n
  case lane =>
    rw [hclose]
    exact uncovered_get s r.lane r.state l
  case directory => rw [hclose]
  case summary => rw [hclose, hparts]
  case pooled =>
    have hverdict : PooledFrom (s.resolved i) (s.close i) i y
        (y.decidedAs (verdictOf (s.entryOf r) y)) [] := by
      rw [hclose]
      exact .nil rfl rfl rfl .rfl
    have hpooled := (resolved_pooled hr hy).trans hverdict (resolved_channelState s i .defect)
      (by rw [hfrom.rest]) (by rw [hfrom.rest])
    rw [List.append_nil] at hpooled
    exact hpooled

/-! ### EXIT_DUE (R142) -/

theorem closeIfOpen_eq {s : State} {i : Slot} {r : Record} (hr : s.board i = some r) :
    s.closeIfOpen i = if r.state = .entering ∨ r.state = .inspecting then s.close i else s := by
  rw [State.closeIfOpen, hr]

/-- One record gone missing: closed if open, marked, LEAVING, its fault, and a held map applied (R142). -/
theorem miss_eq {s : State} {i : Slot} {r : Record} (hr : s.board i = some r) (t : Pos) : s.miss i t =
    let s1 := if r.state = .entering ∨ r.state = .inspecting then s.close i else s
    State.applyHeldMap
      (State.recordFault
        ((s1.modBoard i fun x => x.addFlag .missingAtExit).makeLeaving i .missing)
        { cause := .missingAtExit, source := .verdictUnit, lane := some r.lane, tag := some r.tag,
          slot := some i, position := some t, detail := if r.state = .decided then 0 else 1 })
      r.lane := by
  rw [← closeIfOpen_eq hr, State.miss, hr]

/-- The records of a lane order ahead of a slot. -/
theorem takeWhile_ahead {i : Slot} {ahead : List Slot} (hi : i ∉ ahead) (rest : List Slot) :
    (ahead ++ i :: rest).takeWhile (fun j => decide (j ≠ i)) = ahead := by
  have hahead (j : Slot) (hj : j ∈ ahead) : decide (j ≠ i) = true :=
    decide_eq_true fun e => hi (e ▸ hj)
  rw [List.takeWhile_append_of_pos hahead, List.takeWhile_cons_of_neg (by simp), List.append_nil]

/-- A record ahead of one whose EXIT_DUE came goes missing, at its own EXIT_DUE target (R142). -/
def State.missOwn (s : State) (j : Slot) : State :=
  match s.board j with
  | some x => s.miss j (s.exitDueTarget x)
  | none => s

/-- EXIT_DUE of the record in slot `i`: those ahead go missing first, each at its own target, then the
record itself. -/
theorem exitDueAct_eq {s : State} {i : Slot} {ahead rest : List Slot} {r : Record}
    (horder : (s.lane r.lane).order = ahead ++ i :: rest) (hi : i ∉ ahead) (t : Pos) :
    exitDueAct i r t s = (ahead.foldl State.missOwn s).miss i t := by
  rw [exitDueAct, horder, if_pos (by simp), takeWhile_ahead hi]
  rfl

/-- The EXIT_DUE of a record that others may be ahead of: it leaves the schedule, and its owner acts. -/
theorem exec_exitDue {s : State} {i : Slot} {ahead rest : List Slot} {r : Record} {t : Pos}
    (hr : s.board i = some r) (horder : (s.lane r.lane).order = ahead ++ i :: rest) (hi : i ∉ ahead)
    (ht : r.targetOf .exitDue = some t) (hdue : due (s.lane r.lane).counter t = true) :
    exec (.exitDue i) s = .next (s.thenGrant
      ((ahead.foldl State.missOwn (s.setBoard i (some (r.disarm .exitDue)))).miss i t)) := by
  refine (exec_command_due (e := ⟨i, .exitDue⟩) hr ht hdue).trans ?_
  dsimp only [ScheduledEvent.act]
  rw [exitDueAct_eq (s := s.setBoard i (some (r.disarm .exitDue)))
    (r := r.disarm .exitDue) horder hi]

/-- Settles O27: the front record is the one with nobody ahead. -/
theorem exitDueMakesTheFrontMissing : Obligations.ExitDueMakesTheFrontMissing := by
  refine ⟨fun s i rest r t hr horder ht hdue => ?front, fun s i r t hr => miss_eq hr t,
    fun s i ahead rest r t hr horder hi ht hdue => exec_exitDue hr horder hi ht hdue⟩
  case front =>
    refine (exec_exitDue (ahead := []) hr horder List.not_mem_nil ht hdue).trans ?_
    rw [List.foldl_nil, miss_eq (board_setBoard_self s i (some (r.disarm .exitDue)))]
    rfl

/-! ### The exit sensor (R137 to R140) -/

theorem exitActs_iff (s : State) (l : Lane) :
    s.exitActs l = true ↔ (s.lane l).map.enable = true ∧ (s.lane l).exit = .ready := by
  rw [State.exitActs, Bool.and_eq_true, decide_eq_true_iff]

/-- An exit edge that is ignored (R137). -/
theorem exitLeading_ignored {s : State} {l : Lane}
    (h : (s.lane l).map.enable = false ∨ (s.lane l).exit = .occupied) : s.exitLeading l = s := by
  refine if_neg fun hacts => ?_
  obtain ⟨henable, hexit⟩ := (exitActs_iff s l).1 hacts
  rcases h with h | h
  · exact Bool.false_ne_true (h.symm.trans henable)
  · exact nomatch h.symm.trans hexit

/-- With no EXIT_DUE of the lane due, an exit edge on a READY sensor is compared as it comes (R138). -/
theorem exitLeading_compares {s : State} {l : Lane} (henable : (s.lane l).map.enable = true)
    (hexit : (s.lane l).exit = .ready) (hdue : s.noExitDue l) :
    s.exitLeading l = s.thenGrant (s.exitCompare l) := by
  have hacts := (exitActs_iff s l).2 ⟨henable, hexit⟩
  rw [State.exitLeading, if_pos hacts, exitDuesFirst_none hdue, if_pos hacts]

theorem exitTrailing_ignored {s : State} {l : Lane}
    (h : (s.lane l).map.enable = false ∨ (s.lane l).exit = .ready) : s.exitTrailing l = s := by
  refine if_neg fun ⟨henable, hexit⟩ => ?_
  rcases h with h | h
  · exact Bool.false_ne_true (h.symm.trans henable)
  · exact nomatch h.symm.trans hexit

theorem exitTrailing_occupied {s : State} {l : Lane} (henable : (s.lane l).map.enable = true)
    (hexit : (s.lane l).exit = .occupied) : s.exitTrailing l = s.setExit l .ready :=
  if_pos ⟨henable, hexit⟩

theorem noExitDue_of_empty {s : State} {l : Lane} (h : (s.lane l).order = []) : s.noExitDue l := by
  intro i hi
  rw [h] at hi
  exact absurd hi List.not_mem_nil

theorem front_empty {s : State} {l : Lane} (h : (s.lane l).order = []) : s.front l = none := by
  rw [State.front, h]

theorem front_cons {s : State} {l : Lane} {i : Slot} {rest : List Slot} {r : Record}
    (horder : (s.lane l).order = i :: rest) (hr : s.board i = some r) : s.front l = some (i, r) := by
  rw [State.front, horder]
  dsimp only
  rw [hr]
  rfl

/-- An edge on an empty lane order (R139). -/
theorem exitCompare_empty {s : State} {l : Lane} (h : (s.lane l).order = []) :
    s.exitCompare l = s.exitUnexpected l none 0 := by
  rw [State.exitCompare, front_empty h]

section Front

variable {s : State} {l : Lane} {i : Slot} {rest : List Slot} {r : Record}

/-- An edge before the front record's window (R139). -/
theorem exitCompare_early (horder : (s.lane l).order = i :: rest) (hr : s.board i = some r)
    (hearly : earlier (s.lane l).counter (windowStart (s.lane l).map r) = true) :
    s.exitCompare l = s.exitUnexpected l (some (i, r))
      (holdAt16 (windowStart (s.lane l).map r - (s.lane l).counter).toNat) := by
  rw [State.exitCompare, front_cons horder hr]
  exact if_pos hearly

/-- An edge not before the front record's window (R140). -/
theorem exitCompare_match (horder : (s.lane l).order = i :: rest) (hr : s.board i = some r)
    (hearly : earlier (s.lane l).counter (windowStart (s.lane l).map r) = false) :
    s.exitCompare l = s.exitMatch l i r (s.lane l).counter := by
  rw [State.exitCompare, front_cons horder hr]
  exact if_neg (Bool.eq_false_iff.1 hearly)

end Front

/-- An unexpected edge asks for nothing of the arbiter, so no grant follows it. -/
theorem exitUnexpected_thenGrant (s : State) (l : Lane) (front : Option (Slot × Record)) (n : Nat) :
    s.thenGrant (s.exitUnexpected l front n) = s.exitUnexpected l front n :=
  ((AsksNothing.same rfl rfl rfl rfl : AsksNothing s (s.setExit l .occupied)).trans
    (.recordFault _ _)).thenGrant

/-- Settles O28: the edge with the due events taken first, and the edge that the front record matches. -/
theorem exitEdgeMatchesTheFront : Obligations.ExitEdgeMatchesTheFront := by
  refine ⟨fun s l henable hexit => congrArg Host.Outcome.next
      (exitLeading_exitDuesFirst s l ((exitActs_iff s l).2 ⟨henable, hexit⟩)),
    fun s l i rest r henable hexit hdue horder hr hearly => ?matched⟩
  case matched =>
    refine congrArg Host.Outcome.next ((exitLeading_compares henable hexit hdue).trans ?_)
    rw [exitCompare_match horder hr hearly, State.exitMatch, modBoard_some hr]
    rfl

/-- Settles O29: unexpected edges record their fault, the others are ignored or move the exit state. -/
theorem exitEdgeThatMatchesNothing : Obligations.ExitEdgeThatMatchesNothing := by
  refine fun s l => ⟨fun henable hexit horder => congrArg Host.Outcome.next ?empty,
    fun i rest r henable hexit hdue horder hr hearly => congrArg Host.Outcome.next ?early,
    fun h => congrArg Host.Outcome.next (exitLeading_ignored h),
    fun h => congrArg Host.Outcome.next (exitTrailing_ignored h),
    fun henable hexit => congrArg Host.Outcome.next (exitTrailing_occupied henable hexit)⟩
  case empty =>
    rw [exitLeading_compares henable hexit (noExitDue_of_empty horder), exitCompare_empty horder,
      exitUnexpected_thenGrant]
    rfl
  case early =>
    rw [exitLeading_compares henable hexit hdue, exitCompare_early horder hr hearly,
      exitUnexpected_thenGrant]
    rfl

end Sys2Proof.Machine
end

section
/-! Proofs of the statements about the Memory Arbiter and the Move Engine
(08_memory_arbiter_and_move_engine.md). -/

namespace Sys2Proof.Machine

open Sys2Proof

/-! ### Capacities, rings and the idle arbiter -/

/-- The queue of commands counts for nothing in what `Keeps` says. -/
theorem Keeps.setQueue (s : State) (cs : List Instr) : Keeps s { s with pending := cs } :=
  ⟨id, .refl s,
    fun hs => ⟨hs.announces, hs.triggers, hs.results, hs.suspects, hs.defects, hs.faults⟩, id⟩

/-- What entry leading edges keep, and all that `Keeps` says, every step keeps. -/
theorem step_preserves {P : State → Prop} (hkeeps : ∀ u v, Keeps u v → P u → P v)
    (hentry : ∀ u l, P u → P (u.entryLeading l)) {s t : State} (h : step s = .next t) (hs : P s) :
    P t := by
  rcases step_cases h with rfl | ⟨c, cs, -, he⟩
  · exact hs
  have hq : P { s with pending := cs } := hkeeps _ _ (.setQueue s cs) hs
  by_cases hc : ∃ l, c = .entryLeadingEdge l
  · obtain ⟨l, rfl⟩ := hc
    exact Host.Outcome.next.inj he ▸ hkeeps _ _ (keeps_thenGrant _ _) (hentry _ l hq)
  · exact hkeeps _ _ (exec_keeps c _ t (fun l e => hc ⟨l, e⟩) he) hq

theorem step_notDue {s t : State} (h : step s = .next t) (hs : s.grantDue = false) :
    t.grantDue = false := by
  rcases step_cases h with rfl | ⟨c, cs, -, he⟩
  · exact hs
  · obtain ⟨u, hu, hdue⟩ := exec_notDue c { s with pending := cs } hs
    exact Host.Outcome.next.inj (hu.symm.trans he) ▸ hdue

/-- Settles O58: each of the three is kept by an entry leading edge and by every other command. -/
theorem stepKeepsCapacities : Obligations.StepKeepsCapacities := fun _ _ h =>
  ⟨step_preserves (P := State.Capacity) (fun _ _ k => k.capacity) entryLeading_capacity h,
    step_preserves (P := State.RingsBounded) (fun _ _ k => k.rings) entryLeading_rings h,
    step_notDue h⟩

/-! ### The channel that is granted -/

/-- Which channel's write is granted (R150). -/
theorem waitingChannel_eq (s : State) : s.waitingChannel =
    if s.waits .defect = true ∧ s.waits .summary = true then
      if (s.channel .defect).ring.priority = (s.channel .summary).ring.priority then
        some (if s.arbiter.lastChannel = .defect then .summary else .defect)
      else if (s.channel .defect).ring.priority = .high then some .defect
      else some .summary
    else if s.waits .defect = true then some .defect
    else if s.waits .summary = true then some .summary
    else none := by
  have hother : s.arbiter.lastChannel.other =
      if s.arbiter.lastChannel = .defect then .summary else .defect := by
    cases s.arbiter.lastChannel <;> rfl
  unfold State.waitingChannel
  cases s.waits .defect <;> cases s.waits .summary
  case true.true =>
    rw [hother]
    cases (s.channel .defect).ring.priority <;> cases (s.channel .summary).ring.priority <;> rfl
  all_goals rfl

theorem sourceRecord_defect {s : State} {d : PooledDefect} {ds : List PooledDefect}
    (h : s.defects = d :: ds) : s.sourceRecord .defect = some (.defect d.record, d.slot) := by
  rw [State.sourceRecord, h]
  rfl

theorem sourceRecord_summary {s : State} {i : Slot} {rest : List Slot} {r : Record}
    (h : s.summaryReady = i :: rest) (hr : s.board i = some r) :
    s.sourceRecord .summary = some (.summary r.summary, i) := by
  rw [State.sourceRecord, h, List.head?_cons, Option.bind_some, hr]
  rfl

/-- Where nothing comes to wait on an idle arbiter nothing is granted. -/
theorem grant_notDue_self {s : State} (h : s.grantDue = false) : s.grant = s := by
  by_cases ho : s.arbiter.op = none
  · obtain ⟨-, hf, hp, hc⟩ := (unasked_iff s).2 ⟨ho, h⟩
    refine grant_of_made s s ?_
    rw [State.grantOnce, if_neg (by simp [ho]), hf, (waitingPort_none_iff s).2 hp,
      (waitingChannel_none_iff s).2 hc]
  · exact grant_busy ho

section Granting

variable {s : State} {c : Channel} {r : LogRecord} {i : Slot}

/-- With no fill and no port's request waiting, an idle arbiter turns to the channels (R149, R150). -/
theorem grantOnce_channel (ho : s.arbiter.op = none) (hf : s.cache.fill = none)
    (hp : ∀ p, s.portOp p = none) (hc : s.waitingChannel = some c) :
    s.grantOnce = s.grantChannel c := by
  rw [State.grantOnce, if_neg (by simp [ho]), hf, (waitingPort_none_iff s).2 hp, hc]

/-- The grant of a channel, told by the record of its source and the permission of its region
(R154, R159). -/
theorem grantChannel_eq (hr : s.sourceRecord c = some (r, i)) : s.grantChannel c =
    if (s.regionAt ((s.channel c).placeAddress (s.channel c).producer)).moveWrite then
      (State.startMove { s with arbiter := { s.arbiter with lastChannel := c } } c r i, false)
    else
      (State.refuseMove { s with arbiter := { s.arbiter with lastChannel := c } } c r i, true) := by
  have hsource : State.sourceRecord { s with arbiter := { s.arbiter with lastChannel := c } } c =
      some (r, i) := by
    rw [← hr]; cases c <;> rfl
  rw [State.grantChannel]
  dsimp only
  rw [hsource]
  rfl

theorem Channel.eq_other_of_ne {c d : Channel} (h : d ≠ c) : d = c.other := by
  cases c <;> cases d <;> simp_all [Channel.other]

/-- A channel refused its place asks for nothing more, and the other waits as before (R159). -/
theorem AsksNothing.refuseMove (s : State) (c : Channel) (r : LogRecord) (i : Slot) :
    AsksNothing s (s.refuseMove c r i) :=
  ((AsksNothing.setChannel s c _ fun _ h => by simp at h).trans (.recordFault _ _)).trans (.raise _ _ _)

theorem refuseMove_waits_self (s : State) (c : Channel) (r : LogRecord) (i : Slot) :
    (s.refuseMove c r i).waits c = false := by
  have hchannels : (s.refuseMove c r i).channels =
      s.channels.set c { s.channel c with state := .faulted, write := none } := by
    unfold State.refuseMove State.recordFault
    split <;> rfl
  simp [State.waits, State.channel, hchannels]

/-- After a refusal nothing more is granted where the other channel does not wait. -/
theorem grant_refuseMove (hf : s.cache.fill = none) (hp : ∀ p, s.portOp p = none)
    (hother : s.waits c.other = false) : (s.refuseMove c r i).grant = s.refuseMove c r i := by
  have hasks := AsksNothing.refuseMove s c r i
  have hwaits (d : Channel) : (s.refuseMove c r i).waits d = false := by
    by_cases hd : d = c
    · rw [hd, refuseMove_waits_self]
    · rw [Bool.eq_false_iff, Channel.eq_other_of_ne hd]
      intro h
      exact absurd (hasks.channels _ h) (by simp [hother])
  refine grant_notDue_self ?_
  rw [Bool.eq_false_iff, ne_eq, grantDue_iff_parts]
  rintro ⟨-, h | ⟨p, h⟩ | ⟨d, h⟩⟩
  · exact h (hasks.fill.trans hf)
  · exact hasks.ports p h (hp p)
  · exact absurd h (by simp [hwaits d])

end Granting

/-- Settles O35: the choice of channel, the front of each source, and the grant made or refused. -/
theorem grantGoesToOneChannel : Obligations.GrantGoesToOneChannel := by
  refine ⟨waitingChannel_eq, fun s d ds => sourceRecord_defect,
    fun s i rest r => sourceRecord_summary, fun s c r i ho hf hp hc hr =>
      ⟨fun hmove => ?made, fun hmove => ?refused⟩⟩
  all_goals have hgrant := (grantOnce_channel ho hf hp hc).trans (grantChannel_eq hr)
  case made => exact congrArg Host.Outcome.next (grant_of_made s _ (hgrant.trans (if_pos hmove)))
  case refused =>
    have hrefused := grant_of_givenUp s _
      (hgrant.trans (if_neg (by rw [Bool.not_eq_true]; exact hmove)))
    exact ⟨congrArg Host.Outcome.next hrefused, fun hother =>
      congrArg Host.Outcome.next (hrefused.trans (grant_refuseMove hf hp hother))⟩

/-! ### RING_SET (R158) and the drops of a channel's source (R157) -/

theorem ringSizeOk_iff (n : Nat) :
    ringSizeOk n = true ↔ n = 0 ∨ ∃ k, 4 ≤ k ∧ k ≤ 16 ∧ n = 2 ^ k := by
  simp only [ringSizeOk, Bool.or_eq_true, List.any_eq_true, decide_eq_true_eq, List.mem_range]
  refine or_congr_right ⟨?_, ?_⟩
  · rintro ⟨k, hk, rfl⟩
    exact ⟨k + 4, by omega, by omega, rfl⟩
  · rintro ⟨k, hlow, hhigh, rfl⟩
    exact ⟨k - 4, by omega, by rw [Nat.sub_add_cancel hlow]⟩

theorem ringFits_iff (base size : Nat) :
    ringFits base size = true ↔ base % 64 = 0 ∧ base + 32 * size ≤ 16777216 := by
  rw [ringFits, Bool.and_eq_true, decide_eq_true_eq, decide_eq_true_eq]
  rfl

theorem ringAllowed_iff (s : State) (r : Ring) : s.ringAllowed r = true ↔
    ∀ k : RegionId, r.base / 1048576 ≤ k.val → k.val ≤ (r.base + 32 * r.size - 1) / 1048576 →
      s.regions[k].moveWrite = true := by
  simp only [State.ringAllowed, RegionId.all, List.all_eq_true, List.mem_finRange, true_imp_iff,
    Bool.or_eq_true, Bool.not_eq_true', ← Bool.not_eq_true, Bool.and_eq_true, decide_eq_true_eq]
  refine forall_congr' fun k => ?_
  rw [or_iff_not_imp_right, not_not, and_imp]
  rfl

theorem takesRing_iff (x : ChannelReg) : x.takesRing = true ↔
    x.state = .disabled ∨ x.state = .faulted ∨ x.occupancy = 0 ∧ x.inFlight = false := by
  simp [ChannelReg.takesRing, or_assoc]

section Checking

variable {s : State} {c : Channel} {a : RingArgs}

/-- The checks of R158, one by one. -/
theorem ringCheck_size_unfit (h : ¬ringSizeOk a.size = true) :
    s.ringCheck c a = .error .badValue := if_pos (by simp [h])

theorem ringCheck_zero (h : a.size = 0) :
    s.ringCheck c a = .ok { (s.channel c).ring with size := 0 } := by
  simp [State.ringCheck, ringSizeOk, h]

theorem ringCheck_unfit (hpos : a.size ≠ 0)
    (h : ¬ringFits a.base a.size = true ∨ a.priority = none) :
    s.ringCheck c a = .error .badValue := by
  unfold State.ringCheck
  rw [if_neg hpos]
  split
  · rfl
  · rcases h with h | h
    · exact if_pos (by simp [h])
    · simp [h]

theorem ringCheck_fit {q : Priority} (hsize : ringSizeOk a.size = true) (hpos : a.size ≠ 0)
    (hbase : ringFits a.base a.size = true) (hq : a.priority = some q) :
    s.ringCheck c a = if s.ringAllowed ⟨a.base, a.size, q⟩ then .ok ⟨a.base, a.size, q⟩
      else .error .notPermitted := by
  simp [State.ringCheck, hsize, hpos, hbase, hq]

theorem ringSet_refuses {e : Status} (h : s.ringCheck c a = .error e) :
    s.ringSet c a = refuse e s := by
  rw [State.ringSet, h]

theorem ringSet_applies {r : Ring} (h : s.ringCheck c a = .ok r)
    (htakes : (s.channel c).takesRing = true) :
    s.ringSet c a = (s.thenGrant (s.applyRing c r), ⟨.done, []⟩) := by
  rw [State.ringSet, h]
  exact if_pos htakes

theorem ringSet_holds {r : Ring} (h : s.ringCheck c a = .ok r)
    (htakes : ¬(s.channel c).takesRing = true) :
    s.ringSet c a = (s.setChannel c ((s.channel c).hold r), ⟨.held, []⟩) := by
  rw [State.ringSet, h]
  exact if_neg htakes

end Checking

/-- A ring with places is applied, and a write is requested (R158). -/
theorem applyRing_places (s : State) (c : Channel) {r : Ring} (h : r.size ≠ 0) :
    s.applyRing c r = (s.setChannel c ⟨.running, r, 0#17, 0#17, (s.channel c).blockSetting,
      (s.channel c).blockSetting, 0, (s.channel c).seq, none, none⟩).requestWrite c := by
  simp [State.applyRing, ChannelReg.applied, h]

/-- A ring of size 0 makes the channel DISABLED and drops its source (R157, R158; log entry 33). -/
theorem applyRing_none (s : State) (c : Channel) {r : Ring} (h : r.size = 0) :
    s.applyRing c r = (s.setChannel c ⟨.disabled, { (s.channel c).ring with size := 0 }, 0#17, 0#17,
      (s.channel c).blockSetting, (s.channel c).blockSetting, 0, (s.channel c).seq, none,
      none⟩).dropSource c := by
  simp [State.applyRing, ChannelReg.applied, h]

/-- One outstanding defect record fewer, and the LEAVING board left with none goes on (R155, R157). -/
theorem dropOutstanding_eq {s : State} {i : Slot} {r : Record} (hr : s.board i = some r) :
    s.dropOutstanding i =
      if r.state ≠ .leaving ∨ r.outstanding ≠ 1 then
        s.setBoard i (some { r with outstanding := r.outstanding - 1 })
      else if (s.channel .summary).state = .disabled then s.setBoard i none
      else State.requestWrite { s.setBoard i (some { r with outstanding := r.outstanding - 1 }) with
        summaryReady := s.summaryReady ++ [i] } .summary := by
  rw [State.dropOutstanding, hr]
  dsimp only
  by_cases h : r.state = .leaving ∧ r.outstanding = 1
  · rw [if_pos h, if_neg (by simp [h]), State.joinSummary, setBoard_setBoard]
    rfl
  · rw [if_neg h, if_pos (not_and_or.1 h)]

theorem dropOutstanding_free {s : State} {i : Slot} (h : s.board i = none) :
    s.dropOutstanding i = s := by
  rw [State.dropOutstanding, h]

/-- Settles O54: the checks in the order of R158, then the ring applied or held by the channel's state. -/
theorem ringIsAppliedOrHeld : Obligations.RingIsAppliedOrHeld := by
  refine ⟨fun s o c a hopen hc => ?request, fun _ => rfl, fun _ => rfl, fun s i =>
    ⟨dropOutstanding_free, fun r hr => dropOutstanding_eq hr⟩⟩
  case request =>
    dsimp only
    rw [← ringSizeOk_iff, ← ringFits_iff, ← takesRing_iff]
    refine ⟨fun h => ?unfit, fun q hsize hpos hbase hq => ?places, fun hzero htakes => ?zeroNow,
      fun hzero htakes => ?zeroHeld⟩
    case unfit =>
      have hcheck : s.ringCheck c a = .error .badValue :=
        h.elim ringCheck_size_unfit fun ⟨hpos, h⟩ => ringCheck_unfit hpos h
      exact congrArg _ (serve_refuses hopen rfl hc (ringSet_refuses hcheck))
    case places =>
      have hcheck := ringCheck_fit (s := s) (c := c) hsize hpos hbase hq
      rw [← ringAllowed_iff s ⟨a.base, a.size, q⟩]
      refine ⟨fun hallowed => ?_, fun hallowed htakes => ?_, fun hallowed htakes => ?_⟩
      · rw [if_neg hallowed] at hcheck
        exact congrArg _ (serve_refuses hopen rfl hc (ringSet_refuses hcheck))
      · rw [if_pos hallowed] at hcheck
        refine congrArg _ (serve_does hopen rfl hc ((ringSet_applies hcheck htakes).trans ?_))
        rw [applyRing_places s c hpos]
        rfl
      · rw [if_pos hallowed] at hcheck
        exact congrArg _ (serve_keeps hopen rfl hc (ringSet_holds hcheck htakes))
    case zeroNow =>
      refine congrArg _ (serve_does hopen rfl hc
        ((ringSet_applies (ringCheck_zero hzero) htakes).trans ?_))
      rw [applyRing_none s c rfl]
      rfl
    case zeroHeld =>
      exact congrArg _ (serve_keeps hopen rfl hc (ringSet_holds (ringCheck_zero hzero) htakes))

/-! ### LOG_CONSUMED and LOG_BLOCK_SET -/

/-- The channel with its consumer at `k`, and RUNNING where it was FULL and now has room (R156). -/
def ChannelReg.consumed (x : ChannelReg) (k : RingIndex) : ChannelReg :=
  { x with
    consumer := k
    state := if x.state = .full ∧ (x.producer - k).toNat < x.ring.size then .running else x.state }

theorem resume_consumer (x : ChannelReg) (k : RingIndex) :
    ({ x with consumer := k } : ChannelReg).resume = x.consumed k := by
  unfold ChannelReg.resume ChannelReg.consumed ChannelReg.occupancy
  dsimp only
  split <;> rfl

/-- What LOG_CONSUMED leaves before its grant: a ring held is applied once the channel is empty, and a
channel with none held requests a write (R156, R158). -/
theorem afterConsumed_eq (s : State) (c : Channel) (k : RingIndex) :
    State.afterConsumed (s.setChannel c { s.channel c with consumer := k }) c =
      (s.channel c).held.elim ((s.setChannel c ((s.channel c).consumed k)).requestWrite c) fun r =>
        if ((s.channel c).producer - k).toNat = 0 ∧ (s.channel c).inFlight = false then
          ((s.setChannel c ((s.channel c).consumed k)).applyRing c r).raise .sta .heldApplied
        else s.setChannel c ((s.channel c).consumed k) := by
  have hchannel (x : ChannelReg) : (s.setChannel c x).channel c = x := by simp
  have hset (x y : ChannelReg) : (s.setChannel c x).setChannel c y = s.setChannel c y := by
    simp [State.setChannel]
  have hheld : ((s.channel c).consumed k).held = (s.channel c).held := rfl
  have hflight : ((s.channel c).consumed k).inFlight = (s.channel c).inFlight := rfl
  have hoccupancy : ((s.channel c).consumed k).occupancy = ((s.channel c).producer - k).toNat := rfl
  simp only [State.afterConsumed, hchannel, hset, resume_consumer, hheld, hflight, hoccupancy,
    Bool.not_eq_true']
  cases (s.channel c).held <;> rfl

/-- A consumer moved, and nothing more, asks for nothing. -/
theorem AsksNothing.consumed (s : State) (c : Channel) (k : RingIndex) :
    AsksNothing s (s.setChannel c ((s.channel c).consumed k)) := .setChannel s c _ fun _ h => h

section Consuming

variable {s : State} {c : Channel} {n : Nat}

theorem logConsumed_tooLarge (h : 131071 < n) : s.logConsumed c n = refuse .badValue s := if_pos h

theorem logConsumed_disabled (h : n ≤ 131071) (hd : (s.channel c).state = .disabled) :
    s.logConsumed c n = refuse .badState s := by
  rw [State.logConsumed, if_neg (Nat.not_lt.2 h), if_pos hd]

theorem logConsumed_beyond (h : n ≤ 131071) (hd : (s.channel c).state ≠ .disabled)
    (hbeyond : (s.channel c).occupancy < (BitVec.ofNat 17 n - (s.channel c).consumer).toNat) :
    s.logConsumed c n = refuse .badValue s := by
  rw [State.logConsumed, if_neg (Nat.not_lt.2 h), if_neg hd, if_pos hbeyond]

theorem logConsumed_takes (h : n ≤ 131071) (hd : (s.channel c).state ≠ .disabled)
    (hin : (BitVec.ofNat 17 n - (s.channel c).consumer).toNat ≤ (s.channel c).occupancy) :
    s.logConsumed c n = (s.thenGrant (State.afterConsumed
      (s.setChannel c { s.channel c with consumer := BitVec.ofNat 17 n }) c), ⟨.done, []⟩) := by
  rw [State.logConsumed, if_neg (Nat.not_lt.2 h), if_neg hd, if_neg (Nat.not_lt.2 hin)]

theorem logBlockSet_badValue (h : n < 1 ∨ 255 < n) : s.logBlockSet c n = refuse .badValue s :=
  if_neg (by omega)

theorem logBlockSet_sets (hlow : 1 ≤ n) (hhigh : n ≤ 255) :
    s.logBlockSet c n = (s.setChannel c { s.channel c with blockSetting := n }, ⟨.done, []⟩) :=
  if_pos ⟨hlow, hhigh⟩

end Consuming

/-- Settles O55. -/
theorem logIsConsumedInBounds : Obligations.LogIsConsumedInBounds := by
  intro s o c hopen hc
  refine ⟨fun n => ⟨fun h => ?tooLarge, fun h hd => ?disabled, fun h hd hbeyond => ?beyond,
    fun h hd hin => ⟨fun r hr hleft hflight => ?applied, fun hheld hbusy => ?held,
      fun hnone => ?requested⟩⟩, fun n => ⟨fun h => ?unfit, fun hlow hhigh => ?sets⟩⟩
  case tooLarge => exact congrArg _ (serve_refuses hopen rfl hc (logConsumed_tooLarge h))
  case disabled => exact congrArg _ (serve_refuses hopen rfl hc (logConsumed_disabled h hd))
  case beyond => exact congrArg _ (serve_refuses hopen rfl hc (logConsumed_beyond h hd hbeyond))
  case unfit => exact congrArg _ (serve_refuses hopen rfl hc (logBlockSet_badValue h))
  case sets => exact congrArg _ (serve_does hopen rfl hc (logBlockSet_sets hlow hhigh))
  all_goals
    have htakes := logConsumed_takes h hd hin
    rw [afterConsumed_eq] at htakes
  case applied =>
    rw [hr, Option.elim_some, if_pos ⟨hleft, hflight⟩] at htakes
    exact congrArg _ (serve_does hopen rfl hc htakes)
  case held =>
    obtain ⟨r, hr⟩ := Option.ne_none_iff_exists'.1 hheld
    have hwaits : ¬((s.channel c).producer - BitVec.ofNat 17 n).toNat = 0 ∨
        ¬(s.channel c).inFlight = false := hbusy.imp_right fun h => by simp [h]
    rw [hr, Option.elim_some, if_neg (not_and_or.2 hwaits),
      (AsksNothing.consumed s c _).thenGrant] at htakes
    exact congrArg _ (serve_does hopen rfl hc htakes)
  case requested =>
    rw [hnone, Option.elim_none] at htakes
    exact congrArg _ (serve_does hopen rfl hc htakes)

end Sys2Proof.Machine

namespace Sys2Proof

open Machine

/-! ### The fields of a watch (R163, R190) -/

/-- A code names the criticality that it is the code of (R190). -/
theorem Criticality.all_get_iff (n : Nat) (c : Criticality) :
    Criticality.all[n]? = some c ↔ n = c.code := by
  constructor
  · intro h
    obtain ⟨hlt, hc⟩ := List.getElem?_eq_some_iff.1 h
    rw [← hc]
    exact (List.Nodup.idxOf_getElem (by decide) n hlt).symm
  · rintro rfl
    cases c <;> rfl

/-- An optional code that is read is the code of what it is read as. -/
theorem map_code_of_read {α : Type} {read : Nat → Option α} {code : α → Nat}
    (hread : ∀ n x, read n = some x → code x = n) {a : Option Nat} {x : Option α}
    (h : optionalCode read a = some x) : x.map code = a := by
  cases a with
  | none =>
    cases h
    rfl
  | some n =>
    obtain ⟨y, hy, rfl⟩ := Option.map_eq_some_iff.1 h
    exact congrArg some (hread n y hy)

/-- An optional code is read where it is absent or names a value. -/
theorem read_iff {α : Type} {read : Nat → Option α} {P : Nat → Prop}
    (hread : ∀ n, (read n).isSome = true ↔ P n) (a : Option Nat) :
    (∃ x, optionalCode read a = some x) ↔ ∀ v, a = some v → P v := by
  cases a with
  | none => simp [optionalCode]
  | some n => simp [optionalCode, ← hread, Option.isSome_iff_exists]

/-- A watch's joint id, read from its number. -/
def readJoint (n : Nat) : Option JointId := if n ≤ 4095 then some (BitVec.ofNat 12 n) else none

theorem readJoint_toNat (n : Nat) (k : JointId) (h : readJoint n = some k) : k.toNat = n := by
  obtain ⟨hn, hk⟩ := Option.ite_none_right_eq_some.1 h
  exact ((joint_ofNat_iff hn k).1 (Option.some.inj hk)).symm

theorem readJoint_isSome (n : Nat) : (readJoint n).isSome = true ↔ n ≤ 4095 := by simp [readJoint]

theorem finOf_val_eq {n : Nat} (x : Nat) (k : Fin n) (h : finOf n x = some k) : k.val = x := by
  unfold finOf at h
  split at h
  · cases h
    rfl
  · exact nomatch h

theorem finOf_isSome (n x : Nat) : (finOf n x).isSome = true ↔ x < n := by
  rw [Option.isSome_iff_ne_none, ne_eq, finOf_none, Nat.not_le]

theorem DefectClass.all_get_isSome (n : Nat) : (DefectClass.all[n]?).isSome = true ↔ n < 9 := by
  simp [DefectClass.all]

theorem Criticality.all_get_isSome (n : Nat) : (Criticality.all[n]?).isSome = true ↔ n < 3 := by
  simp [Criticality.all]

/-- The fields of WATCH_SET that lie in their ranges (R163). -/
structure WatchArgs.Fits (a : WatchArgs) : Prop where
  recipe : ∀ v, a.recipe = some v → v < 16
  joint : ∀ v, a.joint = some v → v ≤ 4095
  cls : ∀ v, a.cls = some v → v < 9
  criticality : ∀ v, a.criticality = some v → v < 3

/-- The checks of WATCH_SET read each of its fields (R163). -/
theorem WatchArgs.check_iff (a : WatchArgs) (y : Watch) : a.check = some y ↔
    ∃ r j c k, optionalCode (finOf 16) a.recipe = some r ∧ optionalCode readJoint a.joint = some j ∧
      optionalCode (fun n => DefectClass.all[n]?) a.cls = some c ∧
      optionalCode (fun n => Criticality.all[n]?) a.criticality = some k ∧
      y = ⟨a.enable, r, j, c, k, none, false, false⟩ := by
  unfold WatchArgs.check
  split
  · rename_i r j c k hr hj hc hk
    refine ⟨fun h => ⟨r, j, c, k, hr, hj, hc, hk, (Option.some.inj h).symm⟩, ?_⟩
    rintro ⟨r', j', c', k', hr', hj', hc', hk', rfl⟩
    cases hr.symm.trans hr'
    cases hj.symm.trans hj'
    cases hc.symm.trans hc'
    cases hk.symm.trans hk'
    rfl
  · rename_i hnone
    constructor
    · exact nofun
    · rintro ⟨r, j, c, k, hr, hj, hc, hk, -⟩
      exact (hnone r j c k hr hj hc hk).elim

theorem WatchArgs.fits_iff (a : WatchArgs) : a.Fits ↔ ∃ y, a.check = some y := by
  simp only [check_iff]
  constructor
  · rintro ⟨hr, hj, hc, hk⟩
    obtain ⟨r, hr⟩ := (read_iff (finOf_isSome 16) a.recipe).2 hr
    obtain ⟨j, hj⟩ := (read_iff readJoint_isSome a.joint).2 hj
    obtain ⟨c, hc⟩ := (read_iff DefectClass.all_get_isSome a.cls).2 hc
    obtain ⟨k, hk⟩ := (read_iff Criticality.all_get_isSome a.criticality).2 hk
    exact ⟨_, r, j, c, k, hr, hj, hc, hk, rfl⟩
  · rintro ⟨_, r, j, c, k, hr, hj, hc, hk, -⟩
    exact ⟨(read_iff (finOf_isSome 16) a.recipe).1 ⟨r, hr⟩,
      (read_iff readJoint_isSome a.joint).1 ⟨j, hj⟩,
      (read_iff DefectClass.all_get_isSome a.cls).1 ⟨c, hc⟩,
      (read_iff Criticality.all_get_isSome a.criticality).1 ⟨k, hk⟩⟩

/-- The fields, status and AGAIN of a watch as bytes (R165, R190; log entry 14). -/
theorem encWatch_eq (w : Watch) :
    encWatch w = [if w.enable then 0#8 else 1#8] ++ encOpt (fun r => le 1 r.val) w.recipe ++
      encOpt (fun j => le 2 j.toNat) w.joint ++ encOpt (fun c => le 1 c.code) w.cls ++
      encOpt (fun c => le 1 c.code) w.criticality ++
      encOpt (fun h => le 2 h.seq.toNat ++ [h.tag] ++ le 2 h.joint.toNat) w.status ++
      [if w.again then 0#8 else 1#8] := by
  simp only [encWatch, encBool_eq, le_one_toNat]

end Sys2Proof

namespace Sys2Proof.Machine

open Sys2Proof

/-! ### WATCH_SET, WATCH_READ and WATCH_CLEAR -/

/-- A request whose object names nothing. -/
theorem serve_noObject {α β : Type} {s : State} {p : Port} {q : Request} {obj : Option α}
    {act : α → β → State → State × Reply} (h : s.open_ p) (hp : permitted p q = true)
    (ho : obj = none) (args : Option β) :
    s.serve p q (onObject obj args act) = s.answers p .badObject (Request.all.idxOf q + 1) [] := by
  rw [ho]
  exact serve_badObject s p q args act h hp

section Watching

variable {s : State} {w : WatchId}

theorem watchRead_empty (h : (s.watch w).status = none) :
    s.watchRead w = (s, ⟨.done, encWatch (s.watch w)⟩) := by
  simp [State.watchRead, h]

/-- A read of a latched status is seen (R165). -/
theorem watchRead_latched (h : (s.watch w).status ≠ none) :
    s.watchRead w =
      (s.setWatch w { s.watch w with seen := true }, ⟨.done, encWatch (s.watch w)⟩) :=
  congrArg (·, _) (if_pos (Option.isSome_iff_ne_none.2 h))

theorem watchClear_empty (h : (s.watch w).status = none) :
    s.watchClear w = (s, ⟨.done, []⟩) := if_neg (by simp [h])

theorem watchClear_seen (h : (s.watch w).status ≠ none) (hseen : (s.watch w).seen = true) :
    s.watchClear w =
      (s.setWatch w { s.watch w with status := none, again := false, seen := false },
        ⟨.done, []⟩) :=
  (if_pos (Option.isSome_iff_ne_none.2 h)).trans (if_pos hseen)

theorem watchClear_unseen (h : (s.watch w).status ≠ none) (hseen : (s.watch w).seen = false) :
    s.watchClear w = refuse .badState s :=
  (if_pos (Option.isSome_iff_ne_none.2 h)).trans (if_neg (by simp [hseen]))

theorem watchSet_badValue {a : WatchArgs} (h : ¬a.Fits) : s.watchSet w a = refuse .badValue s := by
  have hnone : a.check = none :=
    Option.eq_none_iff_forall_ne_some.2 fun y hy => h (a.fits_iff.2 ⟨y, hy⟩)
  rw [State.watchSet, hnone]

theorem watchSet_sets {a : WatchArgs} {y : Watch} (h : a.check = some y) :
    s.watchSet w a = (s.setWatch w y, ⟨.done, []⟩) := by
  rw [State.watchSet, h]

end Watching

/-- Settles O56. -/
theorem watchesAreSetReadAndCleared : Obligations.WatchesAreSetReadAndCleared := by
  intro s o hopen
  refine ⟨fun ho => ?noWatch, fun w hw => ?watch⟩
  case noWatch =>
    have hnone := (WatchId.ofObject_none o).2 ho
    exact ⟨congrArg _ (serve_noObject hopen rfl hnone _),
      congrArg _ (serve_noObject hopen rfl hnone _)⟩
  case watch =>
    dsimp only
    rw [← encWatch_eq]
    refine ⟨fun h => ⟨?readEmpty, ?clearEmpty⟩, fun h => ?readLatched, fun h hseen => ?clearSeen,
      fun h hseen => ?clearUnseen, fun a => ⟨fun h => ?unfit, fun ⟨hr, hj, hc, hk⟩ => ?sets⟩⟩
    case readEmpty => exact congrArg _ (serve_does hopen rfl hw (watchRead_empty h))
    case clearEmpty => exact congrArg _ (serve_does hopen rfl hw (watchClear_empty h))
    case readLatched => exact congrArg _ (serve_does hopen rfl hw (watchRead_latched h))
    case clearSeen => exact congrArg _ (serve_does hopen rfl hw (watchClear_seen h hseen))
    case clearUnseen => exact congrArg _ (serve_refuses hopen rfl hw (watchClear_unseen h hseen))
    case unfit =>
      have hunfit : ¬a.Fits := fun ⟨hr, hj, hc, hk⟩ => h ⟨hr, hj, hc, hk⟩
      exact congrArg _ (serve_refuses hopen rfl hw (watchSet_badValue hunfit))
    case sets =>
      obtain ⟨y, hy⟩ := a.fits_iff.1 ⟨hr, hj, hc, hk⟩
      have hset := watchSet_sets (s := s) (w := w) hy
      obtain ⟨r, j, c, k, hr, hj, hc, hk, rfl⟩ := (a.check_iff y).1 hy
      exact ⟨_, rfl, map_code_of_read finOf_val_eq hr, map_code_of_read readJoint_toNat hj,
        map_code_of_read (fun n x h => ((DefectClass.all_get_iff n x).1 h).symm) hc,
        map_code_of_read (fun n x h => ((Criticality.all_get_iff n x).1 h).symm) hk, rfl, rfl, rfl,
        congrArg _ (serve_does hopen rfl hw hset)⟩

end Sys2Proof.Machine

namespace Sys2Proof

open Machine

/-! ### The bytes of a log record (R196, R197) -/

/-- A field of `j + k` bytes is one of its low `j` bytes and one of the rest. -/
theorem le_add (j k n : Nat) : le (j + k) n = le j n ++ le k (n / 256 ^ j) := by
  induction j generalizing n with
  | zero => simp [le]
  | succ j ih =>
    rw [Nat.succ_add, le, le, ih, Nat.div_div_eq_div_mul, Nat.pow_succ', List.cons_append]

/-- A read of the high bytes of a field. -/
theorem numberAt_high (j k n : Nat) (xs : List Byte) :
    numberAt (le (j + k) n ++ xs) j k = n / 256 ^ j % 256 ^ k := by
  rw [le_add, List.append_assoc, numberAt_skip _ _ _ _ _ (Nat.le_refl j), Nat.sub_self, numberAt_here]

theorem replicate_zero_eq (k : Nat) : List.replicate k 0#8 = le k 0 := by
  induction k with
  | zero => rfl
  | succ k ih =>
    rw [List.replicate_succ, ih]
    rfl

/-- Bits that lie in the low `k` bytes of a number. -/
theorem bitsAt_mod {lo w k : Nat} (h : lo + w ≤ 8 * k) (n : Nat) :
    bitsAt lo w (n % 256 ^ k) = bitsAt lo w n := by
  have hsplit : 256 ^ k = 2 ^ lo * (2 ^ w * 2 ^ (8 * k - (lo + w))) := by
    rw [← Nat.pow_add, ← Nat.pow_add, show 256 = 2 ^ 8 from rfl, ← Nat.pow_mul]
    congr 1
    omega
  rw [bitsAt, bitsAt, hsplit, Nat.mod_mul_right_div_self, Nat.mod_mul_right_mod]

theorem bitsAt_div (lo w k n : Nat) : bitsAt lo w (n / 256 ^ k) = bitsAt (8 * k + lo) w n := by
  rw [bitsAt, bitsAt, Nat.div_div_eq_div_mul, show 256 = 2 ^ 8 from rfl, ← Nat.pow_mul, ← Nat.pow_add]

/-- A number made of bit fields, each a width and a value, from the lowest bits up. -/
def packed : List (Nat × Nat) → Nat
  | [] => 0
  | (w, v) :: fields => v % 2 ^ w + 2 ^ w * packed fields

theorem bitsAt_packed_here (w v : Nat) (fields : List (Nat × Nat)) :
    bitsAt 0 w (packed ((w, v) :: fields)) = v % 2 ^ w := by
  rw [bitsAt, packed, Nat.pow_zero, Nat.div_one, Nat.add_mul_mod_self_left, Nat.mod_mod]

theorem bitsAt_packed_skip {lo w : Nat} (h : w ≤ lo) (k v : Nat) (fields : List (Nat × Nat)) :
    bitsAt lo k (packed ((w, v) :: fields)) = bitsAt (lo - w) k (packed fields) := by
  have hpow : 2 ^ lo = 2 ^ w * 2 ^ (lo - w) := by rw [← Nat.pow_add, Nat.add_sub_cancel' h]
  rw [bitsAt, bitsAt, packed, hpow, ← Nat.div_div_eq_div_mul,
    Nat.add_mul_div_left _ _ (Nat.two_pow_pos w), Nat.div_eq_of_lt (Nat.mod_lt _ (Nat.two_pow_pos w)),
    Nat.zero_add]

/-! ### The values of the fields -/

theorem toNat_mod {w k : Nat} (x : BitVec w) (h : 2 ^ w ≤ k) : x.toNat % k = x.toNat :=
  Nat.mod_eq_of_lt (Nat.lt_of_lt_of_le x.isLt h)

theorem boolToNat_mod (b : Bool) : b.toNat % 2 ^ 1 = b.toNat := by cases b <;> rfl

theorem Lane.code_mod (l : Lane) : l.code % 2 ^ 1 = l.code := by cases l <;> rfl

theorem HeadId.code_mod (n : HeadId) : n.code % 2 ^ 2 = n.code := by cases n <;> rfl

theorem DefectClass.code_mod (c : DefectClass) : c.code % 2 ^ 4 = c.code := by cases c <;> rfl

theorem Criticality.code_mod (c : Criticality) : c.code % 2 ^ 2 = c.code := by cases c <;> rfl

theorem Verdict.code_mod (v : Verdict) : v.code % 2 ^ 2 = v.code := by cases v <;> rfl

theorem ExitFate.code_mod (f : ExitFate) : f.code % 2 ^ 2 = f.code := by cases f <;> rfl

theorem logGrade_mod (g : Grade) : logGrade g % 2 ^ 1 = logGrade g := by cases g <;> rfl

/-- Recipe NONE is 16 (R190). -/
theorem recipeCode_mod (k : Option RecipeId) : recipeCode k % 2 ^ 5 = recipeCode k := by
  cases k with
  | none => rfl
  | some k => exact Nat.mod_eq_of_lt (Nat.lt_trans k.isLt (by decide))

theorem HeadStatus.summaryCode_le (x : HeadStatus) : x.summaryCode ≤ 4 := by cases x <;> decide

theorem headStatusNumber_mod (h : PerHead (HeadStatus × Nat)) :
    headStatusNumber h % 2 ^ 10 = headStatusNumber h := by
  have h0 := h.v0.1.summaryCode_le
  have h1 := h.v1.1.summaryCode_le
  have h2 := h.v2.1.summaryCode_le
  have h3 := h.v3.1.summaryCode_le
  refine Nat.mod_eq_of_lt ?_
  unfold headStatusNumber
  omega

/-! ### A defect record -/

/-- The head and grade of the second report, of code 0 where there is none (R196). -/
def Machine.DefectRec.secondReport (d : DefectRec) : HeadId × Grade := d.second.getD (.h0, .marginal)

/-- Byte 3 of a defect record. -/
def Machine.DefectRec.marks (d : DefectRec) : Nat :=
  packed [(1, d.lane.code), (4, recipeCode d.recipe), (1, d.serial.isSome.toNat),
    (1, d.advisory.toNat), (1, d.second.isSome.toNat)]

/-- Bytes 13 and 14 of a defect record. -/
def Machine.DefectRec.place (d : DefectRec) : Nat := packed [(12, d.joint.toNat), (4, d.cls.code)]

/-- Byte 15 of a defect record. -/
def Machine.DefectRec.grades (d : DefectRec) : Nat :=
  packed [(2, d.criticality.code), (2, d.firstHead.code), (1, logGrade d.firstGrade),
    (2, d.secondReport.1.code), (1, logGrade d.secondReport.2)]

theorem Machine.DefectRec.logBytes_eq (q : SeqNo) (d : DefectRec) : d.logBytes q =
    le 2 q.toNat ++ (le 1 d.tag.toNat ++ (le 1 d.marks ++ (le 6 (d.serial.getD 0#48).toNat ++
      (le 3 d.entryPos.toNat ++ (le 2 d.place ++ (le 1 d.grades ++ (le 2 d.value.toNat ++
        (le 2 (d.secondValue.getD 0#16).toNat ++ le 12 0)))))))) := by
  have hhead : (d.second.map fun x => HeadId.code x.1).getD 0 = d.secondReport.1.code := by
    cases h : d.second <;> simp [secondReport, h, HeadId.code]
  have hgrade : (d.second.map fun x => logGrade x.2).getD 0 = logGrade d.secondReport.2 := by
    cases h : d.second <;> simp [secondReport, h, logGrade]
  have hmarks : Lane.code d.lane + bits 4 1 (recipeCode d.recipe) + bit 5 d.serial.isSome +
      bit 6 d.advisory + bit 7 d.second.isSome = d.marks := by
    simp only [marks, packed, bits, bit_eq, boolToNat_mod, Lane.code_mod]
    ring
  have hplace : d.joint.toNat + bits 4 12 d.cls.code = d.place := by
    simp only [place, packed, bits, toNat_mod _ (Nat.le_refl _)]
    ring
  have hgrades : d.criticality.code + bits 2 2 (HeadId.code d.firstHead) +
      bits 1 4 (logGrade d.firstGrade) + bits 2 5 d.secondReport.1.code +
      bits 1 7 (logGrade d.secondReport.2) = d.grades := by
    simp only [grades, packed, bits, Criticality.code_mod]
    ring
  simp only [DefectRec.logBytes, hhead, hgrade, hmarks, hplace, hgrades, replicate_zero_eq,
    List.append_assoc]

/-! ### A summary record -/

/-- Byte 3 of a summary record. -/
def Machine.SummaryRec.marks (r : SummaryRec) : Nat :=
  packed [(1, r.lane.code), (5, recipeCode r.recipe), (1, r.serial.isSome.toNat),
    (1, (r.flags.contains .unannounced).toNat)]

/-- Byte 4 of a summary record. -/
def Machine.SummaryRec.fates (r : SummaryRec) : Nat :=
  packed [(2, verdictCode r.verdict), (2, (r.exitFate.map ExitFate.code).getD 0),
    (1, (decide (0 < r.heads.v0.2)).toNat), (1, (decide (0 < r.heads.v1.2)).toNat),
    (1, (decide (0 < r.heads.v2.2)).toNat), (1, (decide (0 < r.heads.v3.2)).toNat)]

/-- Bytes 14 to 16 of a summary record. -/
def Machine.SummaryRec.lengths (r : SummaryRec) : Nat :=
  packed [(22, r.length.getD 0), (1, (r.flags.contains .noRecipe).toNat),
    (1, (r.flags.contains .overlength).toNat)]

/-- Bytes 17 to 19 of a summary record. -/
def Machine.SummaryRec.exits (r : SummaryRec) : Nat :=
  packed [(22, r.exitOffset), (1, (r.flags.contains .suspectOverflow).toNat),
    (1, (r.flags.contains .defectRecordsDropped).toNat)]

/-- Bytes 20 to 31 of a summary record; their top bit is 0. -/
def Machine.SummaryRec.tallies (r : SummaryRec) : Nat :=
  packed [(14, r.counts.defects), (14, r.counts.critical), (14, r.counts.advisory),
    (14, r.counts.marginals), (14, r.counts.unseen), (14, r.counts.cleared),
    (10, headStatusNumber r.heads), (1, (r.flags.contains .earlyExit).toNat), (1, 0)]

theorem Machine.SummaryRec.logBytes_eq (q : SeqNo) (r : SummaryRec) : r.logBytes q =
    le 2 q.toNat ++ (le 1 r.tag.toNat ++ (le 1 r.marks ++ (le 1 r.fates ++
      (le 6 (r.serial.getD 0#48).toNat ++ (le 3 r.entryPos.toNat ++ (le 3 r.lengths ++
        (le 3 r.exits ++ le 12 r.tallies))))))) := by
  have hmarks : Lane.code r.lane + bits 5 1 (recipeCode r.recipe) + bit 6 r.serial.isSome +
      bit 7 (r.flags.contains .unannounced) = r.marks := by
    simp only [marks, packed, bits, bit_eq, boolToNat_mod, Lane.code_mod]
    ring
  have hfates : bits 2 0 (verdictCode r.verdict) +
      bits 2 2 ((r.exitFate.map ExitFate.code).getD 0) + bit 4 (decide (0 < r.heads.v0.2)) +
      bit 5 (decide (0 < r.heads.v1.2)) + bit 6 (decide (0 < r.heads.v2.2)) +
      bit 7 (decide (0 < r.heads.v3.2)) = r.fates := by
    simp only [fates, packed, bits, bit_eq, boolToNat_mod]
    ring
  have hlengths : bits 22 0 (r.length.getD 0) + bit 22 (r.flags.contains .noRecipe) +
      bit 23 (r.flags.contains .overlength) = r.lengths := by
    simp only [lengths, packed, bits, bit_eq, boolToNat_mod]
    ring
  have hexits : bits 22 0 r.exitOffset + bit 22 (r.flags.contains .suspectOverflow) +
      bit 23 (r.flags.contains .defectRecordsDropped) = r.exits := by
    simp only [exits, packed, bits, bit_eq, boolToNat_mod]
    ring
  have htallies : bits 14 0 r.counts.defects + bits 14 14 r.counts.critical +
      bits 14 28 r.counts.advisory + bits 14 42 r.counts.marginals + bits 14 56 r.counts.unseen +
      bits 14 70 r.counts.cleared + bits 10 84 (headStatusNumber r.heads) +
      bit 94 (r.flags.contains .earlyExit) = r.tallies := by
    simp only [tallies, packed, bits, bit_eq, boolToNat_mod]
    ring
  simp only [SummaryRec.logBytes, hmarks, hfates, hlengths, hexits, htallies, List.append_assoc]

/-- The bit of a head whose results were discarded (R197). -/
theorem Machine.SummaryRec.bitsAt_fates_head (r : SummaryRec) (h : HeadId) :
    bitsAt (4 + h.code) 1 (r.fates % 256 ^ 1) = if 0 < (r.heads.get h).2 then 1 else 0 := by
  have hbit (n : Nat) : (decide (0 < n)).toNat % 2 ^ 1 = if 0 < n then 1 else 0 := by
    by_cases hn : 0 < n <;> simp [hn]
  cases h
  all_goals
    simp (disch := decide) only [HeadId.code, bitsAt_mod, fates, bitsAt_packed_skip,
      bitsAt_packed_here, Nat.reduceAdd, Nat.reduceSub]
    exact hbit _

theorem Machine.SummaryRec.exitOffset_matched {r : SummaryRec} {x : Pos}
    (hfate : r.exitFate = some .matched) (hx : r.exitPos = some x) :
    r.exitOffset = (x - r.entryPos).toNat := by
  rw [exitOffset, hfate, hx]

theorem Machine.SummaryRec.exitOffset_unmatched {r : SummaryRec}
    (hfate : r.exitFate ≠ some .matched) : r.exitOffset = 0 := by
  unfold exitOffset
  split
  · exact absurd ‹_› hfate
  · rfl

end Sys2Proof

namespace Sys2Proof.Machine

open Sys2Proof

/-! ### A record leaves its source (R155) -/

/-- A request to write changes channels only. -/
theorem requestWrite_channels (s : State) (c : Channel) :
    ∃ x, s.requestWrite c = { s with channels := x } := by
  unfold State.requestWrite
  split <;> exact ⟨_, rfl⟩

/-- A change of boards, sources and channels only. -/
def OnlySources (s t : State) : Prop :=
  ∃ b d m c, t = { s with slots := b, defects := d, summaryReady := m, channels := c }

theorem OnlySources.trans {s t u : State} (h : OnlySources s t) (k : OnlySources t u) :
    OnlySources s u := by
  obtain ⟨_, _, _, _, rfl⟩ := h
  obtain ⟨_, _, _, _, rfl⟩ := k
  exact ⟨_, _, _, _, rfl⟩

theorem OnlySources.requestWrite (s : State) (c : Channel) : OnlySources s (s.requestWrite c) := by
  obtain ⟨_, h⟩ := requestWrite_channels s c
  exact ⟨_, _, _, _, h⟩

theorem OnlySources.dropOutstanding (s : State) (i : Slot) : OnlySources s (s.dropOutstanding i) := by
  cases hr : s.board i with
  | none =>
    rw [dropOutstanding_free hr]
    exact ⟨_, _, _, _, rfl⟩
  | some r =>
    rw [dropOutstanding_eq hr]
    split
    · exact ⟨_, _, _, _, rfl⟩
    · split
      · exact ⟨_, _, _, _, rfl⟩
      · exact OnlySources.trans ⟨_, _, _, _, rfl⟩ (.requestWrite _ _)

theorem OnlySources.leaveSource (s : State) (c : Channel) (board : Option Slot) :
    OnlySources s (s.leaveSource c board) := by
  unfold State.leaveSource
  split
  · exact ⟨_, _, _, _, rfl⟩
  · split
    · exact OnlySources.trans ⟨_, _, _, _, rfl⟩ (.dropOutstanding _ _)
    · exact ⟨_, _, _, _, rfl⟩

section Leaving

variable {s : State} {i : Slot} {r : Record}

/-- The oldest defect record leaves the pool, and its board has one fewer outstanding (R155). -/
theorem leaveSource_defect_keeps (hr : s.board i = some r)
    (h : r.state ≠ .leaving ∨ r.outstanding ≠ 1) :
    s.leaveSource .defect (some i) = State.setBoard { s with defects := s.defects.tail } i
      (some { r with outstanding := r.outstanding - 1 }) :=
  (dropOutstanding_eq (s := { s with defects := s.defects.tail }) hr).trans (if_pos h)

theorem leaveSource_defects (s : State) (i : Slot) :
    (s.leaveSource .defect (some i)).defects = s.defects.tail := by
  have hrequest (u : State) : (u.requestWrite .summary).defects = u.defects := by
    obtain ⟨x, hx⟩ := requestWrite_channels u .summary
    rw [hx]
  show (State.dropOutstanding { s with defects := s.defects.tail } i).defects = _
  cases hr : s.board i with
  | none => rw [dropOutstanding_free (s := { s with defects := s.defects.tail }) hr]
  | some r =>
    rw [dropOutstanding_eq (s := { s with defects := s.defects.tail }) hr]
    split
    · rfl
    · split
      · rfl
      · exact hrequest _

/-- A LEAVING board left with none joins the summary-ready list (R144, R155). -/
theorem leaveSource_defect_joins (hr : s.board i = some r) (hleaving : r.state = .leaving)
    (hlast : r.outstanding = 1) (hsummary : (s.channel .summary).state ≠ .disabled) :
    (s.leaveSource .defect (some i)).summaryReady = s.summaryReady ++ [i] := by
  have hdrop := dropOutstanding_eq (s := { s with defects := s.defects.tail }) hr
  rw [if_neg (by simp [hleaving, hlast])] at hdrop
  have hjoin := hdrop.trans (if_neg hsummary)
  obtain ⟨x, hx⟩ := requestWrite_channels
    { State.setBoard { s with defects := s.defects.tail } i
        (some { r with outstanding := r.outstanding - 1 }) with
      summaryReady := s.summaryReady ++ [i] } .summary
  exact congrArg State.summaryReady (hjoin.trans hx)

end Leaving

/-! ### The end of a channel's write (R155) -/

/-- A change of channels, flags and watches only. -/
def OnlyMarks (s t : State) : Prop := ∃ c a w, t = { s with channels := c, alerts := a, watches := w }

theorem OnlyMarks.refl (s : State) : OnlyMarks s s := ⟨_, _, _, rfl⟩

theorem OnlyMarks.trans {s t u : State} (h : OnlyMarks s t) (k : OnlyMarks t u) : OnlyMarks s u := by
  obtain ⟨_, _, _, rfl⟩ := h
  obtain ⟨_, _, _, rfl⟩ := k
  exact ⟨_, _, _, rfl⟩

/-- The flag `f` is raised on STA where `p` holds. -/
def State.raiseWhere (s : State) (p : Prop) [Decidable p] (f : AlertFlag) : State :=
  if p then s.raise .sta f else s

section RaiseWhere

variable (s : State) (p : Prop) [Decidable p] (f : AlertFlag)

theorem OnlyMarks.raiseWhere : OnlyMarks s (s.raiseWhere p f) := by
  unfold State.raiseWhere
  split <;> exact ⟨_, _, _, rfl⟩

@[simp] theorem raiseWhere_channel (c : Channel) : (s.raiseWhere p f).channel c = s.channel c := by
  unfold State.raiseWhere
  split <;> rfl

@[simp] theorem raiseWhere_watch (w : WatchId) : (s.raiseWhere p f).watch w = s.watch w := by
  unfold State.raiseWhere
  split <;> rfl

theorem mem_latched_raiseWhere (g : AlertFlag) : g ∈ ((s.raiseWhere p f).alert .sta).latched ↔
    g ∈ (s.alert .sta).latched ∨ g = f ∧ p := by
  unfold State.raiseWhere
  split <;> simp [mem_latched_raise, *]

end RaiseWhere

/-- The indexes and the block count rise, and the block's flag is raised as it fills (R155, R162). -/
theorem advance_eq (s : State) (c : Channel) : s.advance c =
    (s.setChannel c (s.channel c).advance).raiseWhere
      ((s.channel c).blockCount + 1 = (s.channel c).blockInUse) (Channel.blockFlag c) := rfl

theorem advance_occupancy (x : ChannelReg) :
    x.advance.occupancy = (x.producer + 1#17 - x.consumer).toNat := by
  unfold ChannelReg.advance ChannelReg.occupancy
  dsimp only
  split <;> rfl

/-- The channel is FULL at its ring size (R155). -/
def ChannelReg.fullChecked (x : ChannelReg) : ChannelReg :=
  { x with state := if x.occupancy = x.ring.size then .full else x.state }

theorem fullCheck_eq (s : State) (c : Channel) : s.fullCheck c =
    (s.setChannel c (s.channel c).fullChecked).raiseWhere
      ((s.channel c).occupancy = (s.channel c).ring.size) (Channel.fullFlag c) := by
  have hself : s.setChannel c (s.channel c) = s := by simp [State.setChannel, State.channel]
  unfold State.fullCheck State.raiseWhere ChannelReg.fullChecked
  split
  · rfl
  · exact hself.symm

theorem matchWatch_eq (s : State) (q : SeqNo) (d : DefectRec) (w : WatchId) : s.matchWatch q d w =
    (s.setWatch w (if (s.watch w).fits d then (s.watch w).matched q d else s.watch w)).raiseWhere
      ((s.watch w).fits d = true) .watchHit := by
  have hself : s.setWatch w (s.watch w) = s := by simp [State.setWatch, State.watch]
  unfold State.matchWatch State.raiseWhere
  split
  · rfl
  · exact hself.symm

theorem OnlyMarks.matchWatches (s : State) (q : SeqNo) (rec : LogRecord) :
    OnlyMarks s (s.matchWatches q rec) := by
  have hone (u : State) (d : DefectRec) (w : WatchId) : OnlyMarks u (u.matchWatch q d w) := by
    rw [matchWatch_eq]
    exact OnlyMarks.trans ⟨_, _, _, rfl⟩ (.raiseWhere _ _ _)
  cases rec with
  | summary r => exact .refl s
  | defect d => exact (hone s d .w0).trans (hone _ d .w1)

theorem matchWatches_latched (s : State) (q : SeqNo) (rec : LogRecord) {f : AlertFlag}
    (hf : f ≠ .watchHit) : f ∈ ((s.matchWatches q rec).alert .sta).latched ↔
      f ∈ (s.alert .sta).latched := by
  have hone (u : State) (d : DefectRec) (w : WatchId) :
      f ∈ ((u.matchWatch q d w).alert .sta).latched ↔ f ∈ (u.alert .sta).latched := by
    rw [matchWatch_eq, mem_latched_raiseWhere]
    simp [hf]
  cases rec with
  | summary r => exact .rfl
  | defect d => exact (hone _ d .w1).trans (hone s d .w0)

/-- A DEFECT record is matched against each watch on its own (R164). -/
theorem matchWatches_watch (s : State) (q : SeqNo) (d : DefectRec) (w : WatchId) :
    (s.matchWatches q (.defect d)).watch w =
      if (s.watch w).fits d then (s.watch w).matched q d else s.watch w := by
  show ((s.matchWatch q d .w0).matchWatch q d .w1).watch w = _
  simp only [matchWatch_eq, raiseWhere_watch, State.setWatch_watch]
  cases w <;> simp

theorem watches_eq_of_watch {s t : State} (h : ∀ w, t.watch w = s.watch w) :
    t.watches = s.watches := by
  have h0 : t.watches.w0 = s.watches.w0 := h .w0
  have h1 : t.watches.w1 = s.watches.w1 := h .w1
  calc t.watches = ⟨t.watches.w0, t.watches.w1⟩ := rfl
    _ = s.watches := by rw [h0, h1]

/-- All four fields of an enabled watch match those of the record (R164). -/
theorem fits_iff (y : Watch) (d : DefectRec) : y.fits d = true ↔
    y.enable = true ∧ (∀ v, y.recipe = some v → d.recipe = some v) ∧
      (∀ v, y.joint = some v → d.joint = v) ∧ (∀ v, y.cls = some v → d.cls = v) ∧
      (∀ v, y.criticality = some v → d.criticality = v) := by
  simp only [Watch.fits, Bool.and_eq_true, Option.all_eq_true, decide_eq_true_eq, and_assoc]

/-- The state in which the next write may be requested: steps 1 to 5 are done and the channel holds no write
(R155). -/
def State.recordWritten (s : State) (c : Channel) (q : SeqNo) (rec : LogRecord)
    (board : Option Slot) : State :=
  let t := (((s.leaveSource c board).advance c).matchWatches q rec).fullCheck c
  t.setChannel c { t.channel c with write := none }

theorem completeWrite_eq (s : State) (c : Channel) (q : SeqNo) (rec : LogRecord)
    (board : Option Slot) :
    s.completeWrite c q rec board = (s.recordWritten c q rec board).requestWrite c := rfl

section Completing

variable (s : State) (c : Channel) (q : SeqNo) (rec : LogRecord) (board : Option Slot)

/-- After the record has left its source, channels, flags and watches change only. -/
theorem recordWritten_marks : OnlyMarks (s.leaveSource c board) (s.recordWritten c q rec board) := by
  have hadvance (u : State) : OnlyMarks u (u.advance c) := by
    rw [advance_eq]
    exact OnlyMarks.trans ⟨_, _, _, rfl⟩ (.raiseWhere _ _ _)
  have hfull (u : State) : OnlyMarks u (u.fullCheck c) := by
    rw [fullCheck_eq]
    exact OnlyMarks.trans ⟨_, _, _, rfl⟩ (.raiseWhere _ _ _)
  exact (((hadvance _).trans (.matchWatches _ q rec)).trans (hfull _)).trans ⟨_, _, _, rfl⟩

theorem recordWritten_latched {f : AlertFlag} (hf : f ≠ .watchHit)
    (hw : (s.channel c).write ≠ none) :
    f ∈ ((s.recordWritten c q rec board).alert .sta).latched ↔ f ∈ (s.alert .sta).latched ∨
      f = Channel.blockFlag c ∧ (s.channel c).blockCount + 1 = (s.channel c).blockInUse ∨
      f = Channel.fullFlag c ∧ ((s.channel c).producer + 1#17 - (s.channel c).consumer).toNat =
        (s.channel c).ring.size := by
  have hsource : (s.leaveSource c board).alert .sta = s.alert .sta := by
    obtain ⟨_, _, _, _, h⟩ := OnlySources.leaveSource s c board
    rw [h]
    rfl
  have hflags : (s.recordWritten c q rec board).alert .sta =
      ((((s.leaveSource c board).advance c).matchWatches q rec).fullCheck c).alert .sta := rfl
  rw [hflags, fullCheck_eq, mem_latched_raiseWhere, State.setChannel_alert,
    matchWatches_latched _ q rec hf,
    matchWatches_channel, advance_eq, mem_latched_raiseWhere, State.setChannel_alert, hsource,
    raiseWhere_channel, State.setChannel_channel, if_pos rfl, leaveSource_channel s c board hw,
    advance_ring, advance_occupancy, or_assoc]

theorem recordWritten_channel (hw : (s.channel c).write ≠ none) :
    (s.recordWritten c q rec board).channel c =
      { (s.channel c).advance.fullChecked with write := none } := by
  simp only [State.recordWritten, fullCheck_eq, advance_eq, matchWatches_channel, raiseWhere_channel,
    State.setChannel_channel, if_true, leaveSource_channel s c board hw]

theorem recordWritten_watch (w : WatchId) : (s.recordWritten c q rec board).watch w =
    (s.matchWatches q rec).watch w := by
  have hsource : (s.leaveSource c board).watch w = s.watch w := by
    obtain ⟨_, _, _, _, h⟩ := OnlySources.leaveSource s c board
    rw [h]
    rfl
  have hbefore : ((s.leaveSource c board).advance c).watch w = s.watch w := by
    rw [advance_eq, raiseWhere_watch, State.setChannel_watch, hsource]
  simp only [State.recordWritten, fullCheck_eq, raiseWhere_watch, State.setChannel_watch]
  cases rec with
  | summary r => exact hbefore
  | defect d => rw [matchWatches_watch, matchWatches_watch, hbefore]

end Completing

/-- The fields of a channel after a record is written (R155, R162). -/
theorem advance_fullChecked (x : ChannelReg) :
    ({ x.advance.fullChecked with write := none } : ChannelReg) = { x with
      producer := x.producer + 1#17
      seq := x.seq + 1#16
      blockCount := if x.blockCount + 1 = x.blockInUse then 0 else x.blockCount + 1
      blockInUse := if x.blockCount + 1 = x.blockInUse then x.blockSetting else x.blockInUse
      state := if (x.producer + 1#17 - x.consumer).toNat = x.ring.size then .full else x.state
      write := none } := by
  rw [ChannelReg.fullChecked, advance_occupancy, advance_ring, ChannelReg.advance]
  by_cases h : x.blockCount + 1 = x.blockInUse <;> simp [h]

theorem exec_moveWriteEnd {s : State} {c : Channel} {k : RingIndex} {q : SeqNo} {rec : LogRecord}
    {board : Option Slot} {a n : Nat} (hw : (s.channel c).write = some (.inFlight k q rec board))
    (ho : s.arbiter.op = some ⟨.channel c, .moveWrite, a, n⟩) :
    exec .moveWriteEnd s =
      .next ((s.endOp.writeEnds a (rec.logBytes q)).completeWrite c q rec board).grant := by
  show Host.Outcome.next s.moveWriteEnd = _
  rw [State.moveWriteEnd, ho]
  dsimp only
  rw [hw]

/-- Settles O38: the bytes of the two records, then the steps of R155 up to the next write's request. -/
theorem moveWriteEndCompletesTheRecord : Obligations.MoveWriteEndCompletesTheRecord := by
  refine ⟨fun d q => ?defect, fun r q => ?summary, fun s c k q rec board hw =>
    ⟨fun a n => exec_moveWriteEnd hw, ?completed⟩⟩
  case defect =>
    dsimp only [LogRecord.logBytes]
    rw [DefectRec.logBytes_eq]
    simp (disch := decide) only [numberAt_skip, numberAt_here, numberAt_last, numberAt_high 1 1,
      Nat.reduceSub, toNat_mod, Nat.zero_mod]
    simp (disch := decide) only [bitsAt_mod, bitsAt_div, Nat.reduceMul, Nat.reduceAdd, Nat.reduceSub,
      DefectRec.marks, DefectRec.place, DefectRec.grades, bitsAt_packed_skip, bitsAt_packed_here,
      toNat_mod, boolToNat_mod, Lane.code_mod, HeadId.code_mod, DefectClass.code_mod,
      Criticality.code_mod, logGrade_mod, true_and, and_true]
    refine ⟨by simp only [List.length_append, le_length], fun k hk => ?_, rfl, rfl, rfl⟩
    rw [hk]
    exact Nat.mod_eq_of_lt k.isLt
  case summary =>
    dsimp only [LogRecord.logBytes]
    rw [SummaryRec.logBytes_eq]
    simp (disch := decide) only [numberAt_skip, numberAt_here, numberAt_last, Nat.reduceSub, toNat_mod]
    simp (disch := decide) only [bitsAt_mod, Nat.reduceSub,
      SummaryRec.marks, SummaryRec.fates, SummaryRec.lengths, SummaryRec.exits, SummaryRec.tallies,
      bitsAt_packed_skip, bitsAt_packed_here, boolToNat_mod, Lane.code_mod, recipeCode_mod,
      headStatusNumber_mod, true_and]
    refine ⟨by simp only [List.length_append, le_length], by cases r.recipe <;> rfl,
      fun v hv => ?_, fun f hf => ?_, r.bitsAt_fates_head, rfl,
      fun x hf hx => congrArg (· % _) (SummaryRec.exitOffset_matched hf hx),
      fun hf => congrArg (· % _) (SummaryRec.exitOffset_unmatched hf),
      rfl, rfl, rfl, rfl, rfl, rfl, ?_, rfl⟩
    · rw [hv]
      exact v.code_mod
    · rw [hf]
      exact f.code_mod
    · have hcode (x : HeadStatus) : x.summaryCode = (match x with
        | .late => 1
        | .faulted => 2
        | .absent => 3
        | .notRequired => 4
        | _ => 0) := by cases x <;> rfl
      simp only [headStatusNumber, hcode]
      rfl
  case completed =>
    have hwrite : (s.channel c).write ≠ none := by simp [hw]
    obtain ⟨_, _, _, hmarks⟩ := recordWritten_marks s c q rec board
    obtain ⟨_, _, _, _, hsource⟩ := OnlySources.leaveSource s c board
    have hblock : Channel.blockFlag c ≠ .watchHit := by cases c <;> decide
    have hdistinct : Channel.blockFlag c ≠ Channel.fullFlag c := by cases c <;> decide
    have hfull : Channel.fullFlag c ≠ .watchHit := by cases c <;> decide
    refine ⟨s.recordWritten c q rec board, completeWrite_eq s c q rec board, ?mem, ?cache,
      (recordWritten_channel s c q rec board hwrite).trans (advance_fullChecked _), ?block, ?full,
      ?detached, ?source, ?noDefect, ?watches⟩
    case mem => rw [hmarks, hsource]
    case cache => rw [hmarks, hsource]
    case block =>
      rw [recordWritten_latched s c q rec board hblock hwrite]
      simp [hdistinct]
    case full =>
      rw [recordWritten_latched s c q rec board hfull hwrite]
      simp [hdistinct.symm]
    case detached =>
      rintro rfl
      rw [hmarks]
      exact ⟨rfl, rfl, rfl⟩
    case source =>
      rintro i r rfl hr
      rw [hmarks]
      refine ⟨?_, ?_⟩
      · rintro rfl
        exact ⟨rfl, by simp [State.leaveSource, State.setBoard, State.board]⟩
      · rintro rfl
        refine ⟨leaveSource_defects s i, fun h => ?_, fun hleaving hlast hsummary =>
          leaveSource_defect_joins hr hleaving hlast hsummary⟩
        rw [leaveSource_defect_keeps hr h]
        exact ⟨by simp [State.setBoard, State.board], rfl⟩
    case noDefect =>
      intro h
      cases rec with
      | summary r => exact watches_eq_of_watch (recordWritten_watch s c q (.summary r) board)
      | defect d => exact absurd rfl (h d)
    case watches =>
      rintro d rfl w
      exact (recordWritten_watch s c q _ board w).trans
        ((matchWatches_watch s q d w).trans (if_congr (fits_iff _ d) rfl rfl))

end Sys2Proof.Machine
end

section
/-! Proofs of the statements about faults and alerts (09_faults_and_alerts.md). -/

namespace Sys2Proof.Machine

open Sys2Proof

/-! ### Raising a flag -/

/-- A set over all values of its kind takes in one more. -/
theorem mem_setInsert {α : Type} [DecidableEq α] {all : List α} {y : α} (hall : y ∈ all) (x : α)
    (xs : List α) : y ∈ setInsert all x xs ↔ y = x ∨ y ∈ xs := by
  simp [setInsert, hall]

theorem Cause.mem_all (c : Cause) : c ∈ Cause.all := by cases c <;> decide

/-- What a port's alerts are once the flag `f` is raised (R178). -/
def AlertState.raised (x : AlertState) (f : AlertFlag) : AlertState :=
  { x with latched := setInsert AlertFlag.all f x.latched, seen := setErase f x.seen }

theorem raise_eq (s : State) (p : Port) (f : AlertFlag) :
    s.raise p f = s.setAlert p ((s.alert p).raised f) := rfl

theorem AlertState.mem_latched_raised (x : AlertState) (f g : AlertFlag) :
    g ∈ (x.raised f).latched ↔ g = f ∨ g ∈ x.latched :=
  mem_setInsert (by cases g <;> decide) f x.latched

theorem AlertState.mem_seen_raised (x : AlertState) (f g : AlertFlag) :
    g ∈ (x.raised f).seen ↔ g ≠ f ∧ g ∈ x.seen :=
  (mem_setErase f g x.seen).trans and_comm

/-! ### Active flags and the alert line -/

theorem flagActive_iff (s : State) (p : Port) (f : AlertFlag) :
    s.flagActive p f = true ↔ f ∈ (s.alert p).latched ∨ s.levelFlag p f = true := by
  rw [State.flagActive, Bool.or_eq_true, List.contains_iff_mem]

theorem alertLine_iff (s : State) (p : Port) : s.alertLine p = true ↔
    (s.alert p).enable = true ∧ ∃ f ∈ (s.alert p).mask, s.flagActive p f = true := by
  rw [State.alertLine, Bool.and_eq_true, List.any_eq_true]

/-- The conditions of the level flags of R177. -/
theorem levelFlag_faultPending (s : State) (p : Port) :
    s.levelFlag p .faultPending = true ↔ s.faults.queue ≠ [] := by
  simp [State.levelFlag]

theorem levelFlag_triggerPending (s : State) (n : HeadId) :
    s.levelFlag (.hl n) .triggerPending = true ↔ (s.link n).triggers ≠ [] := by
  simp [State.levelFlag]

theorem Outer.mem_all (o : Outer) : o ∈ Outer.all := by
  cases o with
  | hl n => cases n <;> decide
  | _ => decide

theorem levelFlag_mailUp (s : State) (p : Port) :
    s.levelFlag p .mailUp = true ↔ ∃ o, (s.mailPair o).up ≠ none := by
  simp [State.levelFlag, Outer.mem_all, Option.isSome_iff_ne_none]

theorem Outer.outer?_port (o : Outer) : o.port.outer? = some o := by cases o <;> rfl

theorem levelFlag_mailDown (s : State) (o : Outer) :
    s.levelFlag o.port .mailDown = true ↔ (s.mailPair o).down ≠ none := by
  simp [State.levelFlag, Outer.outer?_port, Option.isSome_iff_ne_none]

/-! ### The presentation and its lines -/

theorem presentation_emptyOrder {s : State} {l : Lane} (h : (s.lane l).order = []) :
    s.presentation l = none := by
  rw [State.presentation, h]

/-- A front record that is DECIDED is presented with its verdict; one that is not presents nothing (R134). -/
theorem presentation_front {s : State} {l : Lane} {i : Slot} {rest : List Slot} {r : Record}
    (ho : (s.lane l).order = i :: rest) (hr : s.board i = some r) : s.presentation l =
      if r.state = .decided then r.verdict.map fun v => (r.tag, v) else none := by
  rw [State.presentation, ho]
  dsimp only
  rw [hr]

theorem disposition_none {s : State} {l : Lane} (h : s.presentation l = none) :
    s.disposition l = ⟨false, false, false, 0#4⟩ := by
  rw [State.disposition, h]

theorem disposition_some {s : State} {l : Lane} {t : Tag} {v : Verdict}
    (h : s.presentation l = some (t, v)) : s.disposition l =
      ⟨true, decide (v = .unverified ∨ v = .scrap), decide (v = .rework ∨ v = .scrap),
        t.setWidth 4⟩ := by
  rw [State.disposition, h]

/-- Settles O8: the flag raised, the line, the level flags, and the presentation with its lines. -/
theorem raisedFlagIsSetAndUnseen : Obligations.RaisedFlagIsSetAndUnseen := by
  refine ⟨fun s p f => ⟨_, raise_eq s p f, rfl, rfl, rfl, (s.alert p).mem_latched_raised f,
      (s.alert p).mem_seen_raised f⟩, alertLine_iff, flagActive_iff,
    fun s => ⟨levelFlag_triggerPending s, levelFlag_mailUp s .sta, levelFlag_mailDown s,
      Option.isSome_iff_ne_none, Option.isSome_iff_ne_none⟩,
    fun s l => ⟨presentation_emptyOrder, fun i rest r ho hr => ⟨fun hst => ?waits,
      fun v hst hv => ?presents⟩, disposition_none, fun t v h => ?lines⟩⟩
  case waits => rw [presentation_front ho hr, if_neg hst]
  case presents => rw [presentation_front ho hr, if_pos hst, hv]; rfl
  case lines =>
    rw [disposition_some h]
    refine ⟨rfl, BitVec.toNat_setWidth 4 t, ?_⟩
    cases v <;> rfl

/-! ### The fault queue -/

/-- Settles O9: the two branches of `State.recordFault`, at the capacity of 8. -/
theorem faultJoinsQueueOrOverflow : Obligations.FaultJoinsQueueOrOverflow := by
  intro s f
  refine ⟨fun h => if_pos h, fun h => ⟨setInsert Cause.all f.cause s.faults.overflow,
    fun c => mem_setInsert (Cause.mem_all c) _ _, if_neg (Nat.not_lt.2 h)⟩, ?_⟩
  rw [flagActive_iff, levelFlag_faultPending]

theorem popReported_eq (f : FaultUnit) : f.popReported =
    ⟨f.queue, f.overflow.filter fun c => decide (c ∉ f.reported), []⟩ := by
  simp [FaultUnit.popReported]

section Popping

variable {s : State} {q : QueuedFault} {qs : List QueuedFault}

/-- FAULT_POP, row by row of R175. -/
theorem faultPop_read (hq : s.faults.queue = q :: qs) (h : .sta ∈ q.readers) :
    s.faultPop = ({ s with faults :=
      ⟨qs, s.faults.overflow.filter fun c => decide (c ∉ s.faults.reported), []⟩ },
      ⟨.done, []⟩) := by
  rw [State.faultPop, hq, popReported_eq]
  exact if_pos (List.contains_iff_mem.2 h)

theorem faultPop_unread (hq : s.faults.queue = q :: qs) (h : .sta ∉ q.readers) :
    s.faultPop = refuse .badState s := by
  rw [State.faultPop, hq]
  exact if_neg (mt List.contains_iff_mem.1 h)

theorem faultPop_reported (hq : s.faults.queue = []) (h : s.faults.reported ≠ []) :
    s.faultPop = ({ s with faults :=
      ⟨[], s.faults.overflow.filter fun c => decide (c ∉ s.faults.reported), []⟩ },
      ⟨.done, []⟩) := by
  rw [State.faultPop, popReported_eq, hq]
  exact if_neg (mt List.isEmpty_iff.1 h)

theorem faultPop_empty (hq : s.faults.queue = []) (h : s.faults.reported = []) :
    s.faultPop = refuse .empty s := by
  rw [State.faultPop, hq]
  exact if_pos (List.isEmpty_iff.2 h)

end Popping

theorem mayAsk_faultPop_false {p : Port} (h : p ≠ .sta) : mayAsk p 42 = false := decide_eq_false h

/-- Settles O40: the refusal of the other ports, and the four rows one by one. -/
theorem faultPopRemovesWhatWasRead : Obligations.FaultPopRemovesWhatWasRead := by
  intro s
  refine ⟨fun p hp hopen => ?refused, fun hopen => ⟨fun q qs hq h => ?read, fun q qs hq h => ?unread,
    fun hq h => ?reported, fun hq h => ?empty⟩, levelFlag_faultPending s .sta⟩
  case refused =>
    exact congrArg _ (serve_notPermitted s p .faultPop _ hopen (mayAsk_faultPop_false hp))
  case read => exact congrArg _ (serve_onArgs_does hopen rfl (faultPop_read hq h))
  case unread => exact congrArg _ (serve_onArgs_refuses hopen rfl (faultPop_unread hq h))
  case reported => exact congrArg _ (serve_onArgs_does hopen rfl (faultPop_reported hq h))
  case empty => exact congrArg _ (serve_onArgs_refuses hopen rfl (faultPop_empty hq h))

/-! ### ALERT_READ and ALERT_CLEAR -/

theorem alertPayload_eq (s : State) (p : Port) : s.alertPayload p =
    encSet (Decode.flagsOf p) ((Decode.flagsOf p).filter (s.flagActive p)) ++
      encSet Port.all (s.alert p).softSources ++ encSet (Decode.flagsOf p) (s.alert p).mask ++
      [if (s.alert p).enable then 0#8 else 1#8] ++ [if s.alertLine p then 0#8 else 1#8] := by
  simp only [State.alertPayload, encBool_eq]

theorem ofPort_iff (p : Port) (fs : List AlertFlag) :
    ofPort p fs = true ↔ ∀ f ∈ fs, f ∈ Decode.flagsOf p := by
  simp only [ofPort, List.all_eq_true, List.contains_iff_mem]

/-- A flag named that is not of the port fails the check of the flags. -/
theorem not_ofPort {p : Port} {fs : List AlertFlag} (h : ∃ f ∈ fs, f ∉ Decode.flagsOf p) :
    ¬ofPort p fs = true := by
  obtain ⟨f, hf, hnot⟩ := h
  exact fun hall => hnot ((ofPort_iff p fs).1 hall f hf)

theorem AlertState.mem_cleared (x : AlertState) (fs : List AlertFlag) (f : AlertFlag) :
    f ∈ x.cleared fs ↔ f ∈ fs ∧ f ∈ x.latched ∧ f ∈ x.seen := by
  simp only [AlertState.cleared, List.mem_filter, Bool.and_eq_true, List.contains_iff_mem]
  exact and_left_comm

theorem AlertState.mem_leftSet (x : AlertState) (fs : List AlertFlag) (f : AlertFlag) :
    f ∈ x.leftSet fs ↔ f ∈ fs ∧ f ∈ x.latched ∧ f ∉ x.seen := by
  simp only [AlertState.leftSet, List.mem_filter, Bool.and_eq_true, Bool.not_eq_true',
    List.contains_iff_mem, ← Bool.not_eq_true]
  exact and_left_comm

/-- A clear takes the flags it clears from the set flags and from the seen marks (R182). -/
theorem AlertState.mem_latched_clear (x : AlertState) (fs : List AlertFlag) (f : AlertFlag) :
    f ∈ (x.clear fs).latched ↔ f ∈ x.latched ∧ f ∉ x.cleared fs := by
  simp only [AlertState.clear, List.mem_filter, Bool.not_eq_true', List.contains_iff_mem,
    ← Bool.not_eq_true]

theorem AlertState.mem_seen_clear (x : AlertState) (fs : List AlertFlag) (f : AlertFlag) :
    f ∈ (x.clear fs).seen ↔ f ∈ x.seen ∧ f ∉ x.cleared fs := by
  simp only [AlertState.clear, List.mem_filter, Bool.not_eq_true', List.contains_iff_mem,
    ← Bool.not_eq_true]

theorem AlertState.softSources_clear (x : AlertState) (fs : List AlertFlag) :
    (x.clear fs).softSources = if .soft ∈ x.cleared fs then [] else x.softSources :=
  if_congr List.contains_iff_mem rfl rfl

theorem alertClear_badValue {s : State} {p : Port} {fs : List AlertFlag}
    (h : ∃ f ∈ fs, f ∉ Decode.flagsOf p) : s.alertClear p fs = refuse .badValue s :=
  if_neg (not_ofPort h)

theorem alertClear_clears {s : State} {p : Port} {fs : List AlertFlag}
    (h : ∀ f ∈ fs, f ∈ Decode.flagsOf p) : s.alertClear p fs =
      (s.setAlert p ((s.alert p).clear fs),
        ⟨.done, encSet (Decode.flagsOf p) ((s.alert p).cleared fs) ++
          encSet (Decode.flagsOf p) ((s.alert p).leftSet fs)⟩) :=
  if_pos ((ofPort_iff p fs).2 h)

/-- ALERT_READ on an open port. -/
theorem exec_alertRead {s : State} {p : Port} (hopen : s.open_ p) :
    exec (.alertRead p (some ())) s = .next (State.answers
      (s.setAlert p { s.alert p with seen := (s.alert p).latched }) p .done 4
      (s.alertPayload p)) :=
  congrArg _ (serve_onArgs_does hopen rfl rfl)

/-- Settles O41: the read's payload, and the two branches of the clear with what each of its sets holds. -/
theorem alertsAreReadThenCleared : Obligations.AlertsAreReadThenCleared := by
  intro s p hopen
  refine ⟨?read, fun fs => ⟨fun h => ?badValue, fun h => ?clears⟩⟩
  case read =>
    rw [exec_alertRead hopen, alertPayload_eq]
    rfl
  case badValue => exact congrArg _ (serve_onArgs_refuses hopen rfl (alertClear_badValue h))
  case clears =>
    exact ⟨_, _, _, congrArg _ (serve_onArgs_does hopen rfl (alertClear_clears h)),
      (s.alert p).mem_cleared fs, (s.alert p).mem_leftSet fs, (s.alert p).mem_latched_clear fs,
      (s.alert p).mem_seen_clear fs, rfl, rfl, (s.alert p).softSources_clear fs⟩

/-! ### ALERT_MASK_SET and SOFT_ALERT -/

/-- The mask a port keeps of the flags named: those in the order of its own (R180). -/
def maskOf (p : Port) (fs : List AlertFlag) : List AlertFlag :=
  (Decode.flagsOf p).filter fs.contains

theorem mem_maskOf {p : Port} {fs : List AlertFlag} (h : ∀ f ∈ fs, f ∈ Decode.flagsOf p)
    (f : AlertFlag) : f ∈ maskOf p fs ↔ f ∈ fs := by
  rw [maskOf, List.mem_filter, List.contains_iff_mem]
  exact and_iff_right_of_imp (h f)

theorem alertMaskSet_badValue {s : State} {p : Port} {a : MaskArgs}
    (h : ∃ f ∈ a.flags, f ∉ Decode.flagsOf p) : s.alertMaskSet p a = refuse .badValue s :=
  if_neg (not_ofPort h)

theorem alertMaskSet_sets {s : State} {p : Port} {a : MaskArgs}
    (h : ∀ f ∈ a.flags, f ∈ Decode.flagsOf p) : s.alertMaskSet p a =
      (s.setAlert p { s.alert p with mask := maskOf p a.flags, enable := a.enable },
        ⟨.done, []⟩) :=
  if_pos ((ofPort_iff p a.flags).2 h)

/-- Settles O42: the two branches of the check that every flag named is the port's. -/
theorem alertMaskSetOnOwnPort : Obligations.AlertMaskSetOnOwnPort := by
  intro s p a hopen
  refine ⟨fun h => ?badValue, fun h => ⟨_, mem_maskOf h, ?sets⟩⟩
  case badValue => exact congrArg _ (serve_onArgs_refuses hopen rfl (alertMaskSet_badValue h))
  case sets => exact congrArg _ (serve_onArgs_does hopen rfl (alertMaskSet_sets h))

/-- What a SOFT_ALERT of port `p` makes of its target's alerts (R183). -/
def AlertState.softAlerted (x : AlertState) (p : Port) : AlertState :=
  { x.raised .soft with softSources := setInsert Port.all p x.softSources }

theorem softAlert_eq (s : State) (p t : Port) :
    s.softAlert p t = (s.setAlert t ((s.alert t).softAlerted p), ⟨.done, []⟩) := by
  simp [State.softAlert, raise_eq, AlertState.softAlerted, AlertState.raised, State.setAlert,
    State.alert]

/-- Settles O43: the object names no port, or the port `t` whose alerts become `AlertState.softAlerted`. -/
theorem softAlertRaisesOnTheTarget : Obligations.SoftAlertRaisesOnTheTarget := by
  intro s p o hopen
  refine ⟨fun ho => ?noPort, fun t ht => ⟨(s.alert t).softAlerted p,
    congrArg _ (serve_does hopen rfl ht (softAlert_eq s p t)),
    (s.alert t).mem_latched_raised .soft, (s.alert t).mem_seen_raised .soft,
    fun q => mem_setInsert_port p q (s.alert t).softSources, rfl, rfl⟩⟩
  case noPort => exact congrArg _ (serve_noObject hopen rfl ((Port.ofObject_none o).2 ho) _)

end Sys2Proof.Machine
end

section
/-! Proofs of the statements about ports, access, frames and mailboxes
(10_ports_access_frames_mailboxes_and_formats.md). -/

namespace Sys2Proof.Machine

open Sys2Proof

/-! ### Objects in range -/

theorem inRange_eq_isSome {α : Type} {P : Prop} [Decidable P] {x : Option α} (h : x = none ↔ ¬P) :
    decide P = x.isSome := by
  rw [Bool.eq_iff_iff, decide_eq_true_iff, Option.isSome_iff_ne_none]
  exact not_not.symm.trans (not_congr h.symm)

/-- An object that is a number below `k` (R190). -/
theorem below_eq_isSome {α : Type} {n k : Nat} {x : Option α} (h : x = none ↔ k ≤ n) :
    decide (n < k) = x.isSome :=
  inRange_eq_isSome (h.trans Nat.not_lt.symm)

/-- From STA the object names one of the six other ports; from another port it is not read (R191). -/
theorem mailTarget_isSome (p : Port) (o : Byte) :
    (decide (p ≠ .sta) || decide (1 ≤ o.toNat ∧ o.toNat < 7)) = (mailTarget p o).isSome := by
  cases p with
  | sta => exact inRange_eq_isSome (Outer.ofObject_none o)
  | _ => rfl

/-! ### What a request command is -/

/-- What a failed check of presence was about is absent. -/
theorem eq_none_of_isSome {α : Type} {b : Bool} {x : Option α} (hb : b = x.isSome) (h : b = false) :
    x = none :=
  Option.isNone_iff_eq_none.1 (Option.isSome_eq_false_iff.1 (hb.symm.trans h))

/-- The command `c` is the request `q` served on port `p` with the effect `act`, which refuses first an
object out of range and next, where `q` is permitted, a payload that does not suit it (R186). -/
structure ServedAs (c : Instr) (p : Port) (q : Request) (act : State → State × Reply) : Prop where
  exec_eq : ∀ s, exec c s = .next (s.serve p q act)
  badObject : c.objectInRange = false → ∀ s, act s = refuse .badObject s
  badValue : permitted p q = true → c.objectInRange = true → c.payloadSuits = false →
    ∀ s, act s = refuse .badValue s

section Shapes

variable {α β : Type} {c : Instr} {p : Port} {q : Request} {args : Option β}

/-- A request that names an object. -/
theorem ServedAs.onObject {obj : Option α} {act : α → β → State → State × Reply}
    (hexec : ∀ s, exec c s = .next (s.serve p q (onObject obj args act)))
    (hobj : c.objectInRange = obj.isSome) (hargs : c.payloadSuits = args.isSome) :
    ServedAs c p q (onObject obj args act) where
  exec_eq := hexec
  badObject h s := by
    rw [eq_none_of_isSome hobj h]
    rfl
  badValue _ ho h s := by
    obtain ⟨x, rfl⟩ := Option.isSome_iff_exists.1 (hobj.symm.trans ho)
    rw [eq_none_of_isSome hargs h]
    rfl

/-- A request that names none. -/
theorem ServedAs.onArgs {act : β → State → State × Reply}
    (hexec : ∀ s, exec c s = .next (s.serve p q (onArgs args act)))
    (hobj : c.objectInRange = true) (hargs : c.payloadSuits = args.isSome) :
    ServedAs c p q (onArgs args act) where
  exec_eq := hexec
  badObject h := nomatch hobj.symm.trans h
  badValue _ _ h s := by
    rw [eq_none_of_isSome hargs h]
    rfl

/-- A request for the port's own Head Link, permitted on the ports that have one. -/
theorem ServedAs.onHead {act : HeadId → β → State → State × Reply}
    (hexec : ∀ s, exec c s = .next (s.serve p q (onHead p args act)))
    (hport : permitted p q = true → ∃ n, p = .hl n)
    (hobj : c.objectInRange = true) (hargs : c.payloadSuits = args.isSome) :
    ServedAs c p q (onHead p args act) where
  exec_eq := hexec
  badObject h := nomatch hobj.symm.trans h
  badValue hp _ h s := by
    obtain ⟨n, rfl⟩ := hport hp
    rw [eq_none_of_isSome hargs h]
    rfl

end Shapes

/-- TRIGGER_TAKE and RESULT_PUT are permitted on the head ports only (R189). -/
theorem isHead_of_permitted {p : Port} {q : Request} (hq : q = .triggerTake ∨ q = .resultPut)
    (hp : permitted p q = true) : ∃ n, p = .hl n := by
  cases p with
  | hl n => exact ⟨n, rfl⟩
  | _ => rcases hq with rfl | rfl <;> exact nomatch hp

/-- Every request of R189 but NOP is served as the request of its code. -/
theorem servedAs_of_asks {c : Instr} {p : Port} {code : Nat} (h : c.asks = some (p, code)) :
    ∃ q act, code = Request.all.idxOf q + 1 ∧ ServedAs c p q act := by
  cases c with
  | boardRead _ o _ =>
    cases h
    exact ⟨_, _, rfl, .onObject (fun _ => rfl) (below_eq_isSome (finOf_none 24 o.toNat)) rfl⟩
  | softAlert _ o _ =>
    cases h
    exact ⟨_, _, rfl, .onObject (fun _ => rfl) (below_eq_isSome (Port.ofObject_none o)) rfl⟩
  | mailPut _ o _ | mailTake _ o _ =>
    cases h
    exact ⟨_, _, rfl, .onObject (fun _ => rfl) (mailTarget_isSome p o) rfl⟩
  | announce _ o _ | lanePurge _ o _ | counterRead _ o _ | dispRead _ o _
  | announceThresholdSet _ o _ | counterSet _ o _ | tunnelSet _ o _ | tunnelRead _ o _ =>
    cases h
    exact ⟨_, _, rfl, .onObject (fun _ => rfl) (below_eq_isSome (Lane.ofObject_none o)) rfl⟩
  | directorySet _ o _ | directoryRead _ o _ | regionSet _ o _ =>
    cases h
    exact ⟨_, _, rfl, .onObject (fun _ => rfl) (below_eq_isSome (finOf_none 16 o.toNat)) rfl⟩
  | cacheTagRead _ o _ =>
    cases h
    exact ⟨_, _, rfl, .onObject (fun _ => rfl) (below_eq_isSome (finOf_none 128 o.toNat)) rfl⟩
  | cacheInvalidate _ o _ =>
    cases h
    exact ⟨_, _, rfl, .onObject (fun _ => rfl) (inRange_eq_isSome (lineOrAll_none o)) rfl⟩
  | resultHoldSet _ o _ | headFlush _ o _ | headLinkRead _ o _ =>
    cases h
    exact ⟨_, _, rfl, .onObject (fun _ => rfl) (below_eq_isSome (Head.ofObject_none o)) rfl⟩
  | ringSet _ o _ | logConsumed _ o _ | logBlockSet _ o _ | channelRead _ o _ =>
    cases h
    exact ⟨_, _, rfl, .onObject (fun _ => rfl) (below_eq_isSome (Channel.ofObject_none o)) rfl⟩
  | watchSet _ o _ | watchRead _ o _ | watchClear _ o _ =>
    cases h
    exact ⟨_, _, rfl, .onObject (fun _ => rfl) (below_eq_isSome (WatchId.ofObject_none o)) rfl⟩
  | faultRead | alertRead | alertClear | alertMaskSet | progRead | trackReset | regionRead
  | progWrite | cacheIsolate | cacheRelease | mergeStatusRead | faultPop =>
    cases h
    exact ⟨_, _, rfl, .onArgs (fun _ => rfl) rfl rfl⟩
  | triggerTake =>
    cases h
    exact ⟨_, _, rfl, .onHead (fun _ => rfl) (isHead_of_permitted (.inl rfl)) rfl rfl⟩
  | resultPut =>
    cases h
    exact ⟨_, _, rfl, .onHead (fun _ => rfl) (isHead_of_permitted (.inr rfl)) rfl rfl⟩
  | _ => exact nomatch h

/-! ### Refusals -/

/-- A permitted request on an open port whose effect is a refusal changes only the response. -/
theorem serve_refusal {s : State} {p : Port} {q : Request} {act : State → State × Reply} {st : Status}
    (h : s.open_ p) (hp : permitted p q = true) (hr : act s = refuse st s) :
    s.serve p q act = s.answers p st (Request.all.idxOf q + 1) [] := by
  rw [serve_answers s p q act h hp, hr]
  rfl

/-- Settles O7: the permission is checked by `State.serve`, then the object and the payload by the effect it
serves (`ServedAs`). -/
theorem refusalsChangeOnlyTheResponse : Obligations.RefusalsChangeOnlyTheResponse := by
  intro s c p code hasks hopen
  obtain ⟨q, act, rfl, hc⟩ := servedAs_of_asks hasks
  rw [hc.exec_eq, ← permitted_eq_mayAsk]
  refine ⟨fun hp => ?permission, fun hp ho => ?object, fun hp ho ha => ?payload⟩
  case permission => exact congrArg _ (serve_refused s p q act hopen hp)
  case object => exact congrArg _ (serve_refusal hopen hp (hc.badObject ho s))
  case payload => exact congrArg _ (serve_refusal hopen hp (hc.badValue hp ho ha s))

/-! ### Transactions without a request -/

theorem exec_asks_pending {s : State} {c : Instr} {p : Port} {code : Nat}
    (hasks : c.asks = some (p, code)) (h : (s.port p).pending ≠ none) : exec c s = .next s := by
  obtain ⟨q, act, -, hc⟩ := servedAs_of_asks hasks
  rw [hc.exec_eq, serve_pending s p q act (Option.isSome_iff_ne_none.2 h)]

theorem frameRejected_pending {s : State} {p : Port} (h : (s.port p).pending ≠ none)
    (bytes : List Byte) : s.frameRejected p bytes = s := by
  cases bytes with
  | nil => rfl
  | cons code rest => exact if_pos (.inl (Option.isSome_iff_ne_none.2 h))

theorem frameRejected_open {s : State} {p : Port} {code : Byte} {rest : List Byte} (h : s.open_ p)
    (hbad : Decode.frameOk (code :: rest) = false) :
    s.frameRejected p (code :: rest) = s.answers p .badFrame code.toNat [] := by
  have hpass : ¬((s.port p).pending.isSome ∨ Decode.frameOk (code :: rest)) := by
    rw [h, hbad]
    simp
  rw [State.answers, BitVec.ofNat_toNat, BitVec.setWidth_eq]
  exact if_neg hpass

/-- Settles O6: the frames with no request to take, a pending port, and a frame that fails its checks on
an open one. -/
theorem transactionsWithoutARequest : Obligations.TransactionsWithoutARequest := by
  intro s p
  refine ⟨rfl, rfl, rfl, fun h => ⟨fun c code hasks => ?request, fun bytes => ?frame⟩,
    fun hopen code rest hbad => ?bad⟩
  case request => exact exec_asks_pending hasks h
  case frame => exact congrArg _ (frameRejected_pending h bytes)
  case bad => exact congrArg _ (frameRejected_open hopen hbad)

/-! ### Mailboxes -/

/-- The mailbox pair a request is about, from STA by its object and from another port by the port (R191). -/
theorem mailTarget_eq {p : Port} {obj : Byte} {o : Outer}
    (h : p = .sta ∧ Port.all[obj.toNat]? = some o.port ∨ p = o.port) : mailTarget p obj = some o := by
  rcases h with ⟨rfl, hobj⟩ | rfl
  · rw [mailTarget, Outer.ofObject, Port.ofObject, hobj]
    exact Outer.outer?_port o
  · cases o <;> rfl

section Mail

variable {s : State} {p : Port} {o : Outer} {msg : List Byte}

/-- MAIL_PUT (R191), by the length of its message and the slot it goes into. -/
theorem mailPut_badValue (h : msg.length < 1 ∨ 16 < msg.length) :
    s.mailPut p o msg = refuse .badValue s :=
  if_pos h

theorem mailPut_full (h1 : 1 ≤ msg.length) (h16 : msg.length ≤ 16)
    (h : (s.mailPair o).into p ≠ none) : s.mailPut p o msg = refuse .full s := by
  obtain ⟨x, hx⟩ := Option.ne_none_iff_exists'.1 h
  rw [State.mailPut, if_neg (by omega), hx]

theorem mailPut_joins (h1 : 1 ≤ msg.length) (h16 : msg.length ≤ 16)
    (h : (s.mailPair o).into p = none) :
    s.mailPut p o msg = (s.setMail o ((s.mailPair o).put p (some msg)), ⟨.done, []⟩) := by
  rw [State.mailPut, if_neg (by omega), h]

/-- MAIL_TAKE (R192), by the slot it takes from. -/
theorem mailTake_full (h : (s.mailPair o).outOf p = some msg) :
    s.mailTake p o = (s.setMail o ((s.mailPair o).empty p),
      ⟨.done, le 1 msg.length ++ msg ++ (s.setMail o ((s.mailPair o).empty p)).upSet p⟩) := by
  rw [← encList_bytes, State.mailTake, h]

theorem mailTake_empty (h : (s.mailPair o).outOf p = none) :
    s.mailTake p o = (s, ⟨.empty, s.upSet p⟩) := by
  rw [State.mailTake, h]

/-- A MAIL_TAKE that finds no message still reports the up slots: its refusal carries a payload. -/
theorem exec_mailTake_empty {obj : Byte} (hopen : s.open_ p) (ho : mailTarget p obj = some o)
    (h : (s.mailPair o).outOf p = none) :
    exec (.mailTake p obj (some ())) s = .next (s.answers p .empty 9 (s.upSet p)) := by
  refine congrArg Host.Outcome.next ((serve_onObject hopen rfl ho ()).trans ?_)
  rw [mailTake_empty h]
  rfl

end Mail

/-- Settles O44: the pair named by the object or the port, then the branches of the put and of the take. -/
theorem mailIsPutAndTaken : Obligations.MailIsPutAndTaken := by
  intro s p obj o hopen htarget
  have ho : mailTarget p obj = some o := mailTarget_eq htarget
  refine ⟨fun msg h => ?badValue, fun msg h1 h16 => ⟨fun h => ?full, fun h => ?joins⟩,
    fun msg h => ?takes, fun h => ?nothing⟩
  case badValue => exact congrArg _ (serve_refuses hopen rfl ho (mailPut_badValue h))
  case full => exact congrArg _ (serve_refuses hopen rfl ho (mailPut_full h1 h16 h))
  case joins => exact congrArg _ (serve_does hopen rfl ho (mailPut_joins h1 h16 h))
  case takes => exact congrArg _ (serve_does hopen rfl ho (mailTake_full h))
  case nothing => exact exec_mailTake_empty hopen ho h

end Sys2Proof.Machine
end

section
/-! PROOF. What a step does with a queue that holds a command: the companion of `step_empty`, which says what it
does with an empty one. -/

namespace Sys2Proof.Machine

open Sys2Proof

/-- With a command at the front of the queue, a step is that command's meaning on the state with the queue's rest
(log entry 7). -/
theorem step_cons {s : State} {c : Instr} {cs : List Instr} (h : s.pending = c :: cs) :
    step s = exec c { s with pending := cs } := by
  unfold step
  rw [h]

/-- Settles O1: setting the queue twice leaves the second queue, so the step's state is `s` with the rest. -/
theorem stepRunsFrontCommand : Obligations.StepRunsFrontCommand := by
  intro c cs s
  have hfront : { s with pending := c :: cs }.pending = c :: cs := rfl
  exact step_cons hfront

end Sys2Proof.Machine
end
